-- ==== Sys2Proof/Word.lean ====
section
/-! DEFINITION. The plain words of the node: line bits, local counts, masks, tune tags. -/

namespace Sys2Proof

/-- The local tick count: 32 bits, wrapping (R65). -/
abbrev LocalCount := BitVec 32

/-- One flag for each channel position 0 to 7 (bit k is channel k). -/
abbrev ChannelMask := BitVec 8

/-- One flag for each tower bell (bit b - 1 is bell b). -/
abbrev BellMask := BitVec 64

/-- The lowest 24 bits of a tune id, as CLAIM and FLOOR carry them (R103). -/
abbrev TuneTag := BitVec 24

/-- The bits of a frame's payload in the order in which the line carries them:
element n is bit n of the layout tables (R85). -/
abbrev Payload := List Bool

end Sys2Proof
end

