-- ==== Sys2Proof/Config.lean ====
section
/-! DEFINITION. The fixed numbers of the node, and the values the manual leaves open. -/

namespace Sys2Proof.Config

/-- W, one week in ticks (R63). -/
def week : Nat := 2419200000
/-- Half a week, the fold of the signed difference (R64). -/
def halfWeek : Nat := 1209600000
/-- Ticks in a day (R63). -/
def day : Nat := 345600000
/-- Ticks in a minute (R63). -/
def minute : Nat := 240000
/-- Most charge units the bank holds (R23). -/
def bankFull : Nat := 60000
/-- Entries of the strike queue (R39). -/
def queueSize : Nat := 96
/-- Frames of the transmit queue (R91). -/
def txSize : Nat := 8
/-- Records of the strike trace (R188). -/
def traceSize : Nat := 64
/-- Events of the loaded event pool (R149). -/
def poolSize : Nat := 6144
/-- Highest value of a counter (R57). -/
def counterMax : Nat := 65535
/-- Admission horizon (R43). -/
def horizon : Nat := 40000
/-- Listen period after a start (R187). -/
def listenTicks : Nat := 6000
/-- Presence interval (R96). -/
def presenceTicks : Nat := 2000
/-- Peer lapse (R98). -/
def lapseTicks : Nat := 6000
/-- Peer absence (R98), and the end of STATION_CLASH (R95). -/
def absenceTicks : Nat := 120000
/-- Duration of LINE_FAULT (R94). -/
def faultTicks : Nat := 8000
/-- Consecutive transmit errors that begin LINE_FAULT (R94). -/
def faultErrors : Nat := 16
/-- Window of receive errors (R89). -/
def errorWindow : Nat := 4000
/-- Receive errors within the window that do not yet assert CHECK_ERRORS (R89). -/
def errorLimit : Nat := 8
/-- Duration of TIME_STEP (R67). -/
def stepTicks : Nat := 8000
/-- Local ticks after which a node without marks leaves SOURCED (R76). -/
def sourcedTicks : Nat := 280000
/-- A mark closer than this to the last accepted one is rejected (R75). -/
def markGuard : Nat := 200000
/-- Floor lapse (R113). -/
def floorLapseTicks : Nat := 14000
/-- Floor beacon interval (R136). -/
def floorBeaconTicks : Nat := 4000
/-- Two starts within this of each other belong to one claim (R105). -/
def duplicateTicks : Nat := 8000
/-- Lead of the cut-off and of the ensemble gate before a start (R107, R129). -/
def gateLead : Nat := 4000
/-- Least lead of a cue, step of the gate, and ring-out (R127, R129, R137, R165). -/
def cueLead : Nat := 8000
/-- An event no further ahead than this is late for its order (R134). -/
def lateSend : Nat := 1000
/-- Largest offset of an order in its frame (R133). -/
def packSpan : Nat := 255
/-- Furthest ahead a console cue may start (R166). -/
def cueHorizon : Nat := 120000

/-- FREE VALUE (notes/assumptions/15.md). The number of parts that follow part 0 of a STATUS reply: the
manual names the number (R184) and gives no value. Nothing is known of it; it is applied to
State's counter `free`, so that every STATUS has a fresh one. -/
opaque statusParts : Nat → BitVec 8

/-- FREE VALUE (notes/assumptions/15.md). Where in a STATUS reply a group ends: the manual gives the order of the
groups (R184) and not their places in the parts. The first argument is that of `statusParts`, the second the group. -/
opaque statusEnd : Nat → Nat → BitVec 8

/-- FREE VALUE (notes/assumptions/15.md). The bytes of a later part of a STATUS reply, which the manual does not lay
out (05 REPLY bodies). The first argument is that of `statusParts`, the second the part. -/
opaque statusBytes : Nat → Nat → List (BitVec 8)

end Sys2Proof.Config
end

