-- ==== Sys2Proof/Syntax.lean ====
section
/-! DEFINITION. The commands of the node: one constructor of `Instr` for each row of
spec/opcode_table.json, with the fields each command carries. -/

namespace Sys2Proof

/-- Validity of tower time (R83). -/
inductive Validity where
  | unset
  | set
  deriving DecidableEq, Repr

/-- Lock state (R68). -/
inductive LockState where
  | reference
  | sourced
  | acquiring
  | locked
  deriving DecidableEq, Repr

/-- Drive state (R28). -/
inductive DriveState where
  | off
  | charging
  | ready
  | draining
  deriving DecidableEq, Repr

/-- Silence state (R171). -/
inductive SilenceState where
  | voiced
  | fading
  | silent
  | holding
  deriving DecidableEq, Repr

/-- Priority of a performance on the line (00_scope, Quantities). Priority 0 does not appear there. -/
inductive Priority where
  | low
  | melody
  | hour
  deriving DecidableEq, Repr

/-- The number of a priority: 1 LOW, 2 MELODY, 3 HOUR. -/
def Priority.level : Priority → Nat
  | .low => 1
  | .melody => 2
  | .hour => 3

/-- Ensemble rule of a tune (R128). -/
inductive Ensemble where
  | all
  | any
  deriving DecidableEq, Repr

/-- Reason carried by a RELEASE (R138). -/
inductive ReleaseReason where
  | ended
  | preempted
  | abandoned
  | contested
  deriving DecidableEq, Repr

/-- A performance id: station and sequence (00_scope, Numbering). -/
structure PerfId where
  station : Fin 16
  seq : BitVec 8
  deriving DecidableEq, Repr

/-- The two stamps of an edge: the node's tower time and its local count there (R88, R75). -/
structure Stamp where
  tower : BitVec 32
  count : LocalCount
  deriving DecidableEq, Repr

/-- The straps (00_scope; R1, R75, R84). `bellBase` and `channelCount` are the strap values, each one
less than the number they stand for. -/
structure Straps where
  station : Fin 16
  fastLine : Bool
  bellBase : BitVec 6
  channelCount : BitVec 3
  timeSource : Bool
  deriving DecidableEq, Repr

/-- The debounced levels of the contact and fault inputs (R26, R34, R35, R165, R169). -/
structure Pins where
  access : Bool
  chargerFault : Bool
  coilHot : Bool
  feedback : Bool
  contact1 : Bool
  contact2 : Bool
  deriving DecidableEq, Repr

/-- What comes with every good frame that another station sent: sender and stamps (R88, R90). -/
structure Heard where
  sender : Fin 16
  stamp : Stamp
  deriving DecidableEq, Repr

/-- What comes with every good SERVICE frame: sender, stamps, target and tag (R181). -/
structure Service where
  heard : Heard
  target : BitVec 5
  tag : BitVec 6
  deriving DecidableEq, Repr

/-- The fields of a node's PRESENCE (R96; 05 Frame layouts). `bellBase` and `count` are carried as one
less than the bell base and the number of present channels. -/
structure NodeBeacon where
  validity : Validity
  lock : LockState
  drive : DriveState
  silence : SilenceState
  tower : BitVec 32
  playable : ChannelMask
  bellBase : BitVec 6
  count : BitVec 3
  holder : Option PerfId
  deriving DecidableEq, Repr

/-- A PRESENCE: of a console nothing but its kind is read (R96). -/
inductive Beacon where
  | console
  | node (b : NodeBeacon)
  deriving DecidableEq, Repr

/-- The content CLAIM and FLOOR share (05 Frame layouts). -/
structure FloorBody where
  seq : BitVec 8
  tag : TuneTag
  start : BitVec 32
  mask : BellMask
  deriving DecidableEq, Repr

/-- One order of an ORDER frame (05 Frame layouts): bell minus 1, velocity, offset, duration in
16-tick units. -/
structure OrderItem where
  bell : BitVec 6
  velocity : BitVec 4
  offset : BitVec 8
  duration : BitVec 10
  deriving DecidableEq, Repr

/-- The fields of CAL_SET's entry (R164). -/
structure CalFields where
  enabled : Bool
  days : BitVec 7
  hours : BitVec 24
  minute : BitVec 8
  slot : BitVec 8
  priority : BitVec 2
  deriving DecidableEq, Repr

/-- The fields of QUIET_SET's window (R164). -/
structure QuietFields where
  days : BitVec 7
  start : BitVec 16
  stop : BitVec 16
  level : BitVec 8
  deriving DecidableEq, Repr

/-- The header fields of LOAD_BEGIN (R147). -/
structure LoadFields where
  tuneId : BitVec 32
  priority : BitVec 2
  rule : Ensemble
  retry : Bool
  tempo : BitVec 16
  count : BitVec 16
  deriving DecidableEq, Repr

/-- One event as LOAD_DATA carries it; bell 0 is a REST (R148). -/
structure LoadEvent where
  delta : BitVec 8
  bell : BitVec 8
  velocity : BitVec 8
  duration : BitVec 8
  deriving DecidableEq, Repr

/-- The fields of VOICE_SET TIMING (R7). -/
structure TimingFields where
  f1 : BitVec 16
  f15 : BitVec 16
  back : BitVec 16
  damped : Bool
  lead : BitVec 16
  coil : BitVec 8
  deriving DecidableEq, Repr

/-- The commands: one constructor for each row of spec/opcode_table.json, in the table's order. -/
inductive Instr where
  | powerOn (straps : Straps) (pins : Pins)
  | listenEnd
  | localTick (feedback : Bool)
  | frameOffer
  | arbitrationLoss (cell : Fin 11)
  | txCompleted (acked : Bool)
  | txAbandoned
  | lineFaultEnd
  | receiveError
  | checkErrorsClear
  | unknownFrame (ident : BitVec 11) (payload : Payload)
  | presenceBuild
  | presence (rx : Heard) (body : Beacon)
  | stationClashEnd
  | peerLapse (p : Fin 16)
  | peerAbsence (p : Fin 16)
  | order (rx : Heard) (seq : BitVec 8) (base : BitVec 32) (items : List OrderItem)
  | launchEvent
  | pulseEnd (k : Fin 8)
  | flightEnd (k : Fin 8)
  | returnEnd (k : Fin 8)
  | lift (k : Fin 8)
  | drop (k : Fin 8)
  | drainStart
  | accessActive
  | accessRelease
  | chargerFaultActive
  | chargerFaultClear
  | coilHotAssert
  | coilHotClear
  | minuteMark (stamp : Stamp)
  | sourcedExit
  | timeStepEnd
  | holdExpiry
  | claim (rx : Heard) (priority : Priority) (body : FloorBody)
  | floor (rx : Heard) (priority : Priority) (body : FloorBody)
  | release (rx : Heard) (seq : BitVec 8) (reason : ReleaseReason)
  | lapse
  | claimHandoff (k : Fin 4)
  | waitDeadline (k : Fin 4)
  | ensembleGate (k : Fin 4)
  | orderBuild (k : Fin 4)
  | floorBeaconDue (k : Fin 4)
  | performanceEnd (k : Fin 4)
  | prerollPoint
  | contactPress (c : Fin 2)
  | storeComplete
  | storeFailure
  | replyPart
  | unknownCommand (h : Service) (command : BitVec 5) (body : Payload)
  | setTime (h : Service) (time : BitVec 32)
  | cue (h : Service) (slot : BitVec 8) (priority : BitVec 8) (start : BitVec 32)
  | stopPerformance (h : Service) (perf : PerfId)
  | stopFloor (h : Service)
  | resume (h : Service)
  | wake (h : Service)
  | channelSet (h : Service) (mask : ChannelMask)
  | channelMerge (h : Service) (mask : ChannelMask)
  | channelClear (h : Service) (mask : ChannelMask)
  | channelPulse (h : Service) (mask : ChannelMask) (velocity : BitVec 8)
  | voiceSetPulseLow (h : Service) (k : Fin 8) (widths : Vector (BitVec 8) 8)
  | voiceSetPulseHigh (h : Service) (k : Fin 8) (widths : Vector (BitVec 8) 7)
  | voiceSetTiming (h : Service) (k : Fin 8) (fields : TimingFields)
  | calSet (h : Service) (entry : BitVec 8) (fields : CalFields)
  | calClear (h : Service) (entry : BitVec 5)
  | quietSet (h : Service) (window : BitVec 8) (fields : QuietFields)
  | nodeSet (h : Service) (pairs : List (BitVec 8 × BitVec 24))
  | maskSet (h : Service) (mask : BitVec 8)
  | loadBegin (h : Service) (slot : BitVec 8) (fields : LoadFields)
  | loadData (h : Service) (slot : BitVec 8) (index : BitVec 16) (events : List LoadEvent)
  | loadEnd (h : Service) (slot : BitVec 8) (checksum : BitVec 16)
  | delete (h : Service) (slot : BitVec 8)
  | overlay (h : Service) (on : Bool)
  | store (h : Service)
  | restart (h : Service)
  | status (h : Service)
  | trace (h : Service)
  | traceRelease (h : Service)
  | countersClear (h : Service)
  | powerLost
  | playContactInactive (c : Fin 2)
  deriving DecidableEq, Repr

end Sys2Proof
end

