-- ==== Sys2Proof/Decode.lean ====
section
/-! DEFINITION. Reading commands from bits. The opcode table gives no row any bits, so
`decodeTableWord` reads none. The tower line's frames have layouts of their own (R85, R86 and 05 Frame
layouts, SERVICE bodies): `decodeFrame` reads the command a good frame brings, and `encodeFrame`
writes the frame of a command. Bit numbers below are those of the layout tables. -/

namespace Sys2Proof

/-- The command a word of the opcode table spells: no row of this table has bits. -/
def decodeTableWord (_nbits _w : Nat) : Option Instr := none

/-! ### Fields of a payload -/

/-- The number some bits spell, most significant first (05 Frame layouts). -/
def natOfBits (bits : List Bool) : Nat := bits.foldl (fun n b => 2 * n + b.toNat) 0

/-- The field of `w` bits from bit `lo` on, most significant bit first. -/
def readField (w : Nat) (p : Payload) (lo : Nat) : BitVec w :=
  BitVec.ofNat w (natOfBits ((p.drop lo).take w))

/-- A set of `w` flags from bit `lo` on: flag 0 is bit `lo`. -/
def readFlags (w : Nat) (p : Payload) (lo : Nat) : BitVec w :=
  BitVec.ofNat w (natOfBits ((p.drop lo).take w).reverse)

/-- One bit of a payload. -/
def readBit (p : Payload) (lo : Nat) : Bool := p.getD lo false

/-- A field of `w` bits as the line carries it, most significant bit first. -/
def putField {w : Nat} (x : BitVec w) : List Bool :=
  (List.range w).map fun i => x.getLsbD (w - 1 - i)

/-- A set of flags as the line carries it, flag 0 first. -/
def putFlags {w : Nat} (x : BitVec w) : List Bool :=
  (List.range w).map fun i => x.getLsbD i

/-- Fill bits are sent as 0 and not read. -/
def fill (n : Nat) : List Bool := List.replicate n false

/-! ### The two-bit and three-bit codes -/

/-- The validity a bit stands for. -/
def validityOf (b : Bool) : Validity := if b then .set else .unset
/-- The bit of a validity. -/
def validityBit : Validity → Bool
  | .unset => false
  | .set => true

/-- The lock state a code stands for. -/
def lockOf (c : BitVec 2) : LockState :=
  if c = 0#2 then .reference else if c = 1#2 then .sourced else if c = 2#2 then .acquiring else .locked
/-- The code of a lock state. -/
def lockCode : LockState → BitVec 2
  | .reference => 0#2
  | .sourced => 1#2
  | .acquiring => 2#2
  | .locked => 3#2

/-- The drive state a code stands for. -/
def driveOf (c : BitVec 2) : DriveState :=
  if c = 0#2 then .off else if c = 1#2 then .charging else if c = 2#2 then .ready else .draining
/-- The code of a drive state. -/
def driveCode : DriveState → BitVec 2
  | .off => 0#2
  | .charging => 1#2
  | .ready => 2#2
  | .draining => 3#2

/-- The silence state a code stands for. -/
def silenceOf (c : BitVec 2) : SilenceState :=
  if c = 0#2 then .voiced else if c = 1#2 then .fading else if c = 2#2 then .silent else .holding
/-- The code of a silence state. -/
def silenceCode : SilenceState → BitVec 2
  | .voiced => 0#2
  | .fading => 1#2
  | .silent => 2#2
  | .holding => 3#2

/-- The RELEASE reason a code stands for. -/
def reasonOf (c : BitVec 2) : ReleaseReason :=
  if c = 0#2 then .ended else if c = 1#2 then .preempted else if c = 2#2 then .abandoned else .contested
/-- The code of a RELEASE reason. -/
def reasonCode : ReleaseReason → BitVec 2
  | .ended => 0#2
  | .preempted => 1#2
  | .abandoned => 2#2
  | .contested => 3#2

/-- The ensemble rule a bit stands for. -/
def ruleOf (b : Bool) : Ensemble := if b then .any else .all
/-- The bit of an ensemble rule. -/
def ruleBit : Ensemble → Bool
  | .all => false
  | .any => true

/-! ### Identifiers (R86) -/

/-- The frames the line knows (R86). -/
inductive FrameKind where
  | claim (priority : Priority)
  | floor (priority : Priority)
  | release
  | presence
  | order
  | service
  | reply
  deriving DecidableEq, Repr

/-- The identifier's value: 256 times the class, plus 16 times the sender, plus the kind (R86). -/
def identOf (cls : Nat) (station : Fin 16) (kind : Nat) : BitVec 11 :=
  BitVec.ofNat 11 (256 * cls + 16 * station.val + kind)

/-- Class and kind of a known frame (R86). -/
def FrameKind.codes : FrameKind → Nat × Nat
  | .claim .hour => (0, 0)
  | .claim .melody => (1, 0)
  | .claim .low => (2, 0)
  | .floor pr => (3, pr.level)
  | .release => (3, 8)
  | .presence => (4, 0)
  | .order => (5, 0)
  | .service => (6, 0)
  | .reply => (7, 0)

/-- The identifier of a station's frame. -/
def FrameKind.ident (k : FrameKind) (station : Fin 16) : BitVec 11 :=
  identOf k.codes.1 station k.codes.2

/-- The class of an identifier. -/
def identClass (i : BitVec 11) : Nat := i.toNat / 256
/-- The sender station of an identifier. -/
def identStation (i : BitVec 11) : Fin 16 := Fin.ofNat 16 (i.toNat / 16)
/-- The kind of an identifier. -/
def identKind (i : BitVec 11) : Nat := i.toNat % 16

/-- The frame an identifier announces, or none when class and kind are unknown (R86). -/
def frameKind (i : BitVec 11) : Option FrameKind :=
  match identClass i, identKind i with
  | 0, 0 => some (.claim .hour)
  | 1, 0 => some (.claim .melody)
  | 2, 0 => some (.claim .low)
  | 3, 1 => some (.floor .low)
  | 3, 2 => some (.floor .melody)
  | 3, 3 => some (.floor .hour)
  | 3, 8 => some .release
  | 4, 0 => some .presence
  | 5, 0 => some .order
  | 6, 0 => some .service
  | 7, 0 => some .reply
  | _, _ => none

/-- The payload lengths in bytes that a frame's delivery accepts (R90). -/
def lengthAccepted (k : FrameKind) (p : Payload) : Bool :=
  let n := p.length / 8
  p.length % 8 == 0 &&
  match k with
  | .claim _ => n == 16
  | .floor _ => n == 16
  | .release => n == 2
  | .presence => if readBit p 0 then decide (1 ≤ n ∧ n ≤ 9) else n == 9
  | .order =>
    match (readField 2 p 8).toNat with
    | 1 => n == 9
    | 2 => n == 13
    | 3 => n == 16
    | _ => false
  | .service => decide (2 ≤ n ∧ n ≤ 16)
  | .reply => decide (3 ≤ n ∧ n ≤ 16)

/-- A frame of known class and kind and of an accepted length (R86, R90). -/
def frameAccepted (i : BitVec 11) (p : Payload) : Bool :=
  match frameKind i with
  | none => false
  | some k => lengthAccepted k p

/-! ### Service bodies (05 SERVICE bodies) -/

/-- The least body length in bytes a command accepts, or none for a number that names no command
and for the values of CHANNEL's mode and VOICE_SET's part that name none (R181, 05 SERVICE bodies). -/
def bodyNeeded (command : BitVec 5) (p : Payload) : Option Nat :=
  match command.toNat with
  | 0 => some 4
  | 1 => some 6
  | 2 => some 2
  | 3 => some 0
  | 4 => some 0
  | 5 => if (readField 8 p 16).toNat ≤ 3 then some 3 else none
  | 6 =>
    match (readField 2 p 19).toNat with
    | 0 => some 9
    | 1 => some 8
    | 2 => some 11
    | _ => none
  | 7 => some 8
  | 8 => some 1
  | 9 => some 7
  | 10 => some 4
  | 11 => some 1
  | 12 => some 10
  | 13 => some 7
  | 14 => some 3
  | 15 => some 1
  | 16 => some 1
  | 17 => some 0
  | 18 => some 0
  | 19 => some 0
  | 20 => some 0
  | 21 => some 0
  | 22 => some 0
  | _ => none

/-- A SERVICE payload whose command the node knows and whose body is long enough for it. -/
def commandKnown (command : BitVec 5) (p : Payload) : Bool :=
  match bodyNeeded command p with
  | none => false
  | some n => decide (16 + 8 * n ≤ p.length)

/-- The pairs of a NODE_SET: as many as whole groups of 4 bytes its body holds, at most three. -/
def readPairs (p : Payload) : List (BitVec 8 × BitVec 24) :=
  (List.range (min 3 ((p.length / 8 - 2) / 4))).map fun j =>
    (readField 8 p (16 + 32 * j), readField 24 p (24 + 32 * j))

/-- The events of a LOAD_DATA: as many as whole groups of 4 bytes its body holds after its first 3
bytes, at most two. -/
def readEvents (p : Payload) : List LoadEvent :=
  (List.range (min 2 ((p.length / 8 - 5) / 4))).map fun k =>
    { delta := readField 8 p (40 + 32 * k)
      bell := readField 8 p (48 + 32 * k)
      velocity := readField 8 p (56 + 32 * k)
      duration := readField 8 p (64 + 32 * k) }

/-- The command of a CHANNEL frame, by its mode (R3, R20). -/
def decodeChannel (h : Service) (p : Payload) : Instr :=
  let mask := readFlags 8 p 24
  match (readField 8 p 16).toNat with
  | 0 => .channelSet h mask
  | 1 => .channelMerge h mask
  | 2 => .channelClear h mask
  | _ => .channelPulse h mask (readField 8 p 32)

/-- The command of a VOICE_SET frame, by its part (R7). -/
def decodeVoice (h : Service) (p : Payload) : Instr :=
  let k : Fin 8 := Fin.ofNat 8 (readField 3 p 16).toNat
  match (readField 2 p 19).toNat with
  | 0 => .voiceSetPulseLow h k (Vector.ofFn fun i => readField 8 p (24 + 8 * i.val))
  | 1 => .voiceSetPulseHigh h k (Vector.ofFn fun i => readField 8 p (24 + 8 * i.val))
  | _ => .voiceSetTiming h k
      { f1 := readField 16 p 24
        f15 := readField 16 p 40
        back := readField 16 p 56
        damped := readBit p 72
        lead := readField 16 p 80
        coil := readField 8 p 96 }

/-- The command of a STOP frame, by its scope (R114). -/
def decodeStop (h : Service) (p : Payload) : Instr :=
  if readBit p 16 then .stopFloor h
  else .stopPerformance h
    { station := Fin.ofNat 16 (readField 4 p 17).toNat
      seq := readField 8 p 21 }

/-- The command of a SERVICE frame whose command is known and whose body is long enough. -/
def decodeKnown (h : Service) (command : BitVec 5) (p : Payload) : Instr :=
  match command.toNat with
  | 0 => .setTime h (readField 32 p 16)
  | 1 => .cue h (readField 8 p 16) (readField 8 p 24) (readField 32 p 32)
  | 2 => decodeStop h p
  | 3 => .resume h
  | 4 => .wake h
  | 5 => decodeChannel h p
  | 6 => decodeVoice h p
  | 7 => .calSet h (readField 8 p 16)
      { enabled := readBit p 24
        days := readFlags 7 p 25
        hours := readFlags 24 p 32
        minute := readField 8 p 56
        slot := readField 8 p 64
        priority := readField 2 p 72 }
  | 8 => .calClear h (readField 5 p 16)
  | 9 => .quietSet h (readField 8 p 16)
      { days := readFlags 7 p 24
        start := readField 16 p 32
        stop := readField 16 p 48
        level := readField 8 p 64 }
  | 10 => .nodeSet h (readPairs p)
  | 11 => .maskSet h (readFlags 8 p 16)
  | 12 => .loadBegin h (readField 8 p 16)
      { tuneId := readField 32 p 24
        priority := readField 2 p 56
        rule := ruleOf (readBit p 58)
        retry := readBit p 59
        tempo := readField 16 p 64
        count := readField 16 p 80 }
  | 13 => .loadData h (readField 8 p 16) (readField 16 p 24) (readEvents p)
  | 14 => .loadEnd h (readField 8 p 16) (readField 16 p 24)
  | 15 => .delete h (readField 8 p 16)
  | 16 => .overlay h (readBit p 16)
  | 17 => .store h
  | 18 => .restart h
  | 19 => .status h
  | 20 => .trace h
  | 21 => .traceRelease h
  | 22 => .countersClear h
  | _ => .unknownCommand h command (p.drop 16)

/-- The command of any SERVICE frame of an accepted length (R181). -/
def decodeService (rx : Heard) (p : Payload) : Instr :=
  let h : Service := { heard := rx, target := readField 5 p 0, tag := readField 6 p 10 }
  let command := readField 5 p 5
  if commandKnown command p then decodeKnown h command p
  else .unknownCommand h command (p.drop 16)

/-! ### Frames -/

/-- The content CLAIM and FLOOR share. -/
def decodeFloorBody (p : Payload) : FloorBody :=
  { seq := readField 8 p 0
    tag := readField 24 p 8
    start := readField 32 p 32
    mask := readFlags 64 p 64 }

/-- A PRESENCE: station kind 1 is a console, of which nothing else is read (R96). -/
def decodeBeacon (p : Payload) : Beacon :=
  if readBit p 0 then .console
  else .node
    { validity := validityOf (readBit p 1)
      lock := lockOf (readField 2 p 2)
      drive := driveOf (readField 2 p 4)
      silence := silenceOf (readField 2 p 6)
      tower := readField 32 p 8
      playable := readFlags 8 p 40
      bellBase := readField 6 p 48
      count := readField 3 p 54
      holder :=
        if readBit p 57 then
          some { station := Fin.ofNat 16 (readField 4 p 58).toNat, seq := readField 8 p 62 }
        else none }

/-- Order j of an ORDER frame. -/
def decodeItem (p : Payload) (j : Nat) : OrderItem :=
  { bell := readField 6 p (42 + 28 * j)
    velocity := readField 4 p (48 + 28 * j)
    offset := readField 8 p (52 + 28 * j)
    duration := readField 10 p (60 + 28 * j) }

/-- What a good frame is to the node: a command, a frame that is not delivered and raises RX_UNKNOWN,
or a REPLY, which is for consoles (R86, R90). -/
inductive Received where
  | command (i : Instr)
  | unknown
  | notForNodes
  deriving DecidableEq, Repr

/-- The command a good frame brings (R86, R90). -/
def decodeFrame (stamp : Stamp) (ident : BitVec 11) (p : Payload) : Received :=
  let rx : Heard := { sender := identStation ident, stamp := stamp }
  match frameKind ident with
  | none => .unknown
  | some k =>
    if lengthAccepted k p then
      match k with
      | .claim pr => .command (.claim rx pr (decodeFloorBody p))
      | .floor pr => .command (.floor rx pr (decodeFloorBody p))
      | .release => .command (.release rx (readField 8 p 0) (reasonOf (readField 2 p 8)))
      | .presence => .command (.presence rx (decodeBeacon p))
      | .order => .command (.order rx (readField 8 p 0) (readField 32 p 10)
          ((List.range (readField 2 p 8).toNat).map (decodeItem p)))
      | .service => .command (decodeService rx p)
      | .reply => .notForNodes
    else .unknown

/-- The command by which any good frame reaches the node: UNKNOWN_FRAME for a frame that is not delivered
(R86, R90). -/
def heardFrame (stamp : Stamp) (ident : BitVec 11) (p : Payload) : Instr :=
  match decodeFrame stamp ident p with
  | .command i => i
  | .unknown => .unknownFrame ident p
  | .notForNodes => .unknownFrame ident p

/-! ### The encoder -/

/-- Payload of CLAIM and FLOOR. -/
def encodeFloorBody (b : FloorBody) : Payload :=
  putField b.seq ++ (putField b.tag ++ (putField b.start ++ putFlags b.mask))

/-- Payload of a PRESENCE; a console's is one byte. -/
def encodeBeacon : Beacon → Payload
  | .console => true :: fill 7
  | .node b =>
    false :: validityBit b.validity :: (putField (lockCode b.lock) ++ (putField (driveCode b.drive) ++
      (putField (silenceCode b.silence) ++ (putField b.tower ++ (putFlags b.playable ++
      (putField b.bellBase ++ (putField b.count ++
      (match b.holder with
        | none => false :: (fill 4 ++ fill 8)
        | some h => true :: (putField (BitVec.ofNat 4 h.station.val) ++ putField h.seq)) ++ fill 2)))))))

/-- One order of an ORDER frame. -/
def encodeItem (o : OrderItem) : List Bool :=
  putField o.bell ++ (putField o.velocity ++ (putField o.offset ++ putField o.duration))

/-- Payload of an ORDER, with its fill to the byte boundary. -/
def encodeOrder (seq : BitVec 8) (base : BitVec 32) (items : List OrderItem) : Payload :=
  let bits := putField seq ++ (putField (BitVec.ofNat 2 items.length) ++
    (putField base ++ items.flatMap encodeItem))
  bits ++ fill ((8 - bits.length % 8) % 8)

/-- Payload of a RELEASE. -/
def encodeRelease (seq : BitVec 8) (reason : ReleaseReason) : Payload :=
  putField seq ++ (putField (reasonCode reason) ++ fill 6)

/-- Payload of a SERVICE frame: header and body. -/
def encodeService (h : Service) (command : Nat) (body : List Bool) : Payload :=
  putField h.target ++ (putField (BitVec.ofNat 5 command) ++ (putField h.tag ++ body))

/-- One event of a LOAD_DATA. -/
def encodeEvent (e : LoadEvent) : List Bool :=
  putField e.delta ++ (putField e.bell ++ (putField e.velocity ++ putField e.duration))

/-- A whole number of one byte. -/
def putByte (n : Nat) : List Bool := putField (BitVec.ofNat 8 n)

/-- The command number and body of a service command (05 SERVICE header and bodies). -/
def serviceBody : Instr → Option (Service × Nat × List Bool)
  | .setTime h t => some (h, 0, putField t)
  | .cue h slot pr start => some (h, 1, putField slot ++ (putField pr ++ putField start))
  | .stopPerformance h perf => some (h, 2,
      false :: (putField (BitVec.ofNat 4 perf.station.val) ++ (putField perf.seq ++ fill 3)))
  | .stopFloor h => some (h, 2, true :: fill 15)
  | .resume h => some (h, 3, [])
  | .wake h => some (h, 4, [])
  | .channelSet h m => some (h, 5, putByte 0 ++ (putFlags m ++ fill 8))
  | .channelMerge h m => some (h, 5, putByte 1 ++ (putFlags m ++ fill 8))
  | .channelClear h m => some (h, 5, putByte 2 ++ (putFlags m ++ fill 8))
  | .channelPulse h m v => some (h, 5, putByte 3 ++ (putFlags m ++ putField v))
  | .voiceSetPulseLow h k ws => some (h, 6,
      putField (BitVec.ofNat 3 k.val) ++ (putField (0#2) ++ (fill 3 ++ ws.toList.flatMap putField)))
  | .voiceSetPulseHigh h k ws => some (h, 6,
      putField (BitVec.ofNat 3 k.val) ++ (putField (1#2) ++ (fill 3 ++ ws.toList.flatMap putField)))
  | .voiceSetTiming h k f => some (h, 6,
      putField (BitVec.ofNat 3 k.val) ++ (putField (2#2) ++ (fill 3 ++
        (putField f.f1 ++ (putField f.f15 ++ (putField f.back ++ (f.damped :: (fill 7 ++
        (putField f.lead ++ putField f.coil)))))))))
  | .calSet h n f => some (h, 7,
      putField n ++ (f.enabled :: (putFlags f.days ++ (putFlags f.hours ++ (putField f.minute ++
        (putField f.slot ++ (putField f.priority ++ fill 6)))))))
  | .calClear h n => some (h, 8, putField n ++ fill 3)
  | .quietSet h n f => some (h, 9,
      putField n ++ (putFlags f.days ++ (fill 1 ++ (putField f.start ++ (putField f.stop ++
        putField f.level)))))
  | .nodeSet h pairs => some (h, 10, pairs.flatMap fun pr => putField pr.1 ++ putField pr.2)
  | .maskSet h m => some (h, 11, putFlags m)
  | .loadBegin h n f => some (h, 12,
      putField n ++ (putField f.tuneId ++ (putField f.priority ++ (ruleBit f.rule :: f.retry ::
        (fill 4 ++ (putField f.tempo ++ putField f.count))))))
  | .loadData h n i es => some (h, 13, putField n ++ (putField i ++ es.flatMap encodeEvent))
  | .loadEnd h n c => some (h, 14, putField n ++ putField c)
  | .delete h n => some (h, 15, putField n)
  | .overlay h on => some (h, 16, on :: fill 7)
  | .store h => some (h, 17, [])
  | .restart h => some (h, 18, [])
  | .status h => some (h, 19, [])
  | .trace h => some (h, 20, [])
  | .traceRelease h => some (h, 21, [])
  | .countersClear h => some (h, 22, [])
  | _ => none

/-- The frame that brings a command: its identifier and payload. The commands that are events and
not frames, and UNKNOWN_FRAME and UNKNOWN_COMMAND, have none. -/
def encodeFrame : Instr → Option (BitVec 11 × Payload)
  | .claim rx pr b => some (FrameKind.ident (.claim pr) rx.sender, encodeFloorBody b)
  | .floor rx pr b => some (FrameKind.ident (.floor pr) rx.sender, encodeFloorBody b)
  | .release rx seq r => some (FrameKind.ident .release rx.sender, encodeRelease seq r)
  | .presence rx b => some (FrameKind.ident .presence rx.sender, encodeBeacon b)
  | .order rx seq base items => some (FrameKind.ident .order rx.sender, encodeOrder seq base items)
  | i =>
    match serviceBody i with
    | some (h, c, body) => some (FrameKind.ident .service h.heard.sender, encodeService h c body)
    | none => none

/-- The stamps a command was heard with; they are the receiver's own and not on the line (R88). -/
def stampOf : Instr → Option Stamp
  | .claim rx _ _ => some rx.stamp
  | .floor rx _ _ => some rx.stamp
  | .release rx _ _ => some rx.stamp
  | .presence rx _ => some rx.stamp
  | .order rx _ _ _ => some rx.stamp
  | i => (serviceBody i).map fun x => x.1.heard.stamp

/-! ### The cells of a frame (R85, R88) -/

/-- One step of the CRC register (R88). -/
def crcStep (r : BitVec 16) (bit : Bool) : BitVec 16 :=
  if bit ^^ r.msb then (r <<< 1) ^^^ 0x6F63#16 else r <<< 1

/-- The CRC of some cells, the register preset to all ones (R88). -/
def crc (bits : List Bool) : BitVec 16 := bits.foldl crcStep 0xFFFF#16

/-- The cells the CRC covers: identifier, length, payload (R85, R88). -/
def checkedCells (ident : BitVec 11) (p : Payload) : List Bool :=
  putField ident ++ (putField (BitVec.ofNat 5 (p.length / 8)) ++ p)

/-- The cells of a frame as its sender sends them, through the acknowledge cell, sent as 1 (R85). -/
def frameCells (ident : BitVec 11) (p : Payload) : List Bool :=
  false :: (checkedCells ident p ++ (putField (crc (checkedCells ident p)) ++ [true]))

/-- What a receiver makes of the cells it reads through the CRC: the frame when it is good, none for
a receive error (R85, R88). The start cell is read as 0; a length value of 17 to 31, cells that stop
early and a CRC that differs are receive errors. -/
def receiveCells (cells : List Bool) : Option (BitVec 11 × Payload) :=
  match cells with
  | false :: body =>
    let n := (readField 5 body 11).toNat
    let p := (body.drop 16).take (8 * n)
    if n ≤ 16 ∧ 16 + 8 * n + 16 ≤ body.length ∧
        readField 16 body (16 + 8 * n) = crc (body.take (16 + 8 * n)) then
      some (readField 11 body 0, p)
    else none
  | _ => none

end Sys2Proof
end

