-- ==== Sys2Proof/WellFormed.lean ====
section
/-! DEFINITION. Which terms of `Instr` are commands that can reach the node. The fields' widths hold by
their types; what is left is checked here. -/

namespace Sys2Proof

/-- A tower time as a stamp holds it: 0 to W - 1 (R63, R88). -/
def Stamp.wellFormed (t : Stamp) : Bool := decide (t.tower.toNat < Config.week)

/-- A payload of whole bytes, 16 at most (R85). -/
def payloadWellFormed (p : Payload) : Bool := p.length % 8 == 0 && decide (p.length ≤ 128)

/-- The stamps of a command, wherever it carries any. -/
def Instr.stampWellFormed (i : Instr) : Bool :=
  match i with
  | .minuteMark t => t.wellFormed
  | .unknownCommand h _ _ => h.heard.stamp.wellFormed
  | i =>
    match stampOf i with
    | some t => t.wellFormed
    | none => true

/-- The counts and contents the widths do not bound: an ORDER carries 1 to 3 orders (R40), a NODE_SET 1
to 3 pairs (R182), a LOAD_DATA 1 or 2 events (R152); an UNKNOWN_FRAME is one that delivery does not
accept or a REPLY, which no node is delivered (R86, R90); an UNKNOWN_COMMAND is one the node has no command for (R181). -/
def Instr.contentWellFormed : Instr → Bool
  | .order _ _ _ items => decide (1 ≤ items.length ∧ items.length ≤ 3)
  | .nodeSet _ pairs => decide (1 ≤ pairs.length ∧ pairs.length ≤ 3)
  | .loadData _ _ _ events => decide (1 ≤ events.length ∧ events.length ≤ 2)
  | .unknownFrame ident p => payloadWellFormed p && (!frameAccepted ident p || decide (frameKind ident = some .reply))
  | .unknownCommand _ command body =>
    decide (body.length ≤ 112) && body.length % 8 == 0 && !commandKnown command (fill 16 ++ body)
  | _ => true

/-- A command that can reach the node. -/
def Instr.wellFormed (i : Instr) : Bool := i.stampWellFormed && i.contentWellFormed

end Sys2Proof
end

