-- ==== Sys2Proof/Machine/Types.lean ====
section
/-! DEFINITION. The data of each block of the node. Plain data throughout. Tower times, levels, velocities
and counts are natural numbers; local counts and masks are bit vectors. -/

namespace Sys2Proof.Machine

/-! ### Channel Unit -/

/-- A voicing record (R6). `curve[v - 1]` is the pulse width at velocity v; `back` is H, `lead` is D. -/
structure Voicing where
  curve : Vector Nat 15
  f1 : Nat
  f15 : Nat
  back : Nat
  damped : Bool
  lead : Nat
  coil : Nat
  deriving DecidableEq, Repr

/-- Hammer state (R11), with the local count of the launch and the flight and return time of the
stroke, which it keeps (R12). -/
inductive Hammer where
  | rest
  | flying (since : LocalCount) (flight : Nat) (back : Nat)
  | returning (since : LocalCount) (back : Nat)
  deriving DecidableEq, Repr

/-- The last fired launch, with the return time its stroke took (R12, R50). -/
structure LastFired where
  launch : Nat
  back : Nat
  deriving DecidableEq, Repr

/-- An asserted hammer gate: since when, and for what pulse width (R10). -/
structure Gate where
  since : LocalCount
  width : Nat
  deriving DecidableEq, Repr

/-- One channel record. The damper drive output is `damperUp` (R14). -/
structure Channel where
  conflict : Bool
  voicing : Voicing
  hammer : Hammer
  lastFired : Option LastFired
  gate : Option Gate
  damperUp : Bool
  drop : Option Nat
  deriving DecidableEq, Repr

/-! ### Drive Bank Controller -/

/-- Drive state, bank level E and idle timer (R23, R28, R30). -/
structure Drive where
  mode : DriveState
  level : Nat
  idle : Nat
  deriving DecidableEq, Repr

/-! ### Strike Scheduler -/

/-- Whose strike an entry is (R38). -/
inductive Owner where
  | perf (id : PerfId)
  | test
  deriving DecidableEq, Repr

/-- A strike queue entry (R38). `held` marks an entry whose launch time was reached while its channel
was RUN and not clear (R50). -/
structure Entry where
  channel : Fin 8
  owner : Owner
  priority : Nat
  impact : Nat
  launch : Nat
  velocity : Nat
  duration : Option Nat
  lift : Option Nat
  admission : BitVec 32
  held : Bool
  deriving DecidableEq, Repr

/-! ### Tower Timebase -/

/-- The beacon baseline: beacon time and local count at the edge (R74). -/
structure BeaconBase where
  time : Nat
  count : LocalCount
  deriving DecidableEq, Repr

/-- The Tower Timebase (R63 to R83). -/
structure Timebase where
  count : LocalCount
  tower : Nat
  validity : Validity
  lock : LockState
  trim : Int
  slew : Int
  close : Nat
  reference : Option (Fin 16)
  beaconBase : Option BeaconBase
  markBase : Option LocalCount
  lastMark : Option Stamp
  stepAt : Option LocalCount
  deriving DecidableEq, Repr

/-! ### Floor Tracker -/

/-- The holder part of the floor record (R103). -/
structure Holder where
  perf : PerfId
  priority : Priority
  tag : TuneTag
  start : Nat
  mask : BellMask
  lastBeacon : LocalCount
  deriving DecidableEq, Repr

/-- The fading part of the floor record (R103). -/
structure FadingPart where
  perf : PerfId
  priority : Priority
  reduction : Nat
  launches : Nat
  cutoff : Option Nat
  deriving DecidableEq, Repr

/-- The floor record: HELD exactly when a holder is present (R103). -/
structure FloorRecord where
  holder : Option Holder
  fading : Option FadingPart
  deriving DecidableEq, Repr

/-! ### Tune Library -/

/-- A loaded tune's header less its bell mask (R147). -/
structure TuneHeader where
  tuneId : BitVec 32
  priority : Priority
  rule : Ensemble
  retry : Bool
  tempo : Nat
  count : Nat
  deriving DecidableEq, Repr

/-- One event of a loaded tune; bell 0 is a REST (R148). -/
structure TuneEvent where
  delta : Nat
  bell : Nat
  velocity : Nat
  duration : Nat
  deriving DecidableEq, Repr

/-- A loaded part (R144). While LOADING, the reservation is the header's event count and the next
expected index is the number of events received. -/
inductive LoadedPart where
  | empty
  | loading (header : TuneHeader) (events : List TuneEvent) (loader : Fin 16)
  | valid (header : TuneHeader) (mask : BellMask) (events : List TuneEvent)
  deriving DecidableEq, Repr

/-- The Tune Library (R144). -/
structure Library where
  parts : Vector LoadedPart 32
  overlay : Bool
  locks : Vector Nat 32
  deriving DecidableEq, Repr

/-! ### Conductor -/

/-- The states of a slot that is not free (R122). -/
inductive Phase where
  | preroll
  | claiming
  | waiting
  | gathering
  | playing
  | ending
  deriving DecidableEq, Repr

/-- How a performance ended (R122). -/
inductive PerfOutcome where
  | completed
  | preempted
  | abandoned
  | duplicate
  | contested
  | stopped
  | missingTune
  | lostOrders
  deriving DecidableEq, Repr

/-- One generated note of a resident tune: its impact after the start (R131, R132). -/
structure Note where
  offset : Nat
  bell : Nat
  velocity : Nat
  deriving DecidableEq, Repr

/-- Where a performance reads its events: generated at the cue, or the loaded part of its tune slot
(R130 to R132, R141). -/
inductive TuneSource where
  | resident (notes : List Note)
  | loaded
  deriving DecidableEq, Repr

/-- A performance in a slot that is not free (R122), with what it took of its tune at the cue (R124).
`refused` is the held state of R134, `chance` records that a frame has left the queue since (R133). -/
structure Perf where
  phase : Phase
  seq : BitVec 8
  slot : Fin 32
  tag : TuneTag
  priority : Priority
  cueTime : Nat
  start : Nat
  claimTime : Nat
  postponed : Nat
  cursor : Nat
  sent : Nat
  lost : Nat
  deadline : Option LocalCount
  beaconTimer : Nat
  mask : BellMask
  rule : Ensemble
  retry : Bool
  source : TuneSource
  refused : Bool
  chance : Bool
  deriving DecidableEq, Repr

/-- A performance slot: IDLE holds only its state, ENDED its id and outcome (R122). -/
inductive Slot where
  | idle
  | ended (seq : BitVec 8) (outcome : PerfOutcome)
  | active (p : Perf)
  deriving DecidableEq, Repr

/-- The Conductor (R122, R123). -/
structure Conductor where
  slots : Vector Slot 4
  sequence : BitVec 8
  deriving DecidableEq, Repr

/-! ### Calendar Unit -/

/-- A calendar entry (R159). -/
structure CalEntry where
  enabled : Bool
  days : BitVec 7
  hours : BitVec 24
  minute : Nat
  slot : Fin 32
  priority : Priority
  lastFired : Option Nat
  deriving DecidableEq, Repr

/-- A quiet window (R162). -/
structure QuietWindow where
  days : BitVec 7
  start : Nat
  stop : Nat
  level : Nat
  deriving DecidableEq, Repr

/-- The busy state of a play contact and the slot that took its last cue (R165). -/
structure ContactState where
  busy : Bool
  slot : Option (Fin 4)
  deriving DecidableEq, Repr

/-- The Calendar Unit (R159 to R168). `due` holds the minutes whose pre-roll points have been reached and
wait for their decision, `decided` the minutes whose points were reached and that no step has passed since, newest first,
and `settled` the minutes whose points a shorter pre-roll has put ahead again after they were reached (R160, R161;
notes/assumptions/14.md). -/
structure Calendar where
  entries : Vector CalEntry 24
  windows : Vector QuietWindow 4
  contacts : Vector ContactState 2
  due : List Nat
  decided : List Nat
  settled : List Nat
  deriving DecidableEq, Repr

/-! ### Silence Controller -/

/-- The eight silence conditions, in the order of R169. -/
inductive Condition where
  | timeUnlocked
  | timeStep
  | lineFault
  | checkErrors
  | driveFault
  | coilHot
  | stationClash
  | access
  deriving DecidableEq, Repr

/-- The Silence Controller (R169 to R180). `level` is the silence reduction s; flag k of `conds` and `mask`
is the k-th condition of R169. -/
structure Silence where
  state : SilenceState
  level : Nat
  fadeCount : Nat
  conds : BitVec 8
  mask : BitVec 8
  resumable : Bool
  hold : Nat
  deriving DecidableEq, Repr

/-! ### Settings, strike trace, counters -/

/-- A contact cue map (R165). -/
structure ContactMap where
  enabled : Bool
  slot : Fin 32
  deriving DecidableEq, Repr

/-- Resume mode (R177). -/
inductive ResumeMode where
  | auto
  | manual
  deriving DecidableEq, Repr

/-- Trace trigger (R188). -/
inductive Trigger where
  | none
  | silentEntry
  | starved
  | notFired
  deriving DecidableEq, Repr

/-- The node settings of R182. -/
structure Settings where
  recharge : Nat
  readyLevel : Nat
  reserve : Nat
  idleTime : Nat
  lateLimit : Nat
  fadeStep : Nat
  lookahead : Nat
  claimWait : Nat
  hourBell : Nat
  hourInterval : Nat
  quarter1 : Nat
  quarter2 : Nat
  quarter3 : Nat
  quarter4 : Nat
  preroll : Nat
  map1 : ContactMap
  map2 : ContactMap
  resume : ResumeMode
  holdTime : Nat
  trigger : Trigger
  postCount : Nat
  deriving DecidableEq, Repr

/-- Outcome of a queue entry (R51, R56). -/
inductive StrikeOutcome where
  | fired
  | degraded
  | halted
  | silenced
  | starved
  | purged
  deriving DecidableEq, Repr

/-- A record of the strike trace (R56). -/
structure StrikeRecord where
  channel : Fin 8
  owner : Owner
  impact : Nat
  launch : Nat
  requested : Nat
  fired : Nat
  outcome : StrikeOutcome
  lateness : Int
  deriving DecidableEq, Repr

/-- Trace state (R188). -/
inductive TraceState where
  | open
  | counting
  | frozen
  deriving DecidableEq, Repr

/-- The strike trace, oldest record first (R188). -/
structure StrikeTrace where
  records : List StrikeRecord
  state : TraceState
  remaining : Nat
  deriving DecidableEq, Repr

/-- The counters of the node (R57, R100, R119, R142, R167, R185). -/
inductive Counter where
  | fired
  | degraded
  | starved
  | silenced
  | halted
  | purged
  | refusedChannel
  | stray
  | early
  | late
  | tooClose
  | overflow
  | rxError
  | rxUnknown
  | txError
  | noAck
  | txDropped
  | floorPreemptions
  | floorContests
  | floorLapses
  | lateSend
  | ordersLost
  | perfCompleted
  | perfLostOrders
  | perfPreempted
  | perfAbandoned
  | perfDuplicate
  | perfContested
  | perfStopped
  | perfMissingTune
  | cuesFired
  | missedQuiet
  | missedTime
  | slotsFull
  | contactIgnored
  | settingsWrites
  deriving DecidableEq, Repr

/-- The place of a counter in the table of counters. -/
def Counter.index : Counter → Fin 36
  | .fired => 0
  | .degraded => 1
  | .starved => 2
  | .silenced => 3
  | .halted => 4
  | .purged => 5
  | .refusedChannel => 6
  | .stray => 7
  | .early => 8
  | .late => 9
  | .tooClose => 10
  | .overflow => 11
  | .rxError => 12
  | .rxUnknown => 13
  | .txError => 14
  | .noAck => 15
  | .txDropped => 16
  | .floorPreemptions => 17
  | .floorContests => 18
  | .floorLapses => 19
  | .lateSend => 20
  | .ordersLost => 21
  | .perfCompleted => 22
  | .perfLostOrders => 23
  | .perfPreempted => 24
  | .perfAbandoned => 25
  | .perfDuplicate => 26
  | .perfContested => 27
  | .perfStopped => 28
  | .perfMissingTune => 29
  | .cuesFired => 30
  | .missedQuiet => 31
  | .missedTime => 32
  | .slotsFull => 33
  | .contactIgnored => 34
  | .settingsWrites => 35

/-! ### Peer Table -/

/-- What a station last announced (R97): for a console nothing but its kind. -/
structure PeerInfo where
  lastHeard : LocalCount
  body : Beacon
  deriving DecidableEq, Repr

/-- A peer record (R97). -/
inductive PeerRecord where
  | absent
  | live (info : PeerInfo)
  | lapsed (info : PeerInfo)
  deriving DecidableEq, Repr

/-! ### Replies, the settings memory, STATUS and TRACE images -/

/-- Result codes of a reply (05 REPLY header). -/
inductive Result where
  | done
  | doneClamped
  | busy
  | range
  | noRoom
  | notHere
  | sequence
  | check
  deriving DecidableEq, Repr

/-- Settings state as it is reported (R185, R186). -/
inductive SettingsKind where
  | valid
  | storing
  | lost
  deriving DecidableEq, Repr

/-- Channel state (R2). -/
inductive ChannelState where
  | run
  | halted
  | conflict
  | absent
  deriving DecidableEq, Repr

/-- What STATUS reports of one channel (R184). -/
structure ChannelReport where
  state : ChannelState
  halted : Bool
  conflict : Bool
  hammer : Hammer
  lastFired : Option Nat
  damperUp : Bool
  drop : Option Nat
  deriving DecidableEq, Repr

/-- The state of a tune slot: that of the part it resolves to (R145). -/
inductive TuneState where
  | empty
  | loading
  | valid
  deriving DecidableEq, Repr

/-- What STATUS reports of one tune slot (R158): the state it resolves to, its loaded part, its lock count. -/
structure TuneReport where
  state : TuneState
  part : LoadedPart
  locks : Nat
  deriving DecidableEq, Repr

/-- One group of a STATUS reply with its contents (R184). -/
inductive StatusGroup where
  | drive (x : Drive) (chargerEnable feedback : Bool)
  | silence (x : Silence) (resume : ResumeMode) (holdTime : Nat)
  | time (tower : Nat) (validity : Validity) (lock : LockState) (trim slew : Int) (reference : Option (Fin 16))
      (timeSource : Bool) (markAge : Option Nat)
  | floor (x : FloorRecord) (beaconAge : Option Nat)
  | channels (xs : List ChannelReport)
  | queueAndLine (queued frames errors : Nat) (lineFault stationClash : Bool)
  | conductor (slots : Vector Slot 4)
  | library (xs : List TuneReport) (overlay : Bool) (used free : Nat)
  | calendar (entries : Vector CalEntry 24) (windows : Vector QuietWindow 4) (map1 map2 : ContactMap)
      (contacts : Vector ContactState 2) (preroll : Nat)
  | settings (x : Settings)
  | peers (xs : List PeerRecord)
  | counters (xs : Vector Nat 36)
  deriving DecidableEq, Repr

/-- The body of a reply (05 REPLY bodies). The manual does not lay out the bits of a later part of a STATUS reply:
such a part is named by its place and holds the groups that end in it (R184; notes/assumptions/15.md). -/
inductive ReplyBody where
  | none
  | cue (seq : BitVec 8) (slot : Fin 4)
  | stop (held : Bool)
  | channels (mask : ChannelMask)
  | settings (pairs : List (BitVec 8 × BitVec 24))
  | mask (m : BitVec 8)
  | free (n : Nat)
  | next (n : Nat)
  | checksum (c : BitVec 16)
  | statusHead (straps : Straps) (state : SettingsKind) (parts : Nat)
  | statusPart (fresh place : Nat) (groups : List StatusGroup)
  | traceHead (state : TraceState) (trigger : Trigger) (post : Nat) (remaining : Nat) (held : Nat)
  | traceRecord (r : StrikeRecord)
  deriving DecidableEq, Repr

/-- A REPLY frame's content (05 REPLY header). -/
structure Reply where
  command : Nat
  tag : BitVec 6
  result : Result
  final : Bool
  part : Nat
  body : ReplyBody
  deriving DecidableEq, Repr

/-- The frames the node sends (R91). -/
inductive Frame where
  | claim (priority : Priority) (body : FloorBody)
  | floor (priority : Priority) (body : FloorBody)
  | release (seq : BitVec 8) (reason : ReleaseReason)
  | presence (b : NodeBeacon)
  | order (seq : BitVec 8) (base : BitVec 32) (items : List OrderItem)
  | reply (r : Reply)
  deriving DecidableEq, Repr

/-- Who built a frame and is told of its loss (R92, R189). `part` is a part of the reply under way,
`single` any other reply, `conductor` a RELEASE for a performance with no slot behind it (R140). -/
inductive Origin where
  | beacon
  | slot (k : Fin 4)
  | conductor
  | single
  | part
  deriving DecidableEq, Repr

/-- A frame of the transmit queue. -/
structure TxFrame where
  frame : Frame
  origin : Origin
  deriving DecidableEq, Repr

/-- The frame in transmission, with the stamps of its start edge (R88, R91). -/
structure Sending where
  tx : TxFrame
  stamp : Stamp
  deriving DecidableEq, Repr

/-- The Line Controller (R84 to R102). `queue` holds the queued frames that are not in transmission. -/
structure Line where
  queue : List TxFrame
  sending : Option Sending
  setAside : Option NodeBeacon
  errors : List LocalCount
  txErrors : Nat
  faultAt : Option LocalCount
  clashAt : Option LocalCount
  beaconTimer : Nat
  ackDriven : Bool
  deriving DecidableEq, Repr

/-- A calendar entry as the settings store keeps it: without its last fired (R168, R185). -/
structure StoredEntry where
  enabled : Bool
  days : BitVec 7
  hours : BitVec 24
  minute : Nat
  slot : Fin 32
  priority : Priority
  deriving DecidableEq, Repr

/-- A loaded part as the settings store keeps it: only VALID parts (R156). -/
structure StoredTune where
  header : TuneHeader
  mask : BellMask
  events : List TuneEvent
  deriving DecidableEq, Repr

/-- The image of the settings store (R185). -/
structure StoreImage where
  voicings : Vector Voicing 8
  entries : Vector StoredEntry 24
  windows : Vector QuietWindow 4
  settings : Settings
  mask : BitVec 8
  tunes : Vector (Option StoredTune) 32
  deriving DecidableEq, Repr

/-- Settings state; a store in progress has its image and the tag of its STORE, for the reply (R185). -/
inductive SettingsState where
  | valid
  | storing (image : StoreImage) (tag : BitVec 6)
  | lost
  deriving DecidableEq, Repr

/-- The image a reply of several parts is sent from (R184, R189): of STATUS the groups in their order, with the
number that makes its free values fresh and the number of parts to follow. -/
inductive ReplyImage where
  | status (fresh parts : Nat) (groups : List StatusGroup)
  | trace (records : List StrikeRecord)
  deriving DecidableEq, Repr

/-- A reply of several parts under way (R189): `next` is the place of the next part, `last` that of the
last one, and `out` says that the part before has left the queue or been refused by it. -/
structure ReplyJob where
  command : Nat
  tag : BitVec 6
  image : ReplyImage
  next : Nat
  last : Nat
  out : Bool
  deriving DecidableEq, Repr

/-- The Service Responder (R181 to R189). `memory` is the external settings memory: an image when it is
marked valid, none when it is marked invalid. -/
structure ServiceUnit where
  settingsState : SettingsState
  memory : Option StoreImage
  reply : Option ReplyJob
  deriving DecidableEq, Repr

end Sys2Proof.Machine
end

