-- ==== Sys2Proof/Machine/Defaults.lean ====
section
/-! DEFINITION. The default of every stored setting and the initial value of every block, as the chapters'
reset tables give them. -/

namespace Sys2Proof.Machine

/-! ### Default values -/

/-- The default voicing record (R6). -/
def defaultVoicing : Voicing where
  curve := #v[10, 22, 34, 46, 58, 70, 82, 94, 106, 118, 130, 142, 154, 166, 178]
  f1 := 400
  f15 := 160
  back := 800
  damped := false
  lead := 120
  coil := 16

/-- A channel right after power-on (R22). -/
def freshChannel (v : Voicing) : Channel where
  conflict := false
  voicing := v
  hammer := .rest
  lastFired := none
  gate := none
  damperUp := false
  drop := none

/-- The default node settings (R24, R45, R53, R141, R160, R165, R177, R189). -/
def defaultSettings : Settings where
  recharge := 4
  readyLevel := 30000
  reserve := 16000
  idleTime := 480000
  lateLimit := 40
  fadeStep := 2
  lookahead := 4000
  claimWait := 128000
  hourBell := 1
  hourInterval := 8000
  quarter1 := 8
  quarter2 := 7
  quarter3 := 6
  quarter4 := 5
  preroll := 32000
  map1 := { enabled := false, slot := 0 }
  map2 := { enabled := false, slot := 0 }
  resume := .auto
  holdTime := 16000
  trigger := .none
  postCount := 0

/-- A calendar entry as CAL_CLEAR leaves it (R164). -/
def clearedEntry : CalEntry where
  enabled := false
  days := 0
  hours := 0
  minute := 0
  slot := 0
  priority := .low
  lastFired := none

/-- A quiet window at its defaults (R162). -/
def defaultWindow : QuietWindow where
  days := 0
  start := 0
  stop := 0
  level := 0

/-- The drive bank after either reset (R37). -/
def Drive.initial : Drive := { mode := .off, level := 0, idle := 0 }

/-- The Tower Timebase after power-on (R83). -/
def Timebase.initial : Timebase where
  count := 0
  tower := 0
  validity := .unset
  lock := .reference
  trim := 0
  slew := 0
  close := 0
  reference := none
  beaconBase := none
  markBase := none
  lastMark := none
  stepAt := none

/-- The Line Controller after either reset (R101). -/
def Line.initial : Line where
  queue := []
  sending := none
  setAside := none
  errors := []
  txErrors := 0
  faultAt := none
  clashAt := none
  beaconTimer := 0
  ackDriven := false

/-- The floor record after either reset (R121). -/
def FloorRecord.initial : FloorRecord := { holder := none, fading := none }

/-- The Silence Controller before its inputs are sampled, with its mask (R180). -/
def Silence.initial (mask : BitVec 8) : Silence where
  state := .voiced
  level := 0
  fadeCount := 0
  conds := 0
  mask := mask
  resumable := false
  hold := 0

/-- The strike trace after power-on (R189). -/
def StrikeTrace.initial : StrikeTrace := { records := [], state := .open, remaining := 0 }

/-- The free busy state of both play contacts (R168). -/
def freeContacts : Vector ContactState 2 := Vector.replicate 2 { busy := false, slot := none }

/-- Straps all 0 (DESIGN CHOICE, unsafe: notes/assumptions/5.md; the straps are the board's). -/
def zeroStraps : Straps where
  station := 0
  fastLine := false
  bellBase := 0
  channelCount := 0
  timeSource := false

/-- Inputs all inactive (DESIGN CHOICE, unsafe: notes/assumptions/5.md). -/
def quietPins : Pins where
  access := false
  chargerFault := false
  coilHot := false
  feedback := false
  contact1 := false
  contact2 := false

end Sys2Proof.Machine
end

