-- ==== Sys2Proof/Machine/State.lean ====
section
/-! DEFINITION. The state of the node, the reasons a step can stop, and the state right after power-on. -/

namespace Sys2Proof.Machine

/-- Why the machine stops: it never does. The manual gives every command an effect in every state
(R181; 95_what_each_step_holds), so there is no fault to name. -/
inductive Fault where
  deriving DecidableEq, Repr

/-- Why a command has no meaning here. -/
inductive Refusal where
  /-- Raised by an arm of `exec` whose command has no meaning in the model yet; safe. No arm does. -/
  | notModelled (mnemonic : String)
  deriving DecidableEq, Repr

/-! ### The whole -/

/-- The state of the node, one field for each block (00_scope, Block overview), and the queue of commands
that wait. -/
structure State where
  powered : Bool
  straps : Straps
  pins : Pins
  settings : Settings
  listen : Option LocalCount
  channels : Vector Channel 8
  halted : ChannelMask
  drive : Drive
  queue : List Entry
  admission : BitVec 32
  time : Timebase
  line : Line
  peers : Vector PeerRecord 16
  floor : FloorRecord
  conductor : Conductor
  library : Library
  calendar : Calendar
  silence : Silence
  trace : StrikeTrace
  service : ServiceUnit
  counters : Vector Nat 36
  free : Nat
  pending : List Instr
  deriving DecidableEq, Repr

/-- The machine right after reset: power-on with the straps at 0, the inputs inactive and a settings
memory marked invalid (R22, R37, R62, R83, R101, R121, R143, R157, R168, R180, R186, R187, R189). -/
def State.reset : State where
  powered := true
  straps := zeroStraps
  pins := quietPins
  settings := defaultSettings
  listen := some 0
  channels := Vector.replicate 8 (freshChannel defaultVoicing)
  halted := 0
  drive := Drive.initial
  queue := []
  admission := 0
  time := Timebase.initial
  line := Line.initial
  peers := Vector.replicate 16 .absent
  floor := FloorRecord.initial
  conductor := { slots := Vector.replicate 4 .idle, sequence := 0 }
  library :=
    { parts := Vector.replicate 32 .empty
      overlay := false
      locks := Vector.replicate 32 0 }
  calendar :=
    { entries := Vector.replicate 24 clearedEntry
      windows := Vector.replicate 4 defaultWindow
      contacts := freeContacts
      due := []
      decided := []
      settled := [] }
  silence := Silence.initial 0xFF#8
  trace := StrikeTrace.initial
  service := { settingsState := .lost, memory := none, reply := none }
  counters := Vector.replicate 36 0
  free := 0
  pending := []

end Sys2Proof.Machine
end

