-- ==== Sys2Proof/Machine/Operands.lean ====
section
/-! DEFINITION. What the rules read: signed differences of tower times, intervals of local ticks, the
straps' channels, channel states, the charger enable output, the resolved tune slots, the own peer
record. Nothing here changes the state. -/

namespace Sys2Proof.Machine

/-! ### Tower times (R63, R64) -/

/-- The signed difference d(a, b) (R64). Values of W or more are read modulo W
(DESIGN CHOICE, unsafe: notes/assumptions/8.md). -/
def dist (a b : Nat) : Int :=
  let r := (a + (Config.week - b % Config.week)) % Config.week
  if r ≤ Config.halfWeek then (r : Int) else (r : Int) - (Config.week : Int)

/-- The sum of a tower time and a number of ticks, modulo W (R63). -/
def plus (t n : Nat) : Nat := (t + n) % Config.week

/-- A tower time less a number of ticks, modulo W (R63). -/
def minus (t n : Nat) : Nat := (t + (Config.week - n % Config.week)) % Config.week

/-- "a is before b" (R64). -/
def isBefore (a b : Nat) : Bool := decide (dist a b < 0)

/-- "a is after b", with two times half a week apart each after the other
(DEDUCED, safe: notes/assumptions/7.md). -/
def isAfter (a b : Nat) : Bool := decide (0 < dist a b)

/-- "a is at or after b": not before it (R64). -/
def reached (a b : Nat) : Bool := decide (0 ≤ dist a b)

/-- "a is at or before b": before it, or equal to it (R64). -/
def atOrBefore (a b : Nat) : Bool := decide (dist a b ≤ 0)

/-- The later of two tower times, the first when neither is after the other (R16, R46, R127). Of two times exactly half
a week apart, each after the other by R64, it is the second (DESIGN CHOICE, notes/assumptions/57.md). -/
def later (a b : Nat) : Nat := if isAfter b a then b else a

/-- The day of a tower time (R63). -/
def dayOf (t : Nat) : Nat := t / Config.day
/-- The minute of day of a tower time (R63). -/
def minuteOfDay (t : Nat) : Nat := (t % Config.day) / Config.minute
/-- The hour of a tower time (R63). -/
def hourOf (t : Nat) : Nat := minuteOfDay t / 60

/-- Local ticks from one count to another, modulo 2^32 (R65). -/
def ticksSince (now start : LocalCount) : Nat := (now - start).toNat

/-- A timer of local ticks, one tick on (R65): an interval of local ticks is counted modulo 2^32. -/
def tickOn (n : Nat) : Nat := (n + 1) % 4294967296

/-- The local count has reached a count set before it (R127): it lies within half the range of the count after it
(DESIGN CHOICE, notes/assumptions/45.md). -/
def countReached (now target : LocalCount) : Bool := decide ((now - target).toNat < 2147483648)

/-! ### Lists of every index -/

/-- The channel positions, ascending. -/
def allChannels : List (Fin 8) := [0, 1, 2, 3, 4, 5, 6, 7]
/-- The performance slots, ascending. -/
def allSlots : List (Fin 4) := [0, 1, 2, 3]
/-- The stations, ascending. -/
def allStations : List (Fin 16) := [0, 1, 2, 3, 4, 5, 6, 7, 8, 9, 10, 11, 12, 13, 14, 15]
/-- The calendar entries, ascending. -/
def allEntries : List (Fin 24) :=
  [0, 1, 2, 3, 4, 5, 6, 7, 8, 9, 10, 11, 12, 13, 14, 15, 16, 17, 18, 19, 20, 21, 22, 23]

/-! ### Straps and channels (R1, R2) -/

/-- The bell base: the strap value plus one (R1). -/
def bellBase (s : State) : Nat := s.straps.bellBase.toNat + 1

/-- The number of present channels (R1). -/
def presentCount (s : State) : Nat := min (s.straps.channelCount.toNat + 1) (65 - bellBase s)

/-- Channel k is present (R1). -/
def isPresent (s : State) (k : Fin 8) : Bool := decide (k.val < presentCount s)

/-- The tower bell of channel k (R1). -/
def bellOf (s : State) (k : Fin 8) : Nat := bellBase s + k.val

/-- The present channel of a bell of the node's bell range (R1, R41). -/
def channelOfBell (s : State) (bell : Nat) : Option (Fin 8) :=
  allChannels.find? fun k => isPresent s k && bellOf s k == bell

/-- A bell mask holds a bell 1 to 64. -/
def maskHas (mask : BellMask) (bell : Nat) : Bool := mask.getLsbD (bell - 1)

/-- A bell mask holds at least one bell of the node's bell range (R29, R106). -/
def touches (s : State) (mask : BellMask) : Bool :=
  allChannels.any fun k => isPresent s k && maskHas mask (bellOf s k)

/-- The channels present, as flags. -/
def presentMask (s : State) : ChannelMask := BitVec.ofNat 8 (2 ^ presentCount s - 1)

/-- Channel state (R2). -/
def channelState (s : State) (k : Fin 8) : ChannelState :=
  if !isPresent s k then .absent
  else if s.channels[k].conflict then .conflict
  else if s.halted.getLsbD k.val then .halted
  else .run

/-- The playable mask: the channels that are RUN (R96). -/
def playableMask (s : State) : ChannelMask :=
  BitVec.ofNat 8 (allChannels.foldl
    (fun n k => if channelState s k = .run then n + 2 ^ k.val else n) 0)

/-! ### Voicing (R6, R9, R27) -/

/-- The pulse width at velocity v, 1 to 15 (R6). -/
def pulseWidth (v : Voicing) (velocity : Nat) : Nat := v.curve.toList.getD (velocity - 1) 0

/-- The flight at velocity v (R9). -/
def flightAt (v : Voicing) (velocity : Nat) : Nat :=
  v.f1 - ((v.f1 - v.f15) * (velocity - 1) + 7) / 14

/-- The cost of a strike at velocity v (R27). -/
def strikeCost (v : Voicing) (velocity : Nat) : Nat := pulseWidth v velocity * v.coil

/-! ### Hammers, dampers, queue -/

/-- The hammer is at REST (R11). -/
def Channel.atRest (c : Channel) : Bool := decide (c.hammer = .rest)

/-- A channel is clear (R50). -/
def isClear (s : State) (k : Fin 8) : Bool :=
  let c := s.channels[k]
  c.atRest &&
  match c.lastFired with
  | none => true
  | some l => reached s.time.tower (plus l.launch l.back)

/-- An entry's launch time lies before the channel's last fired launch plus the return time H of its stroke, the
earliest moment at which the next strike of the channel may launch (R50). -/
def withinReturn (s : State) (e : Entry) : Bool :=
  match s.channels[e.channel].lastFired with
  | none => false
  | some l => isBefore e.launch (plus l.launch l.back)

/-- The entries queued on a channel, in queue order. -/
def entriesOn (s : State) (k : Fin 8) : List Entry := s.queue.filter fun e => e.channel == k

/-- An entry's launch time has been reached (R50). -/
def launchReached (s : State) (e : Entry) : Bool := reached s.time.tower e.launch

/-- Tower time is past an entry's launch time by more than the late limit (R50). -/
def pastLimit (s : State) (e : Entry) : Bool :=
  decide ((s.settings.lateLimit : Int) < dist s.time.tower e.launch)

/-- An entry's launch time is before tower time by more than the late limit (R61, R64). -/
def passedBy (s : State) (e : Entry) : Bool := isBefore e.launch s.time.tower && pastLimit s e

/-- An entry's launch event may be taken now (R50). -/
def launchDue (s : State) (e : Entry) : Bool :=
  launchReached s e &&
    (isClear s e.channel || decide (channelState s e.channel ≠ .run) || pastLimit s e)

/-- An entry whose launch time is reached while its channel is RUN and not clear is held (R50). -/
def becomesHeld (s : State) (e : Entry) : Bool :=
  launchReached s e && decide (channelState s e.channel = .run) && !isClear s e.channel

/-- An entry belongs to a performance. -/
def Entry.ownedBy (e : Entry) (p : PerfId) : Bool := decide (e.owner = .perf p)

/-- The fading part of the floor record, when the entry belongs to the fading performance (R52). -/
def fadingOf (s : State) (e : Entry) : Option FadingPart :=
  match s.floor.fading with
  | some f => if e.ownedBy f.perf then some f else none
  | none => none

/-! ### Drive bank -/

/-- The drive state is CHARGING or READY (R25, R30). -/
def bankUp (d : DriveState) : Bool :=
  match d with
  | .off => false
  | .charging => true
  | .ready => true
  | .draining => false

/-- The charger enable output (R25). -/
def chargerEnable (s : State) : Bool := bankUp s.drive.mode && !s.pins.chargerFault

/-- The floor holder's bell mask touches the node's bell range (R30, R34). -/
def holderTouches (s : State) : Bool :=
  match s.floor.holder with
  | none => false
  | some h => touches s h.mask

/-- The idle timer runs (R30). -/
def idleRuns (s : State) : Bool := bankUp s.drive.mode && s.queue.isEmpty && !holderTouches s

/-! ### Silence -/

/-- The place of a condition's flag (R169). -/
def Condition.place : Condition → Nat
  | .timeUnlocked => 0
  | .timeStep => 1
  | .lineFault => 2
  | .checkErrors => 3
  | .driveFault => 4
  | .coilHot => 5
  | .stationClash => 6
  | .access => 7

/-- The hard conditions (R169). -/
def Condition.hard : Condition → Bool
  | .timeUnlocked => false
  | .timeStep => false
  | .lineFault => false
  | .checkErrors => false
  | .driveFault => true
  | .coilHot => true
  | .stationClash => true
  | .access => true

/-- The eight conditions in the order of R169. -/
def allConditions : List Condition :=
  [.timeUnlocked, .timeStep, .lineFault, .checkErrors, .driveFault, .coilHot, .stationClash, .access]

/-- The flag of a condition. -/
def Condition.flag (c : Condition) : BitVec 8 := BitVec.twoPow 8 c.place

/-- A condition is in a set of flags. -/
def hasCondition (m : BitVec 8) (c : Condition) : Bool := m.getLsbD c.place

/-- The enabled active conditions (R169). -/
def enabledActive (x : Silence) : BitVec 8 := x.conds &&& x.mask

/-! ### Peers (R97, R99) -/

/-- The holder a node names in its beacon (R96). -/
def holderSeen (s : State) : Option PerfId := s.floor.holder.map fun h => h.perf

/-- What the node announces of itself at this moment (R96, R99). Its tower time is written at the start edge. -/
def ownBeacon (s : State) : NodeBeacon where
  validity := s.time.validity
  lock := s.time.lock
  drive := s.drive.mode
  silence := s.silence.state
  tower := BitVec.ofNat 32 s.time.tower
  playable := playableMask s
  bellBase := s.straps.bellBase
  count := BitVec.ofNat 3 (presentCount s - 1)
  holder := holderSeen s

/-- A station's record; the node's own holds its present values and is ABSENT during the listen period
and LIVE from its end (R99). Its last heard is the present local count (DESIGN CHOICE, notes/assumptions/44.md). -/
def peerRecord (s : State) (st : Fin 16) : PeerRecord :=
  if st = s.straps.station then
    match s.listen with
    | some _ => .absent
    | none => .live { lastHeard := s.time.count, body := .node (ownBeacon s) }
  else s.peers[st]

/-- The last beacon of a LIVE record of kind NODE. -/
def liveNode : PeerRecord → Option NodeBeacon
  | .live i =>
    match i.body with
    | .node b => some b
    | .console => none
  | .absent => none
  | .lapsed _ => none

/-- The announced bell range of a beacon holds a bell (R5, R99). -/
def announces (b : NodeBeacon) (bell : Nat) : Bool :=
  decide (b.bellBase.toNat + 1 ≤ bell ∧ bell ≤ b.bellBase.toNat + 1 + b.count.toNat)

/-- A beacon's station is ready for a bell (R99). -/
def readyFor (b : NodeBeacon) (bell : Nat) : Bool :=
  announces b bell && b.playable.getLsbD (bell - (b.bellBase.toNat + 1)) &&
    decide (b.drive = .ready) && decide (b.silence = .voiced)

/-- A bell has a ready owner (R99, R128). -/
def hasReadyOwner (s : State) (bell : Nat) : Bool :=
  allStations.any fun st =>
    match liveNode (peerRecord s st) with
    | some b => readyFor b bell
    | none => false

/-- The bells of a mask, ascending (R128). -/
def bellsOf (mask : BellMask) : List Nat := ((List.range 64).map (· + 1)).filter (maskHas mask)

/-- The ensemble gate passes (R128). -/
def gatePasses (s : State) (rule : Ensemble) (mask : BellMask) : Bool :=
  match rule with
  | .all => (bellsOf mask).all (hasReadyOwner s)
  | .any => (bellsOf mask).isEmpty || (bellsOf mask).any (hasReadyOwner s)

/-! ### Transmit queue -/

/-- The frame's kind (R86). -/
def Frame.kind : Frame → FrameKind
  | .claim pr _ => .claim pr
  | .floor pr _ => .floor pr
  | .release _ _ => .release
  | .presence _ => .presence
  | .order _ _ _ => .order
  | .reply _ => .reply

/-- A frame is a PRESENCE. -/
def Frame.isPresence : Frame → Bool
  | .presence _ => true
  | .claim _ _ => false
  | .floor _ _ => false
  | .release _ _ => false
  | .order _ _ _ => false
  | .reply _ => false

/-- The identifier's value of a frame of this node (R86). -/
def txIdent (s : State) (f : Frame) : Nat := (f.kind.ident s.straps.station).toNat

/-- Frames queued, the one in transmission among them (R91). -/
def txCount (s : State) : Nat :=
  s.line.queue.length + (match s.line.sending with
    | some _ => 1
    | none => 0)

/-- The highest frame not in transmission: the newest of those with the highest identifier, which is the
last of the queue's order (R91, R92). -/
def txHighest (s : State) : Option TxFrame := s.line.queue.getLast?

/-- The transmit queue would take a frame of this kind now (R92, R125). -/
def txCanTake (s : State) (f : Frame) : Bool :=
  decide (txCount s < Config.txSize) ||
  match txHighest s with
  | some x => decide (txIdent s f < txIdent s x.frame)
  | none => false

/-! ### Tune library (R145, R149) -/

/-- The part a slot number resolves to (R145). -/
inductive Resolved where
  | resident (n : Fin 6)
  | nothing
  | part (p : LoadedPart)
  deriving DecidableEq, Repr

/-- What a slot resolves to (R145). -/
def resolveSlot (s : State) (t : Fin 32) : Resolved :=
  if s.library.overlay || decide (8 ≤ t.val) then .part s.library.parts[t]
  else if t.val < 6 then .resident (Fin.ofNat 6 t.val)
  else .nothing

/-- A loaded part's events in the pool: its tune's, or its reservation (R149). -/
def LoadedPart.poolEvents : LoadedPart → Nat
  | .empty => 0
  | .loading h _ _ => h.count
  | .valid h _ _ => h.count

/-- The used count of the event pool (R149). -/
def poolUsed (s : State) : Nat := (s.library.parts.toList.map LoadedPart.poolEvents).sum

/-- The free count of the event pool (R149). -/
def poolFree (s : State) : Nat := Config.poolSize - poolUsed s

/-- A slot is locked (R144). -/
def isLocked (s : State) (t : Fin 32) : Bool := decide (0 < s.library.locks[t])

/-! ### Service frames (R181) -/

/-- The node is targeted: its own station number, or 31 for all (R181). -/
def targeted (s : State) (h : Service) : Bool :=
  decide (h.target.toNat = s.straps.station.val ∨ h.target.toNat = 31)

/-- A settings store is in progress (R185). -/
def storing (s : State) : Bool :=
  match s.service.settingsState with
  | .storing _ _ => true
  | .valid => false
  | .lost => false

/-- Settings state as reported (R185). -/
def settingsKind (s : State) : SettingsKind :=
  match s.service.settingsState with
  | .storing _ _ => .storing
  | .valid => .valid
  | .lost => .lost

/-! ### Performance slots (R122, R123) -/

/-- A slot's performance, when the slot is not free. -/
def Slot.perf? : Slot → Option Perf
  | .active p => some p
  | .idle => none
  | .ended _ _ => none

/-- A slot is free: IDLE or ENDED (R123). -/
def Slot.isFree (x : Slot) : Bool := x.perf?.isNone

/-- The phases in which a slot takes its performance to be holder (R122, R136). -/
def Phase.holds : Phase → Bool
  | .preroll => false
  | .claiming => false
  | .waiting => false
  | .gathering => true
  | .playing => true
  | .ending => true

/-- The slot, not free, that has a sequence. -/
def slotOfSeq (s : State) (seq : BitVec 8) : Option (Fin 4) :=
  allSlots.find? fun k =>
    match s.conductor.slots[k].perf? with
    | some p => decide (p.seq = seq)
    | none => false

/-- The lowest-numbered free slot (R123). -/
def freeSlot (s : State) : Option (Fin 4) := allSlots.find? fun k => s.conductor.slots[k].isFree

end Sys2Proof.Machine
end

