-- ==== Sys2Proof/Machine/Ops.lean ====
section
/-! DEFINITION. The named operations on counters, the strike trace, channel records, the drive bank and the
dampers. The Silence Controller's own are in Flags.lean. -/

namespace Sys2Proof.Machine

/-! ### Counters (R57) -/

/-- A counter raised by one, saturating (R57). -/
def raise (c : Counter) (s : State) : State :=
  { s with counters := s.counters.set c.index (min Config.counterMax (s.counters[c.index] + 1)) }

/-- The value of a counter. -/
def readCounter (s : State) (c : Counter) : Nat := s.counters[c.index]

/-- Every counter at 0 (R183). -/
def zeroCounters : Vector Nat 36 := Vector.replicate 36 0

/-! ### Strike trace (R188) -/

/-- A trigger: the remaining count takes the post count (R188). -/
def fireTrigger (s : State) : State :=
  let n := s.settings.postCount
  { s with trace := { s.trace with remaining := n, state := if n = 0 then .frozen else .counting } }

/-- An entry to SILENT is announced to the strike trace (R179, R188). -/
def silentTrigger (s : State) : State :=
  if s.trace.state = .open ∧ s.settings.trigger = .silentEntry then fireTrigger s else s

/-- The writing of a record with this outcome is a trigger (R188). -/
def recordTriggers (t : Trigger) (o : StrikeOutcome) : Bool :=
  match t with
  | .none => false
  | .silentEntry => false
  | .starved => decide (o = .starved)
  | .notFired => decide (o ≠ .fired)

/-- A record at the newest end, the oldest removed first when 64 are held (R188). -/
def pushRecord (r : StrikeRecord) (records : List StrikeRecord) : List StrikeRecord :=
  records.drop (records.length + 1 - Config.traceSize) ++ [r]

/-- A record is offered to the trace (R56, R188). -/
def writeRecord (r : StrikeRecord) (s : State) : State :=
  match s.trace.state with
  | .frozen => s
  | .counting =>
    let n := s.trace.remaining - 1
    { s with trace :=
      { records := pushRecord r s.trace.records
        state := if n = 0 then .frozen else .counting
        remaining := n } }
  | .open =>
    let s1 := { s with trace := { s.trace with records := pushRecord r s.trace.records } }
    if recordTriggers s.settings.trigger r.outcome then fireTrigger s1 else s1

/-- The counter named after an outcome (R56). -/
def outcomeCounter : StrikeOutcome → Counter
  | .fired => .fired
  | .degraded => .degraded
  | .halted => .halted
  | .silenced => .silenced
  | .starved => .starved
  | .purged => .purged

/-- The record of an entry that did not fire: its actual launch is the tower time at which it left (R56). -/
def unfiredRecord (s : State) (e : Entry) (o : StrikeOutcome) : StrikeRecord where
  channel := e.channel
  owner := e.owner
  impact := e.impact
  launch := s.time.tower
  requested := e.velocity
  fired := 0
  outcome := o
  lateness := 0

/-! ### Channels -/

/-- Channel k's record changed by f. -/
def updChannel (k : Fin 8) (f : Channel → Channel) (s : State) : State :=
  { s with channels := s.channels.set k (f s.channels[k]) }

/-- Every channel record changed by f. -/
def mapChannels (f : Channel → Channel) (s : State) : State :=
  { s with channels := Vector.ofFn fun k : Fin 8 => f s.channels[k] }

/-! ### Drive bank (R23 to R35) -/

/-- CHARGING and READY follow the bank level and the ready level (R28). -/
def driveFor (s : State) (mode : DriveState) (level : Nat) : DriveState :=
  match mode with
  | .charging => if s.settings.readyLevel ≤ level then .ready else .charging
  | .ready => if s.settings.readyLevel ≤ level then .ready else .charging
  | .off => .off
  | .draining => .draining

/-- The drive state re-derived from E and the ready level (R28). -/
def bankSync (s : State) : State :=
  { s with drive := { s.drive with mode := driveFor s s.drive.mode s.drive.level } }

/-- A wake (R29); while access is active it leaves the drive state as it is (R34). -/
def wakeBank (s : State) : State :=
  let mode :=
    if s.pins.access then s.drive.mode
    else
      match s.drive.mode with
      | .off => .charging
      | .draining => if s.settings.readyLevel ≤ s.drive.level then .ready else .charging
      | .charging => .charging
      | .ready => .ready
  { s with drive := { s.drive with mode := mode, idle := 0 } }

/-- Every present channel has its hammer at REST and its damper DOWN with no pending drop (R32). -/
def settled (s : State) : Bool :=
  allChannels.all fun k =>
    !isPresent s k ||
      (s.channels[k].atRest && !s.channels[k].damperUp && s.channels[k].drop.isNone)

/-- Drain completion, tested (R32). -/
def drainCheck (s : State) : State :=
  if s.drive.mode = .draining ∧ settled s then
    { s with drive := { s.drive with mode := .off, level := 0 } }
  else s

/-- The drain begins (R31), and its completion is tested at once (R32). -/
def startDrain (s : State) : State :=
  drainCheck { s with drive := { s.drive with mode := .draining, idle := 0 } }

/-- A local tick's charge: q when the charger enable output is asserted and the feedback shows the
charger running (R25, R26). -/
def chargeTick (s : State) : State :=
  if chargerEnable s ∧ s.pins.feedback then
    bankSync { s with drive :=
      { s.drive with level := min Config.bankFull (s.drive.level + s.settings.recharge) } }
  else s

/-- A local tick of the idle timer (R30, R65). -/
def idleTick (s : State) : State :=
  { s with drive := { s.drive with idle := if idleRuns s then tickOn s.drive.idle else 0 } }

/-- The bank shut at once: OFF, E 0, idle timer 0, hammer gates released (R10, R34). -/
def shutBank (s : State) : State :=
  mapChannels (fun c => { c with gate := none }) { s with drive := Drive.initial }

/-! ### Dampers (R14 to R19) -/

/-- Some entry queued on the channel has a lift time already reached, so the earliest is (R15, R58). Where R64 names no
earliest, any reached one serves (DESIGN CHOICE, notes/assumptions/59.md). -/
def liftReached (s : State) (k : Fin 8) : Bool :=
  (entriesOn s k).any fun e =>
    match e.lift with
    | some t => reached s.time.tower t
    | none => false

/-- A DOWN damper lifts when the earliest queued lift time is reached and access is not active
(R15, R19). -/
def tryLift (k : Fin 8) (s : State) : State :=
  if isPresent s k ∧ s.channels[k].voicing.damped ∧ !s.channels[k].damperUp ∧ !s.pins.access ∧
      liftReached s k then
    updChannel k (fun c => { c with damperUp := true }) s
  else s

/-- The idle drop, tested (R18); a drain may complete at it (R32). -/
def idleDrop (k : Fin 8) (s : State) : State :=
  let c := s.channels[k]
  if c.voicing.damped ∧ c.damperUp ∧ c.drop = none ∧ entriesOn s k = [] ∧ c.atRest then
    drainCheck (updChannel k (fun c => { c with damperUp := false }) s)
  else s

/-- A queued lift time lies at or before a drop time plus the damper lead (R17). -/
def dropSkipped (s : State) (k : Fin 8) (t : Nat) : Bool :=
  (entriesOn s k).any fun e =>
    match e.lift with
    | some l => atOrBefore l (plus t s.channels[k].voicing.lead)
    | none => false

/-- A pending drop time that tower time has reached (R14, R17). -/
def dropDue (s : State) (k : Fin 8) : Option Nat :=
  match s.channels[k].drop with
  | some t => if s.channels[k].voicing.damped ∧ reached s.time.tower t then some t else none
  | none => none

/-- The drop at a pending drop time reached: skipped, or the damper falls (R17), and lifts again at once
when a lift time is already reached (R15). -/
def dropDamper (k : Fin 8) (s : State) : State :=
  match dropDue s k with
  | none => s
  | some t =>
    if dropSkipped s k t then updChannel k (fun c => { c with drop := none }) s
    else drainCheck (tryLift k
      (updChannel k (fun c => { c with drop := none, damperUp := false }) s))

/-- Every damper falls and every pending drop is cleared (R19, R22). -/
def dropAll (s : State) : State :=
  mapChannels (fun c => { c with damperUp := false, drop := none }) s

end Sys2Proof.Machine
end

