-- ==== Sys2Proof/Machine/Flags.lean ====
section
/-! DEFINITION. The Silence Controller: its condition set, its state, its reduction and its fade (R169 to
R178), and the lock state, which asserts and clears TIME_UNLOCKED (R80). -/

namespace Sys2Proof.Machine

/-- SILENT with s 15; an entry from another state is announced to the strike trace (R172, R179).
`mark` is the resumable mark. -/
def goSilent (mark : Bool) (s : State) : State :=
  let s1 := { s with silence := { s.silence with
    state := .silent, level := 15, fadeCount := 0, resumable := mark, hold := 0 } }
  if s.silence.state = .silent then s1 else silentTrigger s1

/-- VOICED with s 0 (R175, R176). -/
def goVoiced (s : State) : State :=
  { s with silence := { s.silence with
    state := .voiced, level := 0, fadeCount := 0, resumable := false, hold := 0 } }

/-- HOLDING with the hold timer at 0; a hold time of 0 is reached at once (R174, R175). -/
def goHolding (s : State) : State :=
  if s.settings.holdTime = 0 then goVoiced s
  else { s with silence := { s.silence with
    state := .holding, level := 15, fadeCount := 0, resumable := false, hold := 0 } }

/-- FADING with no entry queued becomes SILENT (R173). -/
def fadeOut (s : State) : State :=
  if s.silence.state = .fading ∧ s.queue = [] then goSilent false s else s

/-- FADING with s 1 and fade count 0 (R172). -/
def goFading (s : State) : State :=
  fadeOut { s with silence := { s.silence with
    state := .fading, level := 1, fadeCount := 0, resumable := false, hold := 0 } }

/-- A condition has become an enabled active condition (R172). -/
def actOn (c : Condition) (s : State) : State :=
  if c.hard then goSilent false s
  else
    match s.silence.state with
    | .voiced => goFading s
    | .fading => s
    | .silent => { s with silence := { s.silence with resumable := false } }
    | .holding => goSilent false s

/-- The last enabled active condition has ceased to be one (R174). -/
def allCleared (s : State) : State :=
  match s.silence.state with
  | .voiced => s
  | .holding => s
  | .fading =>
    match s.settings.resume with
    | .auto => goHolding s
    | .manual => goSilent true s
  | .silent =>
    match s.settings.resume with
    | .auto => goHolding s
    | .manual => goSilent true s

/-- A block asserts a condition (R169). -/
def assertCond (c : Condition) (s : State) : State :=
  if hasCondition s.silence.conds c then s
  else
    let s1 := { s with silence := { s.silence with conds := s.silence.conds ||| c.flag } }
    if hasCondition s.silence.mask c then actOn c s1 else s1

/-- A block clears a condition (R169, R174). -/
def clearCond (c : Condition) (s : State) : State :=
  if hasCondition s.silence.conds c then
    let s1 := { s with silence := { s.silence with conds := s.silence.conds &&& ~~~c.flag } }
    if hasCondition s.silence.mask c ∧ enabledActive s1.silence = 0 then allCleared s1 else s1
  else s

/-- The fade's count of a launch event (R173). -/
def fadeStepSilence (s : State) : State :=
  if s.silence.state = .fading then
    let n := s.silence.fadeCount + 1
    if s.settings.fadeStep ≤ n then
      if 15 ≤ s.silence.level + 1 then goSilent false s
      else { s with silence := { s.silence with fadeCount := 0, level := s.silence.level + 1 } }
    else { s with silence := { s.silence with fadeCount := n } }
  else s

/-- The conditions that become enabled and active by a new mask act in the order of R169 (R178). -/
def actNewlyEnabled (before : BitVec 8) (s : State) : State :=
  allConditions.foldl
    (fun t c =>
      if hasCondition (enabledActive s.silence) c ∧ !hasCondition before c then actOn c t else t) s

/-- A new enable mask takes effect (R170, R178). -/
def setMask (mask : BitVec 8) (s : State) : State :=
  let before := enabledActive s.silence
  let s1 := { s with silence := { s.silence with mask := mask } }
  let s2 := actNewlyEnabled before s1
  if before ≠ 0 ∧ enabledActive s2.silence = 0 then allCleared s2 else s2

/-- A local tick of the hold timer (R175). -/
def holdTick (s : State) : State :=
  if s.silence.state = .holding then
    { s with silence := { s.silence with hold := tickOn s.silence.hold } }
  else s

/-- The hold timer has reached the hold time (R175, R177). -/
def holdReached (s : State) : Bool :=
  decide (s.silence.state = .holding ∧ s.settings.holdTime ≤ s.silence.hold)

/-- The lock state takes a value, and TIME_UNLOCKED follows it (R80). -/
def setLock (l : LockState) (s : State) : State :=
  let s1 := { s with time := { s.time with lock := l } }
  if l = .acquiring then assertCond .timeUnlocked s1 else clearCond .timeUnlocked s1

end Sys2Proof.Machine
end

