-- ==== Sys2Proof/Machine/Strike.lean ====
section
/-! DEFINITION. The Strike Scheduler: purges, the launch event, admission, and the queue's answer to a step of
tower time (R38 to R62). -/

namespace Sys2Proof.Machine

/-! ### Removal (R58, R59, R115) -/

/-- No entry of the fading performance remains: the fading part is cleared (R115). -/
def checkFading (s : State) : State :=
  match s.floor.fading with
  | none => s
  | some f =>
    if s.queue.any fun e => e.ownedBy f.perf then s
    else { s with floor := { s.floor with fading := none } }

/-- What every removal of an entry brings: the fading part may be cleared (R115), the channel's idle drop
is tested (R18, R58), and FADING with an empty queue ends (R173). -/
def afterRemoval (e : Entry) (s : State) : State :=
  let s1 := if (fadingOf s e).isSome then checkFading s else s
  fadeOut (idleDrop e.channel s1)

/-- An entry taken out of the queue. -/
def dequeue (e : Entry) (s : State) : State := { s with queue := s.queue.erase e }

/-- An entry leaves without a launch event, with an outcome, its record and its counter
(R56, R59, R61). -/
def removeEntry (o : StrikeOutcome) (e : Entry) (s : State) : State :=
  afterRemoval e (raise (outcomeCounter o) (writeRecord (unfiredRecord s e o) (dequeue e s)))

/-- A purge of the entries selected, in queue order (R59). -/
def purge (selects : Entry → Bool) (s : State) : State :=
  (s.queue.filter selects).foldl (fun t e => removeEntry .purged e t) s

/-- All entries of a performance are purged (R60). -/
def purgePerf (p : PerfId) (s : State) : State := purge (fun e => e.ownedBy p) s

/-- All TEST entries are purged (R60). -/
def purgeTest (s : State) : State := purge (fun e => decide (e.owner = .test)) s

/-! ### The launch event (R50 to R56) -/

/-- What a launch event comes to (R51). -/
inductive Served where
  | unfired (o : StrikeOutcome)
  | fired (velocity : Nat) (o : StrikeOutcome)
  deriving DecidableEq, Repr

/-- The preempt reduction that applies to an entry (R52). -/
def preemptReduction (s : State) (e : Entry) : Nat :=
  match fadingOf s e with
  | some f => f.reduction
  | none => 0

/-- The effective velocity (R52). -/
def effectiveVelocity (s : State) (e : Entry) : Nat :=
  e.velocity - s.silence.level - preemptReduction s e

/-- The energy available to a priority (R27). -/
def available (s : State) (priority : Nat) : Nat :=
  if 3 ≤ priority then s.drive.level else s.drive.level - s.settings.reserve

/-- The energy degrade: the first velocity from `v` down to 1 whose cost does not exceed the energy
available (R54). -/
def degrade (x : Voicing) (energy : Nat) : Nat → Option Nat
  | 0 => none
  | v + 1 => if strikeCost x (v + 1) ≤ energy then some (v + 1) else degrade x energy v

/-- The outcome of an entry at its launch event, by the first test that applies (R51). -/
def serve (s : State) (e : Entry) : Served :=
  if channelState s e.channel ≠ .run then .unfired .halted
  else if !isClear s e.channel then .unfired .silenced
  else if s.silence.state = .silent then .unfired .silenced
  else if !bankUp s.drive.mode then .unfired .starved
  else if effectiveVelocity s e = 0 then .unfired .silenced
  else
    match degrade s.channels[e.channel].voicing (available s e.priority) (effectiveVelocity s e) with
    | none => .unfired .starved
    | some u => if u = effectiveVelocity s e then .fired u .fired else .fired u .degraded

/-- A pending drop time joined by another: the later is kept (R16). -/
def joinDrop (old : Option Nat) (t : Nat) : Nat :=
  match old with
  | none => t
  | some u => later u t

/-- What a firing does to the channel: the gate, the stroke, the last fired launch, the pending drop
(R10, R12, R16, R55). -/
def fireChannel (now : LocalCount) (e : Entry) (velocity : Nat) (c : Channel) : Channel :=
  { c with
    gate := some { since := now, width := pulseWidth c.voicing velocity }
    hammer := .flying now (flightAt c.voicing velocity) c.voicing.back
    lastFired := some { launch := e.launch, back := c.voicing.back }
    drop :=
      match e.duration with
      | some d => if c.voicing.damped then some (joinDrop c.drop (plus e.impact d)) else c.drop
      | none => c.drop }

/-- A strike fires: the channel and the bank (R55). -/
def fireEntry (e : Entry) (velocity : Nat) (s : State) : State :=
  let cost := strikeCost s.channels[e.channel].voicing velocity
  bankSync (updChannel e.channel (fireChannel s.time.count e velocity)
    { s with drive := { s.drive with level := s.drive.level - cost } })

/-- The record of a fired strike, with its lateness (R55, R56). -/
def firedRecord (s : State) (e : Entry) (velocity : Nat) (o : StrikeOutcome) : StrikeRecord where
  channel := e.channel
  owner := e.owner
  impact := e.impact
  launch := e.launch
  requested := e.velocity
  fired := velocity
  outcome := o
  lateness := dist (plus e.launch (flightAt s.channels[e.channel].voicing velocity)) e.impact

/-- The preempt fade's count of a launch event (R53). -/
def preemptStep (e : Entry) (s : State) : State :=
  match fadingOf s e with
  | none => s
  | some f =>
    if f.reduction = 0 then s
    else
      let n := f.launches + 1
      let f' :=
        if s.settings.fadeStep ≤ n then { f with launches := 0, reduction := min 15 (f.reduction + 1) }
        else { f with launches := n }
      { s with floor := { s.floor with fading := some f' } }

/-- What every launch event brings besides its strike: its counter, the two fades' counts, and the removal's
own effects (R51, R53, R56, R173). -/
def closeLaunch (e : Entry) (o : StrikeOutcome) (s : State) : State :=
  afterRemoval e (fadeStepSilence (preemptStep e (raise (outcomeCounter o) s)))

/-- The entry as its launch event serves it: a held entry whose channel is clear is served from the tower
time of the launch event, and two fired launches of a channel are at least H apart (R50). An entry whose launch time and
whose channel's return one tick or step brings together carries no held mark; it is served as a held one all the same
(DEDUCED, notes/assumptions/42.md). -/
def servedEntry (s : State) (e : Entry) : Entry :=
  if (e.held || withinReturn s e) ∧ isClear s e.channel then { e with launch := s.time.tower } else e

/-- The launch event of an entry (R51). -/
def launchEntry (e : Entry) (s : State) : State :=
  let x := servedEntry s e
  let s1 := dequeue e s
  match serve s x with
  | .unfired o => closeLaunch x o (writeRecord (unfiredRecord s x o) s1)
  | .fired u o => closeLaunch x o (writeRecord (firedRecord s x u o) (fireEntry x u s1))

/-- An entry is marked held (R50). -/
def holdEntry (e : Entry) (s : State) : State :=
  { s with queue := s.queue.map fun x => if x = e then { x with held := true } else x }

/-- An entry's mark is taken away (R50). -/
def releaseEntry (e : Entry) (s : State) : State :=
  { s with queue := s.queue.map fun x => if x = e then { x with held := false } else x }

/-- Every entry whose launch time has been reached on a RUN channel that is not clear is held (R50). -/
def markHeld (s : State) : State :=
  { s with queue := s.queue.map fun e => if becomesHeld s e then { e with held := true } else e }

/-- The first entry in queue order whose launch event is due (R39, R50). -/
def firstDue (s : State) : Option Entry := s.queue.find? (launchDue s)

/-! ### Admission (R40 to R49) -/

/-- What an order belongs to at the full-queue stage (R47). -/
inductive Standing where
  | holder
  | fading
  | test
  deriving DecidableEq, Repr

/-- A launch time against the earliest moment for it: kept, moved to that moment when it is before it by
no more than the late limit, or discarded (R45, R46). -/
def clampLaunch (limit launch earliest : Nat) : Option Nat :=
  if reached launch earliest then some launch
  else if dist earliest launch ≤ (limit : Int) then some earliest
  else none

/-- The latest launch time among a channel's queued entries and its last fired launch (R46). Where R64 gives no latest,
the one listed later is taken, in queue order and the last fired launch at the end (DESIGN CHOICE,
notes/assumptions/57.md). -/
def latestLaunch (s : State) (k : Fin 8) : Option Nat :=
  let queued := (entriesOn s k).map Entry.launch
  let fired :=
    match s.channels[k].lastFired with
    | some l => [l.launch]
    | none => []
  (queued ++ fired).foldl
    (fun best t =>
      match best with
      | none => some t
      | some b => some (later b t)) none

/-- The channel's ready time (R46). -/
def readyTime (s : State) (k : Fin 8) : Option Nat :=
  (latestLaunch s k).map fun t => plus t s.channels[k].voicing.back

/-- What the planning stages make of an order (R44 to R46). -/
inductive Plan where
  | launch (t : Nat)
  | discard (c : Counter)
  deriving DecidableEq, Repr

/-- The flight and launch, lateness and restrike stages (R44, R45, R46). -/
def planLaunch (s : State) (k : Fin 8) (impact velocity now : Nat) : Plan :=
  let limit := s.settings.lateLimit
  match clampLaunch limit (minus impact (flightAt s.channels[k].voicing velocity)) now with
  | none => .discard .late
  | some t =>
    match readyTime s k with
    | none => .launch t
    | some r =>
      match clampLaunch limit t r with
      | none => .discard .tooClose
      | some u => .launch u

/-- The entry a full queue evicts for the holder's order: the fading entry with the latest launch time, the
last admitted among those, which is the last in queue order (R39, R47). Where R64 names no latest, it is the last in
queue order all the same (DESIGN CHOICE, notes/assumptions/58.md). -/
def evictable (s : State) : Option Entry :=
  (s.queue.filter fun e => (fadingOf s e).isSome).getLast?

/-- The full-queue stage: the state with room for one entry, or none when the order is discarded (R47). -/
def makeRoom (st : Standing) (s : State) : Option State :=
  if s.queue.length < Config.queueSize then some s
  else
    match st with
    | .holder => (evictable s).map fun e => removeEntry .purged e s
    | .fading => none
    | .test => none

/-- The entry at its place: before the first entry with a later launch time (R39, R48). An entry exactly half a week
away, whose order R64 does not give, is passed (DESIGN CHOICE, notes/assumptions/58.md). -/
def insertEntry (e : Entry) : List Entry → List Entry
  | [] => [e]
  | x :: rest => if isBefore e.launch x.launch then e :: x :: rest else x :: insertEntry e rest

/-- An insertion: the entry's place and number, the wake, the lift, and the launch event at once when it
is due (R39, R48, R50). -/
def insertStrike (e : Entry) (s : State) : State :=
  let x := { e with admission := s.admission, held := false }
  let s1 := tryLift e.channel (wakeBank
    { s with queue := insertEntry x s.queue, admission := s.admission + 1 })
  if launchDue s1 x then launchEntry x s1
  else if launchReached s1 x then holdEntry x s1
  else s1

/-- The entry an order becomes: duration and lift time only on a damped channel and with a duration
(R38, R48). -/
def newEntry (s : State) (k : Fin 8) (owner : Owner) (priority impact velocity launch : Nat)
    (duration : Option Nat) : Entry :=
  let v := s.channels[k].voicing
  let d := if v.damped then duration else none
  { channel := k, owner := owner, priority := priority, impact := impact, launch := launch,
    velocity := velocity, duration := d, lift := d.map fun _ => minus launch v.lead,
    admission := 0, held := false }

/-- The stages from flight and launch on (R44 to R49): the state after, and whether it was admitted. -/
def admitRequest (k : Fin 8) (owner : Owner) (priority impact velocity : Nat) (duration : Option Nat)
    (st : Standing) (now : Nat) (s : State) : State × Bool :=
  match planLaunch s k impact velocity now with
  | .discard c => (raise c s, false)
  | .launch t =>
    match makeRoom st s with
    | none => (raise .overflow s, false)
    | some s1 => (insertStrike (newEntry s k owner priority impact velocity t duration) s1, true)

/-- An impact lies before the fading part's cut-off, or there is none (R116). -/
def beforeCutoff (f : FadingPart) (impact : Nat) : Bool :=
  match f.cutoff with
  | none => true
  | some c => isBefore impact c

/-- The floor stage: the standing and priority of an order, or none when it is discarded (R42, R116). -/
def floorStanding (s : State) (p : PerfId) (impact : Nat) : Option (Standing × Nat) :=
  let fading :=
    match s.floor.fading with
    | some f =>
      if f.perf = p ∧ beforeCutoff f impact then some (Standing.fading, f.priority.level) else none
    | none => none
  match s.floor.holder with
  | some h => if h.perf = p then some (.holder, h.priority.level) else fading
  | none => fading

/-- The duration in ticks an order asks for (R40). -/
def orderDuration (o : OrderItem) : Option Nat :=
  if o.duration = 0 then none else some (16 * o.duration.toNat)

/-- One order through the stages (R40 to R48). -/
def takeOrder (p : PerfId) (base now : Nat) (o : OrderItem) (s : State) : State :=
  match channelOfBell s (o.bell.toNat + 1) with
  | none => s
  | some k =>
    if o.velocity = 0 then s
    else if channelState s k ≠ .run then raise .refusedChannel s
    else
      let impact := plus base o.offset.toNat
      match floorStanding s p impact with
      | none => raise .stray s
      | some (st, priority) =>
        if (Config.horizon : Int) < dist impact now then raise .early s
        else
          (admitRequest k (.perf p) priority impact o.velocity.toNat (orderDuration o) st now s).1

/-- A good ORDER frame delivered: its orders in turn, against one now (R40). -/
def takeOrders (p : PerfId) (base : Nat) (items : List OrderItem) (s : State) : State :=
  items.foldl (fun t o => takeOrder p base s.time.tower o t) s

/-! ### The queue at a step of tower time (R61) -/

/-- One queued entry meets a step (R61): removed when its launch time is before the new time by more than the
late limit; launched or held when it is before it by no more, or equal to it; otherwise it stays, and one that was
held is held no longer. -/
def stepEntry (e : Entry) (s : State) : State :=
  if e ∈ s.queue then
    if passedBy s e then removeEntry .silenced e s
    else if atOrBefore e.launch s.time.tower then
      if launchDue s e then launchEntry e s else holdEntry e s
    else releaseEntry e s
  else s

/-- Every queued entry in queue order meets a step (R61). -/
def stepQueue (s : State) : State := s.queue.foldl (fun t e => stepEntry e t) s

end Sys2Proof.Machine
end

