-- ==== Sys2Proof/Machine/Transmit.lean ====
section
/-! DEFINITION. The transmit queue (R91, R92), what its losses do to the frames' builders (R92, R93, R125,
R135, R189), the replies to service commands (R181), and the start and end of a transmission (R91, R93). -/

namespace Sys2Proof.Machine

/-! ### Performance slots as records -/

/-- Performance slot k takes a value. -/
def setSlot (k : Fin 4) (x : Slot) (s : State) : State :=
  { s with conductor := { s.conductor with slots := s.conductor.slots.set k x } }

/-- A performance changed by f; a free slot stays as it is. -/
def Slot.change (f : Perf → Perf) : Slot → Slot
  | .active p => .active (f p)
  | .idle => .idle
  | .ended seq o => .ended seq o

/-- The performance in slot k changed by f. -/
def updPerf (k : Fin 4) (f : Perf → Perf) (s : State) : State :=
  setSlot k (s.conductor.slots[k].change f) s

/-- A count of a performance slot raised by n, saturating at 65,535 (R122). -/
def countUp (x n : Nat) : Nat := min Config.counterMax (x + n)

/-! ### Frames that leave the queue -/

/-- A part of the reply under way has left the queue or been refused by it: the next part may follow, and
after the last part the reply is over (R189). -/
def partOut (s : State) : State :=
  match s.service.reply with
  | none => s
  | some j =>
    if j.last < j.next then { s with service := { s.service with reply := none } }
    else { s with service := { s.service with reply := some { j with out := true } } }

/-- A frame has left the transmit queue: a held slot may build again (R133), and the Service Responder is told
of a reply's part (R189). -/
def frameGone (o : Origin) (s : State) : State :=
  let s1 := { s with conductor := { s.conductor with
    slots := Vector.ofFn fun k : Fin 4 => s.conductor.slots[k].change fun p => { p with chance := true } } }
  if o = .part then partOut s1 else s1

/-- The slot's CLAIM is reported lost: it returns to PREROLL (R125). -/
def claimLost (seq : BitVec 8) (p : Perf) : Perf :=
  if p.phase = .claiming ∧ p.seq = seq then { p with phase := .preroll } else p

/-- An ORDER of the slot is reported lost (R135); one of a performance the slot no longer plays leaves the slot's
lost count as it is (DESIGN CHOICE, notes/assumptions/46.md). -/
def orderLost (seq : BitVec 8) (p : Perf) : Perf :=
  if p.seq = seq then { p with lost := countUp p.lost 1 } else p

/-- A frame evicted or abandoned is reported to its builder (R92, R93, R125, R135). -/
def frameLost (x : TxFrame) (s : State) : State :=
  match x.origin with
  | .slot k =>
    match x.frame with
    | .claim _ b => updPerf k (claimLost b.seq) s
    | .order seq _ _ => raise .ordersLost (updPerf k (orderLost seq) s)
    | .floor _ _ => s
    | .release _ _ => s
    | .presence _ => s
    | .reply _ => s
  | .beacon => s
  | .conductor => s
  | .single => s
  | .part => s

/-! ### Frames that join the queue -/

/-- A frame at its place: after those with an equal identifier (R91). -/
def insertTx (s : State) (x : TxFrame) : List TxFrame → List TxFrame
  | [] => [x]
  | y :: rest =>
    if txIdent s x.frame < txIdent s y.frame then x :: y :: rest else y :: insertTx s x rest

/-- A frame back at its place: before those with an equal identifier, which are newer (R91). -/
def reinstateTx (s : State) (x : TxFrame) : List TxFrame → List TxFrame
  | [] => [x]
  | y :: rest =>
    if txIdent s x.frame ≤ txIdent s y.frame then x :: y :: rest else y :: reinstateTx s x rest

/-- The frame joins the queue. -/
def joinTx (x : TxFrame) (s : State) : State :=
  { s with line := { s.line with queue := insertTx s x s.line.queue } }

/-- The highest frame is evicted: TX_DROPPED, and its builder is told (R92). -/
def evictTx (x : TxFrame) (s : State) : State :=
  frameGone x.origin (frameLost x (raise .txDropped
    { s with line := { s.line with queue := s.line.queue.dropLast } }))

/-- TX_DROPPED counts the refusal of a PRESENCE or a REPLY (R92). -/
def countsRefusal : Frame → Bool
  | .presence _ => true
  | .reply _ => true
  | .claim _ _ => false
  | .floor _ _ => false
  | .release _ _ => false
  | .order _ _ _ => false

/-- The frame is refused (R92): a PRESENCE or REPLY is lost and counted; the Service Responder is told. -/
def refuseTx (x : TxFrame) (s : State) : State :=
  let s1 := if countsRefusal x.frame then raise .txDropped s else s
  if x.origin = .part then partOut s1 else s1

/-- A frame is handed to the queue: the state after, and whether the queue took it (R92). -/
def handFrame (x : TxFrame) (s : State) : State × Bool :=
  if txCount s < Config.txSize then (joinTx x s, true)
  else
    match txHighest s with
    | none => (refuseTx x s, false)
    | some h =>
      if txIdent s x.frame < txIdent s h.frame then (joinTx x (evictTx h s), true)
      else (refuseTx x s, false)

/-- The frame in transmission is a PRESENCE. -/
def sendingPresence (s : State) : Bool :=
  match s.line.sending with
  | some x => x.tx.frame.isPresence
  | none => false

/-- A PRESENCE is handed to the queue: set aside, put in the pending one's place, or queued (R92). -/
def handBeacon (b : NodeBeacon) (s : State) : State :=
  let x : TxFrame := { frame := .presence b, origin := .beacon }
  if sendingPresence s then { s with line := { s.line with setAside := some b } }
  else if s.line.queue.any fun y => y.frame.isPresence then
    { s with line := { s.line with
      queue := s.line.queue.map fun y => if y.frame.isPresence then x else y } }
  else (handFrame x s).1

/-- The node builds a PRESENCE from its present state and hands it (R96). -/
def buildPresence (s : State) : State := handBeacon (ownBeacon s) s

/-! ### Replies (R181) -/

/-- A targeted node's reply of a single frame (R181). -/
def reply (h : Service) (command : Nat) (result : Result) (body : ReplyBody) (s : State) : State :=
  if targeted s h then
    (handFrame
      { frame := .reply
          { command := command, tag := h.tag, result := result, final := true, part := 0, body := body }
        origin := .single } s).1
  else s

/-- A part of a reply of several parts is handed (R189). -/
def handPart (command : Nat) (tag : BitVec 6) (final : Bool) (part : Nat) (body : ReplyBody) (s : State) :
    State :=
  (handFrame
    { frame := .reply
        { command := command, tag := tag, result := .done, final := final, part := part, body := body }
      origin := .part } s).1

/-! ### A transmission (R87, R91, R93) -/

/-- The frame the node may offer at an idle now: none in the listen period, during LINE_FAULT or while one
is in transmission; only a PRESENCE during STATION_CLASH (R91, R94, R95, R102). -/
def offerable (s : State) : Option TxFrame :=
  if s.listen.isSome ∨ s.line.faultAt.isSome ∨ s.line.sending.isSome then none
  else if s.line.clashAt.isSome then s.line.queue.find? fun y => y.frame.isPresence
  else s.line.queue.head?

/-- A PRESENCE carries the tower time of the start edge at which it is sent (R81, R88). -/
def stampFrame (s : State) : Frame → Frame
  | .presence b => .presence { b with tower := BitVec.ofNat 32 s.time.tower }
  | .claim pr b => .claim pr b
  | .floor pr b => .floor pr b
  | .release seq r => .release seq r
  | .order seq base items => .order seq base items
  | .reply r => .reply r

/-- The node's stamp of this moment (R88). -/
def stampNow (s : State) : Stamp :=
  { tower := BitVec.ofNat 32 s.time.tower, count := s.time.count }

/-- The node offers a frame: it is in transmission, stamped at its start edge (R88, R91). -/
def offerFrame (s : State) : State :=
  match offerable s with
  | none => s
  | some x =>
    { s with line := { s.line with
      queue := s.line.queue.erase x
      sending := some
        { tx := { x with frame := stampFrame s x.frame }
          stamp := stampNow s } } }

/-- The bit a frame's identifier sends in a cell, cell 0 first (R85). -/
def identCell (s : State) (f : Frame) (cell : Fin 11) : Bool :=
  (f.kind.ident s.straps.station).getLsbD (10 - cell.val)

/-- Lost arbitration: the frame goes back to its place, or the PRESENCE set aside takes it (R87, R91, R92). -/
def loseArbitration (cell : Fin 11) (s : State) : State :=
  match s.line.sending with
  | none => s
  | some x =>
    if identCell s x.tx.frame cell then
      let back : TxFrame :=
        match s.line.setAside with
        | some b => { frame := .presence b, origin := .beacon }
        | none => x.tx
      { s with line := { s.line with
        queue := reinstateTx s back s.line.queue, sending := none, setAside := none } }
    else s

/-- The end of a transmission: the frame has left the queue and a PRESENCE set aside joins it (R92, R93). -/
def endSending (o : Origin) (s : State) : State :=
  let s1 := frameGone o { s with line := { s.line with sending := none, setAside := none } }
  match s.line.setAside with
  | some b => handBeacon b s1
  | none => s1

/-- The sixteenth consecutive transmit error begins LINE_FAULT (R94). -/
def faultCheck (s : State) : State :=
  if Config.faultErrors ≤ s.line.txErrors ∧ s.line.faultAt = none then
    assertCond .lineFault { s with line := { s.line with faultAt := some s.time.count } }
  else s

/-- A transmission is abandoned (R93). -/
def abandonFrame (s : State) : State :=
  match s.line.sending with
  | none => s
  | some x =>
    let s1 := raise .txError { s with line := { s.line with txErrors := s.line.txErrors + 1 } }
    faultCheck (endSending x.tx.origin (frameLost x.tx s1))

/-! ### Receiving -/

/-- The node drives the acknowledge cell of a good frame, but not while its transmitter is off for
LINE_FAULT (R88, R94, R102). -/
def acknowledge (s : State) : State :=
  { s with line := { s.line with ackDriven := s.line.faultAt.isNone } }

/-- Receive errors not older than 4000 local ticks (R89; DEDUCED, notes/assumptions/21.md). -/
def recentErrors (s : State) : List LocalCount :=
  s.line.errors.filter fun t => decide (ticksSince s.time.count t ≤ Config.errorWindow)

/-- Errors older than the window are forgotten (R89). -/
def forgetErrors (s : State) : State := { s with line := { s.line with errors := recentErrors s } }

/-- A receive error (R88, R89). -/
def receiveFailure (s : State) : State :=
  let s1 := raise .rxError { s with line := { s.line with
    errors := recentErrors s ++ [s.time.count], ackDriven := false } }
  if Config.errorLimit < s1.line.errors.length then assertCond .checkErrors s1 else s1

end Sys2Proof.Machine
end

