-- ==== Sys2Proof/Machine/Tunes.lean ====
section
/-! DEFINITION. The tunes as the Conductor reads them: resident tunes generated at the cue (R131, R132, R146),
loaded tunes read event by event (R130), and the library's own operations (R149 to R155). -/

namespace Sys2Proof.Machine

/-! ### Resident tunes -/

/-- N of the hour count: the hour of the cue time on a twelve-hour dial (R131). -/
def hourStrikes (cueTime : Nat) : Nat := if hourOf cueTime % 12 = 0 then 12 else hourOf cueTime % 12

/-- The strikes of HOUR_COUNT (R131). -/
def hourNotes (x : Settings) (cueTime : Nat) : List Note :=
  (List.range (hourStrikes cueTime)).map fun k =>
    { offset := k * x.hourInterval, bell := x.hourBell, velocity := 12 }

/-- The quarter bells q1 to q4 (R141). -/
def quarterBell (x : Settings) : Nat → Nat
  | 1 => x.quarter1
  | 2 => x.quarter2
  | 3 => x.quarter3
  | _ => x.quarter4

/-- The sixteen notes of the quarters, as quarter bells 1 to 4 (R132). -/
def quarterSequence : List Nat := [1, 2, 3, 4, 4, 2, 3, 1, 2, 4, 1, 3, 3, 1, 4, 2]

/-- The notes of QUARTER_n: the first 4 n of the sequence (R132). -/
def quarterNotes (x : Settings) (n : Nat) : List Note :=
  (quarterSequence.take (4 * n)).zipIdx.map fun q =>
    { offset := 2400 * q.2 + 2400 * (q.2 / 4), bell := quarterBell x q.1, velocity := 10 }

/-- The notes of SCALE (R132). -/
def scaleNotes : List Note :=
  (List.range 64).map fun i => { offset := 1200 * i, bell := i + 1, velocity := 8 }

/-- The mask of some bells. -/
def maskOf (bells : List Nat) : BellMask :=
  bells.foldl (fun m b => m ||| BitVec.twoPow 64 (b - 1)) 0

/-- What a performance takes of its tune at the cue (R124, R132). -/
structure TuneInfo where
  tag : TuneTag
  mask : BellMask
  rule : Ensemble
  retry : Bool
  priority : Priority
  source : TuneSource
  deriving DecidableEq, Repr

/-- A resident tune, generated from the settings standing at the cue (R132, R141, R146). -/
def residentTune (x : Settings) (cueTime : Nat) (n : Fin 6) : TuneInfo :=
  let quarters := maskOf [x.quarter1, x.quarter2, x.quarter3, x.quarter4]
  if n = 0 then
    { tag := 0xFFFF00#24, mask := maskOf [x.hourBell], rule := .any, retry := false, priority := .hour
      source := .resident (hourNotes x cueTime) }
  else if n = 5 then
    { tag := 0xFFFF05#24, mask := BitVec.allOnes 64, rule := .any, retry := false, priority := .low
      source := .resident scaleNotes }
  else
    { tag := 0xFFFF00#24 + BitVec.ofNat 24 n.val, mask := quarters, rule := .any, retry := false
      priority := .melody, source := .resident (quarterNotes x n.val) }

/-- The tune a slot resolves to when it is VALID (R124, R145). -/
def tuneInfo (s : State) (t : Fin 32) (cueTime : Nat) : Option TuneInfo :=
  match resolveSlot s t with
  | .nothing => none
  | .resident n => some (residentTune s.settings cueTime n)
  | .part .empty => none
  | .part (.loading _ _ _) => none
  | .part (.valid h mask _) =>
    some { tag := h.tuneId.setWidth 24, mask := mask, rule := h.rule, retry := h.retry
           priority := h.priority, source := .loaded }

/-! ### The events of a performance (R130) -/

/-- The note an event asks for: bell, velocity and the order's duration field. -/
structure NoteOrder where
  bell : Nat
  velocity : Nat
  duration : Nat
  deriving DecidableEq, Repr

/-- An event of a performance: its impact's offset from the start, and its note unless it is a REST. -/
structure Sched where
  offset : Nat
  note : Option NoteOrder
  deriving DecidableEq, Repr

/-- The duration field of a note event (R130). -/
def durationField (tempo units : Nat) : Nat := min 1023 ((units * tempo + 15) / 16)

/-- The events of a loaded tune from a cumulative delta on (R130). -/
def loadedEvents (tempo : Nat) : Nat → List TuneEvent → List Sched
  | _, [] => []
  | cumulative, e :: rest =>
    let c := cumulative + e.delta
    { offset := c * tempo
      note := if e.bell = 0 then none
        else some { bell := e.bell, velocity := e.velocity, duration := durationField tempo e.duration } }
      :: loadedEvents tempo c rest

/-- A generated note as an event: it rings (R131, R132). -/
def Note.toSched (n : Note) : Sched :=
  { offset := n.offset, note := some { bell := n.bell, velocity := n.velocity, duration := 0 } }

/-- The events a performance plays, in order (R130 to R132). -/
def perfEvents (s : State) (p : Perf) : List Sched :=
  match p.source with
  | .resident notes => notes.map Note.toSched
  | .loaded =>
    match s.library.parts[p.slot] with
    | .valid h _ events => loadedEvents h.tempo 0 events
    | .empty => []
    | .loading _ _ _ => []

/-- The last impact of a performance: that of the tune's last event (R130). -/
def lastImpact (s : State) (p : Perf) : Nat :=
  match (perfEvents s p).getLast? with
  | some e => plus p.start e.offset
  | none => p.start

/-! ### Locks and parts -/

/-- A tune slot's loaded part takes a value. -/
def setPart (t : Fin 32) (x : LoadedPart) (s : State) : State :=
  { s with library := { s.library with parts := s.library.parts.set t x } }

/-- A lock more on a tune slot (R155). -/
def lockTune (t : Fin 32) (s : State) : State :=
  { s with library := { s.library with locks := s.library.locks.set t (s.library.locks[t] + 1) } }

/-- A lock less on a tune slot (R155). -/
def unlockTune (t : Fin 32) (s : State) : State :=
  { s with library := { s.library with locks := s.library.locks.set t (s.library.locks[t] - 1) } }

/-! ### Loading (R147, R148, R151 to R154) -/

/-- A priority carried in two bits; 0 names none. -/
def priorityOf (c : BitVec 2) : Option Priority :=
  if c = 0#2 then none else if c = 1#2 then some .low else if c = 2#2 then some .melody else some .hour

/-- The header of a LOAD_BEGIN, when every field is in its range (R147). -/
def readHeader (f : LoadFields) : Option TuneHeader :=
  match priorityOf f.priority with
  | none => none
  | some pr =>
    if 1 ≤ f.tempo.toNat ∧ f.tempo.toNat ≤ 4000 ∧ 1 ≤ f.count.toNat ∧ f.count.toNat ≤ 2048 then
      some { tuneId := f.tuneId, priority := pr, rule := f.rule, retry := f.retry
             tempo := f.tempo.toNat, count := f.count.toNat }
    else none

/-- An event of a LOAD_DATA, when every field is in its range (R148). -/
def readTuneEvent (e : LoadEvent) : Option TuneEvent :=
  if e.bell.toNat ≤ 64 ∧ e.velocity.toNat ≤ 15 ∧ (e.bell = 0 ∨ 1 ≤ e.velocity.toNat) then
    some { delta := e.delta.toNat, bell := e.bell.toNat, velocity := e.velocity.toNat
           duration := e.duration.toNat }
  else none

/-- All events of a LOAD_DATA, when every one is in range (R152). -/
def readTuneEvents : List LoadEvent → Option (List TuneEvent)
  | [] => some []
  | e :: rest =>
    match readTuneEvent e, readTuneEvents rest with
    | some x, some xs => some (x :: xs)
    | _, _ => none

/-- The sum of R153 over the events stored, the first of them counted from `i`. -/
def checksumFrom : Nat → List TuneEvent → Nat
  | _, [] => 0
  | i, e :: rest => (e.delta + 3 * e.bell + 5 * e.velocity + 7 * e.duration + i) + checksumFrom (i + 1) rest

/-- The checksum of the events stored, modulo 65,536 (R153). -/
def checksumOf (events : List TuneEvent) : BitVec 16 := BitVec.ofNat 16 (checksumFrom 0 events)

/-- The bell mask of a loaded tune: the bells of its note events (R147). -/
def tuneMask (events : List TuneEvent) : BellMask :=
  maskOf ((events.filter fun e => decide (e.bell ≠ 0)).map TuneEvent.bell)

/-- A slot number 0 to 31. -/
def slotNumber (n : BitVec 8) : Option (Fin 32) :=
  if h : n.toNat < 32 then some ⟨n.toNat, h⟩ else none

/-- A slot 0 to 7 with OVERLAY off: its loaded part is not here (R151 to R154). -/
def notHere (s : State) (t : Fin 32) : Bool := decide (t.val < 8) && !s.library.overlay

end Sys2Proof.Machine
end

