-- ==== Sys2Proof/Machine/Conduct.lean ====
section
/-! DEFINITION. The Conductor: cues, claims, the ensemble gate, streaming, beacons, endings, and its answers to
the Floor Tracker's notices (R122 to R143). -/

namespace Sys2Proof.Machine

/-! ### Cues (R123, R124) -/

/-- A sequence is that of a performance held by a slot that is not free (R123). -/
def seqInUse (s : State) (seq : BitVec 8) : Bool := (slotOfSeq s seq).isSome

/-- The counter's value risen past every sequence in use; four slots can hold at most four (R123). -/
def nextFreeSeq (s : State) : Nat → BitVec 8 → BitVec 8
  | 0, seq => seq
  | n + 1, seq => if seqInUse s seq then nextFreeSeq s n (seq + 1) else seq

/-- The sequence a new performance takes (R123). -/
def newSequence (s : State) : BitVec 8 := nextFreeSeq s 4 s.conductor.sequence

/-- The sequence counter after a performance took a sequence (R123). -/
def bumpSequence (seq : BitVec 8) (s : State) : State :=
  { s with conductor := { s.conductor with sequence := seq + 1 } }

/-- The counter of a performance's outcome (R142). -/
def perfCounter : PerfOutcome → Counter
  | .completed => .perfCompleted
  | .lostOrders => .perfLostOrders
  | .preempted => .perfPreempted
  | .abandoned => .perfAbandoned
  | .duplicate => .perfDuplicate
  | .contested => .perfContested
  | .stopped => .perfStopped
  | .missingTune => .perfMissingTune

/-- A play contact whose recorded slot has become free is free again (R165). -/
def freeContact (k : Fin 4) (c : ContactState) : ContactState :=
  if c.slot = some k then { c with busy := false } else c

/-- The play contacts learn that a slot has become free (R165). -/
def freeContactsOf (k : Fin 4) (s : State) : State :=
  { s with calendar := { s.calendar with
    contacts := Vector.ofFn fun i : Fin 2 => freeContact k s.calendar.contacts[i] } }

/-- A slot enters ENDED with its outcome; its counter rises (R138, R142). -/
def closeSlot (k : Fin 4) (seq : BitVec 8) (o : PerfOutcome) (s : State) : State :=
  freeContactsOf k (raise (perfCounter o) (setSlot k (.ended seq o) s))

/-- What the Conductor answers to a cue (R124): no slot, a slot and sequence, or a performance that ended
MISSING_TUNE at once. -/
inductive CueAnswer where
  | noSlot
  | taken (k : Fin 4) (seq : BitVec 8)
  | missing (k : Fin 4) (seq : BitVec 8)
  deriving DecidableEq, Repr

/-- A performance newly cued, in PREROLL (R124). -/
def newPerf (seq : BitVec 8) (t : Fin 32) (i : TuneInfo) (priority : Priority) (cueTime claimTime : Nat) :
    Perf where
  phase := .preroll
  seq := seq
  slot := t
  tag := i.tag
  priority := priority
  cueTime := cueTime
  start := cueTime
  claimTime := claimTime
  postponed := 0
  cursor := 0
  sent := 0
  lost := 0
  deadline := none
  beaconTimer := 0
  mask := i.mask
  rule := i.rule
  retry := i.retry
  source := i.source
  refused := false
  chance := false

/-- A cue is handed to the Conductor (R124): the tune slot, the priority if it names one, and the cue time;
the claim time is now, the moment at which the cue is taken (R161; DESIGN CHOICE, notes/assumptions/47.md). -/
def takeCue (t : Fin 32) (priority : Option Priority) (cueTime : Nat) (s : State) : State × CueAnswer :=
  match freeSlot s with
  | none => (s, .noSlot)
  | some k =>
    let seq := newSequence s
    let s1 := bumpSequence seq s
    match tuneInfo s t cueTime with
    | none => (closeSlot k seq .missingTune s1, .missing k seq)
    | some i =>
      (lockTune t (setSlot k
        (.active (newPerf seq t i (priority.getD i.priority) cueTime s.time.tower)) s1), .taken k seq)

/-! ### Frames of a slot -/

/-- The content of a slot's CLAIM and FLOOR beacons (R125, R136). -/
def floorBodyOf (p : Perf) : FloorBody where
  seq := p.seq
  tag := p.tag
  start := BitVec.ofNat 32 p.start
  mask := p.mask

/-- A slot's CLAIM (R125). -/
def claimFrame (k : Fin 4) (p : Perf) : TxFrame :=
  { frame := .claim p.priority (floorBodyOf p), origin := .slot k }

/-- A slot's FLOOR beacon (R136). -/
def floorFrame (k : Fin 4) (p : Perf) : TxFrame :=
  { frame := .floor p.priority (floorBodyOf p), origin := .slot k }

/-- A RELEASE of a performance (R138, R140). -/
def releaseFrame (o : Origin) (seq : BitVec 8) (r : ReleaseReason) : TxFrame :=
  { frame := .release seq r, origin := o }

/-- A frame is handed and its refusal, if any, is not acted on (R136, R138). -/
def handOnly (x : TxFrame) (s : State) : State := (handFrame x s).1

/-! ### Ending (R138) -/

/-- The reason of the RELEASE for an outcome from a holding phase (R138). -/
def releaseReasonOf : PerfOutcome → ReleaseReason
  | .completed => .ended
  | .lostOrders => .ended
  | .preempted => .preempted
  | .abandoned => .abandoned
  | .contested => .contested
  | .stopped => .abandoned
  | .duplicate => .abandoned
  | .missingTune => .abandoned

/-- A slot that ends in a holding phase hands a RELEASE (R138). -/
def handRelease (k : Fin 4) (p : Perf) (o : PerfOutcome) (s : State) : State :=
  if p.phase.holds then handOnly (releaseFrame (.slot k) p.seq (releaseReasonOf o)) s else s

/-- A slot ends: its RELEASE, its lock, its outcome (R138). -/
def endPerf (k : Fin 4) (p : Perf) (o : PerfOutcome) (s : State) : State :=
  closeSlot k p.seq o (unlockTune p.slot (handRelease k p o s))

/-- The outcome of a performance that ran to its end (R137). -/
def endingOutcome (p : Perf) : PerfOutcome := if p.lost = 0 then .completed else .lostOrders

/-- The end of a slot in ENDING: it hands RELEASE(ENDED) and ends, its outcome read after the frame was
handed (R137). -/
def finishPerf (k : Fin 4) (p : Perf) (s : State) : State :=
  let s1 := handOnly (releaseFrame (.slot k) p.seq .ended) s
  match s1.conductor.slots[k].perf? with
  | none => s1
  | some q => closeSlot k q.seq (endingOutcome q) (unlockTune q.slot s1)

/-! ### Streaming (R133, R134) -/

/-- The note events from index `c` on, each with its index (R133). -/
def notesFrom (events : List Sched) (c : Nat) : List (Nat × Nat × NoteOrder) :=
  (events.zipIdx.drop c).filterMap fun x => x.1.note.map fun n => (x.2, x.1.offset, n)

/-- The orders that go into a frame whose first order has this offset: at most two more, each no more than
255 ticks after it (R133). -/
def packNotes (first : Nat × Nat × NoteOrder) (rest : List (Nat × Nat × NoteOrder)) :
    List (Nat × Nat × NoteOrder) :=
  first :: (rest.takeWhile fun x => decide (x.2.1 ≤ first.2.1 + Config.packSpan)).take 2

/-- An order of a frame (R130, R133). -/
def orderItemOf (base : Nat) (x : Nat × Nat × NoteOrder) : OrderItem where
  bell := BitVec.ofNat 6 (x.2.2.bell - 1)
  velocity := BitVec.ofNat 4 x.2.2.velocity
  offset := BitVec.ofNat 8 (x.2.1 - base)
  duration := BitVec.ofNat 10 x.2.2.duration

/-- The ORDER frame of packed notes (R133). -/
def orderFrame (k : Fin 4) (p : Perf) (packed : List (Nat × Nat × NoteOrder)) (base : Nat) : TxFrame :=
  { frame := .order p.seq (BitVec.ofNat 32 (plus p.start base)) (packed.map (orderItemOf base))
    origin := .slot k }

/-- The cursor past the last event of a frame. -/
def cursorAfter (packed : List (Nat × Nat × NoteOrder)) (c : Nat) : Nat :=
  match packed.getLast? with
  | some x => x.1 + 1
  | none => c

/-- A late event is skipped (R134). -/
def skipLate (k : Fin 4) (c : Nat) (s : State) : State :=
  raise .lateSend (updPerf k (fun p => { p with cursor := c + 1, lost := countUp p.lost 1 }) s)

/-- The queue took an ORDER (R133). -/
def orderTaken (k : Fin 4) (c n : Nat) (s : State) : State :=
  updPerf k (fun p => { p with cursor := c, sent := countUp p.sent n, chance := false }) s

/-- Every event has been streamed or skipped: ENDING (R133, R137). -/
def allStreamed (k : Fin 4) (c : Nat) (s : State) : State :=
  updPerf k (fun p => { p with cursor := c, phase := .ending }) s

/-- A slot builds frames until nothing is within the lookahead, the queue refuses one, or the tune ends
(R133, R134). The first argument bounds the rounds by the events left. -/
def stream : Nat → Fin 4 → State → State
  | 0, _, s => s
  | fuel + 1, k, s =>
    match s.conductor.slots[k].perf? with
    | none => s
    | some p =>
      let events := perfEvents s p
      match notesFrom events p.cursor with
      | [] => allStreamed k events.length s
      | first :: rest =>
        let lead := dist (plus p.start first.2.1) s.time.tower
        let s1 := updPerf k (fun q => { q with cursor := first.1 }) s
        if (s.settings.lookahead : Int) < lead then s1
        else if lead ≤ (Config.lateSend : Int) then stream fuel k (skipLate k first.1 s1)
        else
          let packed := packNotes first rest
          let handed := handFrame (orderFrame k p packed first.2.1) s1
          if handed.2 then stream fuel k (orderTaken k (cursorAfter packed first.1) packed.length handed.1)
          else updPerf k (fun q => { q with refused := true, chance := false }) handed.1

/-- A slot in PLAYING builds (R133). -/
def build (k : Fin 4) (s : State) : State :=
  match s.conductor.slots[k].perf? with
  | none => s
  | some p =>
    if p.phase = .playing then
      stream ((perfEvents s p).length + 1) k
        (updPerf k (fun q => { q with refused := false, chance := false }) s)
    else s

/-- A slot in PLAYING has an occasion to build (R133, R134). -/
def buildDue (s : State) (p : Perf) : Bool :=
  decide (p.phase = .playing) &&
  if p.refused then p.chance || decide (txCount s < Config.txSize)
  else
    match (perfEvents s p)[p.cursor]? with
    | some e => decide (dist (plus p.start e.offset) s.time.tower ≤ (s.settings.lookahead : Int))
    | none => true

/-! ### The ensemble gate (R129) -/

/-- The gate is due (R129). -/
def gateDue (s : State) (p : Perf) : Bool :=
  decide (p.phase = .gathering) && reached s.time.tower (minus p.start Config.gateLead)

/-- The start moved by the gate (R129). -/
def postpone (p : Perf) : Perf :=
  { p with
    postponed := p.postponed + Config.cueLead
    start := plus p.start Config.cueLead
    beaconTimer := 0 }

/-- The gate is evaluated (R129). -/
def evalGate (k : Fin 4) (p : Perf) (s : State) : State :=
  if gatePasses s p.rule p.mask then
    build k (updPerf k (fun q => { q with phase := .playing }) s)
  else if p.postponed + Config.cueLead ≤ s.settings.claimWait then
    handOnly (floorFrame k (postpone p)) (updPerf k postpone s)
  else endPerf k p .abandoned s

/-- The gate of slot k is evaluated if it is due (R129). -/
def gateIfDue (k : Fin 4) (s : State) : State :=
  match s.conductor.slots[k].perf? with
  | none => s
  | some p => if gateDue s p then evalGate k p s else s

/-! ### Notices (R118, R126, R127, R139, R140) -/

/-- The Floor Tracker's notices, each naming a performance of this node by its sequence (R118). -/
inductive Notice where
  | accepted (seq : BitVec 8)
  | duplicate (seq : BitVec 8)
  | refused (seq : BitVec 8) (stamp : LocalCount)
  | adopted (seq : BitVec 8)
  | preempted (seq : BitVec 8)
  | contested (seq : BitVec 8)
  | lapsed (seq : BitVec 8)
  | stopped (seq : BitVec 8)
  | vacant
  deriving DecidableEq, Repr

/-- The slot's performance takes the floor: GATHERING, and the gate at once when it is due
(R126, R129). -/
def enterGathering (k : Fin 4) (s : State) : State :=
  gateIfDue k (updPerf k (fun p => { p with phase := .gathering, beaconTimer := 0 }) s)

/-- ACCEPTED or ADOPTED (R126, R140). -/
def onAccepted (seq : BitVec 8) (s : State) : State :=
  match slotOfSeq s seq with
  | none => handOnly (releaseFrame .conductor seq .abandoned) s
  | some k =>
    match s.conductor.slots[k].perf? with
    | none => s
    | some p => if p.phase.holds then s else enterGathering k s

/-- A slot's claim was refused: WAITING, or ABANDONED when its deadline is already reached (R126, R127). -/
def onRefused (seq : BitVec 8) (stamp : LocalCount) (s : State) : State :=
  match slotOfSeq s seq with
  | none => s
  | some k =>
    match s.conductor.slots[k].perf? with
    | none => s
    | some p =>
      if p.phase = .claiming then
        let d := p.deadline.getD (stamp + BitVec.ofNat 32 s.settings.claimWait)
        if p.deadline.isSome ∧ countReached s.time.count d then endPerf k p .abandoned s
        else updPerf k (fun q => { q with phase := .waiting, deadline := some d }) s
      else s

/-- The slot's claim was judged a duplicate (R126, R140). -/
def onDuplicate (seq : BitVec 8) (s : State) : State :=
  match slotOfSeq s seq with
  | none => s
  | some k =>
    match s.conductor.slots[k].perf? with
    | none => s
    | some p => if p.phase = .claiming then endPerf k p .duplicate s else s

/-- A holding slot ends with an outcome (R140). -/
def endHolding (seq : BitVec 8) (o : PerfOutcome) (s : State) : State :=
  match slotOfSeq s seq with
  | none => s
  | some k =>
    match s.conductor.slots[k].perf? with
    | none => s
    | some p => if p.phase.holds then endPerf k p o s else s

/-- The performance that takes the slot of a preempted one that is cued again (R139). -/
def retryPerf (seq : BitVec 8) (now : Nat) (p : Perf) : Perf :=
  { p with
    phase := .preroll, seq := seq, cueTime := plus now Config.cueLead, start := plus now Config.cueLead
    claimTime := now, postponed := 0, cursor := 0, sent := 0, lost := 0, deadline := none
    beaconTimer := 0, refused := false, chance := false }

/-- PREEMPTED (R139): the slot ends; with retry, from GATHERING or PLAYING, it takes a new cue and the lock
passes to it. -/
def onPreempted (seq : BitVec 8) (s : State) : State :=
  match slotOfSeq s seq with
  | none => s
  | some k =>
    match s.conductor.slots[k].perf? with
    | none => s
    | some p =>
      if !p.phase.holds then s
      else if p.retry ∧ p.phase ≠ .ending then
        let s1 := closeSlot k p.seq .preempted (handRelease k p .preempted s)
        let n := newSequence s1
        setSlot k (.active (retryPerf n s.time.tower p)) (bumpSequence n s1)
      else endPerf k p .preempted s

/-- STOPPED (R140). -/
def onStopped (seq : BitVec 8) (s : State) : State :=
  match slotOfSeq s seq with
  | none => s
  | some k =>
    match s.conductor.slots[k].perf? with
    | none => s
    | some p => endPerf k p .stopped s

/-- A waiting performance claims again (R127). -/
def reclaim (now : Nat) (p : Perf) : Perf :=
  if p.phase = .waiting then
    { p with phase := .preroll, start := later p.start (plus now Config.cueLead), claimTime := now }
  else p

/-- VACANT: every slot in WAITING claims again (R127). -/
def onVacant (s : State) : State :=
  allSlots.foldl (fun t k => updPerf k (reclaim t.time.tower) t) s

/-- The Conductor acts on a notice (R126, R127, R139, R140). -/
def onNotice (n : Notice) (s : State) : State :=
  match n with
  | .accepted seq => onAccepted seq s
  | .adopted seq => onAccepted seq s
  | .refused seq stamp => onRefused seq stamp s
  | .duplicate seq => onDuplicate seq s
  | .preempted seq => onPreempted seq s
  | .contested seq => endHolding seq .contested s
  | .lapsed seq => endHolding seq .abandoned s
  | .stopped seq => onStopped seq s
  | .vacant => onVacant s

/-- Notices in turn (R117). -/
def giveNotices (ns : List Notice) (s : State) : State := ns.foldl (fun t n => onNotice n t) s

end Sys2Proof.Machine
end

