-- ==== Sys2Proof/Machine/FloorRules.lean ====
section
/-! DEFINITION. The Floor Tracker: the claim rules applied to every CLAIM, FLOOR, RELEASE and STOP heard, and the
lapse (R103 to R118). Each operation purges, writes the record, wakes the bank and gives the notices, in the
order of R117. -/

namespace Sys2Proof.Machine

/-- The performance is this node's own (R118). -/
def isOwn (s : State) (p : PerfId) : Bool := decide (p.station = s.straps.station)

/-- A notice about a performance, given only when it is the node's own (R118). -/
def ownNotice (s : State) (p : PerfId) (n : Notice) : List Notice := if isOwn s p then [n] else []

/-- The holder part as a frame writes it (R106, R111). -/
def holderFrom (p : PerfId) (pr : Priority) (b : FloorBody) (stamp : LocalCount) : Holder where
  perf := p
  priority := pr
  tag := b.tag
  start := b.start.toNat
  mask := b.mask
  lastBeacon := stamp

/-- The holder part is written; the state is HELD. -/
def writeHolder (h : Holder) (s : State) : State := { s with floor := { s.floor with holder := some h } }

/-- The fading part is cleared. -/
def clearFading (s : State) : State := { s with floor := { s.floor with fading := none } }

/-- The fading performance's entries are purged and the fading part is cleared (R106, R107, R114). -/
def purgeFading (s : State) : State :=
  match s.floor.fading with
  | none => s
  | some f => clearFading (purgePerf f.perf s)

/-- The bank is woken when a bell mask touches the node's bell range (R29, R106). -/
def wakeIfTouched (mask : BellMask) (s : State) : State := if touches s mask then wakeBank s else s

/-- A holder accepted or adopted on a VACANT record, less its notice (R106, R111). -/
def takeVacant (h : Holder) (s : State) : State :=
  wakeIfTouched h.mask (writeHolder h (purgeTest (purgeFading s)))

/-- The fading part of a holder that leaves the floor (R107, R109, R113). -/
def fadingFrom (h : Holder) (reduction : Nat) (cutoff : Option Nat) : FadingPart where
  perf := h.perf
  priority := h.priority
  reduction := reduction
  launches := 0
  cutoff := cutoff

/-- An entry of a performance whose scheduled impact is at or after a cut-off (R107). -/
def fromCutoff (p : PerfId) (cutoff : Nat) (e : Entry) : Bool := e.ownedBy p && reached e.impact cutoff

/-- A preemption, less its notices (R107). -/
def preempt (old new : Holder) (s : State) : State :=
  let cutoff := minus new.start Config.gateLead
  let s1 := purge (fromCutoff old.perf cutoff) (purgeFading s)
  let s2 := checkFading { s1 with floor :=
    { holder := some new, fading := some (fadingFrom old 1 (some cutoff)) } }
  raise .floorPreemptions (wakeIfTouched new.mask s2)

/-- The verdict on a CLAIM (R105). -/
inductive Verdict where
  | renewed
  | duplicate
  | preemption
  | refusal
  | acceptance
  deriving DecidableEq, Repr

/-- Two tower times lie within 8000 ticks of each other (R104, R105). -/
def withinDuplicate (a b : Nat) : Bool := decide ((dist a b).natAbs ≤ Config.duplicateTicks)

/-- A CLAIM judged by the first case that applies (R105). -/
def judge (s : State) (h : Holder) : Verdict :=
  match s.floor.holder with
  | none => .acceptance
  | some x =>
    if x.perf = h.perf then .renewed
    else if x.tag = h.tag ∧ withinDuplicate h.start x.start then .duplicate
    else if x.priority.level < h.priority.level then .preemption
    else .refusal

/-- The holder's start time and last beacon refreshed (R108, R110). -/
def refresh (start : Nat) (stamp : LocalCount) (s : State) : State :=
  match s.floor.holder with
  | none => s
  | some x => writeHolder { x with start := start, lastBeacon := stamp } s

/-- A CLAIM applied to the record (R105 to R108), with its notices (R118). -/
def applyClaim (h : Holder) (s : State) : State :=
  match judge s h with
  | .acceptance => giveNotices (ownNotice s h.perf (.accepted h.perf.seq)) (takeVacant h s)
  | .renewed =>
    giveNotices (ownNotice s h.perf (.accepted h.perf.seq)) (refresh h.start h.lastBeacon s)
  | .duplicate => giveNotices (ownNotice s h.perf (.duplicate h.perf.seq)) s
  | .refusal => giveNotices (ownNotice s h.perf (.refused h.perf.seq h.lastBeacon)) s
  | .preemption =>
    match s.floor.holder with
    | none => s
    | some x =>
      giveNotices (ownNotice s x.perf (.preempted x.perf.seq) ++
        ownNotice s h.perf (.accepted h.perf.seq)) (preempt x h s)

/-- The holder leaves the floor by release or lapse: it becomes fading, or its entries are purged when a
performance is fading already; the record becomes VACANT (R109, R113). -/
def vacate (x : Holder) (s : State) : State :=
  match s.floor.fading with
  | none => checkFading { s with floor := { holder := none, fading := some (fadingFrom x 0 none) } }
  | some _ =>
    let s1 := purgePerf x.perf s
    { s1 with floor := { s1.floor with holder := none } }

/-- A RELEASE applied to the record (R109). -/
def applyRelease (p : PerfId) (s : State) : State :=
  match s.floor.holder with
  | none => s
  | some x => if x.perf = p then giveNotices [.vacant] (vacate x s) else s

/-- A FLOOR beacon wins the contest against the holder (R112). -/
def beaconWins (b x : Holder) : Bool :=
  if b.priority.level ≠ x.priority.level then decide (x.priority.level < b.priority.level)
  else if isBefore b.start x.start then true
  else if isBefore x.start b.start then false
  else decide (b.perf.station < x.perf.station)

/-- A performance that becomes holder while it is fading has its fading part purged and cleared first
(R103; notes/assumptions/38.md). -/
def purgeIfFading (p : PerfId) (s : State) : State :=
  match s.floor.fading with
  | none => s
  | some f => if f.perf = p then purgeFading s else s

/-- The beacon replaces the holder, less its notices (R103, R112). -/
def replaceHolder (x b : Holder) (s : State) : State :=
  raise .floorContests (wakeIfTouched b.mask (writeHolder b (purgePerf x.perf (purgeIfFading b.perf s))))

/-- A FLOOR beacon applied to the record (R110, R111, R112). -/
def applyFloor (b : Holder) (s : State) : State :=
  match s.floor.holder with
  | none => giveNotices (ownNotice s b.perf (.adopted b.perf.seq)) (takeVacant b s)
  | some x =>
    if x.perf = b.perf then refresh b.start b.lastBeacon s
    else if beaconWins b x then
      giveNotices (ownNotice s x.perf (.contested x.perf.seq) ++
        ownNotice s b.perf (.adopted b.perf.seq)) (replaceHolder x b s)
    else giveNotices (ownNotice s b.perf (.contested b.perf.seq)) s

/-- The holder's lapse is due (R113). -/
def lapseDue (s : State) : Bool :=
  match s.floor.holder with
  | none => false
  | some x => decide (Config.floorLapseTicks ≤ ticksSince s.time.count x.lastBeacon)

/-- The holder lapses (R113). -/
def applyLapse (s : State) : State :=
  match s.floor.holder with
  | none => s
  | some x =>
    giveNotices (ownNotice s x.perf (.lapsed x.perf.seq) ++ [.vacant])
      (raise .floorLapses (vacate x s))

/-- The holder part is removed; the state is VACANT. -/
def dropHolder (s : State) : State := { s with floor := { s.floor with holder := none } }

/-- The performance is the holder. -/
def isHolder (s : State) (p : PerfId) : Bool :=
  match s.floor.holder with
  | none => false
  | some x => decide (x.perf = p)

/-- The performance is the fading performance. -/
def isFading (s : State) (p : PerfId) : Bool :=
  match s.floor.fading with
  | none => false
  | some f => decide (f.perf = p)

/-- VACANT is noticed when the record became VACANT by the event (R118). -/
def vacantNotice (before after : State) : List Notice :=
  if before.floor.holder.isSome ∧ after.floor.holder.isNone then [.vacant] else []

/-- A STOP naming one performance applied to the record (R114). -/
def stopPerf (p : PerfId) (s : State) : State :=
  if isHolder s p then dropHolder (purgePerf p s)
  else if isFading s p then purgeFading s
  else s

/-- A STOP naming one performance, with its notices (R114, R118). -/
def applyStopPerf (p : PerfId) (s : State) : State :=
  let s1 := stopPerf p s
  giveNotices (ownNotice s p (.stopped p.seq) ++ vacantNotice s s1) s1

/-- The holder's entries are purged (R114). -/
def purgeHolder (s : State) : State :=
  match s.floor.holder with
  | none => s
  | some x => purgePerf x.perf s

/-- A STOP of the floor applied to the record (R114): the holder's entries are purged first, then those of the fading
performance, then the TEST entries (DESIGN CHOICE, notes/assumptions/43.md). -/
def stopFloorRecord (s : State) : State :=
  dropHolder (purgeTest (purgeFading (purgeHolder s)))

/-- The node's own performances among the holder and the fading one (R118). -/
def ownOnFloor (s : State) : List Notice :=
  (match s.floor.holder with
    | some x => ownNotice s x.perf (.stopped x.perf.seq)
    | none => []) ++
  (match s.floor.fading with
    | some f => ownNotice s f.perf (.stopped f.perf.seq)
    | none => [])

/-- A STOP of the floor, with its notices (R114, R118). -/
def applyStopFloor (s : State) : State :=
  let s1 := stopFloorRecord s
  giveNotices (ownOnFloor s ++ vacantNotice s s1) s1

end Sys2Proof.Machine
end

