-- ==== Sys2Proof/Machine/Cues.lean ====
section
/-! DEFINITION. The Calendar Unit: matches, pre-roll points, quiet windows, the calendar's account of a step, and
the cues of the calendar, the play contacts and a console (R159 to R166). -/

namespace Sys2Proof.Machine

/-! ### Matches and quiet windows (R159, R162) -/

/-- An enabled entry matches the whole minute M (R159). -/
def matchesMinute (e : CalEntry) (m : Nat) : Bool :=
  e.enabled && e.days.getLsbD (dayOf m) && e.hours.getLsbD (hourOf m) &&
    decide (minuteOfDay m % 60 = e.minute)

/-- The length of a window's span in ticks (R162). -/
def windowLength (w : QuietWindow) : Nat :=
  let n := (w.stop + 1440 - w.start) % 1440
  (if n = 0 then 1440 else n) * Config.minute

/-- A tower time lies in the span a window begins on day d (R162). -/
def inSpan (w : QuietWindow) (m d : Nat) : Bool :=
  decide (minus m (d * Config.day + w.start * Config.minute) < windowLength w)

/-- A match time lies in a window (R162). -/
def inWindow (w : QuietWindow) (m : Nat) : Bool :=
  (List.range 7).any fun d => w.days.getLsbD d && inSpan w m d

/-- Some quiet window holds back this priority at this match time (R162). -/
def heldBack (s : State) (m : Nat) (pr : Priority) : Bool :=
  s.calendar.windows.toList.any fun w => inWindow w m && decide (pr.level ≤ w.level)

/-! ### Decisions (R161) -/

/-- Calendar entry i changed by f. -/
def updEntry (i : Fin 24) (f : CalEntry → CalEntry) (s : State) : State :=
  { s with calendar := { s.calendar with entries := s.calendar.entries.set i (f s.calendar.entries[i]) } }

/-- A calendar cue is handed to the Conductor (R161). -/
def fireCue (i : Fin 24) (m : Nat) (s : State) : State :=
  let e := s.calendar.entries[i]
  let s1 := raise .cuesFired (updEntry i (fun x => { x with lastFired := some m }) s)
  let r := takeCue e.slot (some e.priority) m s1
  match r.2 with
  | .noSlot => raise .slotsFull r.1
  | .taken _ _ => r.1
  | .missing _ _ => r.1

/-- One entry decided for the whole minute M (R161). -/
def decideEntry (m : Nat) (i : Fin 24) (s : State) : State :=
  let e := s.calendar.entries[i]
  if !matchesMinute e m then s
  else if e.lastFired = some m then s
  else if s.listen.isSome then raise .missedTime s
  else if s.time.validity = .unset then raise .missedTime s
  else if heldBack s m e.priority then raise .missedQuiet s
  else fireCue i m s

/-- The whole minute M is decided, entry by entry in ascending order (R161). -/
def decideMinute (m : Nat) (s : State) : State := allEntries.foldl (fun t i => decideEntry m i t) s

/-- The calendar takes a value. -/
def setCalendar (c : Calendar) (s : State) : State := { s with calendar := c }

/-- The oldest pre-roll point reached is decided (R160, R161). -/
def decideDue (s : State) : State :=
  match s.calendar.due with
  | [] => s
  | m :: rest => decideMinute m (setCalendar { s.calendar with due := rest } s)

/-- The minute M counts as decided at its pre-roll point, and is settled no longer (R160). -/
def markDecided (m : Nat) (c : Calendar) : Calendar :=
  { c with
    decided := m :: c.decided.filter fun x => decide (x ≠ m)
    settled := c.settled.filter fun x => decide (x ≠ m) }

/-- The pre-roll point of M is reached: M is to be decided, unless it was at an earlier point that a shorter
pre-roll has moved here (R160). -/
def reachPoint (m : Nat) (c : Calendar) : Calendar :=
  if m ∈ c.settled then markDecided m c else markDecided m { c with due := c.due ++ [m] }

/-- The whole minutes whose pre-roll points an advance of n ticks from t reaches (R160). -/
def pointsReached (s : State) (t n : Nat) : List Nat :=
  ((List.range n).map fun j => plus t (j + 1 + s.settings.preroll)).filter
    fun m => decide (m % Config.minute = 0)

/-- The whole minute whose pre-roll point a longer pre-roll brings to or before now while its old point lay
after now (R160). -/
def minuteBroughtDue (now old new : Nat) : Option Nat :=
  let m := now + old + (Config.minute - (now + old) % Config.minute)
  if m ≤ now + new then some (m % Config.week) else none

/-- The pre-roll point of the minute M lies at or before now under the old pre-roll and after now under a shorter
one (R160). -/
def putAhead (now old new m : Nat) : Bool := decide (new < minus m now ∧ minus m now ≤ old)

/-- A shorter pre-roll puts the point of a minute reached before ahead again; that minute is not decided again
there (R160). -/
def settle (now old new : Nat) (c : Calendar) : Calendar :=
  { c with
    decided := c.decided.filter fun m => !putAhead now old new m
    settled := c.decided.filter (putAhead now old new) ++ c.settled }

/-- A point that a longer pre-roll brings to now is reached (R160): the minute is decided at once, unless it was at an
earlier point. -/
def bringDue (m : Nat) (s : State) : State :=
  let s1 := setCalendar (markDecided m s.calendar) s
  if m ∈ s.calendar.settled then s1 else decideMinute m s1

/-- The pre-roll takes a value (R160). -/
def setPreroll (n : Nat) (s : State) : State :=
  let s1 := { s with settings := { s.settings with preroll := n } }
  match minuteBroughtDue s.time.tower s.settings.preroll n with
  | none => setCalendar (settle s.time.tower s.settings.preroll n s.calendar) s1
  | some m => bringDue m s1

/-! ### Steps (R163) -/

/-- The pre-roll point of the whole minute M lies after `t` and no more than n ticks after it
(R160, R163). -/
def pointWithin (s : State) (t n m : Nat) : Bool :=
  let x := minus (minus m s.settings.preroll) t
  decide (1 ≤ x ∧ x ≤ n)

/-- The whole minutes of the week (R159). -/
def wholeMinutes : List Nat := (List.range 10080).map (· * Config.minute)

/-- An entry raises MISSED_TIME for a forward step of n ticks from t (R163). -/
def missedByStep (s : State) (t n : Nat) (e : CalEntry) : Bool :=
  wholeMinutes.any fun m =>
    pointWithin s t n m && matchesMinute e m && decide (e.lastFired ≠ some m)

/-- The calendar's account of a forward step (R163). -/
def countMissed (old n : Nat) (s : State) : State :=
  allEntries.foldl
    (fun t i => if missedByStep s old n s.calendar.entries[i] then raise .missedTime t else t) s

/-- The points a step passes over, whichever way, are neither behind as reached points nor ahead as settled ones
any longer (R163; notes/assumptions/33.md). -/
def passPoints (from_ n : Nat) (s : State) : State :=
  setCalendar { s.calendar with
    decided := s.calendar.decided.filter fun m => !pointWithin s from_ n m
    settled := s.calendar.settled.filter fun m => !pointWithin s from_ n m } s

/-- The Calendar Unit meets a step from `old` to the tower time that now stands (R163). -/
def stepCalendar (old : Nat) (wasSet : Bool) (s : State) : State :=
  let size := dist s.time.tower old
  if 0 < size then
    let s1 := if wasSet then countMissed old size.natAbs s else s
    passPoints old size.natAbs s1
  else passPoints s.time.tower size.natAbs s

/-! ### Play contacts (R165) -/

/-- The debounced level of a play contact. -/
def contactLevel (s : State) (c : Fin 2) : Bool := if c = 0 then s.pins.contact1 else s.pins.contact2

/-- The debounced level of a play contact changes. -/
def setContact (c : Fin 2) (level : Bool) (s : State) : State :=
  if c = 0 then { s with pins := { s.pins with contact1 := level } }
  else { s with pins := { s.pins with contact2 := level } }

/-- The contact cue map of a play contact. -/
def contactMap (s : State) (c : Fin 2) : ContactMap := if c = 0 then s.settings.map1 else s.settings.map2

/-- A play contact's busy state and record take a value. -/
def setContactState (c : Fin 2) (x : ContactState) (s : State) : State :=
  { s with calendar := { s.calendar with contacts := s.calendar.contacts.set c x } }

/-- A press (R165). A cue that ends MISSING_TUNE leaves the contact free at once. -/
def takePress (c : Fin 2) (s : State) : State :=
  let map := contactMap s c
  if !map.enabled then s
  else if s.calendar.contacts[c].busy then raise .contactIgnored s
  else
    let r := takeCue map.slot (some .low) (plus s.time.tower Config.cueLead) s
    match r.2 with
    | .noSlot => raise .slotsFull r.1
    | .taken k _ => setContactState c { busy := true, slot := some k } r.1
    | .missing k _ => setContactState c { busy := false, slot := some k } r.1

/-! ### Console cues (R166) -/

/-- The priority a CUE names; 0 names none (R166). -/
def cuePriority (n : Nat) : Option Priority :=
  match n with
  | 1 => some .low
  | 2 => some .melody
  | 3 => some .hour
  | _ => none

/-- A CUE with a tune slot, priority value or start the node refuses RANGE (R166). -/
def cueRefused (s : State) (slot priority start : Nat) : Bool :=
  decide (31 < slot) || decide (3 < priority) || decide (Config.week ≤ start) ||
    decide ((Config.cueHorizon : Int) < dist start s.time.tower)

/-- The cue time of a console cue: its start, or now plus 8000 when the start is before that (R166). A start past by
more than half a week less 8000 ticks is not before now plus 8000 by R64, and stands (DESIGN CHOICE,
notes/assumptions/54.md). -/
def cueStart (s : State) (start : Nat) : Nat :=
  let least := plus s.time.tower Config.cueLead
  if isBefore start least then least else start

/-- The result of a console cue that was taken, by the test of `cueStart` (R166; DESIGN CHOICE,
notes/assumptions/54.md). -/
def cueResult (s : State) (start : Nat) : Result :=
  if isBefore start (plus s.time.tower Config.cueLead) then .doneClamped else .done

end Sys2Proof.Machine
end

