-- ==== Sys2Proof/Machine/Clock.lean ====
section
/-! DEFINITION. The Tower Timebase: the advance of a local tick, the step, the choice of reference, the
measurement of beacons, minute marks, the week position (R63 to R83), and the peer table's own changes with
the conflict flags that follow them (R5, R97, R98). -/

namespace Sys2Proof.Machine

/-! ### The advance (R66) -/

/-- The trim contribution of local tick n (R66). -/
def trimPart (trim : Int) (n : LocalCount) : Int :=
  if trim = 0 then 0
  else if (n.toNat % 4096 + 1) % (4096 / trim.natAbs) = 0 then (if 0 < trim then 1 else -1)
  else 0

/-- The slew contribution of local tick n; a slew of -1 is withheld when the trim contributes -1 (R66). -/
def slewPart (slew trim : Int) (n : LocalCount) : Int :=
  if slew = 0 ∨ n.toNat % 32 ≠ 31 then 0
  else if 0 < slew then 1
  else if trimPart trim n = -1 then 0
  else -1

/-- The ticks tower time advances in local tick n, 0 to 3 (R66). -/
def advance (t : Timebase) (n : LocalCount) : Nat :=
  (1 + trimPart t.trim n + slewPart t.slew t.trim n).toNat

/-- The local count and tower time advance, and the slew taken moves the pending slew toward 0
(R65, R66). -/
def tickTime (s : State) : State :=
  let n := s.time.count + 1
  let a := advance s.time n
  { s with
    time := { s.time with
      count := n
      tower := plus s.time.tower a
      slew := s.time.slew - slewPart s.time.slew s.time.trim n }
    calendar := (pointsReached s s.time.tower a).foldl (fun c m => reachPoint m c) s.calendar }

/-! ### The step (R67) -/

/-- Lift times and pending drop times of a channel meet the new time (R14, R67). -/
def stepDamper (k : Fin 8) (s : State) : State := tryLift k (dropDamper k s)

/-- The TIME_STEP timer starts afresh and the condition is asserted (R67). -/
def startTimeStep (s : State) : State :=
  assertCond .timeStep { s with time := { s.time with stepAt := some s.time.count } }

/-- A step of tower time, with the effects of R67 in their order (R14, R61, R67, R129, R163). -/
def stepTime (new : Nat) (s : State) : State :=
  let old := s.time.tower
  let wasSet := decide (s.time.validity = .set)
  let s1 := { s with time := { s.time with
    tower := new % Config.week, slew := 0, close := 0, beaconBase := none, markBase := none } }
  let s2 := stepCalendar old wasSet (stepQueue (startTimeStep s1))
  let s3 := allChannels.foldl (fun t k => stepDamper k t) s2
  allSlots.foldl (fun t k => gateIfDue k t) s3

/-! ### The choice of reference (R69, R70) -/

/-- A candidate's validity and lock state: the node itself, or a LIVE peer of kind NODE (R69). -/
def candidate (s : State) (st : Fin 16) : Option (Validity × LockState) :=
  if st = s.straps.station then some (s.time.validity, s.time.lock)
  else (liveNode s.peers[st]).map fun b => (b.validity, b.lock)

/-- The lowest-numbered candidate that satisfies a test. -/
def lowestCandidate (s : State) (test : Validity × LockState → Bool) : Option (Fin 16) :=
  allStations.find? fun st =>
    match candidate s st with
    | some c => test c
    | none => false

/-- The node's choice (R69). It is always a candidate itself. -/
def chooseReference (s : State) : Fin 16 :=
  match lowestCandidate s fun c => decide (c.2 = .sourced) with
  | some st => st
  | none =>
    match lowestCandidate s fun c => decide (c.1 = .set) with
    | some st => st
    | none =>
      match lowestCandidate s fun _ => true with
      | some st => st
      | none => s.straps.station

/-- The lock state a choice brings (R70). -/
def lockForChoice (s : State) (before : LockState) (choice : Fin 16) : LockState :=
  match before with
  | .sourced => .sourced
  | .reference =>
    if choice = s.straps.station then .reference
    else if s.time.validity = .set then .locked else .acquiring
  | .acquiring => if choice = s.straps.station then .reference else .acquiring
  | .locked => if choice = s.straps.station then .reference else .locked

/-- A choice made: the lock state by R70, the count of close measurements 0, the beacon baseline
discarded. -/
def adoptChoice (choice : Fin 16) (s : State) : State :=
  setLock (lockForChoice s s.time.lock choice)
    { s with time := { s.time with reference := some choice, close := 0, beaconBase := none } }

/-- The node chooses its reference, but not in the listen period; a choice that does not change changes
nothing (R69, R70). -/
def rechoose (s : State) : State :=
  if s.listen.isSome ∨ s.time.reference = some (chooseReference s) then s
  else adoptChoice (chooseReference s) s

/-- The node's validity becomes SET; a change is a cause to choose the reference (R69). -/
def setValid (s : State) : State := { s with time := { s.time with validity := .set } }

/-- The choice made again when validity changed (R69). -/
def rechooseIfSet (was : Validity) (s : State) : State := if was = .unset then rechoose s else s

/-! ### Measuring a beacon (R71 to R74) -/

/-- A trim measurement: 4096 times (reference ticks less local ticks) divided by the local ticks, rounded to
nearest with halves away from zero, held within -8 to 8 (R74). -/
def trimTarget (ref_ : Int) (ticks : Nat) : Int :=
  let num := 4096 * (ref_ - (ticks : Int))
  let q : Int := ((2 * num.natAbs + ticks) / (2 * ticks) : Nat)
  let r := if num < 0 then -q else q
  max (-8) (min 8 r)

/-- A trim is measured when the local ticks since the baseline lie within 1000 to 300,000 (R74, R77). -/
def measureTrim (ref_ : Int) (ticks : Nat) (s : State) : State :=
  if 1000 ≤ ticks ∧ ticks ≤ 300000 then
    { s with time := { s.time with trim := trimTarget ref_ ticks } }
  else s

/-- The trim from a beacon that caused no step, and the new baseline (R74). -/
def trimFromBeacon (time : Nat) (count : LocalCount) (s : State) : State :=
  let s1 :=
    match s.time.beaconBase with
    | some b => measureTrim (dist time b.time) (ticksSince count b.count) s
    | none => s
  { s1 with time := { s1.time with beaconBase := some { time := time, count := count } } }

/-- The count of close measurements takes a value. -/
def setClose (n : Nat) (s : State) : State := { s with time := { s.time with close := n } }

/-- A measured beacon counts toward lock (R73): the rows for a beacon that caused no step. -/
def countTowardLock (e : Int) (s : State) : State :=
  if 24 < e.natAbs then setLock .acquiring (setClose 0 s)
  else if 8 < e.natAbs then setClose 0 s
  else
    let n := min 3 (s.time.close + 1)
    if n = 3 then setLock .locked (setClose n s) else setClose n s

/-- The pending slew takes a value (R72, R77). -/
def setSlew (e : Int) (s : State) : State := { s with time := { s.time with slew := e } }

/-- A step to a beacon: the beacon time plus the local ticks since the edge, the lock state ACQUIRING, and the
beacon as the new baseline (R67, R72, R73). -/
def stepToBeacon (time : Nat) (count : LocalCount) (s : State) : State :=
  let s1 := stepTime (plus time (ticksSince s.time.count count)) s
  let s2 := setLock .acquiring s1
  { s2 with time := { s2.time with beaconBase := some { time := time, count := count } } }

/-- What a measured beacon calls for (R72). -/
inductive Correction where
  | stepAndSet
  | step
  | none
  | slew
  deriving DecidableEq, Repr

/-- The action of R72, by the node's validity, the beacon's, and the error. -/
def correctionFor (own beacon : Validity) (e : Int) : Correction :=
  match own, beacon with
  | .unset, .set => .stepAndSet
  | .set, .unset => if 400 < e.natAbs then .none else .slew
  | .unset, .unset => if 400 < e.natAbs then .step else .slew
  | .set, .set => if 400 < e.natAbs then .step else .slew

/-- A beacon of the reference measured (R71 to R74). -/
def measureBeacon (b : NodeBeacon) (stamp : Stamp) (s : State) : State :=
  let time := b.tower.toNat
  let e := dist time stamp.tower.toNat
  match correctionFor s.time.validity b.validity e with
  | .stepAndSet => rechoose (setValid (stepToBeacon time stamp.count s))
  | .step => stepToBeacon time stamp.count s
  | .none => trimFromBeacon time stamp.count (setLock .acquiring (setClose 0 s))
  | .slew => trimFromBeacon time stamp.count (countTowardLock e (setSlew e s))

/-- The node follows its reference: ACQUIRING or LOCKED, and the listen period over (R71). -/
def following (s : State) : Bool :=
  s.listen.isNone && (decide (s.time.lock = .acquiring) || decide (s.time.lock = .locked))

/-! ### The week position (R78) -/

/-- The tower time y of R78: congruent to the node's own within the minute, and within half a minute of x. -/
def samePhase (own x : Nat) : Nat :=
  let r := minus own x % Config.minute
  if r < 120000 then plus x r else minus x (Config.minute - r)

/-- The donor: the lowest-numbered LIVE peer of kind NODE whose last PRESENCE carries SET (R78). -/
def donor (s : State) : Option (Fin 16) :=
  allStations.find? fun st =>
    decide (st ≠ s.straps.station) &&
    match liveNode s.peers[st] with
    | some b => decide (b.validity = .set)
    | none => false

/-- The week position is due at a PRESENCE of this sender (R78, R82). -/
def takesWeek (s : State) (sender : Fin 16) : Bool :=
  s.listen.isNone && decide (s.time.lock = .sourced) && decide (s.time.validity = .unset) &&
    decide (donor s = some sender)

/-- The week position taken from the donor (R78). -/
def takeWeek (b : NodeBeacon) (stamp : Stamp) (s : State) : State :=
  let x := plus b.tower.toNat (ticksSince s.time.count stamp.count)
  rechoose (setValid (stepTime (samePhase s.time.tower x) s))

/-! ### Peer table (R5, R97, R98) -/

/-- A channel is in conflict: a LIVE node of a lower station announces its bell (R5). -/
def conflictOf (s : State) (k : Fin 8) : Bool :=
  isPresent s k &&
  allStations.any fun st =>
    decide (st < s.straps.station) &&
    match liveNode s.peers[st] with
    | some b => announces b (bellOf s k)
    | none => false

/-- The conflict flags re-evaluated (R5). -/
def evalConflicts (s : State) : State :=
  { s with channels := Vector.ofFn fun k : Fin 8 => { s.channels[k] with conflict := conflictOf s k } }

/-- A peer record takes a value. -/
def setPeer (st : Fin 16) (x : PeerRecord) (s : State) : State :=
  { s with peers := s.peers.set st x }

/-- A peer record has lapsed or gone: conflict flags, then reference choice (R98). -/
def peerChanged (s : State) : State := rechoose (evalConflicts s)

/-- What a record keeps of its last PRESENCE. -/
def PeerRecord.info? : PeerRecord → Option PeerInfo
  | .absent => none
  | .live i => some i
  | .lapsed i => some i

/-- The beacon of a peer measured, once the record is written and the choice made (R71, R78, R90). -/
def measurePeer (sender : Fin 16) (stamp : Stamp) (body : Beacon) (s : State) : State :=
  match body with
  | .console => s
  | .node b =>
    if following s ∧ s.time.reference = some sender then measureBeacon b stamp s
    else if takesWeek s sender then takeWeek b stamp s
    else s

/-- A good PRESENCE of another station is taken: the record, the conflict flags, the reference choice, the
measurement, in that order (R5, R69, R71, R78, R90, R97). -/
def takePresence (sender : Fin 16) (stamp : Stamp) (body : Beacon) (s : State) : State :=
  let s1 := setPeer sender (.live { lastHeard := stamp.count, body := body }) s
  let s2 := if sender < s.straps.station then evalConflicts s1 else s1
  measurePeer sender stamp body (rechoose s2)

/-- A PRESENCE under the node's own number that it did not send (R95). -/
def heardClash (s : State) : State :=
  assertCond .stationClash { s with line := { s.line with clashAt := some s.time.count } }

/-! ### Minute marks (R75 to R77) -/

/-- A mark is rejected: less than 200,000 local ticks after the last accepted one (R75). -/
def markRejected (s : State) (stamp : Stamp) : Bool :=
  match s.time.lastMark with
  | none => false
  | some m => decide (ticksSince stamp.count m.count < Config.markGuard)

/-- The mark error: the correction toward the nearest whole minute (R77). -/
def markError (tower : Nat) : Int :=
  let r := tower % Config.minute
  if r < 120000 then -(r : Int) else (Config.minute : Int) - (r : Int)

/-- The stamp plus the mark error plus the local ticks elapsed, modulo W (R77). -/
def markTime (tower elapsed : Nat) : Nat :=
  let r := tower % Config.minute
  if r < 120000 then plus (minus tower r) elapsed else plus (tower + (Config.minute - r)) elapsed

/-- An accepted mark makes the node SOURCED, if it is not, and the node chooses its reference (R76). -/
def enterSourced (s : State) : State :=
  if s.time.lock = .sourced then s else rechoose (setLock .sourced s)

/-- The mark baseline becomes this mark's edge (R77). -/
def setMarkBase (count : LocalCount) (s : State) : State :=
  { s with time := { s.time with markBase := some count } }

/-- The trim from a mark that caused no step (R77). -/
def trimFromMark (count : LocalCount) (s : State) : State :=
  match s.time.markBase with
  | some b => measureTrim (Config.minute : Int) (ticksSince count b) s
  | none => s

/-- An accepted mark is corrected for (R77). -/
def correctMark (stamp : Stamp) (s : State) : State :=
  let e := markError stamp.tower.toNat
  if e.natAbs ≤ 400 then setMarkBase stamp.count (trimFromMark stamp.count (setSlew e s))
  else
    setMarkBase stamp.count
      (stepTime (markTime stamp.tower.toNat (ticksSince s.time.count stamp.count)) s)

/-- A debounced minute mark (R75, R76, R77). -/
def takeMark (stamp : Stamp) (s : State) : State :=
  if !s.straps.timeSource then s
  else if markRejected s stamp then s
  else correctMark stamp (enterSourced { s with time := { s.time with lastMark := some stamp } })

/-- The exit from SOURCED is due (R76). -/
def sourcedOver (s : State) : Bool :=
  decide (s.time.lock = .sourced) &&
  match s.time.lastMark with
  | none => true
  | some m => decide (Config.sourcedTicks ≤ ticksSince s.time.count m.count)

/-- The exit from SOURCED: the lock state by R70 from the present choice, read from REFERENCE, and the choice
made again (R70, R76). With no choice yet, in the listen period, it becomes REFERENCE
(DEDUCED, notes/assumptions/18.md). -/
def leaveSourced (s : State) : State :=
  let l :=
    match s.time.reference with
    | some st => lockForChoice s .reference st
    | none => .reference
  rechoose (setLock l s)

/-! ### SET_TIME (R79) -/

/-- SET_TIME acts (R79): the time it carries plus the ticks since the frame's edge. A LOCKED node becomes ACQUIRING
before a validity that became SET makes it choose its reference (R69; DESIGN CHOICE, notes/assumptions/52.md). -/
def takeSetTime (time : Nat) (count : LocalCount) (s : State) : State :=
  let x := plus time (ticksSince s.time.count count)
  let y := if s.time.lock = .sourced then samePhase s.time.tower x else x
  let s1 := setValid (stepTime y s)
  let s2 := if s1.time.lock = .locked then setLock .acquiring s1 else s1
  rechooseIfSet s.time.validity s2

end Sys2Proof.Machine
end

