-- ==== Sys2Proof/Machine/Reset.lean ====
section
/-! DEFINITION. The two resets: power-on and RESTART, block by block as the chapters' reset tables give them
(R22, R37, R62, R83, R101, R121, R143, R157, R168, R180, R187, R189), and the image of the settings store
(R185, R186). -/

namespace Sys2Proof.Machine

/-! ### The settings store's image (R185) -/

/-- A calendar entry as it is stored (R185). -/
def CalEntry.stored (e : CalEntry) : StoredEntry where
  enabled := e.enabled
  days := e.days
  hours := e.hours
  minute := e.minute
  slot := e.slot
  priority := e.priority

/-- A stored calendar entry as it is taken at power-on: last fired absent (R168). -/
def StoredEntry.taken (e : StoredEntry) : CalEntry where
  enabled := e.enabled
  days := e.days
  hours := e.hours
  minute := e.minute
  slot := e.slot
  priority := e.priority
  lastFired := none

/-- A loaded part as it is stored: only a VALID part is (R156). -/
def LoadedPart.stored : LoadedPart → Option StoredTune
  | .empty => none
  | .loading _ _ _ => none
  | .valid h mask events => some { header := h, mask := mask, events := events }

/-- A stored tune as it is taken at power-on (R157). -/
def takenPart : Option StoredTune → LoadedPart
  | none => .empty
  | some t => .valid t.header t.mask t.events

/-- The image a store writes: that of the moment it begins (R185). -/
def storeImage (s : State) : StoreImage where
  voicings := Vector.ofFn fun k : Fin 8 => s.channels[k].voicing
  entries := Vector.ofFn fun i : Fin 24 => s.calendar.entries[i].stored
  windows := s.calendar.windows
  settings := s.settings
  mask := s.silence.mask
  tunes := Vector.ofFn fun t : Fin 32 => s.library.parts[t].stored

/-- What the node takes when the memory is marked invalid: the default of every stored setting (R186). -/
def defaultImage : StoreImage where
  voicings := Vector.replicate 8 defaultVoicing
  entries := Vector.replicate 24 clearedEntry.stored
  windows := Vector.replicate 4 defaultWindow
  settings := defaultSettings
  mask := 0xFF#8
  tunes := Vector.replicate 32 none

/-! ### The sampling of the condition set (R180) -/

/-- A condition is asserted when its cause stands. -/
def sampleCond (c : Condition) (active : Bool) (s : State) : State := if active then assertCond c s else s

/-- The condition set sampled at a reset, in the order of R169 (R180). -/
def sampleConds (s : State) : State :=
  let s1 := sampleCond .timeUnlocked (decide (s.time.lock = .acquiring)) s
  let s2 := sampleCond .driveFault s.pins.chargerFault s1
  let s3 := sampleCond .coilHot s.pins.coilHot s2
  sampleCond .access s.pins.access s3

/-! ### Power-on (R187) -/

/-- The flags of STATION_CLASH and ACCESS in the enable mask, always set (R170). -/
def fixedFlags : BitVec 8 := Condition.stationClash.flag ||| Condition.access.flag

/-- The Tune Library taken from an image (R157). -/
def libraryFrom (x : StoreImage) : Library where
  parts := Vector.ofFn fun t : Fin 32 => takenPart x.tunes[t]
  overlay := false
  locks := Vector.replicate 32 0

/-- The Calendar Unit taken from an image (R168). -/
def calendarFrom (x : StoreImage) : Calendar where
  entries := Vector.ofFn fun i : Fin 24 => x.entries[i].taken
  windows := x.windows
  contacts := freeContacts
  due := []
  decided := []
  settled := []

/-- Every block at its power-on state, the settings taken from an image, before the conditions are sampled. -/
def powerOnBlocks (straps : Straps) (pins : Pins) (memory : Option StoreImage) (s : State) : State :=
  let x := memory.getD defaultImage
  { powered := true
    straps := straps
    pins := pins
    settings := x.settings
    listen := some 0
    channels := Vector.ofFn fun k : Fin 8 => freshChannel x.voicings[k]
    halted := 0
    drive := Drive.initial
    queue := []
    admission := 0
    time := Timebase.initial
    line := Line.initial
    peers := Vector.replicate 16 .absent
    floor := FloorRecord.initial
    conductor := { slots := Vector.replicate 4 .idle, sequence := 0 }
    library := libraryFrom x
    calendar := calendarFrom x
    silence := Silence.initial (x.mask ||| fixedFlags)
    trace := StrikeTrace.initial
    service :=
      { settingsState := if memory.isSome then .valid else .lost
        memory := memory
        reply := none }
    counters := zeroCounters
    free := s.free
    pending := s.pending }

/-- Power-on: the straps and the settings store are read, every block takes its power-on state, the
conditions are sampled (R187). -/
def powerOn (straps : Straps) (pins : Pins) (s : State) : State :=
  sampleConds (powerOnBlocks straps pins s.service.memory s)

/-! ### RESTART (R187) -/

/-- A channel after RESTART (R22). -/
def Channel.restarted (c : Channel) : Channel :=
  { c with conflict := false, gate := none, damperUp := false, drop := none }

/-- The Tower Timebase after RESTART (R83). -/
def Timebase.restarted (t : Timebase) : Timebase :=
  { t with
    lock := if t.lock = .locked then .acquiring else t.lock
    reference := none
    slew := 0
    close := 0
    beaconBase := none
    markBase := none
    stepAt := none }

/-- A loaded part after RESTART: a load in progress is given up (R157). -/
def LoadedPart.restarted : LoadedPart → LoadedPart
  | .empty => .empty
  | .loading _ _ _ => .empty
  | .valid h mask events => .valid h mask events

/-- The Tune Library after RESTART (R157). -/
def Library.restarted (x : Library) : Library :=
  { x with
    parts := Vector.ofFn fun t : Fin 32 => x.parts[t].restarted
    locks := Vector.replicate 32 0 }

/-- Every block at its RESTART state, before the conditions are sampled. -/
def restartBlocks (s : State) : State :=
  { s with
    listen := some s.time.count
    channels := Vector.ofFn fun k : Fin 8 => s.channels[k].restarted
    halted := 0
    drive := Drive.initial
    queue := []
    admission := 0
    time := s.time.restarted
    line := Line.initial
    peers := Vector.replicate 16 .absent
    floor := FloorRecord.initial
    conductor := { s.conductor with slots := Vector.replicate 4 .idle }
    library := s.library.restarted
    calendar := { s.calendar with contacts := freeContacts }
    silence := Silence.initial s.silence.mask
    service := { s.service with reply := none }
    counters := zeroCounters }

/-- RESTART taken: every block's RESTART state, then the conditions sampled (R180, R187). -/
def restart (s : State) : State := sampleConds (restartBlocks s)

/-! ### A store (R185) -/

/-- The settings state and the memory take a value. -/
def setStore (x : SettingsState) (memory : Option StoreImage) (s : State) : State :=
  { s with service := { s.service with settingsState := x, memory := memory } }

/-- A store begins: the memory is marked invalid, and the image of this moment is written (R185). -/
def beginStore (tag : BitVec 6) (s : State) : State := setStore (.storing (storeImage s) tag) none s

/-- The reply of a store that has ended, to the station that asked for it (R185). -/
def storeReply (tag : BitVec 6) (r : Result) (s : State) : State :=
  (handFrame
    { frame := .reply
        { command := 17, tag := tag, result := r, final := true, part := 0, body := .none }
      origin := .single } s).1

/-- A store completes (R185). -/
def completeStore (s : State) : State :=
  match s.service.settingsState with
  | .storing x tag => storeReply tag .done (raise .settingsWrites (setStore .valid (some x) s))
  | .valid => s
  | .lost => s

/-- A store fails: the memory stays marked invalid (R185). -/
def failStore (s : State) : State :=
  match s.service.settingsState with
  | .storing _ tag => storeReply tag .check (setStore .lost none s)
  | .valid => s
  | .lost => s

end Sys2Proof.Machine
end

