-- ==== Sys2Proof/Machine/Images.lean ====
section
/-! DEFINITION. The replies of several parts: the image of STATUS and of TRACE and the handing of their parts
(R184, R189). -/

namespace Sys2Proof.Machine

/-- What STATUS reports of a channel (R184). -/
def channelReport (s : State) (k : Fin 8) : ChannelReport where
  state := channelState s k
  halted := s.halted.getLsbD k.val
  conflict := s.channels[k].conflict
  hammer := s.channels[k].hammer
  lastFired := s.channels[k].lastFired.map LastFired.launch
  damperUp := s.channels[k].damperUp
  drop := s.channels[k].drop

/-- Local ticks since the last accepted minute mark, when the strap is present (R81). -/
def markAge (s : State) : Option Nat :=
  if s.straps.timeSource then s.time.lastMark.map fun m => ticksSince s.time.count m.count else none

/-- Local ticks since the holder's last beacon (R120). -/
def beaconAge (s : State) : Option Nat :=
  s.floor.holder.map fun h => ticksSince s.time.count h.lastBeacon

/-- The state of a tune slot (R145). -/
def tuneState : Resolved → TuneState
  | .resident _ => .valid
  | .nothing => .empty
  | .part .empty => .empty
  | .part (.loading _ _ _) => .loading
  | .part (.valid _ _ _) => .valid

/-- What STATUS reports of a tune slot (R158): the state it resolves to, its loaded part and its locks. Tune id and event
count are those of the loaded part (DESIGN CHOICE, notes/assumptions/50.md). -/
def tuneReport (s : State) (t : Fin 32) : TuneReport where
  state := tuneState (resolveSlot s t)
  part := s.library.parts[t]
  locks := s.library.locks[t]

/-- The image of the node that a STATUS reply is sent from: its groups in the order of R184. -/
def statusImage (s : State) : List StatusGroup :=
  [.drive s.drive (chargerEnable s) s.pins.feedback,
    .silence s.silence s.settings.resume s.settings.holdTime,
    .time s.time.tower s.time.validity s.time.lock s.time.trim s.time.slew s.time.reference s.straps.timeSource
      (markAge s),
    .floor s.floor (beaconAge s),
    .channels (allChannels.map (channelReport s)),
    .queueAndLine s.queue.length (txCount s) s.line.txErrors s.line.faultAt.isSome s.line.clashAt.isSome,
    .conductor s.conductor.slots,
    .library ((List.finRange 32).map (tuneReport s)) s.library.overlay (poolUsed s) (poolFree s),
    .calendar s.calendar.entries s.calendar.windows s.settings.map1 s.settings.map2 s.calendar.contacts
      s.settings.preroll,
    .settings s.settings,
    .peers (allStations.map (peerRecord s)),
    .counters s.counters]

/-- A reply of several parts is under way (R189). -/
def setReply (j : ReplyJob) (s : State) : State := { s with service := { s.service with reply := some j } }

/-- The number of parts that follow part 0 of a STATUS reply: at least one, at most 255, and not stated
(FREE VALUE, notes/assumptions/15.md). -/
def statusFollow (s : State) : Nat := 1 + (Config.statusParts s.free).toNat % 255

/-- STATUS: its image, its part 0, and the parts to follow (R184, R189). -/
def startStatus (tag : BitVec 6) (s : State) : State :=
  let n := statusFollow s
  handPart 19 tag false 0 (.statusHead s.straps (settingsKind s) n)
    (setReply { command := 19, tag := tag, image := .status s.free n (statusImage s), next := 1, last := n, out := false }
      { s with free := s.free + 1 })

/-- TRACE: its image, its part 0, and one part to follow for each record (R189). The reply of an empty trace, part 0
alone, is under way too until it has left the queue (DESIGN CHOICE, notes/assumptions/51.md). Part 0 carries the trigger
setting and post count of the node settings, also where they apply only from the next OPEN (DESIGN CHOICE,
notes/assumptions/56.md). -/
def startTrace (tag : BitVec 6) (s : State) : State :=
  let n := s.trace.records.length
  handPart 20 tag (decide (n = 0)) 0
    (.traceHead s.trace.state s.settings.trigger s.settings.postCount s.trace.remaining n)
    (setReply { command := 20, tag := tag, image := .trace s.trace.records, next := 1, last := n, out := false } s)

/-- The latest part a free value names for the first groups of a STATUS reply. -/
def latestEnd (fresh : Nat) : Nat → Nat
  | 0 => 0
  | i + 1 => max (latestEnd fresh i) (Config.statusEnd fresh i).toNat

/-- The part in which group i of a STATUS reply of n groups ends: no part before that of the group before it, and the
last part for the last group (FREE VALUE, notes/assumptions/15.md). -/
def endPart (fresh parts n i : Nat) : Nat :=
  if i + 1 = n then parts else min parts (1 + latestEnd fresh (i + 1))

/-- The groups that end in a part of a STATUS reply, in their order (R184). -/
def groupsOf (fresh parts : Nat) (groups : List StatusGroup) (place : Nat) : List StatusGroup :=
  (groups.zipIdx.filter fun x => decide (endPart fresh parts groups.length x.2 = place)).map Prod.fst

/-- The body of part n of a reply under way: a part of STATUS holds the groups that end in it, a part of TRACE
carries its record (R184, R189). -/
def partBody (x : ReplyImage) (n : Nat) : ReplyBody :=
  match x with
  | .status fresh parts groups => .statusPart fresh n (groupsOf fresh parts groups n)
  | .trace records =>
    match records[n - 1]? with
    | some r => .traceRecord r
    | none => .none

/-- A later part may be handed: the part before it is out and the queue holds fewer than 8 frames (R189). -/
def partDue (s : State) : Option ReplyJob :=
  match s.service.reply with
  | none => none
  | some j =>
    if j.out ∧ j.next ≤ j.last ∧ txCount s < Config.txSize then some j else none

/-- The next part of the reply under way is handed (R189). -/
def sendPart (s : State) : State :=
  match partDue s with
  | none => s
  | some j =>
    handPart j.command j.tag (decide (j.next = j.last)) j.next (partBody j.image j.next)
      (setReply { j with next := j.next + 1, out := false } s)

end Sys2Proof.Machine
end

