-- ==== Sys2Proof/Machine/LineCommands.lean ====
section
/-! DEFINITION. The commands of the clock, of the tower line and of the peer table: power, the listen period, the
local tick, the transmission of frames, receive errors, beacons (R65, R66, R87 to R102, R186, R187). -/

namespace Sys2Proof.Machine

/-- A command changes the state of a powered node and leaves an unpowered one as it is
(notes/assumptions/23.md). -/
def act (f : State → State) (s : State) : Host.Outcome State Fault Refusal := .next (if s.powered then f s else s)

/-! ### Power -/

/-- POWER_ON (R1, R187): it may come at any time, as a release of the reset pin. -/
def execPowerOn (straps : Straps) (pins : Pins) (s : State) : Host.Outcome State Fault Refusal :=
  .next (powerOn straps pins s)

/-- The node loses its power: its outputs are released and its transmission is cut short (R101, R186). -/
def losePower (s : State) : State :=
  dropAll (shutBank { s with
    powered := false
    line := { s.line with sending := none, setAside := none, ackDriven := false } })

/-- POWER_LOST (R186): a store in progress leaves the memory marked invalid, as it has been since it began. -/
def execPowerLost (s : State) : Host.Outcome State Fault Refusal := act losePower s

/-! ### Listen period and local tick -/

/-- The listen period has run its 6000 local ticks (R187). -/
def listenOver (s : State) : Bool :=
  match s.listen with
  | none => false
  | some c => decide (Config.listenTicks ≤ ticksSince s.time.count c)

/-- The end of the listen period: the reference chosen, the own record LIVE, the first PRESENCE built
(R82, R96, R99, R187). -/
def endListen (s : State) : State :=
  let s1 := { s with listen := none, line := { s.line with beaconTimer := 0 } }
  buildPresence (adoptChoice (chooseReference s1) s1)

/-- LISTEN_END (R187). -/
def execListenEnd (s : State) : Host.Outcome State Fault Refusal :=
  act (fun s => if listenOver s then endListen s else s) s

/-- The beacon timer of a slot that holds the floor (R136). -/
def tickPerf (p : Perf) : Perf := if p.phase.holds then { p with beaconTimer := tickOn p.beaconTimer } else p

/-- The beacon timers of the performance slots (R136). -/
def tickSlots (s : State) : State :=
  { s with conductor := { s.conductor with
    slots := Vector.ofFn fun k : Fin 4 => s.conductor.slots[k].change tickPerf } }

/-- The presence beacon timer, stopped in the listen period (R96, R101). -/
def tickBeacon (s : State) : State :=
  match s.listen with
  | some _ => s
  | none => { s with line := { s.line with beaconTimer := tickOn s.line.beaconTimer } }

/-- A local tick, with the charger-enable feedback sampled at it (R26, R65, R66): tower time, the bank, every
timer counted in local ticks, and the entries whose launch time it reaches. The charge of a tick comes before the
launch events of the tick (R27 lets either come first; DESIGN CHOICE, notes/assumptions/41.md). An entry whose launch
time it reaches is held before a RETURN_END that the same tick makes due can act (DESIGN CHOICE,
notes/assumptions/10.md). -/
def localTick (feedback : Bool) (s : State) : State :=
  let s1 := { s with pins := { s.pins with feedback := feedback } }
  forgetErrors (markHeld (tickBeacon (tickSlots (holdTick (idleTick (chargeTick (tickTime s1)))))))

/-- LOCAL_TICK (R66). -/
def execLocalTick (feedback : Bool) (s : State) : Host.Outcome State Fault Refusal := act (localTick feedback) s

/-! ### Transmission -/

/-- FRAME_OFFER (R91). -/
def execFrameOffer (s : State) : Host.Outcome State Fault Refusal := act offerFrame s

/-- ARBITRATION_LOSS (R87): a cell in which the node sent 1 was read as 0. -/
def execArbitrationLoss (cell : Fin 11) (s : State) : Host.Outcome State Fault Refusal := act (loseArbitration cell) s

/-- A performance of this node. -/
def ownPerf (s : State) (seq : BitVec 8) : PerfId := { station := s.straps.station, seq := seq }

/-- The node's own frame delivered to it, with the stamp of its start edge (R90, R93). -/
def deliverOwn (x : Sending) (s : State) : State :=
  match x.tx.frame with
  | .claim pr b => applyClaim (holderFrom (ownPerf s b.seq) pr b x.stamp.count) s
  | .floor pr b => applyFloor (holderFrom (ownPerf s b.seq) pr b x.stamp.count) s
  | .release seq _ => applyRelease (ownPerf s seq) s
  | .order seq base items => takeOrders (ownPerf s seq) base.toNat items s
  | .presence _ => s
  | .reply _ => s

/-- A won frame completes (R93). -/
def completeFrame (acked : Bool) (s : State) : State :=
  match s.line.sending with
  | none => s
  | some x =>
    let s1 := { s with line := { s.line with txErrors := 0 } }
    let s2 := if acked then s1 else raise .noAck s1
    deliverOwn x (endSending x.tx.origin s2)

/-- TX_COMPLETED (R93). -/
def execTxCompleted (acked : Bool) (s : State) : Host.Outcome State Fault Refusal := act (completeFrame acked) s

/-- TX_ABANDONED (R93, R94). -/
def execTxAbandoned (s : State) : Host.Outcome State Fault Refusal := act abandonFrame s

/-- LINE_FAULT has run its 8000 local ticks (R94). -/
def faultOver (s : State) : Bool :=
  match s.line.faultAt with
  | none => false
  | some c => decide (Config.faultTicks ≤ ticksSince s.time.count c)

/-- The transmitter is on again, the consecutive error count 0 (R94). -/
def endFault (s : State) : State :=
  clearCond .lineFault { s with line := { s.line with faultAt := none, txErrors := 0 } }

/-- LINE_FAULT_END (R94). -/
def execLineFaultEnd (s : State) : Host.Outcome State Fault Refusal :=
  act (fun s => if faultOver s then endFault s else s) s

/-! ### Receiving -/

/-- RECEIVE_ERROR (R88, R89). -/
def execReceiveError (s : State) : Host.Outcome State Fault Refusal := act receiveFailure s

/-- The errors in the window have fallen back to 8 (R89). -/
def errorsFew (s : State) : Bool :=
  hasCondition s.silence.conds .checkErrors && decide ((recentErrors s).length ≤ Config.errorLimit)

/-- CHECK_ERRORS_CLEAR (R89). -/
def execCheckErrorsClear (s : State) : Host.Outcome State Fault Refusal :=
  act (fun s => if errorsFew s then clearCond .checkErrors (forgetErrors s) else s) s

/-- A good frame that no other command brings: one of unknown class and kind or of an unaccepted length is
acknowledged and counted (R86, R90); a REPLY of an accepted length is acknowledged and nothing more
(R88, R90; notes/assumptions/26.md). -/
def hearUnknown (ident : BitVec 11) (payload : Payload) (s : State) : State :=
  if frameAccepted ident payload then
    if frameKind ident = some .reply then acknowledge s else s
  else raise .rxUnknown (acknowledge s)

/-- UNKNOWN_FRAME (R86, R90). -/
def execUnknownFrame (ident : BitVec 11) (payload : Payload) (s : State) : Host.Outcome State Fault Refusal :=
  act (hearUnknown ident payload) s

/-! ### Beacons and peers -/

/-- A PRESENCE is due: 2000 local ticks since the last, outside the listen period (R96). -/
def beaconDue (s : State) : Bool :=
  s.listen.isNone && decide (Config.presenceTicks ≤ s.line.beaconTimer)

/-- A PRESENCE built at its time; the timer keeps its cadence (R96; notes/assumptions/22.md). -/
def buildDuePresence (s : State) : State :=
  buildPresence { s with line := { s.line with beaconTimer := s.line.beaconTimer - Config.presenceTicks } }

/-- PRESENCE_BUILD (R96). -/
def execPresenceBuild (s : State) : Host.Outcome State Fault Refusal :=
  act (fun s => if beaconDue s then buildDuePresence s else s) s

/-- A good PRESENCE heard from another sender, or under the node's own number (R90, R95, R97). One under its own number
is a clash also where it won the arbitration against a frame of the node (DESIGN CHOICE, notes/assumptions/53.md). -/
def hearPresence (rx : Heard) (body : Beacon) (s : State) : State :=
  if rx.sender = s.straps.station then heardClash (acknowledge s)
  else takePresence rx.sender rx.stamp body (acknowledge s)

/-- PRESENCE (R95, R97). -/
def execPresence (rx : Heard) (body : Beacon) (s : State) : Host.Outcome State Fault Refusal :=
  act (hearPresence rx body) s

/-- 120,000 local ticks since the last PRESENCE under the node's own number (R95). -/
def clashOver (s : State) : Bool :=
  match s.line.clashAt with
  | none => false
  | some c => decide (Config.absenceTicks ≤ ticksSince s.time.count c)

/-- STATION_CLASH clears (R95). -/
def endClash (s : State) : State :=
  clearCond .stationClash { s with line := { s.line with clashAt := none } }

/-- STATION_CLASH_END (R95). -/
def execStationClashEnd (s : State) : Host.Outcome State Fault Refusal :=
  act (fun s => if clashOver s then endClash s else s) s

/-- The record of a peer that lapses now: LIVE, 6000 local ticks old, not the node's own (R98, R99). -/
def lapsing (s : State) (p : Fin 16) : Option PeerInfo :=
  match s.peers[p] with
  | .absent => none
  | .lapsed _ => none
  | .live i =>
    if p ≠ s.straps.station ∧ Config.lapseTicks ≤ ticksSince s.time.count i.lastHeard then some i else none

/-- A peer's record becomes LAPSED (R98). -/
def lapsePeer (p : Fin 16) (s : State) : State :=
  match lapsing s p with
  | none => s
  | some i => peerChanged (setPeer p (.lapsed i) s)

/-- PEER_LAPSE (R98). -/
def execPeerLapse (p : Fin 16) (s : State) : Host.Outcome State Fault Refusal := act (lapsePeer p) s

/-- A peer's record 120,000 local ticks old, not the node's own (R98, R99). -/
def vanishing (s : State) (p : Fin 16) : Bool :=
  decide (p ≠ s.straps.station) &&
  match s.peers[p].info? with
  | none => false
  | some i => decide (Config.absenceTicks ≤ ticksSince s.time.count i.lastHeard)

/-- PEER_ABSENCE (R98). -/
def execPeerAbsence (p : Fin 16) (s : State) : Host.Outcome State Fault Refusal :=
  act (fun s => if vanishing s p then peerChanged (setPeer p .absent s) else s) s

end Sys2Proof.Machine
end

