-- ==== Sys2Proof/Machine/StrikeCommands.lean ====
section
/-! DEFINITION. The commands of the channels, the drive bank and the strike queue: orders, launches, strokes,
dampers, the drain, and the contact and fault inputs (R10 to R35, R40 to R58, R169). -/

namespace Sys2Proof.Machine

/-- An ORDER carries one to three orders; another count is not delivered (R40, R90). -/
def orderCountGood (items : List OrderItem) : Bool := decide (1 ≤ items.length ∧ items.length ≤ 3)

/-- A good ORDER of another station is delivered (R40, R90). -/
def hearOrder (rx : Heard) (seq : BitVec 8) (base : BitVec 32) (items : List OrderItem) (s : State) : State :=
  if orderCountGood items then
    takeOrders { station := rx.sender, seq := seq } base.toNat items (acknowledge s)
  else raise .rxUnknown (acknowledge s)

/-- ORDER (R40). -/
def execOrder (rx : Heard) (seq : BitVec 8) (base : BitVec 32) (items : List OrderItem) (s : State) :
    Host.Outcome State Fault Refusal :=
  act (hearOrder rx seq base items) s

/-- The first due launch event in queue order (R50, R51). -/
def launchFirst (s : State) : State :=
  match firstDue s with
  | none => s
  | some e => launchEntry e s

/-- LAUNCH_EVENT (R51). -/
def execLaunchEvent (s : State) : Host.Outcome State Fault Refusal := act launchFirst s

/-- A pulse has run its width: it ends within the local tick that its 20 us units reach
(R10; notes/assumptions/13.md). -/
def pulseOver (s : State) (k : Fin 8) : Bool :=
  match s.channels[k].gate with
  | none => false
  | some g => decide (2 * g.width < 25 * (ticksSince s.time.count g.since + 1))

/-- PULSE_END (R10). -/
def execPulseEnd (k : Fin 8) (s : State) : Host.Outcome State Fault Refusal :=
  act (fun s => if pulseOver s k then updChannel k (fun c => { c with gate := none }) s else s) s

/-- What a hammer at REST brings: the idle drop, the drain's completion (R18, R32). -/
def hammerRests (k : Fin 8) (s : State) : State :=
  drainCheck (idleDrop k (updChannel k (fun c => { c with hammer := .rest }) s))

/-- The flight has elapsed: RETURNING, or REST when H equals the flight (R12). -/
def endFlight (k : Fin 8) (s : State) : State :=
  match s.channels[k].hammer with
  | .rest => s
  | .returning _ _ => s
  | .flying since flight back =>
    if flight ≤ ticksSince s.time.count since then
      if back ≤ flight then hammerRests k s
      else updChannel k (fun c => { c with hammer := .returning since back }) s
    else s

/-- FLIGHT_END (R12). -/
def execFlightEnd (k : Fin 8) (s : State) : Host.Outcome State Fault Refusal := act (endFlight k) s

/-- H has elapsed from the launch of a stroke in progress (R12). -/
def returnOver (s : State) (k : Fin 8) : Bool :=
  match s.channels[k].hammer with
  | .rest => false
  | .flying since _ back => decide (back ≤ ticksSince s.time.count since)
  | .returning since back => decide (back ≤ ticksSince s.time.count since)

/-- RETURN_END (R12). -/
def execReturnEnd (k : Fin 8) (s : State) : Host.Outcome State Fault Refusal :=
  act (fun s => if returnOver s k then hammerRests k s else s) s

/-- LIFT (R15). -/
def execLift (k : Fin 8) (s : State) : Host.Outcome State Fault Refusal := act (tryLift k) s

/-- DROP (R17); a skipped drop may be followed by the idle drop (R18). -/
def execDrop (k : Fin 8) (s : State) : Host.Outcome State Fault Refusal :=
  act (fun s => if (dropDue s k).isSome then drainCheck (idleDrop k (dropDamper k s)) else s) s

/-- The idle timer has reached an idle time that is not 0 (R31). -/
def drainDue (s : State) : Bool :=
  bankUp s.drive.mode && decide (s.settings.idleTime ≠ 0 ∧ s.settings.idleTime ≤ s.drive.idle)

/-- DRAIN_START (R31, R32). -/
def execDrainStart (s : State) : Host.Outcome State Fault Refusal :=
  act (fun s => if drainDue s then startDrain s else s) s

/-! ### Contact and fault inputs -/

/-- The access contact's level. -/
def setAccess (level : Bool) (s : State) : State := { s with pins := { s.pins with access := level } }

/-- The access contact becomes active: the bank is shut, every damper falls, ACCESS is asserted
(R19, R34, R169). -/
def openChamber (s : State) : State := assertCond .access (dropAll (shutBank (setAccess true s)))

/-- ACCESS_ACTIVE (R34). -/
def execAccessActive (s : State) : Host.Outcome State Fault Refusal :=
  act (fun s => if s.pins.access then s else openChamber s) s

/-- The release of the access contact is a wake when strikes or the holder want the bank (R29, R34). -/
def wakeAtRelease (s : State) : State := if s.queue ≠ [] ∨ holderTouches s then wakeBank s else s

/-- The access contact is released: the dampers whose lift times are reached lift, the bank wakes when it is
wanted, ACCESS clears (R15, R19, R34, R169). -/
def closeChamber (s : State) : State :=
  clearCond .access (allChannels.foldl (fun t k => tryLift k t) (wakeAtRelease (setAccess false s)))

/-- ACCESS_RELEASE (R34). -/
def execAccessRelease (s : State) : Host.Outcome State Fault Refusal :=
  act (fun s => if s.pins.access then closeChamber s else s) s

/-- The charger fault input's level. -/
def setChargerFault (level : Bool) (s : State) : State := { s with pins := { s.pins with chargerFault := level } }

/-- CHARGER_FAULT_ACTIVE (R35). -/
def execChargerFaultActive (s : State) : Host.Outcome State Fault Refusal :=
  act (fun s => if s.pins.chargerFault then s else assertCond .driveFault (setChargerFault true s)) s

/-- CHARGER_FAULT_CLEAR (R35). -/
def execChargerFaultClear (s : State) : Host.Outcome State Fault Refusal :=
  act (fun s => if s.pins.chargerFault then clearCond .driveFault (setChargerFault false s) else s) s

/-- The driver thermal input's level. -/
def setCoilHot (level : Bool) (s : State) : State := { s with pins := { s.pins with coilHot := level } }

/-- COIL_HOT_ASSERT (R169). -/
def execCoilHotAssert (s : State) : Host.Outcome State Fault Refusal :=
  act (fun s => if s.pins.coilHot then s else assertCond .coilHot (setCoilHot true s)) s

/-- COIL_HOT_CLEAR (R169). -/
def execCoilHotClear (s : State) : Host.Outcome State Fault Refusal :=
  act (fun s => if s.pins.coilHot then clearCond .coilHot (setCoilHot false s) else s) s

end Sys2Proof.Machine
end

