-- ==== Sys2Proof/Machine/TimeCommands.lean ====
section
/-! DEFINITION. The commands of the Tower Timebase, the hold, the pre-roll point and the play contacts
(R67, R75 to R77, R160, R161, R165, R175). -/

namespace Sys2Proof.Machine

/-- MINUTE_MARK (R75 to R77). -/
def execMinuteMark (stamp : Stamp) (s : State) : Host.Outcome State Fault Refusal := act (takeMark stamp) s

/-- SOURCED_EXIT (R76). -/
def execSourcedExit (s : State) : Host.Outcome State Fault Refusal :=
  act (fun s => if sourcedOver s then leaveSourced s else s) s

/-- TIME_STEP has stood for 8000 local ticks (R67). -/
def stepOver (s : State) : Bool :=
  match s.time.stepAt with
  | none => false
  | some c => decide (Config.stepTicks ≤ ticksSince s.time.count c)

/-- TIME_STEP clears (R67, R80). -/
def endTimeStep (s : State) : State := clearCond .timeStep { s with time := { s.time with stepAt := none } }

/-- TIME_STEP_END (R67). -/
def execTimeStepEnd (s : State) : Host.Outcome State Fault Refusal :=
  act (fun s => if stepOver s then endTimeStep s else s) s

/-- HOLD_EXPIRY (R175). -/
def execHoldExpiry (s : State) : Host.Outcome State Fault Refusal :=
  act (fun s => if holdReached s then goVoiced s else s) s

/-- PREROLL_POINT (R160, R161). -/
def execPrerollPoint (s : State) : Host.Outcome State Fault Refusal := act decideDue s

/-- A play contact becomes active after having been inactive: a press (R165). -/
def pressContact (c : Fin 2) (s : State) : State :=
  if contactLevel s c then s else takePress c (setContact c true s)

/-- CONTACT_PRESS (R165). -/
def execContactPress (c : Fin 2) (s : State) : Host.Outcome State Fault Refusal := act (pressContact c) s

/-- PLAY_CONTACT_INACTIVE (R165). -/
def execPlayContactInactive (c : Fin 2) (s : State) : Host.Outcome State Fault Refusal := act (setContact c false) s

end Sys2Proof.Machine
end

