-- ==== Sys2Proof/Machine/FloorCommands.lean ====
section
/-! DEFINITION. The commands of the floor and of the performance slots: CLAIM, FLOOR, RELEASE, the lapse, and the
moments at which a slot acts of itself (R104 to R118, R125 to R137). -/

namespace Sys2Proof.Machine

/-- A performance named by a frame's sender and its payload (R104). -/
def heardPerf (rx : Heard) (seq : BitVec 8) : PerfId := { station := rx.sender, seq := seq }

/-- CLAIM (R105). -/
def execClaim (rx : Heard) (priority : Priority) (body : FloorBody) (s : State) :
    Host.Outcome State Fault Refusal :=
  act (fun s =>
    applyClaim (holderFrom (heardPerf rx body.seq) priority body rx.stamp.count) (acknowledge s)) s

/-- FLOOR (R110 to R112). -/
def execFloor (rx : Heard) (priority : Priority) (body : FloorBody) (s : State) :
    Host.Outcome State Fault Refusal :=
  act (fun s =>
    applyFloor (holderFrom (heardPerf rx body.seq) priority body rx.stamp.count) (acknowledge s)) s

/-- RELEASE (R109); the reason is not read (R104). -/
def execRelease (rx : Heard) (seq : BitVec 8) (_reason : ReleaseReason) (s : State) :
    Host.Outcome State Fault Refusal :=
  act (fun s => applyRelease (heardPerf rx seq) (acknowledge s)) s

/-- LAPSE (R113). -/
def execLapse (s : State) : Host.Outcome State Fault Refusal :=
  act (fun s => if lapseDue s then applyLapse s else s) s

/-! ### The slots -/

/-- A slot in PREROLL may hand its CLAIM: its claim time is reached and the queue can take the frame (R125). -/
def claimReady (s : State) (k : Fin 4) (p : Perf) : Bool :=
  decide (p.phase = .preroll) && reached s.time.tower p.claimTime && txCanTake s (claimFrame k p).frame

/-- A lower-numbered slot with the same claim time is to hand its CLAIM first: slots cued at one moment claim in
slot order (R161; notes/assumptions/49.md). -/
def claimsBefore (s : State) (j k : Fin 4) (p : Perf) : Bool :=
  decide (j < k) &&
  match s.conductor.slots[j].perf? with
  | none => false
  | some q => decide (q.claimTime = p.claimTime) && claimReady s j q

/-- A slot hands its CLAIM now (R125, R161). -/
def claimDue (s : State) (k : Fin 4) (p : Perf) : Bool :=
  claimReady s k p && allSlots.all fun j => !claimsBefore s j k p

/-- The queue took a slot's CLAIM (R125). -/
def claimTaken (p : Perf) : Perf := { p with phase := .claiming }

/-- A slot hands its CLAIM (R125): CLAIMING when the queue takes it. -/
def handClaim (k : Fin 4) (s : State) : State :=
  match s.conductor.slots[k].perf? with
  | none => s
  | some p =>
    if claimDue s k p then
      let r := handFrame (claimFrame k p) s
      if r.2 then updPerf k claimTaken r.1 else r.1
    else s

/-- CLAIM_HANDOFF (R125). -/
def execClaimHandoff (k : Fin 4) (s : State) : Host.Outcome State Fault Refusal := act (handClaim k) s

/-- A waiting slot's deadline is reached (R127). -/
def deadlineDue (s : State) (p : Perf) : Bool :=
  decide (p.phase = .waiting) &&
  match p.deadline with
  | none => false
  | some d => countReached s.time.count d

/-- A slot whose wait has run out ends ABANDONED (R127). -/
def endWait (k : Fin 4) (s : State) : State :=
  match s.conductor.slots[k].perf? with
  | none => s
  | some p => if deadlineDue s p then endPerf k p .abandoned s else s

/-- WAIT_DEADLINE (R127). -/
def execWaitDeadline (k : Fin 4) (s : State) : Host.Outcome State Fault Refusal := act (endWait k) s

/-- ENSEMBLE_GATE (R129). -/
def execEnsembleGate (k : Fin 4) (s : State) : Host.Outcome State Fault Refusal := act (gateIfDue k) s

/-- A slot builds when it has an occasion to (R133, R134). -/
def buildIfDue (k : Fin 4) (s : State) : State :=
  match s.conductor.slots[k].perf? with
  | none => s
  | some p => if buildDue s p then build k s else s

/-- ORDER_BUILD (R133, R134). -/
def execOrderBuild (k : Fin 4) (s : State) : Host.Outcome State Fault Refusal := act (buildIfDue k) s

/-- A slot's beacon is due (R136). -/
def floorBeaconDue (p : Perf) : Bool :=
  p.phase.holds && decide (Config.floorBeaconTicks ≤ p.beaconTimer)

/-- A slot hands its FLOOR beacon and its timer starts again from 0 (R136). -/
def handFloorBeacon (k : Fin 4) (s : State) : State :=
  match s.conductor.slots[k].perf? with
  | none => s
  | some p =>
    if floorBeaconDue p then handOnly (floorFrame k p) (updPerf k (fun q => { q with beaconTimer := 0 }) s)
    else s

/-- FLOOR_BEACON_DUE (R136). -/
def execFloorBeaconDue (k : Fin 4) (s : State) : Host.Outcome State Fault Refusal := act (handFloorBeacon k) s

/-- A slot in ENDING has rung out (R137). -/
def ringOutOver (s : State) (p : Perf) : Bool :=
  decide (p.phase = .ending) && reached s.time.tower (plus (lastImpact s p) Config.cueLead)

/-- A slot in ENDING ends when it has rung out (R137). -/
def endIfRungOut (k : Fin 4) (s : State) : State :=
  match s.conductor.slots[k].perf? with
  | none => s
  | some p => if ringOutOver s p then finishPerf k p s else s

/-- PERFORMANCE_END (R137). -/
def execPerformanceEnd (k : Fin 4) (s : State) : Host.Outcome State Fault Refusal := act (endIfRungOut k) s

end Sys2Proof.Machine
end

