-- ==== Sys2Proof/Machine/ServiceCommands.lean ====
section
/-! DEFINITION. The service commands that act on time, cues, the floor, the bank and the channels
(R3, R20, R21, R79, R114, R166, R176, R181, R183). -/

namespace Sys2Proof.Machine

/-! ### Command numbers (05 SERVICE header) -/

/-- SET_TIME's number. -/
abbrev Cmd.setTime : Nat := 0
/-- CUE's number. -/
abbrev Cmd.cue : Nat := 1
/-- STOP's number. -/
abbrev Cmd.stop : Nat := 2
/-- RESUME's number. -/
abbrev Cmd.resume : Nat := 3
/-- WAKE's number. -/
abbrev Cmd.wake : Nat := 4
/-- CHANNEL's number. -/
abbrev Cmd.channel : Nat := 5
/-- VOICE_SET's number. -/
abbrev Cmd.voiceSet : Nat := 6
/-- CAL_SET's number. -/
abbrev Cmd.calSet : Nat := 7
/-- CAL_CLEAR's number. -/
abbrev Cmd.calClear : Nat := 8
/-- QUIET_SET's number. -/
abbrev Cmd.quietSet : Nat := 9
/-- NODE_SET's number. -/
abbrev Cmd.nodeSet : Nat := 10
/-- MASK_SET's number. -/
abbrev Cmd.maskSet : Nat := 11
/-- LOAD_BEGIN's number. -/
abbrev Cmd.loadBegin : Nat := 12
/-- LOAD_DATA's number. -/
abbrev Cmd.loadData : Nat := 13
/-- LOAD_END's number. -/
abbrev Cmd.loadEnd : Nat := 14
/-- DELETE's number. -/
abbrev Cmd.delete : Nat := 15
/-- OVERLAY's number. -/
abbrev Cmd.overlay : Nat := 16
/-- STORE's number. -/
abbrev Cmd.store : Nat := 17
/-- RESTART's number. -/
abbrev Cmd.restart : Nat := 18
/-- STATUS's number. -/
abbrev Cmd.status : Nat := 19
/-- TRACE's number. -/
abbrev Cmd.trace : Nat := 20
/-- TRACE_RELEASE's number. -/
abbrev Cmd.traceRelease : Nat := 21
/-- COUNTERS_CLEAR's number. -/
abbrev Cmd.countersClear : Nat := 22

/-- A command acted on by the nodes it targets; the frame is acknowledged by every node (R88, R181). -/
def onTarget (h : Service) (f : State → State) (s : State) : State :=
  let s1 := acknowledge s
  if targeted s1 h then f s1 else s1

/-- DONE, or DONE_CLAMPED when a value was replaced. -/
def doneOr (clamped : Bool) : Result := if clamped then .doneClamped else .done

/-- UNKNOWN_COMMAND (R181): a number that names no command, or a body too short, is answered RANGE. -/
def execUnknownCommand (h : Service) (command : BitVec 5) (body : Payload) (s : State) :
    Host.Outcome State Fault Refusal :=
  act (fun s =>
    if commandKnown command (fill 16 ++ body) then s
    else onTarget h (reply h command.toNat .range .none) s) s

/-! ### Time, cues, the floor -/

/-- SET_TIME acted on by every node (R79, R183). -/
def serveSetTime (h : Service) (time : BitVec 32) (s : State) : State :=
  let s1 := acknowledge s
  if Config.week ≤ time.toNat then reply h Cmd.setTime .range .none s1
  else reply h Cmd.setTime .done .none (takeSetTime time.toNat h.heard.stamp.count s1)

/-- SET_TIME (R79). -/
def execSetTime (h : Service) (time : BitVec 32) (s : State) : Host.Outcome State Fault Refusal :=
  act (serveSetTime h time) s

/-- A console cue (R166). -/
def serveCue (h : Service) (slot priority : BitVec 8) (start : BitVec 32) (s : State) : State :=
  if cueRefused s slot.toNat priority.toNat start.toNat then reply h Cmd.cue .range .none s
  else
    let r := takeCue (Fin.ofNat 32 slot.toNat) (cuePriority priority.toNat) (cueStart s start.toNat) s
    match r.2 with
    | .noSlot => reply h Cmd.cue .busy .none r.1
    | .missing k seq => reply h Cmd.cue .notHere (.cue seq k) r.1
    | .taken k seq => reply h Cmd.cue (cueResult s start.toNat) (.cue seq k) r.1

/-- CUE (R166). -/
def execCue (h : Service) (slot priority : BitVec 8) (start : BitVec 32) (s : State) :
    Host.Outcome State Fault Refusal :=
  act (onTarget h (serveCue h slot priority start)) s

/-- The reply to a STOP: the floor record's state after it (R183). -/
def stopReply (h : Service) (s : State) : State := reply h Cmd.stop .done (.stop s.floor.holder.isSome) s

/-- STOP of one performance (R114, R183): acted on by every node. -/
def execStopPerformance (h : Service) (perf : PerfId) (s : State) : Host.Outcome State Fault Refusal :=
  act (fun s => stopReply h (applyStopPerf perf (acknowledge s))) s

/-- STOP of the floor (R114, R183): acted on by every node. -/
def execStopFloor (h : Service) (s : State) : Host.Outcome State Fault Refusal :=
  act (fun s => stopReply h (applyStopFloor (acknowledge s))) s

/-! ### Silence and bank -/

/-- RESUME ends a hold, or a silence whose mark says that nothing is left to wait for (R176). -/
def resumes (x : Silence) : Bool :=
  match x.state with
  | .voiced => false
  | .fading => false
  | .silent => x.resumable
  | .holding => true

/-- RESUME (R176). -/
def serveResume (h : Service) (s : State) : State :=
  if enabledActive s.silence ≠ 0 then reply h Cmd.resume .busy .none s
  else reply h Cmd.resume .done .none (if resumes s.silence then goVoiced s else s)

/-- RESUME (R176). -/
def execResume (h : Service) (s : State) : Host.Outcome State Fault Refusal := act (onTarget h (serveResume h)) s

/-- WAKE (R29). -/
def serveWake (h : Service) (s : State) : State :=
  if s.pins.access then reply h Cmd.wake .busy .none s else reply h Cmd.wake .done .none (wakeBank s)

/-- WAKE (R29). -/
def execWake (h : Service) (s : State) : Host.Outcome State Fault Refusal := act (onTarget h (serveWake h)) s

/-! ### The halted set (R3) -/

/-- A mask without its flags for ABSENT channels (R3). -/
def presentOf (s : State) (mask : ChannelMask) : ChannelMask := mask &&& presentMask s

/-- The halted set takes a value; the reply carries it (R3). -/
def writeHalted (h : Service) (mask halted : ChannelMask) (s : State) : State :=
  reply h Cmd.channel (doneOr (decide (presentOf s mask ≠ mask))) (.channels halted) { s with halted := halted }

/-- CHANNEL SET (R3). -/
def execChannelSet (h : Service) (mask : ChannelMask) (s : State) : Host.Outcome State Fault Refusal :=
  act (onTarget h fun s => writeHalted h mask (presentOf s mask) s) s

/-- CHANNEL MERGE (R3). -/
def execChannelMerge (h : Service) (mask : ChannelMask) (s : State) : Host.Outcome State Fault Refusal :=
  act (onTarget h fun s => writeHalted h mask (s.halted ||| presentOf s mask) s) s

/-- CHANNEL CLEAR (R3). -/
def execChannelClear (h : Service) (mask : ChannelMask) (s : State) : Host.Outcome State Fault Refusal :=
  act (onTarget h fun s => writeHalted h mask (s.halted &&& ~~~presentOf s mask) s) s

/-! ### The test pulse (R20, R21) -/

/-- The channels an accepted PULSE takes, ascending (R21). -/
def pulseChannels (s : State) (mask : ChannelMask) : List (Fin 8) :=
  allChannels.filter fun k => mask.getLsbD k.val && decide (channelState s k = .run)

/-- The impact of a TEST entry of this rank (R21). -/
def pulseImpact (now rank : Nat) : Nat := plus now (4000 + 2000 * rank)

/-- One TEST entry through its stages; its channel is noted when it is admitted (R21, R49). -/
def pulseOne (now velocity : Nat) (acc : State × ChannelMask) (x : Fin 8 × Nat) : State × ChannelMask :=
  let r := admitRequest x.1 .test 0 (pulseImpact now x.2) velocity (some 4000) .test now acc.1
  (r.1, if r.2 then acc.2 ||| BitVec.twoPow 8 x.1.val else acc.2)

/-- An accepted PULSE: a wake, then its TEST entries (R20, R21). -/
def takePulse (mask : ChannelMask) (velocity : Nat) (s : State) : State × ChannelMask :=
  ((pulseChannels s mask).zipIdx).foldl (pulseOne s.time.tower velocity) (wakeBank s, 0)

/-- CHANNEL PULSE (R20, R21). -/
def servePulse (h : Service) (mask : ChannelMask) (velocity : BitVec 8) (s : State) : State :=
  if velocity.toNat < 1 ∨ 15 < velocity.toNat then reply h Cmd.channel .range .none s
  else if s.floor.holder.isSome then reply h Cmd.channel .busy .none s
  else
    let r := takePulse mask velocity.toNat s
    reply h Cmd.channel .done (.channels r.2) r.1

/-- CHANNEL PULSE (R20, R21). -/
def execChannelPulse (h : Service) (mask : ChannelMask) (velocity : BitVec 8) (s : State) :
    Host.Outcome State Fault Refusal :=
  act (onTarget h (servePulse h mask velocity)) s

end Sys2Proof.Machine
end

