-- ==== Sys2Proof/Machine/SettingsCommands.lean ====
section
/-! DEFINITION. The service commands that write the node's settings: VOICE_SET, CAL_SET, CAL_CLEAR, QUIET_SET,
NODE_SET and MASK_SET (R7, R8, R24, R45, R141, R160, R164, R165, R170, R177, R178, R182). -/

namespace Sys2Proof.Machine

/-- A value outside its range replaced by the nearer bound (R7, R182). -/
def clamp (lo hi x : Nat) : Nat := max lo (min hi x)

/-- A command refused BUSY while a settings STORE is in progress (R181, R185). -/
def unlessStoring (h : Service) (command : Nat) (f : State → State) (s : State) : State :=
  if storing s then reply h command .busy .none s else f s

/-! ### VOICE_SET (R7, R8) -/

/-- VOICE_SET's refusals: BUSY, then NOT_HERE for an ABSENT channel (R7; notes/assumptions/17.md). -/
def voiceWrite (h : Service) (k : Fin 8) (f : State → State) (s : State) : State :=
  unlessStoring h Cmd.voiceSet
    (fun t => if isPresent t k then f t else reply h Cmd.voiceSet .notHere .none t) s

/-- Channel k's voicing record takes a value. -/
def setVoicing (k : Fin 8) (v : Voicing) (s : State) : State := updChannel k (fun c => { c with voicing := v }) s

/-- The pulse curve with its entries for velocities 1 to 8 written (R7). -/
def curveLow (old : Vector Nat 15) (widths : Vector (BitVec 8) 8) : Vector Nat 15 :=
  Vector.ofFn fun i : Fin 15 =>
    if h : i.val < 8 then clamp 1 250 widths[i.val].toNat else old[i]

/-- The pulse curve with its entries for velocities 9 to 15 written (R7). -/
def curveHigh (old : Vector Nat 15) (widths : Vector (BitVec 8) 7) : Vector Nat 15 :=
  Vector.ofFn fun i : Fin 15 =>
    if h : 8 ≤ i.val ∧ i.val - 8 < 7 then clamp 1 250 (widths[i.val - 8]'h.2).toNat else old[i]

/-- A pulse width is outside 1 to 250 (R6). -/
def widthReplaced (w : BitVec 8) : Bool := decide (clamp 1 250 w.toNat ≠ w.toNat)

/-- VOICE_SET PULSE_LOW (R7). -/
def execVoiceSetPulseLow (h : Service) (k : Fin 8) (widths : Vector (BitVec 8) 8) (s : State) :
    Host.Outcome State Fault Refusal :=
  act (onTarget h (voiceWrite h k fun s =>
    let v := s.channels[k].voicing
    reply h Cmd.voiceSet (doneOr (widths.toList.any widthReplaced)) .none
      (setVoicing k { v with curve := curveLow v.curve widths } s))) s

/-- VOICE_SET PULSE_HIGH (R7). -/
def execVoiceSetPulseHigh (h : Service) (k : Fin 8) (widths : Vector (BitVec 8) 7) (s : State) :
    Host.Outcome State Fault Refusal :=
  act (onTarget h (voiceWrite h k fun s =>
    let v := s.channels[k].voicing
    reply h Cmd.voiceSet (doneOr (widths.toList.any widthReplaced)) .none
      (setVoicing k { v with curve := curveHigh v.curve widths } s))) s

/-- The fields of a TIMING part as written: the bounds of R6, then F15 held to F1, then H held to F1 (R7). -/
def timedVoicing (v : Voicing) (f : TimingFields) : Voicing :=
  let f1 := clamp 8 1000 f.f1.toNat
  { v with
    f1 := f1
    f15 := min (clamp 8 1000 f.f15.toNat) f1
    back := max (clamp 40 4000 f.back.toNat) f1
    damped := f.damped
    lead := clamp 20 400 f.lead.toNat
    coil := clamp 1 64 f.coil.toNat }

/-- A value of a TIMING part was replaced or held (R7). -/
def timingReplaced (v : Voicing) (f : TimingFields) : Bool :=
  decide (v.f1 ≠ f.f1.toNat ∨ v.f15 ≠ f.f15.toNat ∨ v.back ≠ f.back.toNat ∨ v.lead ≠ f.lead.toNat ∨
    v.coil ≠ f.coil.toNat)

/-- An entry of the channel without lift time and duration (R8). -/
def undampEntry (k : Fin 8) (e : Entry) : Entry :=
  if e.channel = k then { e with lift := none, duration := none } else e

/-- A channel that is no longer damped: its drop is cleared, its damper falls, its entries lose their lift
times and durations (R8); a drain may complete (R32). -/
def undamp (k : Fin 8) (s : State) : State :=
  drainCheck (updChannel k (fun c => { c with drop := none, damperUp := false })
    { s with queue := s.queue.map (undampEntry k) })

/-- A TIMING part is written (R7, R8). -/
def writeTiming (k : Fin 8) (f : TimingFields) (s : State) : State :=
  let v := s.channels[k].voicing
  let s1 := setVoicing k (timedVoicing v f) s
  if v.damped ∧ !f.damped then undamp k s1 else s1

/-- VOICE_SET TIMING (R7, R8). -/
def execVoiceSetTiming (h : Service) (k : Fin 8) (fields : TimingFields) (s : State) :
    Host.Outcome State Fault Refusal :=
  act (onTarget h (voiceWrite h k fun s =>
    let clamped := timingReplaced (timedVoicing s.channels[k].voicing fields) fields
    reply h Cmd.voiceSet (doneOr clamped) .none (writeTiming k fields s))) s

/-! ### Calendar commands (R164) -/

/-- The entry a CAL_SET writes, when every field is in its range (R164). -/
def readEntry (f : CalFields) : Option CalEntry :=
  match priorityOf f.priority, slotNumber f.slot with
  | some pr, some t =>
    if f.minute.toNat ≤ 59 then
      some { enabled := f.enabled, days := f.days, hours := f.hours, minute := f.minute.toNat, slot := t
             priority := pr, lastFired := none }
    else none
  | _, _ => none

/-- An entry number 0 to 23. -/
def entryNumber (n : Nat) : Option (Fin 24) := if h : n < 24 then some ⟨n, h⟩ else none

/-- CAL_SET (R164). -/
def serveCalSet (h : Service) (entry : BitVec 8) (fields : CalFields) (s : State) : State :=
  match entryNumber entry.toNat, readEntry fields with
  | some i, some e => reply h Cmd.calSet .done .none (updEntry i (fun _ => e) s)
  | _, _ => reply h Cmd.calSet .range .none s

/-- CAL_SET (R164). -/
def execCalSet (h : Service) (entry : BitVec 8) (fields : CalFields) (s : State) :
    Host.Outcome State Fault Refusal :=
  act (onTarget h (unlessStoring h Cmd.calSet (serveCalSet h entry fields))) s

/-- Every calendar entry cleared (R164). -/
def clearEntries (s : State) : State :=
  { s with calendar := { s.calendar with entries := Vector.replicate 24 clearedEntry } }

/-- CAL_CLEAR (R164). -/
def serveCalClear (h : Service) (entry : BitVec 5) (s : State) : State :=
  if entry.toNat = 31 then reply h Cmd.calClear .done .none (clearEntries s)
  else
    match entryNumber entry.toNat with
    | some i => reply h Cmd.calClear .done .none (updEntry i (fun _ => clearedEntry) s)
    | none => reply h Cmd.calClear .range .none s

/-- CAL_CLEAR (R164). -/
def execCalClear (h : Service) (entry : BitVec 5) (s : State) : Host.Outcome State Fault Refusal :=
  act (onTarget h (unlessStoring h Cmd.calClear (serveCalClear h entry))) s

/-- The window a QUIET_SET writes, when every field is in its range (R164). -/
def readWindow (f : QuietFields) : Option QuietWindow :=
  if f.start.toNat ≤ 1439 ∧ f.stop.toNat ≤ 1439 ∧ f.level.toNat ≤ 3 then
    some { days := f.days, start := f.start.toNat, stop := f.stop.toNat, level := f.level.toNat }
  else none

/-- A window number 0 to 3. -/
def windowNumber (n : BitVec 8) : Option (Fin 4) := if h : n.toNat < 4 then some ⟨n.toNat, h⟩ else none

/-- A quiet window takes a value. -/
def setWindow (i : Fin 4) (w : QuietWindow) (s : State) : State :=
  { s with calendar := { s.calendar with windows := s.calendar.windows.set i w } }

/-- QUIET_SET (R164). -/
def serveQuietSet (h : Service) (window : BitVec 8) (fields : QuietFields) (s : State) : State :=
  match windowNumber window, readWindow fields with
  | some i, some w => reply h Cmd.quietSet .done .none (setWindow i w s)
  | _, _ => reply h Cmd.quietSet .range .none s

/-- QUIET_SET (R164). -/
def execQuietSet (h : Service) (window : BitVec 8) (fields : QuietFields) (s : State) :
    Host.Outcome State Fault Refusal :=
  act (onTarget h (unlessStoring h Cmd.quietSet (serveQuietSet h window fields))) s

/-! ### NODE_SET (R182) -/

/-- The claim wait limit nearest a value, the larger of two equally near (R141). -/
def nearestWait (v : Nat) : Nat :=
  if v < 96000 then 64000 else if v < 160000 then 128000 else if v < 224000 then 192000 else 256000

/-- The hold time nearest a value, the larger of two equally near (R177). -/
def nearestHold (v : Nat) : Nat :=
  if v < 4000 then 0 else if v < 12000 then 8000 else if v < 24000 then 16000 else 32000

/-- The idle time as written (R24). -/
def idleValue (v : Nat) : Nat := if v = 0 then 0 else clamp 4000 14400000 v

/-- A contact cue map's value as written: the slot in the lowest 8 bits, the enabled flag in bit 8 (R182). -/
def mapValue (v : Nat) : Nat := min 31 (v % 256) + 256 * (v / 256 % 2)

/-- The value that is written for a setting (R182). -/
def settingValue (n v : Nat) : Nat :=
  match n with
  | 0 => clamp 1 32 v
  | 1 => clamp 1 60000 v
  | 2 => clamp 0 60000 v
  | 3 => idleValue v
  | 4 => clamp 0 160 v
  | 5 => clamp 1 8 v
  | 6 => clamp 2000 16000 v
  | 7 => nearestWait v
  | 8 => clamp 1 64 v
  | 9 => clamp 4000 16000 v
  | 10 => clamp 1 64 v
  | 11 => clamp 1 64 v
  | 12 => clamp 1 64 v
  | 13 => clamp 1 64 v
  | 14 => clamp 8000 120000 v
  | 15 => mapValue v
  | 16 => mapValue v
  | 17 => clamp 0 1 v
  | 18 => nearestHold v
  | 19 => clamp 0 3 v
  | 20 => clamp 0 63 v
  | _ => v

/-- A value was replaced; the higher bits of a contact cue map are not read (R182). -/
def settingReplaced (n v : Nat) : Bool :=
  if n = 15 ∨ n = 16 then decide (31 < v % 256) else decide (settingValue n v ≠ v)

/-- The contact cue map a written value stands for (R182). -/
def mapOf (v : Nat) : ContactMap := { enabled := decide (v / 256 % 2 = 1), slot := Fin.ofNat 32 (v % 256) }

/-- The trace trigger a code stands for (R182). -/
def triggerOf (v : Nat) : Trigger :=
  match v with
  | 0 => .none
  | 1 => .silentEntry
  | 2 => .starved
  | _ => .notFired

/-- The settings changed by f. -/
def updSettings (f : Settings → Settings) (s : State) : State := { s with settings := f s.settings }

/-- A new idle time is compared with the idle timer at once (R24, R31). -/
def setIdleTime (v : Nat) (s : State) : State :=
  let s1 := updSettings (fun x => { x with idleTime := v }) s
  if bankUp s1.drive.mode ∧ v ≠ 0 ∧ v ≤ s1.drive.idle then startDrain s1 else s1

/-- A change of the resume mode to AUTO starts the hold of a resumable silence (R177). -/
def setAuto (s : State) : State :=
  let s1 := updSettings (fun x => { x with resume := .auto }) s
  if s.settings.resume = .manual ∧ s.silence.state = .silent ∧ s.silence.resumable then goHolding s1 else s1

/-- A change of the resume mode to MANUAL turns a hold into a resumable silence (R177). -/
def setManual (s : State) : State :=
  let s1 := updSettings (fun x => { x with resume := .manual }) s
  if s.settings.resume = .auto ∧ s.silence.state = .holding then goSilent true s1 else s1

/-- A new hold time is compared with the hold timer at once (R177). -/
def setHoldTime (v : Nat) (s : State) : State :=
  let s1 := updSettings (fun x => { x with holdTime := v }) s
  if holdReached s1 then goVoiced s1 else s1

/-- A setting is written with a value of its range and takes effect at once (R182). -/
def writeSetting (n v : Nat) (s : State) : State :=
  match n with
  | 0 => updSettings (fun x => { x with recharge := v }) s
  | 1 => bankSync (updSettings (fun x => { x with readyLevel := v }) s)
  | 2 => updSettings (fun x => { x with reserve := v }) s
  | 3 => setIdleTime v s
  | 4 => updSettings (fun x => { x with lateLimit := v }) s
  | 5 => updSettings (fun x => { x with fadeStep := v }) s
  | 6 => updSettings (fun x => { x with lookahead := v }) s
  | 7 => updSettings (fun x => { x with claimWait := v }) s
  | 8 => updSettings (fun x => { x with hourBell := v }) s
  | 9 => updSettings (fun x => { x with hourInterval := v }) s
  | 10 => updSettings (fun x => { x with quarter1 := v }) s
  | 11 => updSettings (fun x => { x with quarter2 := v }) s
  | 12 => updSettings (fun x => { x with quarter3 := v }) s
  | 13 => updSettings (fun x => { x with quarter4 := v }) s
  | 14 => setPreroll v s
  | 15 => updSettings (fun x => { x with map1 := mapOf v }) s
  | 16 => updSettings (fun x => { x with map2 := mapOf v }) s
  | 17 => if v = 0 then setAuto s else setManual s
  | 18 => setHoldTime v s
  | 19 => updSettings (fun x => { x with trigger := triggerOf v }) s
  | 20 => updSettings (fun x => { x with postCount := v }) s
  | _ => s

/-- A pair as the reply carries it: the value as written (05 REPLY bodies). -/
def writtenPair (p : BitVec 8 × BitVec 24) : BitVec 8 × BitVec 24 :=
  (p.1, BitVec.ofNat 24 (settingValue p.1.toNat p.2.toNat))

/-- Every pair written in the order carried (R182). -/
def writePairs (pairs : List (BitVec 8 × BitVec 24)) (s : State) : State :=
  pairs.foldl (fun t p => writeSetting p.1.toNat (settingValue p.1.toNat p.2.toNat) t) s

/-- NODE_SET's pairs that name no setting, or no pairs at all (R181, R182). -/
def pairsRefused (pairs : List (BitVec 8 × BitVec 24)) : Bool :=
  pairs.isEmpty || pairs.any fun p => decide (20 < p.1.toNat)

/-- NODE_SET (R182). -/
def serveNodeSet (h : Service) (pairs : List (BitVec 8 × BitVec 24)) (s : State) : State :=
  if pairsRefused pairs then reply h Cmd.nodeSet .range .none s
  else
    reply h Cmd.nodeSet (doneOr (pairs.any fun p => settingReplaced p.1.toNat p.2.toNat))
      (.settings (pairs.map writtenPair)) (writePairs pairs s)

/-- NODE_SET (R182): one to three pairs; a fourth would not be read (05 SERVICE bodies). -/
def execNodeSet (h : Service) (pairs : List (BitVec 8 × BitVec 24)) (s : State) :
    Host.Outcome State Fault Refusal :=
  act (onTarget h (unlessStoring h Cmd.nodeSet (serveNodeSet h (pairs.take 3)))) s

/-! ### MASK_SET (R170, R178) -/

/-- MASK_SET (R170). -/
def serveMaskSet (h : Service) (mask : BitVec 8) (s : State) : State :=
  let m := mask ||| fixedFlags
  reply h Cmd.maskSet (doneOr (decide (m ≠ mask))) (.mask m) (setMask m s)

/-- MASK_SET (R170). -/
def execMaskSet (h : Service) (mask : BitVec 8) (s : State) : Host.Outcome State Fault Refusal :=
  act (onTarget h (unlessStoring h Cmd.maskSet (serveMaskSet h mask))) s

end Sys2Proof.Machine
end

