-- ==== Sys2Proof/Machine/LibraryCommands.lean ====
section
/-! DEFINITION. The service commands of the Tune Library, the settings store, the reports and the counters, and
the events of the store and of a reply under way (R150 to R154, R183 to R189). -/

namespace Sys2Proof.Machine

/-! ### Loading (R151 to R154) -/

/-- LOAD_BEGIN's cases after the slot number and the header have been read (R151). -/
def beginLoad (h : Service) (t : Fin 32) (x : TuneHeader) (s : State) : State :=
  if notHere s t then reply h Cmd.loadBegin .notHere .none s
  else if isLocked s t then reply h Cmd.loadBegin .busy .none s
  else if poolFree s + s.library.parts[t].poolEvents < x.count then reply h Cmd.loadBegin .noRoom .none s
  else
    let s1 := setPart t (.loading x [] h.heard.sender) s
    reply h Cmd.loadBegin .done (.free (poolFree s1)) s1

/-- LOAD_BEGIN (R151). -/
def serveLoadBegin (h : Service) (slot : BitVec 8) (fields : LoadFields) (s : State) : State :=
  match slotNumber slot, readHeader fields with
  | some t, some x => beginLoad h t x s
  | _, _ => reply h Cmd.loadBegin .range .none s

/-- LOAD_BEGIN (R151). -/
def execLoadBegin (h : Service) (slot : BitVec 8) (fields : LoadFields) (s : State) :
    Host.Outcome State Fault Refusal :=
  act (onTarget h (unlessStoring h Cmd.loadBegin (serveLoadBegin h slot fields))) s

/-- Events taken by a LOADING slot: its header, the events received, its loader (R152). -/
def takeEvents (h : Service) (t : Fin 32) (x : TuneHeader) (got : List TuneEvent) (loader : Fin 16)
    (index : Nat) (events : List LoadEvent) (s : State) : State :=
  if h.heard.sender ≠ loader then reply h Cmd.loadData .busy .none s
  else if index ≠ got.length then reply h Cmd.loadData .sequence .none (setPart t .empty s)
  else
    match readTuneEvents events with
    | none => reply h Cmd.loadData .range .none s
    | some es =>
      if x.count < got.length + es.length then reply h Cmd.loadData .range .none s
      else reply h Cmd.loadData .done (.next (got.length + es.length))
        (setPart t (.loading x (got ++ es) loader) s)

/-- LOAD_DATA's cases after the slot number has been read (R152). -/
def loadInto (h : Service) (t : Fin 32) (index : Nat) (events : List LoadEvent) (s : State) : State :=
  if notHere s t then reply h Cmd.loadData .notHere .none s
  else
    match s.library.parts[t] with
    | .empty => reply h Cmd.loadData .sequence .none s
    | .valid _ _ _ => reply h Cmd.loadData .sequence .none s
    | .loading x got loader => takeEvents h t x got loader index events s

/-- LOAD_DATA (R152): a body with no event in it is too short (R181, 05 SERVICE bodies). -/
def serveLoadData (h : Service) (slot : BitVec 8) (index : BitVec 16) (events : List LoadEvent) (s : State) :
    State :=
  match slotNumber slot with
  | none => reply h Cmd.loadData .range .none s
  | some t => loadInto h t index.toNat events s

/-- LOAD_DATA (R152): one or two events; a third would not be read (05 SERVICE bodies). -/
def execLoadData (h : Service) (slot : BitVec 8) (index : BitVec 16) (events : List LoadEvent) (s : State) :
    Host.Outcome State Fault Refusal :=
  act (onTarget h fun s =>
    if events.isEmpty then reply h Cmd.loadData .range .none s
    else unlessStoring h Cmd.loadData (serveLoadData h slot index (events.take 2)) s) s

/-- The end of a load by its loader: VALID when every event has arrived and the checksum agrees, EMPTY
otherwise (R153). -/
def closeLoad (h : Service) (t : Fin 32) (x : TuneHeader) (got : List TuneEvent) (checksum : BitVec 16)
    (s : State) : State :=
  let c := checksumOf got
  if got.length = x.count ∧ c = checksum then
    reply h Cmd.loadEnd .done (.checksum c) (setPart t (.valid x (tuneMask got) got) s)
  else reply h Cmd.loadEnd .check (.checksum c) (setPart t .empty s)

/-- LOAD_END's cases after the slot number has been read (R153). -/
def endLoad (h : Service) (t : Fin 32) (checksum : BitVec 16) (s : State) : State :=
  if notHere s t then reply h Cmd.loadEnd .notHere .none s
  else
    match s.library.parts[t] with
    | .empty => reply h Cmd.loadEnd .sequence .none s
    | .valid _ _ _ => reply h Cmd.loadEnd .sequence .none s
    | .loading x got loader =>
      if h.heard.sender ≠ loader then reply h Cmd.loadEnd .busy .none s
      else closeLoad h t x got checksum s

/-- LOAD_END (R153). -/
def serveLoadEnd (h : Service) (slot : BitVec 8) (checksum : BitVec 16) (s : State) : State :=
  match slotNumber slot with
  | none => reply h Cmd.loadEnd .range .none s
  | some t => endLoad h t checksum s

/-- LOAD_END (R153). -/
def execLoadEnd (h : Service) (slot : BitVec 8) (checksum : BitVec 16) (s : State) :
    Host.Outcome State Fault Refusal :=
  act (onTarget h (unlessStoring h Cmd.loadEnd (serveLoadEnd h slot checksum))) s

/-- DELETE's cases after the slot number has been read (R154). -/
def deletePart (h : Service) (t : Fin 32) (s : State) : State :=
  if notHere s t then reply h Cmd.delete .notHere .none s
  else if isLocked s t then reply h Cmd.delete .busy .none s
  else reply h Cmd.delete .done .none (setPart t .empty s)

/-- DELETE (R154). -/
def serveDelete (h : Service) (slot : BitVec 8) (s : State) : State :=
  match slotNumber slot with
  | none => reply h Cmd.delete .range .none s
  | some t => deletePart h t s

/-- DELETE (R154). -/
def execDelete (h : Service) (slot : BitVec 8) (s : State) : Host.Outcome State Fault Refusal :=
  act (onTarget h (unlessStoring h Cmd.delete (serveDelete h slot))) s

/-- A loaded part is LOADING. -/
def LoadedPart.isLoading : LoadedPart → Bool
  | .empty => false
  | .loading _ _ _ => true
  | .valid _ _ _ => false

/-- A slot 0 to 7 is locked or its loaded part is LOADING (R150). -/
def overlayHeld (s : State) : Bool :=
  [0, 1, 2, 3, 4, 5, 6, 7].any fun n =>
    let t : Fin 32 := Fin.ofNat 32 n
    isLocked s t || s.library.parts[t].isLoading

/-- The OVERLAY flag takes a value. -/
def setOverlay (on : Bool) (s : State) : State := { s with library := { s.library with overlay := on } }

/-- OVERLAY (R150). -/
def serveOverlay (h : Service) (on : Bool) (s : State) : State :=
  if overlayHeld s then reply h Cmd.overlay .busy .none s
  else reply h Cmd.overlay .done .none (setOverlay on s)

/-- OVERLAY (R150). -/
def execOverlay (h : Service) (on : Bool) (s : State) : Host.Outcome State Fault Refusal :=
  act (onTarget h (unlessStoring h Cmd.overlay (serveOverlay h on))) s

/-! ### Store and restart (R185, R187) -/

/-- STORE (R185): no immediate reply when the store begins. -/
def execStore (h : Service) (s : State) : Host.Outcome State Fault Refusal :=
  act (onTarget h (unlessStoring h Cmd.store (beginStore h.tag))) s

/-- STORE_COMPLETE (R185). -/
def execStoreComplete (s : State) : Host.Outcome State Fault Refusal := act completeStore s

/-- STORE_FAILURE (R185). -/
def execStoreFailure (s : State) : Host.Outcome State Fault Refusal := act failStore s

/-- RESTART (R187): its reply is handed after the reset. -/
def execRestart (h : Service) (s : State) : Host.Outcome State Fault Refusal :=
  act (onTarget h (unlessStoring h Cmd.restart fun s => reply h Cmd.restart .done .none (restart s))) s

/-! ### Reports and counters (R183, R184, R189) -/

/-- A reply of several parts is begun, or refused BUSY while another is under way (R189). -/
def unlessReplying (h : Service) (command : Nat) (f : State → State) (s : State) : State :=
  if s.service.reply.isSome then reply h command .busy .none s else f s

/-- STATUS (R184). -/
def execStatus (h : Service) (s : State) : Host.Outcome State Fault Refusal :=
  act (onTarget h (unlessReplying h Cmd.status (startStatus h.tag))) s

/-- TRACE (R189). -/
def execTrace (h : Service) (s : State) : Host.Outcome State Fault Refusal :=
  act (onTarget h (unlessReplying h Cmd.trace (startTrace h.tag))) s

/-- REPLY_PART (R189). -/
def execReplyPart (s : State) : Host.Outcome State Fault Refusal := act sendPart s

/-- The strike trace emptied and OPEN (R189), its remaining count 0 (DESIGN CHOICE, notes/assumptions/48.md). -/
def releaseTrace (s : State) : State := { s with trace := StrikeTrace.initial }

/-- TRACE_RELEASE (R189). -/
def execTraceRelease (h : Service) (s : State) : Host.Outcome State Fault Refusal :=
  act (onTarget h fun s => reply h Cmd.traceRelease .done .none (releaseTrace s)) s

/-- Every counter at 0 (R183). -/
def clearCounters (s : State) : State := { s with counters := zeroCounters }

/-- COUNTERS_CLEAR (R183). The counters are cleared before the reply is handed, so a reply that a full transmit queue
refuses, or takes for another frame, leaves TX_DROPPED above 0 (DESIGN CHOICE, notes/assumptions/55.md). -/
def execCountersClear (h : Service) (s : State) : Host.Outcome State Fault Refusal :=
  act (onTarget h fun s => reply h Cmd.countersClear .done .none (clearCounters s)) s

end Sys2Proof.Machine
end

