-- ==== Sys2Proof/Machine/Dispatch.lean ====
section
/-! DEFINITION. One arm for each command: its meaning, called in full. -/

namespace Sys2Proof.Machine

/-- The effect of a command on everything but the queue of commands that wait. -/
def exec (i : Instr) (s : State) : Host.Outcome State Fault Refusal :=
  match i with
  | .powerOn straps pins => Sys2Proof.Machine.execPowerOn straps pins s
  | .listenEnd => Sys2Proof.Machine.execListenEnd s
  | .localTick feedback => Sys2Proof.Machine.execLocalTick feedback s
  | .frameOffer => Sys2Proof.Machine.execFrameOffer s
  | .arbitrationLoss cell => Sys2Proof.Machine.execArbitrationLoss cell s
  | .txCompleted acked => Sys2Proof.Machine.execTxCompleted acked s
  | .txAbandoned => Sys2Proof.Machine.execTxAbandoned s
  | .lineFaultEnd => Sys2Proof.Machine.execLineFaultEnd s
  | .receiveError => Sys2Proof.Machine.execReceiveError s
  | .checkErrorsClear => Sys2Proof.Machine.execCheckErrorsClear s
  | .unknownFrame ident payload => Sys2Proof.Machine.execUnknownFrame ident payload s
  | .presenceBuild => Sys2Proof.Machine.execPresenceBuild s
  | .presence rx body => Sys2Proof.Machine.execPresence rx body s
  | .stationClashEnd => Sys2Proof.Machine.execStationClashEnd s
  | .peerLapse p => Sys2Proof.Machine.execPeerLapse p s
  | .peerAbsence p => Sys2Proof.Machine.execPeerAbsence p s
  | .order rx seq base items => Sys2Proof.Machine.execOrder rx seq base items s
  | .launchEvent => Sys2Proof.Machine.execLaunchEvent s
  | .pulseEnd k => Sys2Proof.Machine.execPulseEnd k s
  | .flightEnd k => Sys2Proof.Machine.execFlightEnd k s
  | .returnEnd k => Sys2Proof.Machine.execReturnEnd k s
  | .lift k => Sys2Proof.Machine.execLift k s
  | .drop k => Sys2Proof.Machine.execDrop k s
  | .drainStart => Sys2Proof.Machine.execDrainStart s
  | .accessActive => Sys2Proof.Machine.execAccessActive s
  | .accessRelease => Sys2Proof.Machine.execAccessRelease s
  | .chargerFaultActive => Sys2Proof.Machine.execChargerFaultActive s
  | .chargerFaultClear => Sys2Proof.Machine.execChargerFaultClear s
  | .coilHotAssert => Sys2Proof.Machine.execCoilHotAssert s
  | .coilHotClear => Sys2Proof.Machine.execCoilHotClear s
  | .minuteMark stamp => Sys2Proof.Machine.execMinuteMark stamp s
  | .sourcedExit => Sys2Proof.Machine.execSourcedExit s
  | .timeStepEnd => Sys2Proof.Machine.execTimeStepEnd s
  | .holdExpiry => Sys2Proof.Machine.execHoldExpiry s
  | .claim rx priority body => Sys2Proof.Machine.execClaim rx priority body s
  | .floor rx priority body => Sys2Proof.Machine.execFloor rx priority body s
  | .release rx seq reason => Sys2Proof.Machine.execRelease rx seq reason s
  | .lapse => Sys2Proof.Machine.execLapse s
  | .claimHandoff k => Sys2Proof.Machine.execClaimHandoff k s
  | .waitDeadline k => Sys2Proof.Machine.execWaitDeadline k s
  | .ensembleGate k => Sys2Proof.Machine.execEnsembleGate k s
  | .orderBuild k => Sys2Proof.Machine.execOrderBuild k s
  | .floorBeaconDue k => Sys2Proof.Machine.execFloorBeaconDue k s
  | .performanceEnd k => Sys2Proof.Machine.execPerformanceEnd k s
  | .prerollPoint => Sys2Proof.Machine.execPrerollPoint s
  | .contactPress c => Sys2Proof.Machine.execContactPress c s
  | .storeComplete => Sys2Proof.Machine.execStoreComplete s
  | .storeFailure => Sys2Proof.Machine.execStoreFailure s
  | .replyPart => Sys2Proof.Machine.execReplyPart s
  | .unknownCommand h command body => Sys2Proof.Machine.execUnknownCommand h command body s
  | .setTime h time => Sys2Proof.Machine.execSetTime h time s
  | .cue h slot priority start => Sys2Proof.Machine.execCue h slot priority start s
  | .stopPerformance h perf => Sys2Proof.Machine.execStopPerformance h perf s
  | .stopFloor h => Sys2Proof.Machine.execStopFloor h s
  | .resume h => Sys2Proof.Machine.execResume h s
  | .wake h => Sys2Proof.Machine.execWake h s
  | .channelSet h mask => Sys2Proof.Machine.execChannelSet h mask s
  | .channelMerge h mask => Sys2Proof.Machine.execChannelMerge h mask s
  | .channelClear h mask => Sys2Proof.Machine.execChannelClear h mask s
  | .channelPulse h mask velocity => Sys2Proof.Machine.execChannelPulse h mask velocity s
  | .voiceSetPulseLow h k widths => Sys2Proof.Machine.execVoiceSetPulseLow h k widths s
  | .voiceSetPulseHigh h k widths => Sys2Proof.Machine.execVoiceSetPulseHigh h k widths s
  | .voiceSetTiming h k fields => Sys2Proof.Machine.execVoiceSetTiming h k fields s
  | .calSet h entry fields => Sys2Proof.Machine.execCalSet h entry fields s
  | .calClear h entry => Sys2Proof.Machine.execCalClear h entry s
  | .quietSet h window fields => Sys2Proof.Machine.execQuietSet h window fields s
  | .nodeSet h pairs => Sys2Proof.Machine.execNodeSet h pairs s
  | .maskSet h mask => Sys2Proof.Machine.execMaskSet h mask s
  | .loadBegin h slot fields => Sys2Proof.Machine.execLoadBegin h slot fields s
  | .loadData h slot index events => Sys2Proof.Machine.execLoadData h slot index events s
  | .loadEnd h slot checksum => Sys2Proof.Machine.execLoadEnd h slot checksum s
  | .delete h slot => Sys2Proof.Machine.execDelete h slot s
  | .overlay h on => Sys2Proof.Machine.execOverlay h on s
  | .store h => Sys2Proof.Machine.execStore h s
  | .restart h => Sys2Proof.Machine.execRestart h s
  | .status h => Sys2Proof.Machine.execStatus h s
  | .trace h => Sys2Proof.Machine.execTrace h s
  | .traceRelease h => Sys2Proof.Machine.execTraceRelease h s
  | .countersClear h => Sys2Proof.Machine.execCountersClear h s
  | .powerLost => Sys2Proof.Machine.execPowerLost s
  | .playContactInactive c => Sys2Proof.Machine.execPlayContactInactive c s

end Sys2Proof.Machine
end

