-- ==== Sys2Proof/Machine/Frames.lean ====
section
/-! DEFINITION. The frames the node sends, as the line carries them: the payload of each (05 Frame layouts, REPLY header
and bodies) and its cells (R85). -/

namespace Sys2Proof.Machine

/-- The code of a result (05 REPLY header). -/
def resultCode : Result → BitVec 3
  | .done => 0#3
  | .doneClamped => 1#3
  | .busy => 2#3
  | .range => 3#3
  | .noRoom => 4#3
  | .notHere => 5#3
  | .sequence => 6#3
  | .check => 7#3

/-- The code of a settings state (05 REPLY bodies). -/
def settingsCode : SettingsKind → BitVec 2
  | .valid => 0#2
  | .storing => 1#2
  | .lost => 2#2

/-- The code of a trace state (05 REPLY bodies). -/
def traceCode : TraceState → BitVec 2
  | .open => 0#2
  | .counting => 1#2
  | .frozen => 2#2

/-- The code of a trigger setting (05 REPLY bodies). -/
def triggerCode : Trigger → BitVec 2
  | .none => 0#2
  | .silentEntry => 1#2
  | .starved => 2#2
  | .notFired => 3#2

/-- The code of an outcome (05 REPLY bodies). -/
def outcomeCode : StrikeOutcome → BitVec 3
  | .fired => 0#3
  | .degraded => 1#3
  | .halted => 2#3
  | .silenced => 3#3
  | .starved => 4#3
  | .purged => 5#3

/-- A number as a field of w bits. -/
def putNat (w n : Nat) : List Bool := putField (BitVec.ofNat w n)

/-- The owner of a trace record: the TEST flag, station and sequence (05 REPLY bodies). -/
def putOwner : Owner → List Bool
  | .test => true :: fill 12
  | .perf p => false :: (putNat 4 p.station.val ++ putField p.seq)

/-- A trace record as a part of a TRACE reply carries it; lateness in two's complement (05 REPLY bodies). -/
def putRecord (r : StrikeRecord) : List Bool :=
  putNat 3 r.channel.val ++ (putOwner r.owner ++ (putNat 32 r.impact ++ (putNat 32 r.launch ++
    (putNat 4 r.requested ++ (putNat 4 r.fired ++ (putField (outcomeCode r.outcome) ++
    putField (BitVec.ofInt 13 r.lateness)))))))

/-- Station and straps as part 0 of a STATUS reply carries them (05 REPLY bodies). -/
def putStraps (x : Straps) : List Bool :=
  putNat 4 x.station.val ++ (x.fastLine :: (putField x.bellBase ++ (putField x.channelCount ++
    (x.timeSource :: fill 1))))

/-- The body of a reply from bit 24 on (05 REPLY bodies). The bytes of a later part of a STATUS reply are a free
value, 13 at most (notes/assumptions/15.md). -/
def putBody : ReplyBody → List Bool
  | .none => []
  | .cue seq slot => putField seq ++ (putNat 2 slot.val ++ fill 6)
  | .stop held => held :: fill 7
  | .channels m => putFlags m
  | .settings pairs => pairs.flatMap fun p => putField p.1 ++ putField p.2
  | .mask m => putFlags m
  | .free n => putNat 16 n
  | .next n => putNat 16 n
  | .checksum c => putField c
  | .statusHead x k n => putStraps x ++ (putField (settingsCode k) ++ (fill 6 ++ putNat 8 n))
  | .statusPart fresh place _ => ((Config.statusBytes fresh place).take 13).flatMap putField
  | .traceHead st tr post remaining held =>
    putField (traceCode st) ++ (putField (triggerCode tr) ++ (putNat 6 post ++ (putNat 6 remaining ++
      (putNat 7 held ++ fill 1))))
  | .traceRecord r => putRecord r

/-- The payload of a REPLY: header and body (05 REPLY header). -/
def encodeReply (r : Reply) : Payload :=
  putNat 5 r.command ++ (putField r.tag ++ (putField (resultCode r.result) ++ (r.final ::
    (putNat 8 r.part ++ (fill 1 ++ putBody r.body)))))

/-- The payload of a frame the node sends (05 Frame layouts). -/
def Frame.payload : Frame → Payload
  | .claim _ b => encodeFloorBody b
  | .floor _ b => encodeFloorBody b
  | .release seq r => encodeRelease seq r
  | .presence b => encodeBeacon (.node b)
  | .order seq base items => encodeOrder seq base items
  | .reply r => encodeReply r

/-- The identifier of a frame the node sends (R86). -/
def sentIdent (s : State) (f : Frame) : BitVec 11 := f.kind.ident s.straps.station

/-- The cells of a frame the node sends (R85). -/
def sentCells (s : State) (f : Frame) : List Bool := frameCells (sentIdent s f) f.payload

end Sys2Proof.Machine
end

