-- ==== Sys2Proof/Safety.lean ====
section
/-! DEFINITION. The terms in which claims are made: what a command leaves unchanged, and the invariants of the
node, each from the rule of the manual that states it. -/

namespace Sys2Proof.Machine

/-! ### Frames -/

/-- The parts of the state: the fields of `State`. -/
inductive Part where
  | powered
  | straps
  | pins
  | settings
  | listen
  | channels
  | halted
  | drive
  | queue
  | admission
  | time
  | line
  | peers
  | floor
  | conductor
  | library
  | calendar
  | silence
  | trace
  | service
  | counters
  | free
  | pending
  deriving DecidableEq, Repr

/-- A part is the same in two states. -/
def Part.same (s t : State) : Part → Prop
  | .powered => t.powered = s.powered
  | .straps => t.straps = s.straps
  | .pins => t.pins = s.pins
  | .settings => t.settings = s.settings
  | .listen => t.listen = s.listen
  | .channels => t.channels = s.channels
  | .halted => t.halted = s.halted
  | .drive => t.drive = s.drive
  | .queue => t.queue = s.queue
  | .admission => t.admission = s.admission
  | .time => t.time = s.time
  | .line => t.line = s.line
  | .peers => t.peers = s.peers
  | .floor => t.floor = s.floor
  | .conductor => t.conductor = s.conductor
  | .library => t.library = s.library
  | .calendar => t.calendar = s.calendar
  | .silence => t.silence = s.silence
  | .trace => t.trace = s.trace
  | .service => t.service = s.service
  | .counters => t.counters = s.counters
  | .free => t.free = s.free
  | .pending => t.pending = s.pending

/-- The second state is the first outside the parts named. -/
def Unchanged (parts : List Part) (s t : State) : Prop := ∀ p : Part, p ∉ parts → p.same s t

/-- The parts a frame handed to the transmit queue may change: the queue itself, and, when the queue is full, the
counters and the builder of the frame that gives way (R92, R125, R135, R189). -/
def handed : List Part := [.line, .conductor, .counters, .service]

/-- The parts the end of a performance slot may change: its RELEASE, its lock, the play contacts (R138, R165). -/
def ending : List Part := [.line, .conductor, .counters, .service, .library, .calendar]

/-- The parts the removal of a queue entry may change (R56, R58, R115, R173). -/
def removal : List Part := [.queue, .counters, .floor, .channels, .drive, .silence, .trace]

/-- The parts the admission of a strike may change (R39, R47, R48). -/
def admission : List Part := [.queue, .admission, .counters, .floor, .channels, .drive, .silence, .trace]

/-- The parts an event of the floor may change, its purges, its wake and its notices included (R117). -/
def floorEvent : List Part := [.queue, .counters, .floor, .channels, .drive, .silence, .trace, .line, .conductor,
  .service, .library, .calendar]

/-- The parts a step of tower time may change (R67). -/
def timeStepped : List Part := [.time, .silence, .trace, .queue, .counters, .floor, .channels, .drive, .calendar,
  .line, .conductor, .service, .library]

/-- A counter rose by one, saturating at 65,535 (R57). -/
def Raised (c : Counter) (s t : State) : Prop := readCounter t c = min 65535 (readCounter s c + 1)

/-- A frame joined a transmit queue at its place: behind every frame with an identifier up to its own, in front of
one with a higher identifier (R91). -/
def Joined (s : State) (x : TxFrame) (before after : List TxFrame) : Prop :=
  ∃ pre post, before = pre ++ post ∧ after = pre ++ x :: post ∧
    (∀ y ∈ pre, txIdent s y.frame ≤ txIdent s x.frame) ∧
    (∀ y, post.head? = some y → txIdent s x.frame < txIdent s y.frame)

/-- A frame went back to its place in a transmit queue: in front of those with an equal identifier (R91). -/
def Reinstated (s : State) (x : TxFrame) (before after : List TxFrame) : Prop :=
  ∃ pre post, before = pre ++ post ∧ after = pre ++ x :: post ∧
    (∀ y ∈ pre, txIdent s y.frame < txIdent s x.frame) ∧
    (∀ y, post.head? = some y → txIdent s x.frame ≤ txIdent s y.frame)

/-- An entry joined a strike queue at its place: in front of the first entry with a later launch time
(R39; notes/assumptions/58.md). -/
def Inserted (e : Entry) (before after : List Entry) : Prop :=
  ∃ pre post, before = pre ++ post ∧ after = pre ++ e :: post ∧
    (∀ x ∈ pre, isBefore e.launch x.launch = false) ∧
    (∀ x, post.head? = some x → isBefore e.launch x.launch = true)

/-- An entry was inserted (R39, R48): it stands at its place, the admission count rose, the bank is woken, and the
damper of its channel is lifted where one of the channel's lift times, the entry's among them, is reached (R15). -/
def EntryInserted (e : Entry) (s t : State) : Prop :=
  Inserted e s.queue t.queue ∧ t.admission = s.admission + 1 ∧ t.drive = (wakeBank s).drive ∧
  (∀ j : Fin 8, t.channels[j] = { s.channels[j] with damperUp := s.channels[j].damperUp ||
    (decide (j = e.channel) && isPresent s j && s.channels[j].voicing.damped && !s.pins.access &&
      (liftReached s j || (match e.lift with
        | some l => reached s.time.tower l
        | none => false))) }) ∧
  Unchanged [.queue, .admission, .drive, .channels] s t

/-- What follows an insertion at once (R48, R50): the entry's launch event when it is due, the held mark when its launch
time is reached on a channel that is not clear, and otherwise nothing. -/
def afterInsertion (e : Entry) (s : State) : State :=
  if launchDue s e then launchEntry e s
  else if reached s.time.tower e.launch then
    { s with queue := s.queue.map fun x => if x = e then { x with held := true } else x }
  else s

/-- A beacon with this error was slewed (R72) and counted toward lock (R73). -/
def SlewedBy (e : Int) (s t : State) : Prop :=
  t.time.slew = e ∧ t.time.tower = s.time.tower ∧
  (24 < e.natAbs → t.time.lock = .acquiring ∧ t.time.close = 0) ∧
  (e.natAbs ≤ 24 → 8 < e.natAbs → t.time.lock = s.time.lock ∧ t.time.close = 0) ∧
  (e.natAbs ≤ 8 → t.time.close = min 3 (s.time.close + 1) ∧
    t.time.lock = if 2 ≤ s.time.close then .locked else s.time.lock)

/-- The pre-roll point of the whole minute m was passed by a step from the tower time of s to that of t, in the
direction of the step (R160, R163). -/
def StepPassed (s t : State) (m : Nat) : Prop :=
  if 0 < dist t.time.tower s.time.tower then
    isAfter (minus m s.settings.preroll) s.time.tower = true ∧
      atOrBefore (minus m s.settings.preroll) t.time.tower = true
  else
    isAfter (minus m s.settings.preroll) t.time.tower = true ∧
      atOrBefore (minus m s.settings.preroll) s.time.tower = true

/-- The Calendar Unit met a step (R163): a forward step of a SET node counts each entry once that matches the minute of
a point passed over and was not fired for it; nothing is cued. A minute whose point was passed is neither a reached nor
a settled one any longer (notes/assumptions/33.md). -/
def CalendarMetStep (s t : State) : Prop :=
  (∀ missed : List (Fin 24), missed.Nodup →
    (∀ i : Fin 24, i ∈ missed ↔ s.time.validity = .set ∧ 0 < dist t.time.tower s.time.tower ∧
      ∃ m, m < 2419200000 ∧ m % 240000 = 0 ∧ StepPassed s t m ∧ matchesMinute s.calendar.entries[i] m = true ∧
        s.calendar.entries[i].lastFired ≠ some m) →
    (missed = [] → readCounter t .missedTime = readCounter s .missedTime) ∧
    (missed ≠ [] → readCounter t .missedTime = min 65535 (readCounter s .missedTime + missed.length))) ∧
  readCounter t .cuesFired = readCounter s .cuesFired ∧ readCounter t .missedQuiet = readCounter s .missedQuiet ∧
  t.calendar.entries = s.calendar.entries ∧ t.calendar.windows = s.calendar.windows ∧
  t.calendar.due = s.calendar.due ∧
  (∀ m, m ∈ t.calendar.decided ↔ m ∈ s.calendar.decided ∧ ¬StepPassed s t m) ∧
  (∀ m, m ∈ t.calendar.settled ↔ m ∈ s.calendar.settled ∧ ¬StepPassed s t m)

/-- The dampers met a step (R14, R67): no drop time that is reached is pending any longer, and a damper whose channel
has a reached lift time is UP. On a channel whose entries all stay, a drop that is due lets the damper fall unless it is
skipped, a reached lift time lifts it, and nothing else moves it (the earliest lift time: notes/assumptions/59.md). -/
def DampersMetStep (s t : State) : Prop :=
  (∀ (k : Fin 8) (d : Nat), t.channels[k].voicing.damped = true → t.channels[k].drop = some d →
    reached t.time.tower d = false) ∧
  (∀ k : Fin 8, isPresent s k = true → t.channels[k].voicing.damped = true → s.pins.access = false →
    liftReached t k = true → t.channels[k].damperUp = true) ∧
  (∀ k : Fin 8, (∀ e ∈ s.queue, e.channel = k → atOrBefore e.launch t.time.tower = false) →
    (∀ d, s.channels[k].voicing.damped = true → s.channels[k].drop = some d → reached t.time.tower d = true →
      t.channels[k] = { s.channels[k] with
        drop := none
        damperUp := (dropSkipped s k d && s.channels[k].damperUp) ||
          (isPresent s k && !s.pins.access && liftReached t k) }) ∧
    ((∀ d, s.channels[k].voicing.damped = true → s.channels[k].drop = some d → reached t.time.tower d = false) →
      t.channels[k] = { s.channels[k] with
        damperUp := s.channels[k].damperUp ||
          (isPresent s k && s.channels[k].voicing.damped && !s.pins.access && liftReached t k) }))

/-- The gates met a step (R129): a slot in GATHERING whose moment, 4000 ticks before its start, is reached has its gate
evaluated; another waits on. -/
def GatesMetStep (s t : State) : Prop :=
  ∀ (k : Fin 4) (p : Perf), s.conductor.slots[k] = .active p → p.phase = .gathering →
    (reached t.time.tower (minus p.start 4000) = false → ∃ q, t.conductor.slots[k] = .active q ∧
      q.phase = .gathering ∧ q.seq = p.seq ∧ q.start = p.start ∧ q.postponed = p.postponed) ∧
    (reached t.time.tower (minus p.start 4000) = true →
      (gatePasses t p.rule p.mask = true → ∃ q, t.conductor.slots[k] = .active q ∧
        (q.phase = .playing ∨ q.phase = .ending) ∧ q.seq = p.seq ∧ q.start = p.start ∧ q.postponed = p.postponed) ∧
      (gatePasses t p.rule p.mask = false → p.postponed + 8000 ≤ s.settings.claimWait → ∃ q,
        t.conductor.slots[k] = .active q ∧ q.phase = .gathering ∧ q.seq = p.seq ∧ q.start = plus p.start 8000 ∧
        q.postponed = p.postponed + 8000 ∧ q.beaconTimer = 0) ∧
      (gatePasses t p.rule p.mask = false → s.settings.claimWait < p.postponed + 8000 →
        t.conductor.slots[k] = .ended p.seq .abandoned))

/-- What a step of tower time does besides the queue (R67): the slew, the count of close measurements and the baselines
go, TIME_STEP is asserted, and the calendar, the dampers and the gates meet the new time. -/
def StepMet (s t : State) : Prop :=
  t.time.slew = 0 ∧ t.time.close = 0 ∧ t.time.beaconBase = none ∧ t.time.markBase = none ∧
  t.time.stepAt = some s.time.count ∧ t.time.trim = s.time.trim ∧ t.time.count = s.time.count ∧
  hasCondition t.silence.conds .timeStep = true ∧
  CalendarMetStep s t ∧ DampersMetStep s t ∧ GatesMetStep s t ∧ Unchanged timeStepped s t

/-- Silence and trace are the same in two states. -/
def SameSilence (s t : State) : Prop := t.silence = s.silence ∧ t.trace = s.trace

/-- A command brought a step to the tower time `new`: after the acknowledge, the peers, the conflict flags and the
choice of reference, which leave the state r, and before what the source of the step does to validity, lock state,
choice and baselines (R67, R72, R77 to R79). On either side silence and trace change by the moves of the lock state
alone (R80): before the step by that of a changed choice or lock state, after it by ACQUIRING, by that of the choice, or
by both. -/
def SteppedBy (new : Nat) (peers : Vector PeerRecord 16) (s t : State) : Prop :=
  ∃ r : State, Unchanged [.peers, .channels, .time, .silence, .trace, .line] s r ∧ r.peers = peers ∧
    r.time.tower = s.time.tower ∧ r.time.validity = s.time.validity ∧
    r.line = { s.line with ackDriven := r.line.ackDriven } ∧
    (∀ k : Fin 8, r.channels[k] = { s.channels[k] with conflict := r.channels[k].conflict }) ∧
    (if r.time.reference = s.time.reference ∧ r.time.lock = s.time.lock then SameSilence s r
      else SameSilence (setLock r.time.lock s) r) ∧
    Unchanged [.time, .silence, .trace] (stepTime new r) t ∧
    (SameSilence (stepTime new r) t ∨ SameSilence (setLock t.time.lock (stepTime new r)) t ∨
      SameSilence (setLock t.time.lock (setLock .acquiring (stepTime new r))) t)

/-- A beacon was stepped to (R67, R72): its time plus the local ticks since its edge; the lock state and the count of
close measurements are left to the statement. -/
def SteppedTo (time : Nat) (count : LocalCount) (peers : Vector PeerRecord 16) (s t : State) : Prop :=
  t.time.slew = 0 ∧ t.time.stepAt = some s.time.count ∧
  t.time.tower = plus time (ticksSince s.time.count count) ∧ t.time.trim = s.time.trim ∧
  SteppedBy t.time.tower peers s t

/-- The trim that a beacon measures against the baseline (R74): unchanged without one, or outside 1000 to 300,000 local
ticks. -/
def TrimMeasured (time : Nat) (count : LocalCount) (s t : State) : Prop :=
  t.time.trim = (match s.time.beaconBase with
    | some x =>
      if 1000 ≤ ticksSince count x.count ∧ ticksSince count x.count ≤ 300000
      then trimTarget (dist time x.time) (ticksSince count x.count) else s.time.trim
    | none => s.time.trim)

/-- A setting's value as the manual numbers it (R182): resume mode 0 AUTO and 1 MANUAL, triggers 0 to 3, a contact
cue map as its slot plus 256 when it is enabled. -/
def readSetting (x : Settings) (n : Fin 21) : Nat :=
  match n.val with
  | 0 => x.recharge
  | 1 => x.readyLevel
  | 2 => x.reserve
  | 3 => x.idleTime
  | 4 => x.lateLimit
  | 5 => x.fadeStep
  | 6 => x.lookahead
  | 7 => x.claimWait
  | 8 => x.hourBell
  | 9 => x.hourInterval
  | 10 => x.quarter1
  | 11 => x.quarter2
  | 12 => x.quarter3
  | 13 => x.quarter4
  | 14 => x.preroll
  | 15 => x.map1.slot.val + (if x.map1.enabled then 256 else 0)
  | 16 => x.map2.slot.val + (if x.map2.enabled then 256 else 0)
  | 17 => (match x.resume with
    | .auto => 0
    | .manual => 1)
  | 18 => x.holdTime
  | 19 => (match x.trigger with
    | .none => 0
    | .silentEntry => 1
    | .starved => 2
    | .notFired => 3)
  | _ => x.postCount

/-- The transmit queue is in order, and holds one PRESENCE at most, and none while one is in transmission
(R91, R92). -/
def TxQueueSound (s : State) : Prop :=
  s.line.queue.Pairwise (fun x y => txIdent s x.frame ≤ txIdent s y.frame) ∧
  s.line.queue.countP (fun x => x.frame.isPresence) ≤ 1 ∧
  (sendingPresence s = true → s.line.queue.countP (fun x => x.frame.isPresence) = 0) ∧
  (s.line.setAside.isSome = true → sendingPresence s = true)

/-! ### Settings in range (R182) -/

/-- A contact cue map and the plain settings stand within their ranges (R24, R45, R53, R141, R160, R177, R182). -/
def SettingsInRange (x : Settings) : Prop :=
  (1 ≤ x.recharge ∧ x.recharge ≤ 32) ∧ (1 ≤ x.readyLevel ∧ x.readyLevel ≤ 60000) ∧ x.reserve ≤ 60000 ∧
  (x.idleTime = 0 ∨ (4000 ≤ x.idleTime ∧ x.idleTime ≤ 14400000)) ∧ x.lateLimit ≤ 160 ∧
  (1 ≤ x.fadeStep ∧ x.fadeStep ≤ 8) ∧ (2000 ≤ x.lookahead ∧ x.lookahead ≤ 16000) ∧
  x.claimWait ∈ [64000, 128000, 192000, 256000] ∧ (1 ≤ x.hourBell ∧ x.hourBell ≤ 64) ∧
  (4000 ≤ x.hourInterval ∧ x.hourInterval ≤ 16000) ∧ (1 ≤ x.quarter1 ∧ x.quarter1 ≤ 64) ∧
  (1 ≤ x.quarter2 ∧ x.quarter2 ≤ 64) ∧ (1 ≤ x.quarter3 ∧ x.quarter3 ≤ 64) ∧
  (1 ≤ x.quarter4 ∧ x.quarter4 ≤ 64) ∧ (8000 ≤ x.preroll ∧ x.preroll ≤ 120000) ∧
  x.holdTime ∈ [0, 8000, 16000, 32000] ∧ x.postCount ≤ 63

/-- A voicing record stands within its ranges, with F15 at most F1 and H at least F1 (R6, R7). -/
def VoicingInRange (v : Voicing) : Prop :=
  (∀ i : Fin 15, 1 ≤ v.curve[i] ∧ v.curve[i] ≤ 250) ∧ (8 ≤ v.f1 ∧ v.f1 ≤ 1000) ∧
  (8 ≤ v.f15 ∧ v.f15 ≤ v.f1) ∧ (40 ≤ v.back ∧ v.back ≤ 4000 ∧ v.f1 ≤ v.back) ∧
  (20 ≤ v.lead ∧ v.lead ≤ 400) ∧ (1 ≤ v.coil ∧ v.coil ≤ 64)

/-- An image of the settings store holds settings and voicings in range. -/
def ImageInRange (x : StoreImage) : Prop :=
  SettingsInRange x.settings ∧ ∀ k : Fin 8, VoicingInRange x.voicings[k]

/-- The image being written, while a store is in progress. -/
def storedNow (s : State) : Option StoreImage :=
  match s.service.settingsState with
  | .storing x _ => some x
  | .valid => none
  | .lost => none

/-- Settings and voicings are in range, the working ones, those of the memory and those being written
(R6, R7, R24, R182, R185). -/
def RangesKept (s : State) : Prop :=
  SettingsInRange s.settings ∧ (∀ k : Fin 8, VoicingInRange s.channels[k].voicing) ∧
  (∀ x, s.service.memory = some x → ImageInRange x) ∧ (∀ x, storedNow s = some x → ImageInRange x)

/-! ### Invariants -/

/-- The bank (R23, R28, R34): E lies within 0 to 60,000 and is 0 in OFF; CHARGING and READY stand on their
sides of the ready level; an active access contact holds the bank OFF. -/
def BankSound (s : State) : Prop :=
  s.drive.level ≤ 60000 ∧ (s.drive.mode = .off → s.drive.level = 0) ∧
  (s.drive.mode = .charging → s.drive.level < s.settings.readyLevel) ∧
  (s.drive.mode = .ready → s.settings.readyLevel ≤ s.drive.level) ∧
  (s.pins.access = true → s.drive.mode = .off)

/-- The clock (R63, R66, R72, R73, R74): tower time within the week, trim, pending slew and count of close
measurements within their bounds. -/
def ClockSound (s : State) : Prop :=
  s.time.tower < Config.week ∧ (-8 ≤ s.time.trim ∧ s.time.trim ≤ 8) ∧
  (-400 ≤ s.time.slew ∧ s.time.slew ≤ 400) ∧ s.time.close ≤ 3

/-- The capacities (R39, R57, R91, R188): 96 strike queue entries, 8 frames, 64 trace records, counters to
65,535. -/
def CapacitySound (s : State) : Prop :=
  s.queue.length ≤ 96 ∧ txCount s ≤ 8 ∧ s.trace.records.length ≤ 64 ∧ ∀ c : Fin 36, s.counters[c] ≤ 65535

/-- Silence state, reduction, mark and conditions go together (R170, R171, R172, R173, R174). -/
def SilenceSound (s : State) : Prop :=
  hasCondition s.silence.mask .stationClash = true ∧ hasCondition s.silence.mask .access = true ∧
  match s.silence.state with
  | .voiced => s.silence.level = 0 ∧ s.silence.resumable = false ∧ enabledActive s.silence = 0
  | .fading => (1 ≤ s.silence.level ∧ s.silence.level ≤ 14) ∧ s.silence.resumable = false ∧
      enabledActive s.silence ≠ 0 ∧ s.queue ≠ []
  | .silent => s.silence.level = 15 ∧
      (s.silence.resumable = true → s.settings.resume = .manual ∧ enabledActive s.silence = 0) ∧
      (s.silence.resumable = false → enabledActive s.silence ≠ 0)
  | .holding => s.silence.level = 15 ∧ s.silence.resumable = false ∧ s.settings.resume = .auto ∧
      enabledActive s.silence = 0

/-- Each condition is asserted exactly while its cause stands (R67, R80, R94, R95, R169). CHECK_ERRORS is cleared by an
event of its own, so only one way holds of it: more than 8 errors held, none older than the window, imply it asserted
(R89; notes/assumptions/21.md). -/
def ConditionsSound (s : State) : Prop :=
  hasCondition s.silence.conds .timeUnlocked = decide (s.time.lock = .acquiring) ∧
  hasCondition s.silence.conds .timeStep = s.time.stepAt.isSome ∧
  hasCondition s.silence.conds .lineFault = s.line.faultAt.isSome ∧
  hasCondition s.silence.conds .driveFault = s.pins.chargerFault ∧
  hasCondition s.silence.conds .coilHot = s.pins.coilHot ∧
  hasCondition s.silence.conds .stationClash = s.line.clashAt.isSome ∧
  hasCondition s.silence.conds .access = s.pins.access ∧
  (∀ c ∈ s.line.errors, ticksSince s.time.count c ≤ 4000) ∧
  (8 < s.line.errors.length → hasCondition s.silence.conds .checkErrors = true)

/-- The halted set holds flags of present channels only (R3). -/
def HaltedSound (s : State) : Prop :=
  ∀ k : Fin 8, s.halted.getLsbD k.val = true → isPresent s k = true

/-- The floor record (R103): a fading performance's priority is lower than the holder's, and holder and fading
performance are never the same. -/
def FloorSound (s : State) : Prop :=
  ∀ h f, s.floor.holder = some h → s.floor.fading = some f →
    f.priority.level < h.priority.level ∧ f.perf ≠ h.perf

/-- An entry belongs to the holder or the fading performance, or is a TEST entry while the record is VACANT
(R42). -/
def EntryBelongs (r : FloorRecord) (e : Entry) : Prop :=
  match e.owner with
  | .test => r.holder = none
  | .perf p => (∃ h, r.holder = some h ∧ h.perf = p) ∨ (∃ f, r.fading = some f ∧ f.perf = p)

/-- Every queued entry belongs to the floor record as it stands (R42). -/
def QueueBelongs (s : State) : Prop := ∀ e ∈ s.queue, EntryBelongs s.floor e

/-- An entry holds what R38 says: a present channel, a velocity 1 to 15, a lift time exactly with a duration,
and a duration only on a damped channel. -/
def EntrySound (s : State) (e : Entry) : Prop :=
  isPresent s e.channel = true ∧ (1 ≤ e.velocity ∧ e.velocity ≤ 15) ∧ e.lift.isSome = e.duration.isSome ∧
  (e.duration.isSome = true → s.channels[e.channel].voicing.damped = true)

/-- Every queued entry is sound (R38). -/
def QueueSound (s : State) : Prop := ∀ e ∈ s.queue, EntrySound s e

/-- An ORDER frame carries one to three orders (R133). -/
def FramePacked : Frame → Prop
  | .order _ _ items => 1 ≤ items.length ∧ items.length ≤ 3
  | .claim _ _ => True
  | .floor _ _ => True
  | .release _ _ => True
  | .presence _ => True
  | .reply _ => True

/-- Every ORDER frame of the transmit queue, the one in transmission among them, carries one to three orders
(R133). -/
def OrdersPacked (s : State) : Prop :=
  (∀ x ∈ s.line.queue, FramePacked x.frame) ∧ ∀ y, s.line.sending = some y → FramePacked y.tx.frame

/-- One entry stands before another in the strike queue: it is not launched later, and of two with one launch time it
was admitted first (R39). -/
def StandsBefore (x y : Entry) : Prop :=
  isBefore y.launch x.launch = false ∧
  (x.launch = y.launch → 1 ≤ (y.admission - x.admission).toNat ∧ (y.admission - x.admission).toNat < 2147483648)

/-- The strike queue is in order (R39). -/
def QueueOrdered (s : State) : Prop := s.queue.Pairwise StandsBefore

/-- A channel that is not damped keeps its damper DOWN with no pending drop (R14); no damper is UP while access is
active (R19). -/
def DampersSound (s : State) : Prop :=
  ∀ k : Fin 8,
    (s.channels[k].voicing.damped = false → s.channels[k].damperUp = false ∧ s.channels[k].drop = none) ∧
    (s.pins.access = true → s.channels[k].damperUp = false)

/-- The events of the tunes an image of the settings store holds. -/
def imageEvents (x : StoreImage) : Nat :=
  (x.tunes.toList.map fun t => match t with
    | some y => y.header.count
    | none => 0).sum

/-- The loaded parts use at most 6144 events, and so do those of the settings memory and those being written
(R149). -/
def PoolSound (s : State) : Prop :=
  poolUsed s ≤ 6144 ∧ (∀ x, s.service.memory = some x → imageEvents x ≤ 6144) ∧
  ∀ x, storedNow s = some x → imageEvents x ≤ 6144

/-- Performance slots that play from a tune slot. -/
def playersOf (s : State) (t : Fin 32) : Nat :=
  s.conductor.slots.toList.countP fun x =>
    match x.perf? with
    | some p => decide (p.slot = t)
    | none => false

/-- A tune slot resolves to a VALID part (R145). -/
def resolvesValid (s : State) (t : Fin 32) : Bool :=
  match resolveSlot s t with
  | .resident _ => true
  | .nothing => false
  | .part .empty => false
  | .part (.loading _ _ _) => false
  | .part (.valid _ _ _) => true

/-- The locks (R144, R155): a slot's lock count is the number of performance slots that play from it, and a locked
slot resolves to a VALID part. -/
def LocksSound (s : State) : Prop :=
  ∀ t : Fin 32, s.library.locks[t] = playersOf s t ∧
    (0 < s.library.locks[t] → resolvesValid s t = true)

end Sys2Proof.Machine
end

