-- ==== Sys2Proof/Certificates/Slice0/Obligations.lean ====
section
/-! DEFINITION. The statements for the provers. Where a statement rests on a choice of the model, its docstring names
the log entry. -/

open Sys2Proof Sys2Proof.Machine

/-- The step takes the command at the front of the queue and carries it out on the state that has the queue's
rest. That an empty queue idles is the model's own choice (notes/assumptions/1.md). -/
def Obligations.StepTakesFrontCommand : Prop :=
  (∀ (c : Instr) (rest : List Instr) (s : State),
    step { s with pending := c :: rest } = exec c { s with pending := rest }) ∧
  (∀ s : State, s.pending = [] → step s = .next s)

/-- A command whose moment has not come changes nothing, and an unpowered node takes nothing but POWER_ON: the
model's own choices (notes/assumptions/2.md, notes/assumptions/23.md). -/
def Obligations.NothingDueNothingDone : Prop :=
  (∀ (i : Instr) (s : State), s.powered = false → (∀ st p, i ≠ .powerOn st p) → exec i s = .next s) ∧
  ∀ s : State,
    (listenOver s = false → exec .listenEnd s = .next s) ∧
    (offerable s = none → exec .frameOffer s = .next s) ∧
    (s.line.sending = none → (∀ c, exec (.arbitrationLoss c) s = .next s) ∧
      (∀ a, exec (.txCompleted a) s = .next s) ∧ exec .txAbandoned s = .next s) ∧
    (faultOver s = false → exec .lineFaultEnd s = .next s) ∧
    (errorsFew s = false → exec .checkErrorsClear s = .next s) ∧
    (beaconDue s = false → exec .presenceBuild s = .next s) ∧
    (clashOver s = false → exec .stationClashEnd s = .next s) ∧
    (∀ p, lapsing s p = none → exec (.peerLapse p) s = .next s) ∧
    (∀ p, vanishing s p = false → exec (.peerAbsence p) s = .next s) ∧
    (firstDue s = none → exec .launchEvent s = .next s) ∧
    (∀ k, pulseOver s k = false → exec (.pulseEnd k) s = .next s) ∧
    (∀ k, returnOver s k = false → exec (.returnEnd k) s = .next s) ∧
    (∀ k : Fin 8, s.channels[k].hammer = .rest → exec (.flightEnd k) s = .next s) ∧
    (∀ k, liftReached s k = false → exec (.lift k) s = .next s) ∧
    (∀ k, dropDue s k = none → exec (.drop k) s = .next s) ∧
    (drainDue s = false → exec .drainStart s = .next s) ∧
    (sourcedOver s = false → exec .sourcedExit s = .next s) ∧
    (stepOver s = false → exec .timeStepEnd s = .next s) ∧
    (holdReached s = false → exec .holdExpiry s = .next s) ∧
    (lapseDue s = false → exec .lapse s = .next s) ∧
    (∀ k : Fin 4, s.conductor.slots[k].isFree = true →
      exec (.claimHandoff k) s = .next s ∧ exec (.waitDeadline k) s = .next s ∧
      exec (.ensembleGate k) s = .next s ∧ exec (.orderBuild k) s = .next s ∧
      exec (.floorBeaconDue k) s = .next s ∧ exec (.performanceEnd k) s = .next s) ∧
    (s.calendar.due = [] → exec .prerollPoint s = .next s) ∧
    (∀ c, contactLevel s c = true → exec (.contactPress c) s = .next s) ∧
    (storing s = false → exec .storeComplete s = .next s ∧ exec .storeFailure s = .next s) ∧
    (partDue s = none → exec .replyPart s = .next s)

/-- What a command cannot change: each of these parts of the state has the writers named and no other. -/
def Obligations.PartsHaveTheirWriters : Prop :=
  ∀ (i : Instr) (s t : State), exec i s = .next t →
    t.pending = s.pending ∧
    (match i with
      | .powerOn _ _ => True
      | _ => t.straps = s.straps) ∧
    (match i with
      | .powerOn _ _ | .nodeSet _ _ => True
      | _ => t.settings = s.settings) ∧
    (match i with
      | .powerOn _ _ | .restart _ | .channelSet _ _ | .channelMerge _ _ | .channelClear _ _ => True
      | _ => t.halted = s.halted) ∧
    (match i with
      | .powerOn _ _ | .voiceSetPulseLow _ _ _ | .voiceSetPulseHigh _ _ _ | .voiceSetTiming _ _ _ => True
      | _ => ∀ k : Fin 8, t.channels[k].voicing = s.channels[k].voicing) ∧
    (match i with
      | .powerOn _ _ | .restart _ | .presence _ _ | .peerLapse _ | .peerAbsence _ => True
      | _ => t.peers = s.peers ∧ ∀ k : Fin 8, t.channels[k].conflict = s.channels[k].conflict) ∧
    (match i with
      | .powerOn _ _ | .localTick _ => True
      | _ => t.time.count = s.time.count) ∧
    (match i with
      | .powerOn _ _ | .localTick _ | .presence _ _ | .minuteMark _ | .setTime _ _ => True
      | _ => t.time.tower = s.time.tower) ∧
    (match i with
      | .powerOn _ _ | .presence _ _ | .setTime _ _ => True
      | _ => t.time.validity = s.time.validity) ∧
    (match i with
      | .powerOn _ _ | .maskSet _ _ => True
      | _ => t.silence.mask = s.silence.mask) ∧
    (match i with
      | .powerOn _ _ | .quietSet _ _ _ => True
      | _ => t.calendar.windows = s.calendar.windows) ∧
    (match i with
      | .powerOn _ _ | .overlay _ _ => True
      | _ => t.library.overlay = s.library.overlay) ∧
    (match i with
      | .powerOn _ _ | .restart _ | .loadBegin _ _ _ | .loadData _ _ _ _ | .loadEnd _ _ _ | .delete _ _ => True
      | _ => t.library.parts = s.library.parts) ∧
    (match i with
      | .store _ | .storeComplete | .storeFailure => True
      | _ => t.service.memory = s.service.memory)

/-- The machine right after reset: what the chapters' reset tables say of power-on with a settings memory marked
invalid. The straps, the inputs and the invalid memory are the model's own choice (notes/assumptions/5.md). -/
def Obligations.ResetValues : Prop :=
  State.reset.listen = some 0 ∧ State.reset.halted = 0 ∧
  (∀ k : Fin 8, State.reset.channels[k] =
    { conflict := false, voicing := defaultVoicing, hammer := .rest, lastFired := none, gate := none,
      damperUp := false, drop := none }) ∧
  State.reset.drive = { mode := .off, level := 0, idle := 0 } ∧ State.reset.queue = [] ∧
  State.reset.time.tower = 0 ∧ State.reset.time.validity = .unset ∧ State.reset.time.lock = .reference ∧
  State.reset.time.count = 0 ∧ State.reset.time.trim = 0 ∧ State.reset.time.slew = 0 ∧
  State.reset.time.lastMark = none ∧ State.reset.line.queue = [] ∧ State.reset.line.sending = none ∧
  (∀ st : Fin 16, State.reset.peers[st] = .absent) ∧ State.reset.floor = { holder := none, fading := none } ∧
  (∀ k : Fin 4, State.reset.conductor.slots[k] = .idle) ∧ State.reset.conductor.sequence = 0 ∧
  (∀ t : Fin 32, State.reset.library.parts[t] = .empty ∧ State.reset.library.locks[t] = 0) ∧
  State.reset.library.overlay = false ∧
  (∀ i : Fin 24, State.reset.calendar.entries[i].enabled = false ∧
    State.reset.calendar.entries[i].lastFired = none) ∧
  State.reset.silence.state = .voiced ∧ State.reset.silence.level = 0 ∧ State.reset.silence.conds = 0 ∧
  State.reset.silence.mask = 0xFF#8 ∧ State.reset.trace = { records := [], state := .open, remaining := 0 } ∧
  State.reset.service.settingsState = .lost ∧ (∀ c : Fin 36, State.reset.counters[c] = 0) ∧
  State.reset.settings = defaultSettings

/-- POWER_ON reads the straps and the settings memory, puts every block at its power-on state and samples the inputs;
POWER_LOST releases the outputs (the model's account of an unpowered node: notes/assumptions/23.md). That the two
fixed flags are set whatever the memory holds is the model's own choice (notes/assumptions/40.md). -/
def Obligations.PowerOnAndPowerLost : Prop :=
  (∀ (straps : Straps) (pins : Pins) (s : State), ∃ t, exec (.powerOn straps pins) s = .next t ∧
    t.powered = true ∧ t.straps = straps ∧ t.pins = pins ∧ t.listen = some 0 ∧ t.halted = 0 ∧
    t.settings = (s.service.memory.getD defaultImage).settings ∧
    (∀ k : Fin 8, t.channels[k] = freshChannel (s.service.memory.getD defaultImage).voicings[k]) ∧
    t.drive = { mode := .off, level := 0, idle := 0 } ∧ t.queue = [] ∧ t.time = Timebase.initial ∧
    t.line = Line.initial ∧ (∀ st : Fin 16, t.peers[st] = .absent) ∧
    t.floor = { holder := none, fading := none } ∧ (∀ k : Fin 4, t.conductor.slots[k] = .idle) ∧
    t.conductor.sequence = 0 ∧ t.library.overlay = false ∧
    (∀ n : Fin 32, t.library.parts[n] = takenPart (s.service.memory.getD defaultImage).tunes[n] ∧
      t.library.locks[n] = 0) ∧
    (∀ n : Fin 24, t.calendar.entries[n] = (s.service.memory.getD defaultImage).entries[n].taken) ∧
    t.calendar.windows = (s.service.memory.getD defaultImage).windows ∧
    t.silence.mask = (s.service.memory.getD defaultImage).mask ||| fixedFlags ∧
    (∀ c : Condition, hasCondition t.silence.conds c =
      match c with
      | .driveFault => pins.chargerFault
      | .coilHot => pins.coilHot
      | .access => pins.access
      | _ => false) ∧
    t.silence.state = (if enabledActive t.silence = 0 then .voiced else .silent) ∧
    t.silence.level = (if enabledActive t.silence = 0 then 0 else 15) ∧ t.silence.resumable = false ∧
    t.trace.records = [] ∧ t.service.settingsState = (if s.service.memory.isSome then .valid else .lost) ∧
    t.service.memory = s.service.memory ∧ t.service.reply = none ∧
    (∀ c : Fin 36, t.counters[c] = 0) ∧ t.pending = s.pending) ∧
  (∀ s : State, s.powered = true → ∃ t, exec .powerLost s = .next t ∧
    t.powered = false ∧ t.drive = { mode := .off, level := 0, idle := 0 } ∧
    (∀ k : Fin 8, t.channels[k] = { s.channels[k] with gate := none, damperUp := false, drop := none }) ∧
    t.line = { s.line with sending := none, setAside := none, ackDriven := false } ∧
    Unchanged [.powered, .drive, .channels, .line] s t)

/-- RESTART resets every block as its chapter says, keeps what the chapters keep, and answers DONE from the state
after the reset; a store in progress refuses it. That an entry to SILENT at the reset is announced to the trace, and
that the account of the pre-roll points reached is kept, are the model's own choices (notes/assumptions/14.md,
notes/assumptions/32.md). -/
def Obligations.RestartResult : Prop :=
  ∀ (h : Service) (s : State), s.powered = true → targeted s h = true →
    (storing s = true → exec (.restart h) s = .next (reply h 18 .busy .none (acknowledge s))) ∧
    (storing s = false → ∃ u, exec (.restart h) s = .next (reply h 18 .done .none u) ∧
      u.listen = some s.time.count ∧ u.halted = 0 ∧
      (∀ k : Fin 8, u.channels[k] =
        { s.channels[k] with conflict := false, gate := none, damperUp := false, drop := none }) ∧
      u.drive = { mode := .off, level := 0, idle := 0 } ∧ u.queue = [] ∧
      u.time = { s.time with
        lock := (if s.time.lock = .locked then .acquiring else s.time.lock)
        reference := none, slew := 0, close := 0, beaconBase := none, markBase := none, stepAt := none } ∧
      u.line = Line.initial ∧ (∀ st : Fin 16, u.peers[st] = .absent) ∧
      u.floor = { holder := none, fading := none } ∧ (∀ k : Fin 4, u.conductor.slots[k] = .idle) ∧
      u.conductor.sequence = s.conductor.sequence ∧ u.library.overlay = s.library.overlay ∧
      (∀ n : Fin 32, u.library.locks[n] = 0 ∧ u.library.parts[n] =
        match s.library.parts[n] with
        | .loading _ _ _ => .empty
        | x => x) ∧
      u.calendar = { s.calendar with contacts := freeContacts } ∧
      u.silence.mask = s.silence.mask ∧
      (∀ c : Condition, hasCondition u.silence.conds c =
        match c with
        | .timeUnlocked => decide (u.time.lock = .acquiring)
        | .driveFault => s.pins.chargerFault
        | .coilHot => s.pins.coilHot
        | .access => s.pins.access
        | _ => false) ∧
      u.silence.state = (if enabledActive u.silence = 0 then .voiced else .silent) ∧
      u.silence.level = (if enabledActive u.silence = 0 then 0 else 15) ∧ u.silence.resumable = false ∧
      u.trace.records = s.trace.records ∧ u.service = { s.service with reply := none } ∧
      (∀ c : Fin 36, u.counters[c] = 0) ∧ u.admission = 0 ∧
      Unchanged [.listen, .halted, .channels, .drive, .queue, .admission, .time, .line, .peers, .floor, .conductor,
        .library, .calendar, .silence, .trace, .service, .counters] s u)

/-- A local tick: the count, tower time, the bank's charge, the timers counted in local ticks, the entries whose launch
time and the whole minute whose pre-roll point it reaches, and nothing else; a timer counts modulo 2^32. The charger is
enabled in CHARGING and READY without a charger fault; the idle timer runs in them with nothing queued and no holder
that touches the node's bells. The held mark, put on before a RETURN_END of the same tick can act, the account of the
pre-roll points reached, the age at which an error is forgotten and the charge before any launch event of the tick are
the model's own (notes/assumptions/9.md, notes/assumptions/10.md, notes/assumptions/14.md, notes/assumptions/21.md,
notes/assumptions/41.md). -/
def Obligations.LocalTickResult : Prop :=
  (∀ (feedback : Bool) (s : State), s.powered = true → ∃ t, exec (.localTick feedback) s = .next t ∧
    t.time = { s.time with
      count := s.time.count + 1
      tower := plus s.time.tower (advance s.time (s.time.count + 1))
      slew := s.time.slew - slewPart s.time.slew s.time.trim (s.time.count + 1) } ∧
    t.pins = { s.pins with feedback := feedback } ∧
    t.drive.level = (if chargerEnable s = true ∧ feedback = true
      then min 60000 (s.drive.level + s.settings.recharge) else s.drive.level) ∧
    t.drive.mode = (if chargerEnable s = true ∧ feedback = true
      then (if s.settings.readyLevel ≤ t.drive.level then .ready else .charging) else s.drive.mode) ∧
    t.drive.idle = (if idleRuns s = true then (s.drive.idle + 1) % 4294967296 else 0) ∧
    t.silence = { s.silence with
      hold := (if s.silence.state = .holding then (s.silence.hold + 1) % 4294967296 else s.silence.hold) } ∧
    (∀ k : Fin 4, t.conductor.slots[k] =
      match s.conductor.slots[k] with
      | .active p => .active (if p.phase.holds then { p with beaconTimer := (p.beaconTimer + 1) % 4294967296 } else p)
      | x => x) ∧
    t.conductor.sequence = s.conductor.sequence ∧
    t.line = { s.line with
      beaconTimer := (if s.listen.isSome then s.line.beaconTimer else (s.line.beaconTimer + 1) % 4294967296)
      errors := s.line.errors.filter fun c => decide (ticksSince t.time.count c ≤ 4000) } ∧
    t.queue = s.queue.map (fun e => if becomesHeld t e then { e with held := true } else e) ∧
    (∀ m, m ∈ pointsReached s s.time.tower (advance s.time (s.time.count + 1)) →
      (m ∉ s.calendar.settled → t.calendar = { s.calendar with
        due := s.calendar.due ++ [m], decided := m :: s.calendar.decided.filter fun x => decide (x ≠ m) }) ∧
      (m ∈ s.calendar.settled → t.calendar = { s.calendar with
        decided := m :: s.calendar.decided.filter fun x => decide (x ≠ m)
        settled := s.calendar.settled.filter fun x => decide (x ≠ m) })) ∧
    (pointsReached s s.time.tower (advance s.time (s.time.count + 1)) = [] → t.calendar = s.calendar) ∧
    Unchanged [.pins, .time, .drive, .silence, .conductor, .line, .queue, .calendar] s t) ∧
  (∀ s : State, chargerEnable s = true ↔
    (s.drive.mode = .charging ∨ s.drive.mode = .ready) ∧ s.pins.chargerFault = false) ∧
  (∀ s : State, idleRuns s = true ↔ (s.drive.mode = .charging ∨ s.drive.mode = .ready) ∧ s.queue = [] ∧
    ∀ x, s.floor.holder = some x → touches s x.mask = false) ∧
  (∀ (s : State) (mask : BellMask), touches s mask = true ↔
    ∃ k : Fin 8, k.val ≤ s.straps.channelCount.toNat ∧ maskHas mask (s.straps.bellBase.toNat + 1 + k.val) = true) ∧
  (∀ (s : State) (e : Entry), becomesHeld s e = true ↔ reached s.time.tower e.launch = true ∧
    channelState s e.channel = .run ∧ isClear s e.channel = false)

/-- Trim k marks, in each 4096 ticks, exactly the |k| ticks n for which (n mod 4096) + 1 is a multiple of 4096 divided
by |k|, each by 1 in the direction of k; a pending slew moves by at most one toward 0; a tick advances tower time by 0
to 3. -/
def Obligations.TrimAndSlewContributions : Prop :=
  (∀ (k : Int) (q : Nat), -8 ≤ k → k ≤ 8 →
    ((List.range 4096).map fun j => trimPart k (BitVec.ofNat 32 (4096 * q + j))).sum = k ∧
    ((List.range 4096).filter fun j => decide (trimPart k (BitVec.ofNat 32 (4096 * q + j)) ≠ 0)).length = k.natAbs) ∧
  (∀ (k : Int) (n : LocalCount), trimPart k n =
    if k ≠ 0 ∧ (n.toNat % 4096 + 1) % (4096 / k.natAbs) = 0 then k.sign else 0) ∧
  (∀ (x : Timebase) (n : LocalCount), (advance x n : Int) = 1 + trimPart x.trim n + slewPart x.slew x.trim n ∧
    advance x n ≤ 3) ∧
  (∀ (slew trim : Int) (n : LocalCount), slewPart slew trim n =
    if slew ≠ 0 ∧ n.toNat % 32 = 31 ∧ ¬(slew < 0 ∧ trimPart trim n = -1) then slew.sign else 0)

/-- A minute mark: without the strap or less than 200,000 ticks after the last accepted one it is ignored; otherwise the
node is SOURCED, and an error to the nearest whole minute up to 400 is slewed while a larger one is stepped, a step that
does what SetTimeResult says of every step. The exit from SOURCED: REFERENCE when the node chooses itself, otherwise
LOCKED with SET and ACQUIRING with UNSET; that it is REFERENCE in the listen period, before any choice, is the model's
own reading (notes/assumptions/18.md). -/
def Obligations.MinuteMarkAndSourcedExit : Prop :=
  (∀ (m : Stamp) (s : State), s.powered = true →
    (s.straps.timeSource = false ∨ markRejected s m = true → exec (.minuteMark m) s = .next s) ∧
    (s.straps.timeSource = true → markRejected s m = false → ∃ t, exec (.minuteMark m) s = .next t ∧
      t.time.lock = .sourced ∧ t.time.lastMark = some m ∧ t.time.markBase = some m.count ∧
      t.time.validity = s.time.validity ∧ t.time.count = s.time.count ∧
      ((markError m.tower.toNat).natAbs ≤ 400 →
        t.time.slew = markError m.tower.toNat ∧ t.time.tower = s.time.tower ∧
        t.time.trim = (match s.time.markBase with
          | some b => if 1000 ≤ ticksSince m.count b ∧ ticksSince m.count b ≤ 300000
              then trimTarget 240000 (ticksSince m.count b) else s.time.trim
          | none => s.time.trim) ∧
        Unchanged [.time, .silence, .trace] s t) ∧
      (400 < (markError m.tower.toNat).natAbs →
        t.time.slew = 0 ∧ t.time.trim = s.time.trim ∧ t.time.stepAt = some s.time.count ∧
        t.time.tower = markTime m.tower.toNat (ticksSince s.time.count m.count) % 2419200000 ∧
        SteppedBy t.time.tower s.peers s t ∧ Unchanged timeStepped s t))) ∧
  (∀ (m : Stamp) (s : State), markRejected s m = true ↔
    ∃ l, s.time.lastMark = some l ∧ ticksSince m.count l.count < 200000) ∧
  (∀ tower : Nat, (tower % 240000 < 120000 → markError tower = -((tower % 240000 : Nat) : Int)) ∧
    (120000 ≤ tower % 240000 → markError tower = 240000 - ((tower % 240000 : Nat) : Int)) ∧
    ((tower : Int) + markError tower) % 240000 = 0) ∧
  (∀ s : State, s.powered = true → s.time.lock = .sourced →
    (∀ m, s.time.lastMark = some m → 280000 ≤ ticksSince s.time.count m.count) →
    ∃ t, exec .sourcedExit s = .next t ∧ t.time.lock ≠ .sourced ∧ t.time.tower = s.time.tower ∧
      (s.listen = none → t.time.reference = some (chooseReference t) ∧
        t.time.lock = (if chooseReference t = s.straps.station then .reference
          else if s.time.validity = .set then .locked else .acquiring)) ∧
      (s.listen.isSome = true → s.time.reference = none → t.time.reference = none ∧ t.time.lock = .reference) ∧
      Unchanged [.time, .silence, .trace] s t)

/-- SET_TIME: refused RANGE from one week on, otherwise a step to the time it carries plus the ticks since its edge (on
a SOURCED node to the nearest time of the same phase of the minute), which makes tower time SET and a LOCKED node
ACQUIRING; a node that was UNSET then makes its choice of reference again. An entry whose launch time is before the new
time by more than the late limit leaves the queue, one after it stays, and one between has its launch event, or is held
while its channel is RUN and not clear. What every step of tower time does to the calendar, the dampers and the gates
stands in StepMet. That two times half a week apart leave an entry queued, that a held entry carries a mark, the order
of the effects of a step, the account of the points a step passes, that LOCKED becomes ACQUIRING before the choice, and
the lift where R64 names no earliest lift time are the model's own readings (notes/assumptions/7.md,
notes/assumptions/9.md, notes/assumptions/11.md, notes/assumptions/33.md, notes/assumptions/52.md,
notes/assumptions/59.md). -/
def Obligations.SetTimeResult : Prop :=
  (∀ (h : Service) (time : BitVec 32) (s : State), s.powered = true →
    (2419200000 ≤ time.toNat →
      exec (.setTime h time) s = .next (reply h 0 .range .none (acknowledge s))) ∧
    (time.toNat < 2419200000 → ∃ u, exec (.setTime h time) s = .next (reply h 0 .done .none u) ∧
      u.time.tower = (if s.time.lock = .sourced
        then samePhase s.time.tower (plus time.toNat (ticksSince s.time.count h.heard.stamp.count))
        else plus time.toNat (ticksSince s.time.count h.heard.stamp.count)) % 2419200000 ∧
      u.time.validity = .set ∧ u.time.slew = 0 ∧ u.time.close = 0 ∧ u.time.beaconBase = none ∧
      u.time.markBase = none ∧ u.time.stepAt = some s.time.count ∧ u.time.count = s.time.count ∧
      u.time.trim = s.time.trim ∧ u.time.lastMark = s.time.lastMark ∧
      (s.time.validity = .set ∨ s.listen.isSome = true ∨ s.time.reference = some (chooseReference u) →
        u.time.reference = s.time.reference ∧
        u.time.lock = if s.time.lock = .locked then .acquiring else s.time.lock) ∧
      (s.time.validity = .unset → s.listen = none → s.time.reference ≠ some (chooseReference u) →
        u.time.reference = some (chooseReference u) ∧
        u.time.lock = if s.time.lock = .sourced then .sourced
          else if chooseReference u = s.straps.station then .reference
          else if s.time.lock = .reference then .locked else .acquiring) ∧
      hasCondition u.silence.conds .timeStep = true ∧
      (∀ x ∈ u.queue, ∃ e ∈ s.queue, passedBy u e = false ∧
        x = { e with held := atOrBefore e.launch u.time.tower } ∧
        (atOrBefore e.launch u.time.tower = true → channelState s e.channel = .run ∧ isClear u e.channel = false)) ∧
      (∀ e ∈ s.queue, (atOrBefore e.launch u.time.tower = false → { e with held := false } ∈ u.queue) ∧
        (atOrBefore e.launch u.time.tower = true → passedBy u e = false → channelState s e.channel = .run →
          isClear { s with time := u.time } e.channel = false → { e with held := true } ∈ u.queue)) ∧
      (∀ pre e post, s.queue = pre ++ e :: post → (∀ y ∈ pre ++ post, y.admission ≠ e.admission) →
        (∀ y ∈ pre, y.channel = e.channel → passedBy u y = true ∨ atOrBefore y.launch u.time.tower = false) →
        ((∃ x ∈ u.queue, x.admission = e.admission) ↔ passedBy u e = false ∧
          (atOrBefore e.launch u.time.tower = true →
            channelState s e.channel = .run ∧ isClear { s with time := u.time } e.channel = false))) ∧
      (∀ e, passedBy u e = true ↔ isBefore e.launch u.time.tower = true ∧
        u.settings.lateLimit < Machine.dist u.time.tower e.launch) ∧
      SteppedBy u.time.tower s.peers (acknowledge s) u ∧ Unchanged timeStepped (acknowledge s) u)) ∧
  ∀ (new : Nat) (s : State), (stepTime new s).time.tower = new % 2419200000 ∧ StepMet s (stepTime new s)

/-- The node's choice is a candidate, and no candidate with a better claim, or an equal one and a lower number,
exists: SOURCED before SET before any. -/
def Obligations.ReferenceChoice : Prop :=
  ∀ s : State,
    (∀ st : Fin 16, candidate s st =
      if st = s.straps.station then some (s.time.validity, s.time.lock)
      else match s.peers[st] with
        | .live i => (match i.body with
          | .node b => some (b.validity, b.lock)
          | .console => none)
        | _ => none) ∧
    (∃ c, candidate s (chooseReference s) = some c ∧
      ∀ (st : Fin 16) (d : Validity × LockState), candidate s st = some d →
        (d.2 = .sourced → c.2 = .sourced ∧ chooseReference s ≤ st) ∧
        (d.1 = .set → c.2 = .sourced ∨ (c.1 = .set ∧ chooseReference s ≤ st)) ∧
        (c.2 = .sourced ∨ c.1 = .set ∨ chooseReference s ≤ st))

/-- A PRESENCE heard: under the node's own number it is a clash; from another station it is taken into the Peer
Table, and one from a lower station re-evaluates the conflict flags. A peer lapses and goes with its age. That a
PRESENCE under the node's own number that won the arbitration against a frame of the node is a clash too is the model's
own choice (notes/assumptions/53.md). -/
def Obligations.PeerTableResult : Prop :=
  (∀ (rx : Heard) (body : Beacon) (s : State), s.powered = true → ∃ t, exec (.presence rx body) s = .next t ∧
    (rx.sender = s.straps.station →
      t.line.clashAt = some s.time.count ∧ hasCondition t.silence.conds .stationClash = true ∧
      Unchanged [.line, .silence, .trace] s t) ∧
    (rx.sender ≠ s.straps.station →
      t.peers = s.peers.set rx.sender (.live { lastHeard := rx.stamp.count, body := body }) ∧
      (∀ k : Fin 8, t.channels[k].conflict =
        if rx.sender < s.straps.station then conflictOf t k else s.channels[k].conflict) ∧
      Unchanged (.peers :: timeStepped) s t)) ∧
  (∀ (p : Fin 16) (i : PeerInfo) (s : State), s.powered = true → p ≠ s.straps.station →
    (s.peers[p] = .live i → 6000 ≤ ticksSince s.time.count i.lastHeard →
      ∃ t, exec (.peerLapse p) s = .next t ∧ t.peers = s.peers.set p (.lapsed i) ∧
        (∀ k : Fin 8, t.channels[k] = { s.channels[k] with conflict := conflictOf t k }) ∧
        (s.listen = none → t.time.reference = some (chooseReference t)) ∧
        Unchanged [.peers, .channels, .time, .silence, .trace] s t) ∧
    (s.peers[p] = .live i ∨ s.peers[p] = .lapsed i → 120000 ≤ ticksSince s.time.count i.lastHeard →
      ∃ t, exec (.peerAbsence p) s = .next t ∧ t.peers = s.peers.set p .absent ∧
        (∀ k : Fin 8, t.channels[k] = { s.channels[k] with conflict := conflictOf t k }) ∧
        (s.listen = none → t.time.reference = some (chooseReference t)) ∧
        Unchanged [.peers, .channels, .time, .silence, .trace] s t)) ∧
  (∀ (s : State) (k : Fin 8), conflictOf s k = true ↔
    isPresent s k = true ∧ ∃ (st : Fin 16) (i : PeerInfo) (b : NodeBeacon), st < s.straps.station ∧
      s.peers[st] = .live i ∧ i.body = .node b ∧
      b.bellBase.toNat + 1 ≤ bellOf s k ∧ bellOf s k ≤ b.bellBase.toNat + 1 + b.count.toNat)

/-- A beacon of the reference measured, by the node's validity and the beacon's: an error up to 400 is slewed and counts
toward lock, a larger one is stepped, but left alone by a SET node when the beacon is UNSET; an UNSET node always steps
to a SET beacon and becomes SET; a beacon that caused no step measures the trim,
4096 times the surplus of reference ticks by local ticks, to the nearest whole number with halves away from zero and
within 8 either way. An UNSET node that is SOURCED takes its
week position from the donor, keeping its phase within the minute. A step does what SetTimeResult says of every step. -/
def Obligations.BeaconMeasured : Prop :=
  (∀ (rx : Heard) (b : NodeBeacon) (e : Int) (s : State), s.powered = true → rx.sender ≠ s.straps.station →
    s.listen = none → s.time.lock = .locked ∨ s.time.lock = .acquiring → s.time.reference = some rx.sender →
    chooseReference (setPeer rx.sender (.live { lastHeard := rx.stamp.count, body := .node b }) s) = rx.sender →
    e = Machine.dist b.tower.toNat rx.stamp.tower.toNat →
    (s.time.validity = .set ∨ b.validity = .unset → ∃ t, exec (.presence rx (.node b)) s = .next t ∧
      t.time.validity = s.time.validity ∧ t.time.reference = some rx.sender ∧
      t.time.beaconBase = some { time := b.tower.toNat, count := rx.stamp.count } ∧
      (e.natAbs ≤ 400 → SlewedBy e s t ∧ TrimMeasured b.tower.toNat rx.stamp.count s t) ∧
      (400 < e.natAbs → t.time.lock = .acquiring ∧ t.time.close = 0 ∧
        (s.time.validity = b.validity → SteppedTo b.tower.toNat rx.stamp.count
          (s.peers.set rx.sender (.live { lastHeard := rx.stamp.count, body := .node b })) s t) ∧
        (s.time.validity ≠ b.validity → t.time.slew = s.time.slew ∧ t.time.tower = s.time.tower ∧
          TrimMeasured b.tower.toNat rx.stamp.count s t))) ∧
    (s.time.validity = .unset → b.validity = .set → ∃ t, exec (.presence rx (.node b)) s = .next t ∧
      t.time.validity = .set ∧ SteppedTo b.tower.toNat rx.stamp.count
        (s.peers.set rx.sender (.live { lastHeard := rx.stamp.count, body := .node b })) s t ∧ t.time.close = 0 ∧
      t.time.reference = some (chooseReference t) ∧
      t.time.lock = (if chooseReference t = s.straps.station then .reference else .acquiring) ∧
      t.time.beaconBase = (if chooseReference t = rx.sender
        then some { time := b.tower.toNat, count := rx.stamp.count } else none))) ∧
  (∀ (rx : Heard) (b : NodeBeacon) (s : State), s.powered = true → rx.sender ≠ s.straps.station →
    s.listen = none → s.time.lock = .sourced → s.time.validity = .unset → b.validity = .set →
    (∀ (st : Fin 16) (i : PeerInfo) (x : NodeBeacon), st < rx.sender → st ≠ s.straps.station →
      s.peers[st] = .live i → i.body = .node x → x.validity = .unset) →
    ∃ t, exec (.presence rx (.node b)) s = .next t ∧ t.time.validity = .set ∧ t.time.lock = .sourced ∧
      t.time.reference = some (chooseReference t) ∧ t.time.slew = 0 ∧ t.time.stepAt = some s.time.count ∧
      t.time.tower = samePhase s.time.tower (plus b.tower.toNat (ticksSince s.time.count rx.stamp.count)) ∧
      SteppedBy t.time.tower (s.peers.set rx.sender (.live { lastHeard := rx.stamp.count, body := .node b })) s t) ∧
  (∀ own x : Nat, samePhase own x % 240000 = own % 240000 ∧
    -120000 ≤ Machine.dist (samePhase own x) x ∧ Machine.dist (samePhase own x) x < 120000) ∧
  (∀ (ref_ : Int) (ticks : Nat), 0 < ticks → ∃ q : Int, trimTarget ref_ ticks = max (-8) (min 8 q) ∧
    2 * (4096 * (ref_ - ticks) - q * ticks).natAbs ≤ ticks ∧
    (2 * (4096 * (ref_ - ticks) - q * ticks).natAbs = ticks → (4096 * (ref_ - ticks)).natAbs ≤ (q * ticks).natAbs))

/-- A frame handed to the transmit queue: with fewer than 8 frames it joins at its place; a full queue evicts its
highest frame for a more urgent one, and refuses any other. A reply is such a frame; a PRESENCE may also be set aside
or take the place of the pending one. -/
def Obligations.TransmitQueueTakesFrames : Prop :=
  (∀ (x : TxFrame) (s : State),
    (txCount s < 8 → (handFrame x s).2 = true ∧ Joined s x s.line.queue (handFrame x s).1.line.queue ∧
      Unchanged [.line] s (handFrame x s).1) ∧
    (∀ h rest, 8 ≤ txCount s → s.line.queue = rest ++ [h] → txIdent s x.frame < txIdent s h.frame →
      (handFrame x s).2 = true ∧ Joined s x rest (handFrame x s).1.line.queue ∧
      Raised .txDropped s (handFrame x s).1 ∧ Unchanged handed s (handFrame x s).1) ∧
    (∀ h rest, 8 ≤ txCount s → s.line.queue = rest ++ [h] → txIdent s h.frame ≤ txIdent s x.frame →
      (handFrame x s).2 = false ∧ (handFrame x s).1.line = s.line ∧
      (countsRefusal x.frame = true → Raised .txDropped s (handFrame x s).1) ∧
      (countsRefusal x.frame = false → (handFrame x s).1.counters = s.counters) ∧
      Unchanged [.counters, .service] s (handFrame x s).1)) ∧
  (∀ (h : Service) (n : Nat) (r : Result) (b : ReplyBody) (s : State),
    (targeted s h = false → reply h n r b s = s) ∧
    (targeted s h = true → txCount s < 8 → Unchanged [.line] s (reply h n r b s) ∧
      Joined s { frame := .reply { command := n, tag := h.tag, result := r, final := true, part := 0, body := b }
                 origin := .single } s.line.queue (reply h n r b s).line.queue)) ∧
  (∀ (b : NodeBeacon) (s : State),
    (sendingPresence s = true → handBeacon b s = { s with line := { s.line with setAside := some b } }) ∧
    (∀ pre old post, sendingPresence s = false → s.line.queue = pre ++ old :: post →
      old.frame.isPresence = true → (∀ y ∈ pre ++ post, y.frame.isPresence = false) →
      handBeacon b s = { s with line := { s.line with
        queue := pre ++ { frame := .presence b, origin := .beacon } :: post } }))

/-- The node offers its most urgent frame, stamped at the start edge; a frame that loses arbitration goes back to its
place; a frame that completes is delivered to the node itself, its error count cleared and NO_ACK raised without an
acknowledge, and a PRESENCE set aside joins the queue, which is otherwise unchanged. The place a frame goes back to is
the model's own choice (notes/assumptions/36.md). -/
def Obligations.OfferLossCompletion : Prop :=
  (∀ s : State, s.powered = true → s.listen = none → s.line.faultAt = none → s.line.sending = none →
    (∀ x rest, s.line.clashAt = none → s.line.queue = x :: rest → ∃ t, exec .frameOffer s = .next t ∧
      t.line = { s.line with
        queue := rest
        sending := some { tx := { x with frame := stampFrame s x.frame }
                          stamp := { tower := BitVec.ofNat 32 s.time.tower, count := s.time.count } } } ∧
      Unchanged [.line] s t) ∧
    (∀ pre x post, s.line.clashAt.isSome = true → s.line.queue = pre ++ x :: post →
      x.frame.isPresence = true → (∀ y ∈ pre, y.frame.isPresence = false) →
      ∃ t, exec .frameOffer s = .next t ∧ t.line.queue = pre ++ post ∧
        (∃ z, t.line.sending = some z ∧ z.tx.frame = stampFrame s x.frame ∧ z.stamp.count = s.time.count) ∧
        Unchanged [.line] s t)) ∧
  (∀ (cell : Fin 11) (x : Sending) (s : State), s.powered = true → s.line.sending = some x →
    identCell s x.tx.frame cell = true → ∃ t, exec (.arbitrationLoss cell) s = .next t ∧
      t.line.sending = none ∧ t.line.setAside = none ∧ t.line.txErrors = s.line.txErrors ∧
      (s.line.setAside = none → Reinstated s x.tx s.line.queue t.line.queue) ∧
      (∀ b, s.line.setAside = some b →
        Reinstated s { frame := .presence b, origin := .beacon } s.line.queue t.line.queue) ∧
      Unchanged [.line] s t) ∧
  (∀ (acked : Bool) (x : Sending) (s : State), s.powered = true → s.line.sending = some x →
    ∃ u, exec (.txCompleted acked) s = .next (deliverOwn x u) ∧
      u.line.sending = none ∧ u.line.setAside = none ∧ u.line.txErrors = 0 ∧
      (s.line.setAside = none → u.line.queue = s.line.queue) ∧
      (∀ b, s.line.setAside = some b → (∀ y ∈ s.line.queue, y.frame.isPresence = false) → s.line.queue.length < 8 →
        Joined s { frame := .presence b, origin := .beacon } s.line.queue u.line.queue) ∧
      (∀ b pre old post, s.line.setAside = some b → s.line.queue = pre ++ old :: post →
        old.frame.isPresence = true → (∀ y ∈ pre ++ post, y.frame.isPresence = false) →
        u.line.queue = pre ++ { frame := .presence b, origin := .beacon } :: post) ∧
      (acked = false → Raised .noAck s u) ∧
      (acked = true → readCounter u .noAck = readCounter s .noAck) ∧ Unchanged handed s u ∧
      (∀ pr b, x.tx.frame = .claim pr b → deliverOwn x u =
        applyClaim (holderFrom { station := s.straps.station, seq := b.seq } pr b x.stamp.count) u) ∧
      (∀ pr b, x.tx.frame = .floor pr b → deliverOwn x u =
        applyFloor (holderFrom { station := s.straps.station, seq := b.seq } pr b x.stamp.count) u) ∧
      (∀ seq r, x.tx.frame = .release seq r →
        deliverOwn x u = applyRelease { station := s.straps.station, seq := seq } u) ∧
      (∀ seq base items, x.tx.frame = .order seq base items → deliverOwn x u =
        takeOrders { station := s.straps.station, seq := seq } base.toNat items u) ∧
      ((∃ b, x.tx.frame = .presence b) ∨ (∃ r, x.tx.frame = .reply r) → deliverOwn x u = u))

/-- A transmission abandoned is counted and its frame lost, and the sixteenth in a row begins LINE_FAULT; a receive
error is counted, and the ninth within the window asserts CHECK_ERRORS; an unknown frame is acknowledged and counted,
and a REPLY heard is acknowledged and nothing more. Which errors lie within the window, and that a REPLY heard comes by
this command, are the model's reading (notes/assumptions/21.md, notes/assumptions/26.md). -/
def Obligations.LineErrors : Prop :=
  (∀ (x : Sending) (s : State), s.powered = true → s.line.sending = some x →
    ∃ t, exec .txAbandoned s = .next t ∧ t.line.sending = none ∧ t.line.txErrors = s.line.txErrors + 1 ∧
      Raised .txError s t ∧
      (∀ k seq base items, x.tx = { frame := .order seq base items, origin := .slot k } →
        s.line.setAside = none → Raised .ordersLost s t) ∧
      (∀ (k : Fin 4) (p : Perf) pr b, x.tx = { frame := .claim pr b, origin := .slot k } →
        s.line.setAside = none → s.conductor.slots[k] = .active p → p.phase = .claiming → p.seq = b.seq →
        ∃ q, t.conductor.slots[k] = .active q ∧ q.phase = .preroll ∧ q.seq = p.seq) ∧
      (s.line.faultAt = none → 15 ≤ s.line.txErrors → t.line.faultAt = some s.time.count ∧
        hasCondition t.silence.conds .lineFault = true) ∧
      (s.line.txErrors < 15 → t.line.faultAt = s.line.faultAt ∧ t.silence = s.silence) ∧
      Unchanged [.line, .conductor, .counters, .service, .silence, .trace] s t) ∧
  (∀ s : State, s.powered = true → ∃ t, exec .receiveError s = .next t ∧ Raised .rxError s t ∧
    t.line = { s.line with errors := recentErrors s ++ [s.time.count], ackDriven := false } ∧
    (8 ≤ (recentErrors s).length → hasCondition t.silence.conds .checkErrors = true) ∧
    ((recentErrors s).length < 8 → t.silence = s.silence) ∧
    Unchanged [.line, .counters, .silence, .trace] s t) ∧
  (∀ (ident : BitVec 11) (p : Payload) (s : State), s.powered = true → frameAccepted ident p = false →
    ∃ t, exec (.unknownFrame ident p) s = .next t ∧ Raised .rxUnknown s t ∧
      (∀ c : Counter, c ≠ .rxUnknown → readCounter t c = readCounter s c) ∧
      t.line = { s.line with ackDriven := s.line.faultAt.isNone } ∧ Unchanged [.line, .counters] s t) ∧
  (∀ (ident : BitVec 11) (p : Payload) (s : State), s.powered = true → frameKind ident = some .reply →
    frameAccepted ident p = true → exec (.unknownFrame ident p) s = .next { s with
      line := { s.line with ackDriven := s.line.faultAt.isNone } })

/-- The timed conditions clear when their time is over, each for itself, by the clearing of R174. That an error 4000
ticks old still counts is the model's own reading (notes/assumptions/21.md). -/
def Obligations.TimedConditionsClear : Prop :=
  ∀ s : State, s.powered = true →
    (∀ c, s.line.faultAt = some c → 8000 ≤ ticksSince s.time.count c → ∃ u,
      exec .lineFaultEnd s = .next (clearCond .lineFault u) ∧
      u = { s with line := { s.line with faultAt := none, txErrors := 0 } } ∧
      hasCondition (clearCond .lineFault u).silence.conds .lineFault = false ∧
      Unchanged [.silence, .trace] u (clearCond .lineFault u)) ∧
    (∀ c, s.time.stepAt = some c → 8000 ≤ ticksSince s.time.count c → ∃ u,
      exec .timeStepEnd s = .next (clearCond .timeStep u) ∧
      u = { s with time := { s.time with stepAt := none } } ∧
      hasCondition (clearCond .timeStep u).silence.conds .timeStep = false ∧
      Unchanged [.silence, .trace] u (clearCond .timeStep u)) ∧
    (∀ c, s.line.clashAt = some c → 120000 ≤ ticksSince s.time.count c → ∃ u,
      exec .stationClashEnd s = .next (clearCond .stationClash u) ∧
      u = { s with line := { s.line with clashAt := none } } ∧
      hasCondition (clearCond .stationClash u).silence.conds .stationClash = false ∧
      Unchanged [.silence, .trace] u (clearCond .stationClash u)) ∧
    (hasCondition s.silence.conds .checkErrors = true → (recentErrors s).length ≤ 8 → ∃ u,
      exec .checkErrorsClear s = .next (clearCond .checkErrors u) ∧
      u = { s with line := { s.line with errors := recentErrors s } } ∧
      hasCondition (clearCond .checkErrors u).silence.conds .checkErrors = false ∧
      Unchanged [.silence, .trace] u (clearCond .checkErrors u))

/-- The end of the listen period chooses the reference, takes the lock state that the table of R70 gives for it, and
builds the first PRESENCE; afterwards one is built every 2000 local ticks. A PRESENCE holds the node's present values.
That a late beacon keeps its cadence is the model's own choice (notes/assumptions/22.md). -/
def Obligations.PresenceBuiltAndListenEnd : Prop :=
  (∀ (c : LocalCount) (s : State), s.powered = true → s.listen = some c → 6000 ≤ ticksSince s.time.count c →
    ∃ u, exec .listenEnd s = .next (buildPresence u) ∧ u.listen = none ∧
      u.line = { s.line with beaconTimer := 0 } ∧
      u.time = { s.time with
        reference := some (chooseReference s)
        lock := lockForChoice s s.time.lock (chooseReference s)
        close := 0, beaconBase := none } ∧
      hasCondition u.silence.conds .timeUnlocked = decide (u.time.lock = .acquiring) ∧
      Unchanged [.listen, .line, .time, .silence, .trace] s u) ∧
  (∀ s : State, s.powered = true → s.listen = none → 2000 ≤ s.line.beaconTimer →
    ∃ u, exec .presenceBuild s = .next (buildPresence u) ∧
      u = { s with line := { s.line with beaconTimer := s.line.beaconTimer - 2000 } }) ∧
  (∀ s : State, sendingPresence s = false → (∀ y ∈ s.line.queue, y.frame.isPresence = false) → txCount s < 8 →
    Unchanged [.line] s (buildPresence s) ∧
    Joined s { frame := .presence
                 { validity := s.time.validity, lock := s.time.lock, drive := s.drive.mode
                   silence := s.silence.state, tower := BitVec.ofNat 32 s.time.tower
                   playable := playableMask s, bellBase := s.straps.bellBase
                   count := BitVec.ofNat 3 (presentCount s - 1)
                   holder := s.floor.holder.map Holder.perf }
               origin := .beacon } s.line.queue (buildPresence s).line.queue) ∧
  (∀ (s : State) (k : Fin 8), (playableMask s).getLsbD k.val = decide (channelState s k = .run)) ∧
  (∀ (s : State) (choice : Fin 16),
    (∀ before, choice = s.straps.station →
      lockForChoice s before choice = if before = .sourced then .sourced else .reference) ∧
    (choice ≠ s.straps.station →
      lockForChoice s .reference choice = (if s.time.validity = .set then .locked else .acquiring) ∧
      lockForChoice s .acquiring choice = .acquiring ∧ lockForChoice s .locked choice = .locked ∧
      lockForChoice s .sourced choice = .sourced))

/-- The orders of a frame are taken in turn, and an order that passes every stage becomes an entry at its place: of the
holder or of the fading performance, with the launch time the stages give it, the priority of its performance, its lift
time, the next admission number. The bank is woken, the damper lifts when a lift time is already reached, and the launch
event follows at once when it is due. An order of no performance on the floor is STRAY, one too late LATE. That an ORDER
of a count outside 1 to 3 is counted as an unknown frame, the place of an entry among launch times that R64 does not
order, and the lift where it names no earliest lift time, are the model's own (notes/assumptions/28.md,
notes/assumptions/58.md, notes/assumptions/59.md). -/
def Obligations.OrderAdmitted : Prop :=
  (∀ (rx : Heard) (seq : BitVec 8) (base : BitVec 32) (items : List OrderItem) (s : State), s.powered = true →
    (1 ≤ items.length ∧ items.length ≤ 3 → exec (.order rx seq base items) s = .next
      (items.foldl (fun t o => takeOrder { station := rx.sender, seq := seq } base.toNat s.time.tower o t)
        (acknowledge s))) ∧
    (items.length = 0 ∨ 3 < items.length →
      exec (.order rx seq base items) s = .next (raise .rxUnknown (acknowledge s)))) ∧
  (∀ (p : PerfId) (base : Nat) (o : OrderItem) (k : Fin 8) (st : Standing) (pr launch : Nat) (s : State),
    channelOfBell s (o.bell.toNat + 1) = some k → o.velocity ≠ 0 → channelState s k = .run →
    floorStanding s p (plus base o.offset.toNat) = some (st, pr) →
    Machine.dist (plus base o.offset.toNat) s.time.tower ≤ 40000 → s.queue.length < 96 →
    planLaunch s k (plus base o.offset.toNat) o.velocity.toNat s.time.tower = .launch launch →
    ∃ (e : Entry) (t : State), e.channel = k ∧ e.owner = .perf p ∧ e.priority = pr ∧
      e.impact = plus base o.offset.toNat ∧ e.launch = launch ∧ e.velocity = o.velocity.toNat ∧
      e.duration = (if s.channels[k].voicing.damped = true ∧ o.duration ≠ 0 then some (16 * o.duration.toNat)
        else none) ∧
      e.lift = e.duration.map (fun _ => minus launch s.channels[k].voicing.lead) ∧
      e.admission = s.admission ∧ e.held = false ∧ EntryInserted e s t ∧
      takeOrder p base s.time.tower o s = afterInsertion e t ∧
      (isBefore s.time.tower launch = true → takeOrder p base s.time.tower o s = t)) ∧
  (∀ (p : PerfId) (base : Nat) (o : OrderItem) (k : Fin 8) (s : State),
    channelOfBell s (o.bell.toNat + 1) = some k → o.velocity ≠ 0 → channelState s k = .run →
    (floorStanding s p (plus base o.offset.toNat) = none →
      takeOrder p base s.time.tower o s = raise .stray s) ∧
    (∀ st pr, floorStanding s p (plus base o.offset.toNat) = some (st, pr) →
      Machine.dist (plus base o.offset.toNat) s.time.tower ≤ 40000 →
      isBefore (minus (plus base o.offset.toNat) (flightAt s.channels[k].voicing o.velocity.toNat))
        s.time.tower = true →
      s.settings.lateLimit <
        Machine.dist s.time.tower (minus (plus base o.offset.toNat) (flightAt s.channels[k].voicing o.velocity.toNat)) →
      takeOrder p base s.time.tower o s = raise .late s))

/-- The bells of the present channels run from the bell base, by the straps, and a channel is ABSENT, in CONFLICT,
HALTED or RUN, in that order. The range, channel and early stages: an order for a bell out of range leaves no mark at
all, one for a channel that is not RUN raises REFUSED_CHANNEL and nothing else, one whose impact is after now by more
than 40,000 ticks raises EARLY and nothing else, and any other goes on to the flight and launch stage. -/
def Obligations.OrderEarlyStages : Prop :=
  ∀ (p : PerfId) (base : Nat) (o : OrderItem) (s : State),
    (bellBase s = s.straps.bellBase.toNat + 1 ∧ 1 ≤ presentCount s ∧ presentCount s ≤ 8 ∧ ∀ k : Fin 8,
      bellOf s k = s.straps.bellBase.toNat + 1 + k.val ∧ (isPresent s k = true ↔ k.val < presentCount s) ∧
      (isPresent s k = true ↔ k.val < s.straps.channelCount.toNat + 1 ∧ bellOf s k ≤ 64) ∧
      (isPresent s k = false → channelState s k = .absent) ∧
      (isPresent s k = true → s.channels[k].conflict = true → channelState s k = .conflict) ∧
      (isPresent s k = true → s.channels[k].conflict = false → s.halted.getLsbD k.val = true →
        channelState s k = .halted) ∧
      (isPresent s k = true → s.channels[k].conflict = false → s.halted.getLsbD k.val = false →
        channelState s k = .run)) ∧
    (o.bell.toNat + 1 < bellBase s ∨ bellBase s + presentCount s ≤ o.bell.toNat + 1 →
      takeOrder p base s.time.tower o s = s) ∧
    (∀ k : Fin 8, isPresent s k = true → o.bell.toNat + 1 = bellOf s k → o.velocity ≠ 0 →
      (channelState s k = .halted ∨ channelState s k = .conflict →
        takeOrder p base s.time.tower o s = raise .refusedChannel s) ∧
      (∀ st pr, channelState s k = .run → floorStanding s p (plus base o.offset.toNat) = some (st, pr) →
        (40000 < Machine.dist (plus base o.offset.toNat) s.time.tower →
          takeOrder p base s.time.tower o s = raise .early s) ∧
        (Machine.dist (plus base o.offset.toNat) s.time.tower ≤ 40000 →
          takeOrder p base s.time.tower o s = (admitRequest k (.perf p) pr (plus base o.offset.toNat) o.velocity.toNat
            (orderDuration o) st s.time.tower s).1)))

/-- The effective velocity is the requested velocity less the silence reduction, less the preempt reduction when the
entry belongs to the fading performance, and never below 0; 0 makes the outcome SILENCED; no strike fires above it,
above its order's velocity, or in SILENT. -/
def Obligations.EffectiveVelocityBoundsEveryStrike : Prop :=
  ∀ (s : State) (e : Entry),
    (effectiveVelocity s e : Int) = max 0 ((e.velocity : Int) - s.silence.level -
      (match s.floor.fading with
        | some f => if e.owner = .perf f.perf then (f.reduction : Int) else 0
        | none => 0)) ∧
    (∀ u o, serve s e = .fired u o → u ≤ effectiveVelocity s e ∧ u ≤ e.velocity ∧ s.silence.state ≠ .silent) ∧
    (channelState s e.channel = .run → isClear s e.channel = true → s.silence.state ≠ .silent →
      bankUp s.drive.mode = true →
      (effectiveVelocity s e = 0 → serve s e = .unfired .silenced) ∧
      (1 ≤ effectiveVelocity s e →
        serve s e = (match degrade s.channels[e.channel].voicing (available s e.priority) (effectiveVelocity s e) with
          | none => .unfired .starved
          | some u => .fired u (if u = effectiveVelocity s e then .fired else .degraded))))

/-- The launch event of the first due entry in queue order, one whose launch time is reached on a channel that is clear
or not RUN, or is past by more than the late limit; one held meanwhile is served from the tower time of the event, and a
strike that fires launches at least the return time H after the strike before it on its channel: the degrade takes the
highest velocity whose cost the bank can meet; a strike that fires pays its cost, starts the pulse and the stroke, the
cost the pulse width times the coil factor and, below priority 3, never from the reserve, and leaves its launch as the
last fired one; an entry that does not fire leaves with the outcome of the first test it fails. Either way it leaves the
queue, its counter rises and its record is offered to the trace, which writes it while it is OPEN or COUNTING, the
newest 64 kept; a trigger starts the post count, and the trace freezes when it is over. An entry to SILENT is announced
to the trace. It counts toward the fade of the node and of its own performance, whose fading part goes with its last
entry. That the record is written before an entry to SILENT is announced to the trace, and that an entry without a held
mark whose launch lies within H of the strike before it is served as a held one, are the model's own
(notes/assumptions/12.md, notes/assumptions/42.md), and so is the later of two drop times half a week apart
(notes/assumptions/57.md). -/
def Obligations.LaunchEventResult : Prop :=
  (∀ (v : Voicing) (energy n : Nat),
    (∀ u, degrade v energy n = some u ↔ 1 ≤ u ∧ u ≤ n ∧ strikeCost v u ≤ energy ∧
      ∀ w, u < w → w ≤ n → energy < strikeCost v w) ∧
    (degrade v energy n = none ↔ ∀ w, 1 ≤ w → w ≤ n → energy < strikeCost v w)) ∧
  (∀ (v : Voicing) (i : Fin 15), pulseWidth v (i.val + 1) = v.curve[i] ∧
    strikeCost v (i.val + 1) = v.curve[i] * v.coil) ∧
  (∀ (s : State) (priority : Nat), (3 ≤ priority → available s priority = s.drive.level) ∧
    (priority < 3 → (available s priority : Int) = max 0 ((s.drive.level : Int) - s.settings.reserve))) ∧
  (∀ (e x : Entry) (u : Nat) (o : StrikeOutcome) (s : State), s.powered = true → firstDue s = some e →
    x = servedEntry s e → serve s x = .fired u o → ∃ t, exec .launchEvent s = .next t ∧
      t.queue = s.queue.erase e ∧
      t.drive.level = s.drive.level - strikeCost s.channels[x.channel].voicing u ∧
      t.drive.mode = (if s.settings.readyLevel ≤ t.drive.level then .ready else .charging) ∧
      t.drive.idle = s.drive.idle ∧
      (x.priority < 3 → x.velocity ≤ 15 → VoicingInRange s.channels[x.channel].voicing →
        s.settings.reserve ≤ t.drive.level) ∧
      t.channels[x.channel] = { s.channels[x.channel] with
        gate := some { since := s.time.count, width := pulseWidth s.channels[x.channel].voicing u }
        hammer := .flying s.time.count (flightAt s.channels[x.channel].voicing u) s.channels[x.channel].voicing.back
        lastFired := some { launch := x.launch, back := s.channels[x.channel].voicing.back }
        drop := (match x.duration, s.channels[x.channel].voicing.damped, s.channels[x.channel].drop with
          | some d, true, none => some (plus x.impact d)
          | some d, true, some old => some (later old (plus x.impact d))
          | _, _, old => old) } ∧
      (∀ l, s.channels[x.channel].lastFired = some l → reached x.launch (plus l.launch l.back) = true) ∧
      (∀ j : Fin 8, j ≠ x.channel → t.channels[j] = s.channels[j]) ∧
      Raised (outcomeCounter o) s t ∧
      (∀ r : StrikeRecord, r =
          { channel := x.channel, owner := x.owner, impact := x.impact, launch := x.launch, requested := x.velocity
            fired := u, outcome := o
            lateness := Machine.dist (plus x.launch (flightAt s.channels[x.channel].voicing u)) x.impact } →
        (s.trace.state ≠ .frozen → t.trace.records.getLast? = some r) ∧
        t.trace = (if s.silence.state ≠ .silent ∧ t.silence.state = .silent then silentTrigger (writeRecord r s)
          else writeRecord r s).trace) ∧
      Unchanged removal s t) ∧
  (∀ (e x : Entry) (o : StrikeOutcome) (s : State), s.powered = true → firstDue s = some e →
    x = servedEntry s e → serve s x = .unfired o → ∃ t, exec .launchEvent s = .next t ∧
      t.queue = s.queue.erase e ∧ Raised (outcomeCounter o) s t ∧
      (∀ j : Fin 8, t.channels[j] = { s.channels[j] with damperUp := t.channels[j].damperUp }) ∧
      (s.drive.mode ≠ .draining → t.drive = s.drive) ∧
      (∀ r : StrikeRecord, r =
          { channel := x.channel, owner := x.owner, impact := x.impact, launch := s.time.tower
            requested := x.velocity, fired := 0, outcome := o, lateness := 0 } →
        (s.trace.state ≠ .frozen → t.trace.records.getLast? = some r) ∧
        t.trace = (if s.silence.state ≠ .silent ∧ t.silence.state = .silent then silentTrigger (writeRecord r s)
          else writeRecord r s).trace) ∧
      Unchanged removal s t) ∧
  (∀ (e : Entry) (s : State), s.powered = true → firstDue s = some e → ∃ t, exec .launchEvent s = .next t ∧
    t = launchEntry e s ∧ t.queue = s.queue.erase e ∧ t.floor.holder = s.floor.holder ∧
    ((∀ f, s.floor.fading = some f → e.owner ≠ .perf f.perf) → t.floor.fading = s.floor.fading) ∧
    (∀ f, s.floor.fading = some f → e.owner = .perf f.perf →
      ((∀ y ∈ t.queue, y.owner ≠ .perf f.perf) → t.floor.fading = none) ∧
      ((∃ y ∈ t.queue, y.owner = .perf f.perf) → t.floor.fading = some
        (if f.reduction = 0 then f
          else if s.settings.fadeStep ≤ f.launches + 1
          then { f with launches := 0, reduction := min 15 (f.reduction + 1) }
          else { f with launches := f.launches + 1 }))) ∧
    (s.silence.state ≠ .fading → t.silence = s.silence) ∧
    (s.silence.state = .fading →
      (t.queue = [] ∨ (s.settings.fadeStep ≤ s.silence.fadeCount + 1 ∧ 14 ≤ s.silence.level) →
        t.silence.state = .silent ∧ t.silence.level = 15 ∧ t.silence.resumable = false) ∧
      (t.queue ≠ [] → s.settings.fadeStep ≤ s.silence.fadeCount + 1 → s.silence.level < 14 →
        t.silence = { s.silence with fadeCount := 0, level := s.silence.level + 1 }) ∧
      (t.queue ≠ [] → s.silence.fadeCount + 1 < s.settings.fadeStep →
        t.silence = { s.silence with fadeCount := s.silence.fadeCount + 1 }))) ∧
  (∀ (e : Entry) (s : State),
    (channelState s e.channel ≠ .run → serve s e = .unfired .halted) ∧
    (channelState s e.channel = .run → isClear s e.channel = false ∨ s.silence.state = .silent →
      serve s e = .unfired .silenced) ∧
    (channelState s e.channel = .run → isClear s e.channel = true → s.silence.state ≠ .silent →
      bankUp s.drive.mode = false → serve s e = .unfired .starved)) ∧
  (∀ (s : State) (e : Entry), firstDue s = some e ↔ ∃ pre post, s.queue = pre ++ e :: post ∧
    launchDue s e = true ∧ ∀ y ∈ pre, launchDue s y = false) ∧
  (∀ (s : State) (e : Entry), launchDue s e = true ↔ reached s.time.tower e.launch = true ∧
    (isClear s e.channel = true ∨ channelState s e.channel ≠ .run ∨
      s.settings.lateLimit < Machine.dist s.time.tower e.launch)) ∧
  (∀ (s : State) (k : Fin 8), isClear s k = true ↔ s.channels[k].hammer = .rest ∧
    ∀ l, s.channels[k].lastFired = some l → reached s.time.tower (plus l.launch l.back) = true) ∧
  (∀ (s : State) (e : Entry),
    (isClear s e.channel = true → e.held = true ∨ (∃ l, s.channels[e.channel].lastFired = some l ∧
      isBefore e.launch (plus l.launch l.back) = true) → servedEntry s e = { e with launch := s.time.tower }) ∧
    (isClear s e.channel = false ∨ (e.held = false ∧ ∀ l, s.channels[e.channel].lastFired = some l →
      isBefore e.launch (plus l.launch l.back) = false) → servedEntry s e = e)) ∧
  (∀ (r : StrikeRecord) (records : List StrikeRecord),
    (records.length < 64 → pushRecord r records = records ++ [r]) ∧
    (records.length = 64 → pushRecord r records = records.tail ++ [r])) ∧
  (∀ (r : StrikeRecord) (s : State), (s.trace.state = .frozen → writeRecord r s = s) ∧
    (s.trace.state = .counting → writeRecord r s = { s with trace := {
      records := pushRecord r s.trace.records, remaining := s.trace.remaining - 1
      state := if s.trace.remaining ≤ 1 then .frozen else .counting } }) ∧
    (s.trace.state = .open →
      ((s.settings.trigger = .starved ∧ r.outcome = .starved) ∨ (s.settings.trigger = .notFired ∧ r.outcome ≠ .fired) →
        writeRecord r s = { s with trace := {
          records := pushRecord r s.trace.records, remaining := s.settings.postCount
          state := if s.settings.postCount = 0 then .frozen else .counting } }) ∧
      (¬((s.settings.trigger = .starved ∧ r.outcome = .starved) ∨
          (s.settings.trigger = .notFired ∧ r.outcome ≠ .fired)) →
        writeRecord r s = { s with trace := { s.trace with records := pushRecord r s.trace.records } }))) ∧
  (∀ s : State,
    (s.trace.state = .open → s.settings.trigger = .silentEntry → silentTrigger s = { s with trace := { s.trace with
      remaining := s.settings.postCount, state := if s.settings.postCount = 0 then .frozen else .counting } }) ∧
    (s.trace.state ≠ .open ∨ s.settings.trigger ≠ .silentEntry → silentTrigger s = s))

/-- A pulse, a flight and a return end with their times, a flight as long as the return time straight to REST; a hammer
at REST may end a drain and an idle damper; a damper lifts at a reached lift time and falls at a reached drop time,
unless a lift follows within the lead. A drain is over when every present channel has its hammer at REST and its damper
DOWN with no drop pending. The local tick within which a pulse ends, and that any reached lift time lifts where R64
names no earliest, are the model's own choices (notes/assumptions/13.md, notes/assumptions/59.md). -/
def Obligations.StrokesAndDampers : Prop :=
  (∀ (k : Fin 8) (g : Gate) (s : State), s.powered = true → s.channels[k].gate = some g →
    2 * g.width < 25 * (ticksSince s.time.count g.since + 1) →
    exec (.pulseEnd k) s = .next { s with channels := s.channels.set k { s.channels[k] with gate := none } }) ∧
  (∀ (k : Fin 8) (since : LocalCount) (flight back : Nat) (s : State), s.powered = true →
    s.channels[k].hammer = .flying since flight back → flight ≤ ticksSince s.time.count since → flight < back →
    exec (.flightEnd k) s = .next { s with
      channels := s.channels.set k { s.channels[k] with hammer := .returning since back } }) ∧
  (∀ (k : Fin 8) (c : Instr) (since : LocalCount) (flight back : Nat) (s : State), s.powered = true →
    (c = .flightEnd k ∧ s.channels[k].hammer = .flying since flight back ∧ back ≤ flight ∧
      flight ≤ ticksSince s.time.count since) ∨
    (c = .returnEnd k ∧ (s.channels[k].hammer = .returning since back ∨
      s.channels[k].hammer = .flying since flight back) ∧ back ≤ ticksSince s.time.count since) →
    ∃ t, exec c s = .next t ∧
      t.channels[k] = { s.channels[k] with
        hammer := .rest
        damperUp := s.channels[k].damperUp && !(s.channels[k].voicing.damped && s.channels[k].drop.isNone &&
          (entriesOn s k).isEmpty) } ∧
      (∀ j : Fin 8, j ≠ k → t.channels[j] = s.channels[j]) ∧
      t.drive = (if s.drive.mode = .draining ∧ settled t = true
        then { mode := .off, level := 0, idle := s.drive.idle } else s.drive) ∧
      Unchanged [.channels, .drive] s t) ∧
  (∀ (k : Fin 8) (s : State), s.powered = true → isPresent s k = true → s.channels[k].voicing.damped = true →
    s.channels[k].damperUp = false → liftReached s k = true →
    (s.pins.access = false → exec (.lift k) s = .next { s with
      channels := s.channels.set k { s.channels[k] with damperUp := true } }) ∧
    (s.pins.access = true → exec (.lift k) s = .next s)) ∧
  (∀ (k : Fin 8) (at_ : Nat) (s : State), s.powered = true → s.channels[k].voicing.damped = true →
    s.channels[k].drop = some at_ → reached s.time.tower at_ = true → ∃ t, exec (.drop k) s = .next t ∧
      t.channels[k] = { s.channels[k] with
        drop := none
        damperUp := (if dropSkipped s k at_ then s.channels[k].damperUp
          else isPresent s k && !s.pins.access && liftReached s k) } ∧
      (∀ j : Fin 8, j ≠ k → t.channels[j] = s.channels[j]) ∧
      t.drive = (if s.drive.mode = .draining ∧ settled t = true
        then { mode := .off, level := 0, idle := s.drive.idle } else s.drive) ∧
      Unchanged [.channels, .drive] s t) ∧
  (∀ s : State, settled s = true ↔ ∀ k : Fin 8, isPresent s k = true →
    s.channels[k].hammer = .rest ∧ s.channels[k].damperUp = false ∧ s.channels[k].drop = none) ∧
  (∀ (s : State) (k : Fin 8), liftReached s k = true ↔
    ∃ e ∈ s.queue, e.channel = k ∧ ∃ l, e.lift = some l ∧ reached s.time.tower l = true) ∧
  (∀ (s : State) (k : Fin 8) (at_ : Nat), dropSkipped s k at_ = true ↔
    ∃ e ∈ s.queue, e.channel = k ∧ ∃ l, e.lift = some l ∧
      atOrBefore l (plus at_ s.channels[k].voicing.lead) = true)

/-- The drain begins when the idle timer reaches the idle time, and ends at once when everything is at rest; a WAKE
brings the bank up, but not while the chamber is open. -/
def Obligations.DrainAndWake : Prop :=
  (∀ s : State, s.powered = true → s.drive.mode = .charging ∨ s.drive.mode = .ready →
    s.settings.idleTime ≠ 0 → s.settings.idleTime ≤ s.drive.idle →
    exec .drainStart s = .next { s with
      drive := if settled s then { mode := .off, level := 0, idle := 0 }
        else { mode := .draining, level := s.drive.level, idle := 0 } }) ∧
  (∀ (h : Service) (s : State), s.powered = true → targeted s h = true →
    (s.pins.access = true → exec (.wake h) s = .next (reply h 4 .busy .none (acknowledge s))) ∧
    (s.pins.access = false → exec (.wake h) s = .next (reply h 4 .done .none { acknowledge s with
      drive :=
      { mode := (match s.drive.mode with
          | .off => .charging
          | .draining => if s.settings.readyLevel ≤ s.drive.level then .ready else .charging
          | m => m)
        level := s.drive.level, idle := 0 } })))

/-- The contact and fault inputs: an opened chamber shuts the bank, drops every damper and silences the node; a closed
one clears its condition, wakes a wanted bank and lifts what is due; the fault inputs assert and clear their conditions.
That any reached lift time lifts where R64 names no earliest is the model's own choice (notes/assumptions/59.md). -/
def Obligations.ContactAndFaultInputs : Prop :=
  (∀ s : State, s.powered = true → s.pins.access = false → hasCondition s.silence.conds .access = false →
    hasCondition s.silence.mask .access = true → ∃ t, exec .accessActive s = .next t ∧
      t.pins = { s.pins with access := true } ∧ t.drive = { mode := .off, level := 0, idle := 0 } ∧
      (∀ k : Fin 8, t.channels[k] = { s.channels[k] with gate := none, damperUp := false, drop := none }) ∧
      t.silence.state = .silent ∧ t.silence.level = 15 ∧ t.silence.resumable = false ∧
      hasCondition t.silence.conds .access = true ∧ Unchanged [.pins, .drive, .channels, .silence, .trace] s t) ∧
  (∀ s : State, s.powered = true → s.pins.access = true → s.drive.mode = .off → ∃ t, exec .accessRelease s = .next t ∧
      t.pins = { s.pins with access := false } ∧ t.drive.level = s.drive.level ∧
      (s.queue ≠ [] ∨ holderTouches s = true → t.drive.mode = .charging ∧ t.drive.idle = 0) ∧
      (s.queue = [] → holderTouches s = false → t.drive = s.drive) ∧
      (∀ k : Fin 8, t.channels[k] = { s.channels[k] with
        damperUp := s.channels[k].damperUp ||
          (isPresent s k && s.channels[k].voicing.damped && liftReached s k) }) ∧
      hasCondition t.silence.conds .access = false ∧ Unchanged [.pins, .drive, .channels, .silence, .trace] s t) ∧
  (∀ s : State, s.powered = true → s.pins.chargerFault = false → exec .chargerFaultActive s = .next
    (assertCond .driveFault { s with pins := { s.pins with chargerFault := true } })) ∧
  (∀ s : State, s.powered = true → s.pins.chargerFault = true → exec .chargerFaultClear s = .next
    (clearCond .driveFault { s with pins := { s.pins with chargerFault := false } })) ∧
  (∀ s : State, s.powered = true → s.pins.coilHot = false → exec .coilHotAssert s = .next
    (assertCond .coilHot { s with pins := { s.pins with coilHot := true } })) ∧
  (∀ s : State, s.powered = true → s.pins.coilHot = true → exec .coilHotClear s = .next
    (clearCond .coilHot { s with pins := { s.pins with coilHot := false } })) ∧
  (∀ s : State, holderTouches s = true ↔ ∃ x, s.floor.holder = some x ∧ touches s x.mask = true) ∧
  (∀ (s : State) (k : Fin 8), liftReached s k = true ↔
    ∃ e ∈ s.queue, e.channel = k ∧ ∃ l, e.lift = some l ∧ reached s.time.tower l = true)

/-- What a condition asserted or cleared does to the silence state, with the announcement of an entry to SILENT to the
trace, what the hold's expiry does, and RESUME. -/
def Obligations.SilenceMoves : Prop :=
  (∀ (c : Condition) (s : State), hasCondition s.silence.conds c = false →
    (∀ d, hasCondition (assertCond c s).silence.conds d = (hasCondition s.silence.conds d || decide (d = c))) ∧
    (assertCond c s).silence.mask = s.silence.mask ∧ Unchanged [.silence, .trace] s (assertCond c s) ∧
    (assertCond c s).trace = (if s.silence.state ≠ .silent ∧ (assertCond c s).silence.state = .silent
      then silentTrigger s else s).trace ∧
    (hasCondition s.silence.mask c = false →
      (assertCond c s).silence.state = s.silence.state ∧ (assertCond c s).silence.level = s.silence.level ∧
      (assertCond c s).trace = s.trace) ∧
    (hasCondition s.silence.mask c = true →
      (c.hard = true ∨ s.silence.state = .holding ∨ (s.silence.state = .voiced ∧ s.queue = []) →
        (assertCond c s).silence.state = .silent ∧ (assertCond c s).silence.level = 15 ∧
        (assertCond c s).silence.resumable = false) ∧
      (c.hard = false → s.silence.state = .voiced → s.queue ≠ [] →
        (assertCond c s).silence.state = .fading ∧ (assertCond c s).silence.level = 1 ∧
        (assertCond c s).silence.fadeCount = 0) ∧
      (c.hard = false → s.silence.state = .fading →
        (assertCond c s).silence.state = .fading ∧ (assertCond c s).silence.level = s.silence.level) ∧
      (c.hard = false → s.silence.state = .silent →
        (assertCond c s).silence.state = .silent ∧ (assertCond c s).silence.resumable = false))) ∧
  (∀ (c : Condition) (s : State), hasCondition s.silence.conds c = true →
    (∀ d, hasCondition (clearCond c s).silence.conds d = (hasCondition s.silence.conds d && !decide (d = c))) ∧
    (clearCond c s).silence.mask = s.silence.mask ∧ Unchanged [.silence, .trace] s (clearCond c s) ∧
    (clearCond c s).trace = (if s.silence.state ≠ .silent ∧ (clearCond c s).silence.state = .silent
      then silentTrigger s else s).trace ∧
    (hasCondition s.silence.mask c = false ∨ enabledActive (clearCond c s).silence ≠ 0 ∨
      s.silence.state = .voiced ∨ s.silence.state = .holding →
      (clearCond c s).silence.state = s.silence.state ∧ (clearCond c s).silence.level = s.silence.level) ∧
    (hasCondition s.silence.mask c = true → enabledActive (clearCond c s).silence = 0 →
      s.silence.state = .fading ∨ s.silence.state = .silent →
      (s.settings.resume = .manual → (clearCond c s).silence.state = .silent ∧
        (clearCond c s).silence.level = 15 ∧ (clearCond c s).silence.resumable = true) ∧
      (s.settings.resume = .auto → s.settings.holdTime ≠ 0 → (clearCond c s).silence.state = .holding ∧
        (clearCond c s).silence.level = 15 ∧ (clearCond c s).silence.hold = 0) ∧
      (s.settings.resume = .auto → s.settings.holdTime = 0 → (clearCond c s).silence.state = .voiced ∧
        (clearCond c s).silence.level = 0))) ∧
  (∀ s : State, s.powered = true → s.silence.state = .holding → s.settings.holdTime ≤ s.silence.hold →
    exec .holdExpiry s = .next { s with silence := { s.silence with
      state := .voiced, level := 0, fadeCount := 0, resumable := false, hold := 0 } }) ∧
  (∀ (h : Service) (s : State), s.powered = true → targeted s h = true →
    (enabledActive s.silence ≠ 0 → exec (.resume h) s = .next (reply h 3 .busy .none (acknowledge s))) ∧
    (enabledActive s.silence = 0 →
      s.silence.state = .holding ∨ (s.silence.state = .silent ∧ s.silence.resumable = true) →
      exec (.resume h) s = .next (reply h 3 .done .none { acknowledge s with silence := { s.silence with
        state := .voiced, level := 0, fadeCount := 0, resumable := false, hold := 0 } })) ∧
    (enabledActive s.silence = 0 → s.silence.state = .voiced →
      exec (.resume h) s = .next (reply h 3 .done .none (acknowledge s))))

/-- A CLAIM heard, by the first case that applies: a VACANT record accepts it; the holder's own refreshes it; the same
tune at nearly the same start is a duplicate; a higher priority preempts, purging the old holder's entries from the
cut-off on and a performance fading already, and nothing else; anything else is refused. The notices go to
the Conductor only for the node's own performance, and only after the record is written. The order of the two notices
of a preemption is the model's own choice (notes/assumptions/20.md). -/
def Obligations.ClaimResult : Prop :=
  ∀ (rx : Heard) (pr : Priority) (b : FloorBody) (p : PerfId) (s : State), s.powered = true →
    p = { station := rx.sender, seq := b.seq } →
    (s.floor.holder = none → ∃ u,
      exec (.claim rx pr b) s = .next (giveNotices (ownNotice s p (.accepted b.seq)) u) ∧
      u.floor.fading = none ∧ u.floor.holder = some
        { perf := p, priority := pr, tag := b.tag, start := b.start.toNat, mask := b.mask
          lastBeacon := rx.stamp.count } ∧
      (∀ e, e ∈ u.queue ↔ e ∈ s.queue ∧ e.owner ≠ .test ∧
        ∀ f, s.floor.fading = some f → e.owner ≠ .perf f.perf) ∧
      (touches s b.mask = true → s.pins.access = false → bankUp u.drive.mode = true ∧ u.drive.idle = 0) ∧
      Unchanged removal (acknowledge s) u) ∧
    (∀ x, s.floor.holder = some x → x.perf = p →
      exec (.claim rx pr b) s = .next (giveNotices (ownNotice s p (.accepted b.seq))
        { acknowledge s with floor := { s.floor with
          holder := some { x with start := b.start.toNat, lastBeacon := rx.stamp.count } } })) ∧
    (∀ x, s.floor.holder = some x → x.perf ≠ p →
      (x.tag = b.tag ∧ (Machine.dist b.start.toNat x.start).natAbs ≤ 8000 →
        exec (.claim rx pr b) s = .next (giveNotices (ownNotice s p (.duplicate b.seq)) (acknowledge s))) ∧
      (¬(x.tag = b.tag ∧ (Machine.dist b.start.toNat x.start).natAbs ≤ 8000) →
        (pr.level ≤ x.priority.level → exec (.claim rx pr b) s = .next
          (giveNotices (ownNotice s p (.refused b.seq rx.stamp.count)) (acknowledge s))) ∧
        (x.priority.level < pr.level → ∃ u, exec (.claim rx pr b) s = .next (giveNotices
            (ownNotice s x.perf (.preempted x.perf.seq) ++ ownNotice s p (.accepted b.seq)) u) ∧
          u.floor.holder = some { perf := p, priority := pr, tag := b.tag, start := b.start.toNat, mask := b.mask
                                  lastBeacon := rx.stamp.count } ∧
          ((∃ e ∈ u.queue, e.owner = .perf x.perf) → u.floor.fading = some
            { perf := x.perf, priority := x.priority, reduction := 1, launches := 0
              cutoff := some (minus b.start.toNat 4000) }) ∧
          ((∀ e ∈ u.queue, e.owner ≠ .perf x.perf) → u.floor.fading = none) ∧
          (∀ e, e ∈ u.queue ↔ e ∈ s.queue ∧
            (e.owner = .perf x.perf → isBefore e.impact (minus b.start.toNat 4000) = true) ∧
            ∀ f, s.floor.fading = some f → e.owner ≠ .perf f.perf) ∧
          (touches s b.mask = true → s.pins.access = false → bankUp u.drive.mode = true ∧ u.drive.idle = 0) ∧
          Raised .floorPreemptions s u ∧ Unchanged removal (acknowledge s) u)))

/-- A FLOOR beacon naming the holder's performance refreshes the holder: its start and its last beacon, and nothing
else, with no purge, no wake and no notice. -/
def Obligations.FloorBeaconRefreshesHolder : Prop :=
  ∀ (rx : Heard) (pr : Priority) (b : FloorBody) (x : Holder) (s : State), s.powered = true →
    s.floor.holder = some x → x.perf = { station := rx.sender, seq := b.seq } →
    exec (.floor rx pr b) s = .next { acknowledge s with floor := { s.floor with
      holder := some { x with start := b.start.toNat, lastBeacon := rx.stamp.count } } }

/-- A FLOOR beacon of another performance: a VACANT record adopts it, with the purges and the wake of an acceptance; a
HELD one is contested, by priority, then the earlier start, then the lower station; the winner replaces the holder,
whose entries are purged, the loser is told, and a performance fading stays so unless it is the winner. The order of the
two notices, that a contest between two of the node's own performances gives both, and that a winner that was fading is
purged first, are the model's own choice (notes/assumptions/19.md, notes/assumptions/20.md, notes/assumptions/38.md). -/
def Obligations.FloorBeaconAdoptedOrContested : Prop :=
  ∀ (rx : Heard) (pr : Priority) (b : FloorBody) (p : PerfId) (n : Holder) (s : State), s.powered = true →
    p = { station := rx.sender, seq := b.seq } →
    n = { perf := p, priority := pr, tag := b.tag, start := b.start.toNat, mask := b.mask
          lastBeacon := rx.stamp.count } →
    (s.floor.holder = none → ∃ u,
      exec (.floor rx pr b) s = .next (giveNotices (ownNotice s p (.adopted b.seq)) u) ∧
      u.floor = { fading := none, holder := some n } ∧
      (∀ e, e ∈ u.queue ↔ e ∈ s.queue ∧ e.owner ≠ .test ∧
        ∀ f, s.floor.fading = some f → e.owner ≠ .perf f.perf) ∧
      (touches s b.mask = true → s.pins.access = false → bankUp u.drive.mode = true ∧ u.drive.idle = 0) ∧
      Unchanged removal (acknowledge s) u) ∧
    (∀ x, s.floor.holder = some x → x.perf ≠ p →
      (x.priority.level < pr.level ∨ (x.priority = pr ∧ (isBefore b.start.toNat x.start = true ∨
          (isBefore x.start b.start.toNat = false ∧ isBefore b.start.toNat x.start = false ∧
            rx.sender < x.perf.station))) →
        ∃ u, exec (.floor rx pr b) s = .next (giveNotices
            (ownNotice s x.perf (.contested x.perf.seq) ++ ownNotice s p (.adopted b.seq)) u) ∧
          u.floor.holder = some n ∧
          (∀ e, e ∈ u.queue ↔ e ∈ s.queue ∧ e.owner ≠ .perf x.perf ∧
            ∀ f, s.floor.fading = some f → f.perf = p → e.owner ≠ .perf p) ∧
          (s.floor.fading = none → u.floor.fading = none) ∧
          (∀ f, s.floor.fading = some f → f.perf = p → u.floor.fading = none) ∧
          (∀ f, s.floor.fading = some f → f.perf ≠ p → f.perf ≠ x.perf → u.floor.fading = some f) ∧
          (touches s b.mask = true → s.pins.access = false → bankUp u.drive.mode = true ∧ u.drive.idle = 0) ∧
          Raised .floorContests s u ∧ Unchanged removal (acknowledge s) u) ∧
      (pr.level < x.priority.level ∨ (x.priority = pr ∧ isBefore b.start.toNat x.start = false ∧
          (isBefore x.start b.start.toNat = true ∨ x.perf.station ≤ rx.sender)) →
        exec (.floor rx pr b) s = .next (giveNotices (ownNotice s p (.contested b.seq)) (acknowledge s))))

/-- A RELEASE of the holder, and the holder's lapse 14,000 local ticks after its last beacon, leave the record VACANT
and the performance fading with reduction 0 as long as it has entries; with a performance fading already, the holder's
entries are purged, no others, and that performance fades on as it was. A RELEASE of another performance does nothing.
The order of the two notices of a lapse is the model's own choice (notes/assumptions/20.md). -/
def Obligations.ReleaseAndLapse : Prop :=
  (∀ (rx : Heard) (seq : BitVec 8) (r : ReleaseReason) (p : PerfId) (s : State), s.powered = true →
    p = { station := rx.sender, seq := seq } →
    ((∀ x, s.floor.holder = some x → x.perf ≠ p) → exec (.release rx seq r) s = .next (acknowledge s)) ∧
    (∀ x, s.floor.holder = some x → x.perf = p →
      exec (.release rx seq r) s = .next (giveNotices [.vacant] (vacate x (acknowledge s))))) ∧
  (∀ (x : Holder) (s : State), s.powered = true → s.floor.holder = some x →
    14000 ≤ ticksSince s.time.count x.lastBeacon → ∃ u,
      exec .lapse s = .next (giveNotices (ownNotice s x.perf (.lapsed x.perf.seq) ++ [.vacant]) u) ∧
      u = raise .floorLapses (vacate x s)) ∧
  (∀ (x : Holder) (s : State), s.floor.holder = some x →
    (vacate x s).floor.holder = none ∧ Unchanged removal s (vacate x s) ∧
    (s.floor.fading = none → (vacate x s).queue = s.queue ∧
      ((∃ e ∈ s.queue, e.owner = .perf x.perf) → (vacate x s).floor.fading = some
        { perf := x.perf, priority := x.priority, reduction := 0, launches := 0, cutoff := none }) ∧
      ((∀ e ∈ s.queue, e.owner ≠ .perf x.perf) → (vacate x s).floor.fading = none)) ∧
    (∀ f, s.floor.fading = some f →
      (∀ e, e ∈ (vacate x s).queue ↔ e ∈ s.queue ∧ e.owner ≠ .perf x.perf) ∧
      (f.perf ≠ x.perf → (vacate x s).floor.fading = some f)))

/-- A STOP of one performance purges its entries and no others, whether it holds the floor or fades, and the floor
falls VACANT when it held it; a STOP of the floor purges holder, fading performance and TEST entries. Either answers
with the record's state after it, and every node acts on it. The order of its notices is the model's own choice
(notes/assumptions/20.md). -/
def Obligations.StopResult : Prop :=
  (∀ (h : Service) (p : PerfId) (s : State), s.powered = true → ∃ u v,
    exec (.stopPerformance h p) s = .next (reply h 2 .done (.stop v.floor.holder.isSome) v) ∧
    v = giveNotices (ownNotice s p (.stopped p.seq) ++ vacantNotice s u) u ∧ v.floor = u.floor ∧
    ((∃ x, s.floor.holder = some x ∧ x.perf = p) → u.floor.holder = none ∧
      (s.floor.fading = none → u.floor.fading = none) ∧
      (∀ f, s.floor.fading = some f → f.perf ≠ p → u.floor.fading = some f) ∧
      ∀ e, e ∈ u.queue ↔ e ∈ s.queue ∧ e.owner ≠ .perf p) ∧
    ((∀ x, s.floor.holder = some x → x.perf ≠ p) → (∃ f, s.floor.fading = some f ∧ f.perf = p) →
      u.floor = { s.floor with fading := none } ∧ ∀ e, e ∈ u.queue ↔ e ∈ s.queue ∧ e.owner ≠ .perf p) ∧
    ((∀ x, s.floor.holder = some x → x.perf ≠ p) → (∀ f, s.floor.fading = some f → f.perf ≠ p) →
      u = acknowledge s) ∧ Unchanged removal (acknowledge s) u) ∧
  (∀ (h : Service) (s : State), s.powered = true → ∃ u v,
    exec (.stopFloor h) s = .next (reply h 2 .done (.stop false) v) ∧
    v = giveNotices (ownOnFloor s ++ (if s.floor.holder.isSome then [.vacant] else [])) u ∧
    u.floor = { holder := none, fading := none } ∧
    (∀ e, e ∈ u.queue ↔ e ∈ s.queue ∧ e.owner ≠ .test ∧
      (∀ x, s.floor.holder = some x → e.owner ≠ .perf x.perf) ∧
      (∀ f, s.floor.fading = some f → e.owner ≠ .perf f.perf)) ∧
    Unchanged removal (acknowledge s) u)

/-- The ensemble gate: under ALL every needed bell has a ready owner, under ANY at least one, and an empty mask passes
either; a bell has a ready owner when a LIVE node, this one by its present values included, announces it, holds it
playable, is READY and VOICED. -/
def Obligations.EnsembleGateRule : Prop :=
  ∀ (s : State) (mask : BellMask),
    (gatePasses s .all mask = true ↔
      ∀ bell, 1 ≤ bell → bell ≤ 64 → maskHas mask bell = true → hasReadyOwner s bell = true) ∧
    (gatePasses s .any mask = true ↔ mask = 0 ∨
      ∃ bell, 1 ≤ bell ∧ bell ≤ 64 ∧ maskHas mask bell = true ∧ hasReadyOwner s bell = true) ∧
    (∀ bell, hasReadyOwner s bell = true ↔ ∃ (st : Fin 16) (i : PeerInfo) (b : NodeBeacon),
      peerRecord s st = .live i ∧ i.body = .node b ∧
      b.bellBase.toNat + 1 ≤ bell ∧ bell ≤ b.bellBase.toNat + 1 + b.count.toNat ∧
      b.playable.getLsbD (bell - (b.bellBase.toNat + 1)) = true ∧ b.drive = .ready ∧ b.silence = .voiced) ∧
    (s.listen = none → ∃ i, peerRecord s s.straps.station = .live i ∧ i.body = .node (ownBeacon s)) ∧
    (∀ c, s.listen = some c → peerRecord s s.straps.station = .absent) ∧
    (∀ st : Fin 16, st ≠ s.straps.station → peerRecord s st = s.peers[st])

/-- What each notice of the Floor Tracker does to the slot of the performance it names, and where it has no effect; a
preempted slot hands its RELEASE, a retry included; a slot that takes the floor with its gate due evaluates it at
once, and a floor taken for no slot is released. That a deadline is reached when it lies within half the range of the
count behind it, and which of two starts half a week apart is the later, are the model's own choices
(notes/assumptions/45.md, notes/assumptions/57.md). -/
def Obligations.NoticesReachTheSlot : Prop :=
  (∀ (seq : BitVec 8) (n : Notice) (s : State), n = .accepted seq ∨ n = .adopted seq → slotOfSeq s seq = none →
    onNotice n s = (handFrame { frame := .release seq .abandoned, origin := .conductor } s).1) ∧
  (∀ (seq : BitVec 8) (stamp : LocalCount) (n : Notice) (s : State), slotOfSeq s seq = none →
    n ∈ [.refused seq stamp, .duplicate seq, .preempted seq, .contested seq, .lapsed seq, .stopped seq] →
    onNotice n s = s) ∧
  ∀ (seq : BitVec 8) (k : Fin 4) (p : Perf) (s : State), slotOfSeq s seq = some k →
    s.conductor.slots[k] = .active p →
    (∀ n, n = .accepted seq ∨ n = .adopted seq →
      (p.phase.holds = true → onNotice n s = s) ∧
      (p.phase.holds = false → isBefore s.time.tower (minus p.start 4000) = true →
        onNotice n s = setSlot k (.active { p with phase := .gathering, beaconTimer := 0 }) s) ∧
      (p.phase.holds = false → s.powered = true → exec (.ensembleGate k)
        (setSlot k (.active { p with phase := .gathering, beaconTimer := 0 }) s) = .next (onNotice n s))) ∧
    (∀ stamp, p.phase = .claiming →
      (p.deadline = none → onNotice (.refused seq stamp) s = setSlot k (.active { p with
        phase := .waiting, deadline := some (stamp + BitVec.ofNat 32 s.settings.claimWait) }) s) ∧
      (∀ d, p.deadline = some d → countReached s.time.count d = false →
        onNotice (.refused seq stamp) s = setSlot k (.active { p with phase := .waiting, deadline := some d }) s) ∧
      (∀ d, p.deadline = some d → countReached s.time.count d = true →
        onNotice (.refused seq stamp) s = endPerf k p .abandoned s) ∧
      onNotice (.duplicate seq) s = endPerf k p .duplicate s) ∧
    (p.phase ≠ .claiming →
      (∀ stamp, onNotice (.refused seq stamp) s = s) ∧ onNotice (.duplicate seq) s = s) ∧
    (p.phase.holds = false → onNotice (.preempted seq) s = s ∧ onNotice (.contested seq) s = s ∧
      onNotice (.lapsed seq) s = s) ∧
    (p.phase.holds = true → p.retry = true → p.phase ≠ .ending → ∃ (n : BitVec 8) (q : Perf),
      (onNotice (.preempted seq) s).conductor.slots[k] = .active q ∧
      (onNotice (.preempted seq) s).conductor.sequence = n + 1 ∧ q.seq = n ∧ q.phase = .preroll ∧
      q.slot = p.slot ∧ q.priority = p.priority ∧ q.start = plus s.time.tower 8000 ∧ q.cueTime = q.start ∧
      q.claimTime = s.time.tower ∧ q.cursor = 0 ∧ q.sent = 0 ∧ q.lost = 0 ∧ q.postponed = 0 ∧
      q.deadline = none ∧ Raised .perfPreempted s (onNotice (.preempted seq) s) ∧
      (txCount s < 8 → Joined s { frame := .release p.seq .preempted, origin := .slot k }
        s.line.queue (onNotice (.preempted seq) s).line.queue) ∧
      (onNotice (.preempted seq) s).library = s.library ∧ Unchanged ending s (onNotice (.preempted seq) s)) ∧
    (p.phase.holds = true → p.retry = false ∨ p.phase = .ending →
      onNotice (.preempted seq) s = endPerf k p .preempted s) ∧
    (p.phase.holds = true → onNotice (.contested seq) s = endPerf k p .contested s ∧
      onNotice (.lapsed seq) s = endPerf k p .abandoned s) ∧
    onNotice (.stopped seq) s = endPerf k p .stopped s ∧
    (p.phase = .waiting → (onNotice .vacant s).conductor.slots[k] = .active { p with
      phase := .preroll, start := later p.start (plus s.time.tower 8000), claimTime := s.time.tower }) ∧
    (p.phase ≠ .waiting → (onNotice .vacant s).conductor.slots[k] = .active p) ∧
    Unchanged [.conductor] s (onNotice .vacant s)

/-- A slot hands its CLAIM when its claim time is reached and the queue can take it, a lower-numbered slot with the same
claim time first, and a FLOOR beacon every 4000 local ticks while it holds the floor. That a command whose moment has
not come changes nothing, and that slots of one claim time take turns at every offer, are the model's own
(notes/assumptions/2.md, notes/assumptions/49.md). -/
def Obligations.ClaimAndBeaconHanded : Prop :=
  ∀ (k : Fin 4) (p : Perf) (s : State), s.powered = true → s.conductor.slots[k] = .active p →
    (p.phase = .preroll → reached s.time.tower p.claimTime = true →
      txCanTake s (.claim p.priority { seq := p.seq, tag := p.tag, start := BitVec.ofNat 32 p.start, mask := p.mask })
        = true →
      (∀ (j : Fin 4) (q : Perf), j < k → s.conductor.slots[j] = .active q → q.phase = .preroll →
        q.claimTime = p.claimTime → txCanTake s (.claim q.priority
          { seq := q.seq, tag := q.tag, start := BitVec.ofNat 32 q.start, mask := q.mask }) = false) →
      ∃ t q, exec (.claimHandoff k) s = .next t ∧ t.conductor.slots[k] = .active q ∧
        q.phase = .claiming ∧ q.seq = p.seq ∧ q.start = p.start ∧
        { frame := .claim p.priority
            { seq := p.seq, tag := p.tag, start := BitVec.ofNat 32 p.start, mask := p.mask }
          origin := .slot k } ∈ t.line.queue ∧
        Unchanged handed s t) ∧
    (p.phase ≠ .preroll ∨ reached s.time.tower p.claimTime = false → exec (.claimHandoff k) s = .next s) ∧
    (∀ (j : Fin 4) (q : Perf), j < k → s.conductor.slots[j] = .active q → q.phase = .preroll →
      q.claimTime = p.claimTime → txCanTake s (.claim q.priority
        { seq := q.seq, tag := q.tag, start := BitVec.ofNat 32 q.start, mask := q.mask }) = true →
      exec (.claimHandoff k) s = .next s) ∧
    (p.phase.holds = true → 4000 ≤ p.beaconTimer → exec (.floorBeaconDue k) s = .next (handFrame
      { frame := .floor p.priority
          { seq := p.seq, tag := p.tag, start := BitVec.ofNat 32 p.start, mask := p.mask }
        origin := .slot k } (setSlot k (.active { p with beaconTimer := 0 }) s)).1) ∧
    (p.phase.holds = false ∨ p.beaconTimer < 4000 → exec (.floorBeaconDue k) s = .next s)

/-- A wait that reaches its deadline ends ABANDONED; a performance that has rung out hands its RELEASE and ends
COMPLETED or LOST_ORDERS; what every end of a slot brings, with the reason of its RELEASE for each outcome. That the
outcome is read after the RELEASE is handed, and that a deadline is reached when it lies within half the range of the
count behind it, are the model's own choices (notes/assumptions/31.md, notes/assumptions/45.md). -/
def Obligations.SlotEndings : Prop :=
  (∀ (k : Fin 4) (p : Perf) (d : LocalCount) (s : State), s.powered = true → s.conductor.slots[k] = .active p →
    p.phase = .waiting → p.deadline = some d → countReached s.time.count d = true →
    exec (.waitDeadline k) s = .next (endPerf k p .abandoned s)) ∧
  (∀ (k : Fin 4) (p : Perf) (s : State), s.powered = true → s.conductor.slots[k] = .active p →
    p.phase = .ending → reached s.time.tower (plus (lastImpact s p) 8000) = true →
    ∃ t o, exec (.performanceEnd k) s = .next t ∧ t.conductor.slots[k] = .ended p.seq o ∧
      (o = .completed ∨ o = .lostOrders) ∧ Raised (perfCounter o) s t ∧ Unchanged ending s t ∧
      t.library = { s.library with locks := s.library.locks.set p.slot (s.library.locks[p.slot] - 1) } ∧
      (∀ c : Fin 2, t.calendar.contacts[c] = { s.calendar.contacts[c] with
        busy := s.calendar.contacts[c].busy && !decide (s.calendar.contacts[c].slot = some k) }) ∧
      (txCount s < 8 → o = (if p.lost = 0 then .completed else .lostOrders) ∧
        Joined s { frame := .release p.seq .ended, origin := .slot k } s.line.queue t.line.queue)) ∧
  (∀ (k : Fin 4) (p : Perf) (o : PerfOutcome) (s : State),
    (endPerf k p o s).conductor.slots[k] = .ended p.seq o ∧ Raised (perfCounter o) s (endPerf k p o s) ∧
    (endPerf k p o s).library = { s.library with
      locks := s.library.locks.set p.slot (s.library.locks[p.slot] - 1) } ∧
    (∀ c : Fin 2, (endPerf k p o s).calendar.contacts[c] =
      { s.calendar.contacts[c] with
        busy := s.calendar.contacts[c].busy && !decide (s.calendar.contacts[c].slot = some k) }) ∧
    (p.phase.holds = true → txCount s < 8 →
      Joined s { frame := .release p.seq (releaseReasonOf o), origin := .slot k }
        s.line.queue (endPerf k p o s).line.queue) ∧
    (p.phase.holds = false → (endPerf k p o s).line = s.line) ∧ Unchanged ending s (endPerf k p o s)) ∧
  releaseReasonOf .completed = .ended ∧ releaseReasonOf .lostOrders = .ended ∧
  releaseReasonOf .preempted = .preempted ∧ releaseReasonOf .abandoned = .abandoned ∧
  releaseReasonOf .contested = .contested ∧ releaseReasonOf .stopped = .abandoned ∧
  ∀ p : Phase, p.holds = true ↔ p = .gathering ∨ p = .playing ∨ p = .ending

/-- The gate's evaluation at 4000 ticks before the start: PLAYING when it passes, and the slot builds at once;
otherwise the start moves by 8000 and is announced, as long as the claim wait limit allows; otherwise the slot ends
ABANDONED. That a command whose moment has not come changes nothing is the model's own choice
(notes/assumptions/2.md). -/
def Obligations.EnsembleGateEvaluated : Prop :=
  ∀ (k : Fin 4) (p : Perf) (s : State), s.powered = true → s.conductor.slots[k] = .active p →
    (p.phase ≠ .gathering ∨ reached s.time.tower (minus p.start 4000) = false →
      exec (.ensembleGate k) s = .next s) ∧
    (p.phase = .gathering → reached s.time.tower (minus p.start 4000) = true →
      (gatePasses s p.rule p.mask = true → ∃ t q, exec (.ensembleGate k) s = .next t ∧
        t.conductor.slots[k] = .active q ∧ (q.phase = .playing ∨ q.phase = .ending) ∧ q.seq = p.seq ∧
        q.start = p.start ∧ t = build k (setSlot k (.active { p with phase := .playing }) s) ∧ Unchanged handed s t) ∧
      (gatePasses s p.rule p.mask = false → p.postponed + 8000 ≤ s.settings.claimWait →
        exec (.ensembleGate k) s = .next (handFrame
          { frame := .floor p.priority
              { seq := p.seq, tag := p.tag, start := BitVec.ofNat 32 (plus p.start 8000), mask := p.mask }
            origin := .slot k }
          (setSlot k (.active { p with
            postponed := p.postponed + 8000, start := plus p.start 8000, beaconTimer := 0 }) s)).1) ∧
      (gatePasses s p.rule p.mask = false → s.settings.claimWait < p.postponed + 8000 →
        exec (.ensembleGate k) s = .next (endPerf k p .abandoned s)))

/-- A slot in PLAYING builds, at its entry as at every later occasion: an event beyond the lookahead waits, one no more
than 1000 ticks ahead is skipped and counted and the build goes on, one between them goes out with up to two more in an
ORDER and the build goes on, and after the last the slot is ENDING. A frame packs one to three orders within 255 ticks
of its first. A refused frame leaves the cursor where it was and the slot held: it builds again when a frame has left
the queue or the queue has room. The events of a loaded tune come from its deltas and its tempo, those of a resident
tune from the settings. That a loaded part no longer VALID gives no event, the marks of a held slot, and that a command
whose moment has not come changes nothing, are the model's own (notes/assumptions/2.md, notes/assumptions/24.md,
notes/assumptions/30.md). -/
def Obligations.OrdersBuilt : Prop :=
  (∀ (k : Fin 4) (p : Perf) (s : State), s.powered = true → s.conductor.slots[k] = .active p →
    p.phase = .playing → buildDue s p = true → exec (.orderBuild k) s = .next (build k s)) ∧
  (∀ (k : Fin 4) (p : Perf) (s : State), s.conductor.slots[k] = .active p → p.phase = .playing →
    (notesFrom (perfEvents s p) p.cursor = [] → build k s = setSlot k (.active { p with
      cursor := (perfEvents s p).length, phase := .ending, refused := false, chance := false }) s) ∧
    (∀ x rest, notesFrom (perfEvents s p) p.cursor = x :: rest →
      s.settings.lookahead < Machine.dist (plus p.start x.2.1) s.time.tower →
      build k s = setSlot k (.active { p with cursor := x.1, refused := false, chance := false }) s) ∧
    (∀ x rest, notesFrom (perfEvents s p) p.cursor = x :: rest →
      Machine.dist (plus p.start x.2.1) s.time.tower ≤ s.settings.lookahead →
      (Machine.dist (plus p.start x.2.1) s.time.tower ≤ 1000 →
        build k s = build k (raise .lateSend (setSlot k (.active { p with
          cursor := x.1 + 1, lost := min 65535 (p.lost + 1), refused := false, chance := false }) s)) ∧
        (rest = [] → ∃ t, build k s = t ∧ t.conductor.slots[k] = .active { p with
            cursor := (perfEvents s p).length, lost := min 65535 (p.lost + 1), phase := .ending
            refused := false, chance := false } ∧
          Raised .lateSend s t ∧ Unchanged [.conductor, .counters] s t)) ∧
      (1000 < Machine.dist (plus p.start x.2.1) s.time.tower → ∀ (f : TxFrame) (y : Nat × Nat × NoteOrder) (u v : State),
        f = { frame := .order p.seq (BitVec.ofNat 32 (plus p.start x.2.1)) ((packNotes x rest).map fun z =>
                { bell := BitVec.ofNat 6 (z.2.2.bell - 1), velocity := BitVec.ofNat 4 z.2.2.velocity
                  offset := BitVec.ofNat 8 (z.2.1 - x.2.1), duration := BitVec.ofNat 10 z.2.2.duration })
              origin := .slot k } →
        (packNotes x rest).getLast? = some y →
        u = setSlot k (.active { p with cursor := x.1, refused := false, chance := false }) s →
        v = (handFrame f u).1 →
        (∀ q, (handFrame f u).2 = true → v.conductor.slots[k] = .active q →
          build k s = build k (setSlot k (.active { q with
            cursor := y.1 + 1, sent := min 65535 (q.sent + (packNotes x rest).length), chance := false }) v)) ∧
        (∀ q, (handFrame f u).2 = false → v.conductor.slots[k] = .active q →
          build k s = setSlot k (.active { q with refused := true, chance := false }) v ∧ q.cursor = x.1) ∧
        (txCount s < 8 → packNotes x rest = x :: rest → ∃ t, build k s = t ∧
          t.conductor.slots[k] = .active { p with
            cursor := (perfEvents s p).length, sent := min 65535 (p.sent + (rest.length + 1)), phase := .ending
            refused := false, chance := false } ∧
          Joined s f s.line.queue t.line.queue ∧ Unchanged [.conductor, .line] s t)))) ∧
  (∀ (x : Nat × Nat × NoteOrder) (rest : List (Nat × Nat × NoteOrder)),
    1 ≤ (packNotes x rest).length ∧ (packNotes x rest).length ≤ 3 ∧
    packNotes x rest <+: x :: rest ∧ (∀ y ∈ packNotes x rest, y = x ∨ y.2.1 ≤ x.2.1 + 255) ∧
    ∀ y post, x :: rest = packNotes x rest ++ y :: post →
      (packNotes x rest).length = 3 ∨ x.2.1 + 255 < y.2.1) ∧
  (∀ (s : State) (p : Perf),
    (p.phase ≠ .playing → buildDue s p = false) ∧
    (p.phase = .playing → p.refused = true → buildDue s p = (p.chance || decide (txCount s < 8))) ∧
    (p.phase = .playing → p.refused = false → ∀ e, (perfEvents s p)[p.cursor]? = some e →
      buildDue s p = decide (Machine.dist (plus p.start e.offset) s.time.tower ≤ s.settings.lookahead))) ∧
  (∀ (k : Fin 4) (p : Perf) (s : State), s.powered = true → s.conductor.slots[k] = .active p →
    buildDue s p = false → exec (.orderBuild k) s = .next s) ∧
  (∀ (o : Origin) (k : Fin 4) (p : Perf) (s : State), s.conductor.slots[k] = .active p →
    (frameGone o s).conductor.slots[k] = .active { p with chance := true }) ∧
  (∀ (s : State) (p : Perf) (notes : List Note), p.source = .resident notes → perfEvents s p = notes.map fun n =>
    { offset := n.offset, note := some { bell := n.bell, velocity := n.velocity, duration := 0 } }) ∧
  (∀ (s : State) (p : Perf), p.source = .loaded →
    (∀ hd mask events, s.library.parts[p.slot] = .valid hd mask events →
      (perfEvents s p).length = events.length ∧
      ∀ (i : Nat) (e : TuneEvent), events[i]? = some e → (perfEvents s p)[i]? = some {
        offset := ((events.take (i + 1)).map TuneEvent.delta).sum * hd.tempo
        note := if e.bell = 0 then none else some {
          bell := e.bell
          velocity := e.velocity
          duration := if e.duration = 0 then 0 else min 1023 ((e.duration * hd.tempo + 15) / 16) } }) ∧
    ((∀ hd mask events, s.library.parts[p.slot] ≠ .valid hd mask events) → perfEvents s p = [])) ∧
  (∀ (s : State) (p : Perf) (e : Sched), (perfEvents s p).getLast? = some e →
    lastImpact s p = plus p.start e.offset) ∧
  (∀ (events : List Sched) (c : Nat) (x : Nat × Nat × NoteOrder), x ∈ notesFrom events c ↔ c ≤ x.1 ∧
    ∃ e, events[x.1]? = some e ∧ e.offset = x.2.1 ∧ e.note = some x.2.2) ∧
  (∀ (x : Settings) (cue : Nat) (n : Fin 6),
    (residentTune x cue n).tag = 0xFFFF00#24 + BitVec.ofNat 24 n.val ∧ (residentTune x cue n).rule = .any ∧
    (residentTune x cue n).retry = false ∧
    (residentTune x cue n).priority = (if n.val = 0 then .hour else if n.val = 5 then .low else .melody) ∧
    ∃ notes, (residentTune x cue n).source = .resident notes ∧
      notes.length = (if n.val = 0 then (cue % 345600000 / 14400000 + 11) % 12 + 1
        else if n.val = 5 then 64 else 4 * n.val) ∧
      ∀ i, i < notes.length → notes[i]? = some
        (if n.val = 0 then { offset := i * x.hourInterval, bell := x.hourBell, velocity := 12 }
        else if n.val = 5 then { offset := 1200 * i, bell := i + 1, velocity := 8 }
        else { offset := 2400 * i + 2400 * (i / 4), velocity := 10
               bell := match [1, 2, 3, 4, 4, 2, 3, 1, 2, 4, 1, 3, 3, 1, 4, 2][i]? with
                 | some 1 => x.quarter1
                 | some 2 => x.quarter2
                 | some 3 => x.quarter3
                 | _ => x.quarter4 })) ∧
  (∀ (x : Settings) (cue bell : Nat), 1 ≤ bell → bell ≤ 64 →
    (∀ b ∈ [x.hourBell, x.quarter1, x.quarter2, x.quarter3, x.quarter4], 1 ≤ b ∧ b ≤ 64) →
    (maskHas (residentTune x cue 0).mask bell = true ↔ bell = x.hourBell) ∧
    maskHas (residentTune x cue 5).mask bell = true ∧
    (∀ n : Fin 6, 1 ≤ n.val → n.val ≤ 4 → (maskHas (residentTune x cue n).mask bell = true ↔
      bell ∈ [x.quarter1, x.quarter2, x.quarter3, x.quarter4])))

/-- A cue takes the lowest-numbered free slot, a new sequence and a lock on its tune: from a console by CUE, from a
press of a play contact at LOW, 8000 ticks ahead. The refusals of both, the tune a slot resolves to, and the release
of a contact. That a press whose tune is missing leaves its contact free, with the slot recorded, and that a start
past by more than half a week less 8000 ticks is not moved, are the model's own readings (notes/assumptions/37.md,
notes/assumptions/54.md). -/
def Obligations.CueResult : Prop :=
  (∀ (h : Service) (slot priority : BitVec 8) (start : BitVec 32) (n : Fin 32) (s : State), s.powered = true →
    targeted s h = true →
    (cueRefused s slot.toNat priority.toNat start.toNat = true →
      exec (.cue h slot priority start) s = .next (reply h 1 .range .none (acknowledge s))) ∧
    (cueRefused s slot.toNat priority.toNat start.toNat = false → n.val = slot.toNat →
      (freeSlot s = none →
        exec (.cue h slot priority start) s = .next (reply h 1 .busy .none (acknowledge s))) ∧
      (∀ k, freeSlot s = some k → tuneInfo s n (cueStart s start.toNat) = none → ∃ u,
        exec (.cue h slot priority start) s = .next (reply h 1 .notHere (.cue (newSequence s) k) u) ∧
        u.conductor.slots[k] = .ended (newSequence s) .missingTune ∧ Raised .perfMissingTune s u ∧
        u.library = s.library) ∧
      (∀ k i, freeSlot s = some k → tuneInfo s n (cueStart s start.toNat) = some i → ∃ u q,
        exec (.cue h slot priority start) s = .next (reply h 1
          (if isBefore start.toNat (plus s.time.tower 8000) then .doneClamped else .done)
          (.cue (newSequence s) k) u) ∧
        u.conductor = { slots := s.conductor.slots.set k (.active q), sequence := newSequence s + 1 } ∧
        q.phase = .preroll ∧ q.seq = newSequence s ∧ q.slot = n ∧ q.tag = i.tag ∧ q.mask = i.mask ∧
        q.priority = (cuePriority priority.toNat).getD i.priority ∧ q.start = cueStart s start.toNat ∧
        q.cueTime = q.start ∧ q.claimTime = s.time.tower ∧ q.cursor = 0 ∧ q.lost = 0 ∧ q.postponed = 0 ∧
        u.library = { s.library with locks := s.library.locks.set n (s.library.locks[n] + 1) } ∧
        Unchanged [.conductor, .library] (acknowledge s) u))) ∧
  (∀ (c : Fin 2) (s : State), s.powered = true → contactLevel s c = false →
    ((contactMap s c).enabled = false → exec (.contactPress c) s = .next (setContact c true s)) ∧
    ((contactMap s c).enabled = true → s.calendar.contacts[c].busy = true →
      exec (.contactPress c) s = .next (raise .contactIgnored (setContact c true s))) ∧
    ((contactMap s c).enabled = true → s.calendar.contacts[c].busy = false → freeSlot s = none →
      exec (.contactPress c) s = .next (raise .slotsFull (setContact c true s))) ∧
    (∀ k i, (contactMap s c).enabled = true → s.calendar.contacts[c].busy = false → freeSlot s = some k →
      tuneInfo s (contactMap s c).slot (plus s.time.tower 8000) = some i → ∃ t q,
        exec (.contactPress c) s = .next t ∧ contactLevel t c = true ∧
        t.conductor = { slots := s.conductor.slots.set k (.active q), sequence := newSequence s + 1 } ∧
        q.phase = .preroll ∧ q.priority = .low ∧ q.start = plus s.time.tower 8000 ∧
        q.slot = (contactMap s c).slot ∧ q.seq = newSequence s ∧ q.claimTime = s.time.tower ∧
        t.library.locks = s.library.locks.set (contactMap s c).slot (s.library.locks[(contactMap s c).slot] + 1) ∧
        t.calendar = { s.calendar with contacts := s.calendar.contacts.set c { busy := true, slot := some k } } ∧
        Unchanged [.pins, .conductor, .library, .calendar] s t)) ∧
  (∀ (c : Fin 2) (k : Fin 4) (s : State), s.powered = true → contactLevel s c = false →
    (contactMap s c).enabled = true → s.calendar.contacts[c].busy = false → freeSlot s = some k →
    tuneInfo s (contactMap s c).slot (plus s.time.tower 8000) = none → ∃ t,
      exec (.contactPress c) s = .next t ∧ contactLevel t c = true ∧
      t.conductor = { slots := s.conductor.slots.set k (.ended (newSequence s) .missingTune)
                      sequence := newSequence s + 1 } ∧
      Raised .perfMissingTune s t ∧ t.calendar.contacts[c] = { busy := false, slot := some k } ∧
      (∀ d : Fin 2, d ≠ c → t.calendar.contacts[d] = { s.calendar.contacts[d] with
        busy := s.calendar.contacts[d].busy && !decide (s.calendar.contacts[d].slot = some k) }) ∧
      Unchanged [.pins, .conductor, .counters, .calendar] s t) ∧
  (∀ (s : State) (slot priority start : Nat),
    (cueRefused s slot priority start = true ↔ 31 < slot ∨ 3 < priority ∨ 2419200000 ≤ start ∨
      120000 < Machine.dist start s.time.tower) ∧
    cueStart s start = (if isBefore start (plus s.time.tower 8000) then plus s.time.tower 8000 else start)) ∧
  (∀ (s : State) (n : Fin 32) (cue : Nat),
    (s.library.overlay = false → ∀ m : Fin 6, n.val = m.val →
      tuneInfo s n cue = some (residentTune s.settings cue m)) ∧
    (s.library.overlay = false → n.val = 6 ∨ n.val = 7 → tuneInfo s n cue = none) ∧
    (s.library.overlay = true ∨ 8 ≤ n.val → tuneInfo s n cue =
      match s.library.parts[n] with
      | .valid hd mask _ => some { tag := hd.tuneId.setWidth 24, mask := mask, rule := hd.rule, retry := hd.retry
                                   priority := hd.priority, source := .loaded }
      | _ => none)) ∧
  (cuePriority 0 = none ∧ cuePriority 1 = some .low ∧ cuePriority 2 = some .melody ∧ cuePriority 3 = some .hour) ∧
  (∀ s : State, s.powered = true →
    exec (.playContactInactive 0) s = .next { s with pins := { s.pins with contact1 := false } } ∧
    exec (.playContactInactive 1) s = .next { s with pins := { s.pins with contact2 := false } })

/-- The newest sequence is none that a slot holds, the counter itself where no slot holds that, and the free slot is
the lowest-numbered one. An advance reaches the pre-roll points of the whole minutes a pre-roll ahead of the ticks it
passes. The pre-roll point of a minute decides the entries in ascending order: one that does not match, or was fired
for it, is passed over; one that matches is counted missed while the time is not SET or in the listen period, held
back by a quiet window, or cued at its own priority; an entry matches by its day, hour and minute, and a window holds
back the priorities up to its level from its start to its end. A longer pre-roll that brings a point to now decides
its minute at once; a shorter one that puts a reached point ahead of now settles every such minute. The account of the
points, and the claim time read at the decision, are the model's own (notes/assumptions/14.md,
notes/assumptions/47.md). -/
def Obligations.PrerollPointDecides : Prop :=
  (∀ (s : State) (k : Fin 4) (p : Perf), s.conductor.slots[k] = .active p → p.seq ≠ newSequence s) ∧
  (∀ (s : State) (k : Fin 4), freeSlot s = some k ↔
    s.conductor.slots[k].isFree = true ∧ ∀ j : Fin 4, j < k → s.conductor.slots[j].isFree = false) ∧
  (∀ (s : State) (t n m : Nat), m ∈ pointsReached s t n ↔
    m % 240000 = 0 ∧ ∃ j, 1 ≤ j ∧ j ≤ n ∧ m = plus t (j + s.settings.preroll)) ∧
  (∀ (m : Nat) (s : State),
    decideMinute m s = (List.finRange 24).foldl (fun t i => decideEntry m i t) s ∧
    ∀ i : Fin 24, matchesMinute s.calendar.entries[i] m = false ∨ s.calendar.entries[i].lastFired = some m →
      decideEntry m i s = s) ∧
  (∀ (m : Nat) (rest : List Nat) (u s : State), s.powered = true → s.calendar.due = m :: rest →
    u = { s with calendar := { s.calendar with due := rest } } →
    exec .prerollPoint s = .next (decideMinute m u) ∧
    ((∀ j : Fin 24, matchesMinute s.calendar.entries[j] m = false) → exec .prerollPoint s = .next u) ∧
    (∀ i : Fin 24, (∀ j : Fin 24, matchesMinute s.calendar.entries[j] m = decide (j = i)) →
      (s.calendar.entries[i].lastFired = some m → exec .prerollPoint s = .next u) ∧
      (s.calendar.entries[i].lastFired ≠ some m →
        (s.listen.isSome = true ∨ s.time.validity = .unset →
          exec .prerollPoint s = .next (raise .missedTime u)) ∧
        (s.listen = none → s.time.validity = .set →
          heldBack s m s.calendar.entries[i].priority = true →
          exec .prerollPoint s = .next (raise .missedQuiet u)) ∧
        (s.listen = none → s.time.validity = .set →
          heldBack s m s.calendar.entries[i].priority = false → ∃ t, exec .prerollPoint s = .next t ∧
            t.calendar.entries[i] = { s.calendar.entries[i] with lastFired := some m } ∧ Raised .cuesFired s t ∧
            (∀ k x, freeSlot s = some k → tuneInfo s s.calendar.entries[i].slot m = some x →
              ∃ q, t.conductor.slots[k] = .active q ∧ q.phase = .preroll ∧ q.start = m ∧ q.cueTime = m ∧
                q.claimTime = s.time.tower ∧ q.priority = s.calendar.entries[i].priority ∧
                q.slot = s.calendar.entries[i].slot) ∧
            (freeSlot s = none → Raised .slotsFull s t ∧ t.conductor = s.conductor) ∧
            Unchanged [.conductor, .counters, .calendar, .library] s t)))) ∧
  (∀ (n : Nat) (u s : State), s.time.tower < 2419200000 → n ≤ 120000 →
    u = { s with settings := { s.settings with preroll := n } } → writeSetting 14 n s = setPreroll n s ∧
    (∀ m, s.settings.preroll < n → m < 2419200000 → m % 240000 = 0 →
      isAfter (minus m s.settings.preroll) s.time.tower = true → isBefore s.time.tower (minus m n) = false →
      (m ∉ s.calendar.settled → setPreroll n s = decideMinute m { u with calendar := { s.calendar with
        decided := m :: s.calendar.decided.filter fun x => decide (x ≠ m) } }) ∧
      (m ∈ s.calendar.settled → setPreroll n s = { u with calendar := { s.calendar with
        decided := m :: s.calendar.decided.filter fun x => decide (x ≠ m)
        settled := s.calendar.settled.filter fun x => decide (x ≠ m) } })) ∧
    (n ≤ s.settings.preroll ∨ (∀ m, m < 2419200000 → m % 240000 = 0 →
        isAfter (minus m s.settings.preroll) s.time.tower = true → isBefore s.time.tower (minus m n) = true) →
      setPreroll n s = { u with calendar := { s.calendar with
        decided := s.calendar.decided.filter fun m => !putAhead s.time.tower s.settings.preroll n m
        settled := s.calendar.decided.filter (putAhead s.time.tower s.settings.preroll n) ++ s.calendar.settled } }) ∧
    (∀ m, n < s.settings.preroll → s.settings.preroll ≤ 120000 → m < 2419200000 →
      (putAhead s.time.tower s.settings.preroll n m = true ↔
        isBefore s.time.tower (minus m s.settings.preroll) = false ∧ isAfter (minus m n) s.time.tower = true))) ∧
  (∀ s : State, (∀ (k : Fin 4) (p : Perf), s.conductor.slots[k] = .active p → p.seq ≠ s.conductor.sequence) →
    newSequence s = s.conductor.sequence) ∧
  (∀ (e : CalEntry) (m : Nat), m < 2419200000 → (matchesMinute e m = true ↔ e.enabled = true ∧
    e.days.getLsbD (m / 345600000) = true ∧ e.hours.getLsbD (m % 345600000 / 14400000) = true ∧
    m % 14400000 / 240000 = e.minute)) ∧
  (∀ (s : State) (m : Nat) (pr : Priority), (∀ i : Fin 4, s.calendar.windows[i].start ≤ 1439 ∧
      s.calendar.windows[i].stop ≤ 1439) →
    (heldBack s m pr = true ↔ ∃ (i : Fin 4) (w : QuietWindow), s.calendar.windows[i] = w ∧ pr.level ≤ w.level ∧
      ∃ d, d < 7 ∧ w.days.getLsbD d = true ∧ minus m (345600000 * d + 240000 * w.start) <
        240000 * (if w.stop = w.start then 1440 else (w.stop + 1440 - w.start) % 1440)))

/-- CHANNEL in its three write modes: flags for ABSENT channels are dropped, the halted set takes its value, the reply
carries it, and DONE_CLAMPED says that a flag was dropped. -/
def Obligations.ChannelHalts : Prop :=
  ∀ (h : Service) (mask : ChannelMask) (s : State), s.powered = true → targeted s h = true →
    (∀ k : Fin 8, (mask &&& presentMask s).getLsbD k.val = (mask.getLsbD k.val && isPresent s k)) ∧
    exec (.channelSet h mask) s = .next (reply h 5
      (if mask &&& presentMask s = mask then .done else .doneClamped) (.channels (mask &&& presentMask s))
      { acknowledge s with halted := mask &&& presentMask s }) ∧
    exec (.channelMerge h mask) s = .next (reply h 5
      (if mask &&& presentMask s = mask then .done else .doneClamped)
      (.channels (s.halted ||| (mask &&& presentMask s)))
      { acknowledge s with halted := s.halted ||| (mask &&& presentMask s) }) ∧
    exec (.channelClear h mask) s = .next (reply h 5
      (if mask &&& presentMask s = mask then .done else .doneClamped)
      (.channels (s.halted &&& ~~~(mask &&& presentMask s)))
      { acknowledge s with halted := s.halted &&& ~~~(mask &&& presentMask s) })

/-- CHANNEL PULSE: refused RANGE for a velocity outside 1 to 15 and BUSY while the record is HELD, with no entry made;
accepted while it is VACANT, a wake even when it yields no entry, and without effect on the halted set. Its RUN channels
are taken in ascending order, one request each 2000 ticks apart, through the stages every admission passes. That RANGE
comes before BUSY when both apply is the model's own order (notes/assumptions/17.md). -/
def Obligations.ChannelPulseResult : Prop :=
  ∀ (h : Service) (mask : ChannelMask) (v : BitVec 8) (s : State), s.powered = true → targeted s h = true →
    (v.toNat < 1 ∨ 15 < v.toNat →
      exec (.channelPulse h mask v) s = .next (reply h 5 .range .none (acknowledge s))) ∧
    (1 ≤ v.toNat → v.toNat ≤ 15 → s.floor.holder.isSome = true →
      exec (.channelPulse h mask v) s = .next (reply h 5 .busy .none (acknowledge s))) ∧
    (1 ≤ v.toNat → v.toNat ≤ 15 → s.floor.holder = none → ∃ u m,
      exec (.channelPulse h mask v) s = .next (reply h 5 .done (.channels m) u) ∧
      u.drive.idle = 0 ∧ (s.pins.access = false → bankUp u.drive.mode = true) ∧
      (∀ e ∈ u.queue, e ∈ s.queue ∨ (e.owner = .test ∧ e.priority = 0 ∧ e.velocity = v.toNat ∧
        mask.getLsbD e.channel.val = true)) ∧
      (u, m) = ((List.finRange 8).filter fun k =>
          mask.getLsbD k.val && decide (channelState s k = .run)).zipIdx.foldl
        (fun acc x =>
          let r := admitRequest x.1 .test 0 (plus s.time.tower (4000 + 2000 * x.2)) v.toNat (some 4000) .test
            s.time.tower acc.1
          (r.1, if r.2 then acc.2 ||| BitVec.twoPow 8 x.1.val else acc.2))
        ({ acknowledge s with drive := (wakeBank s).drive }, 0) ∧
      ((∀ k : Fin 8, mask.getLsbD k.val = true → channelState s k ≠ .run) →
        m = 0 ∧ u = { acknowledge s with drive := (wakeBank s).drive }) ∧
      Unchanged admission (acknowledge s) u)

/-- VOICE_SET writes one part of a present channel's voicing record, every value held to its range; a channel that is no
longer damped loses its drop, its raised damper and its entries' lift times and durations. -/
def Obligations.VoiceSetResult : Prop :=
  ∀ (h : Service) (k : Fin 8) (s : State), s.powered = true → targeted s h = true → storing s = false →
    (isPresent s k = false → (∀ w, exec (.voiceSetPulseLow h k w) s = .next (reply h 6 .notHere .none (acknowledge s))) ∧
      (∀ w, exec (.voiceSetPulseHigh h k w) s = .next (reply h 6 .notHere .none (acknowledge s))) ∧
      (∀ f, exec (.voiceSetTiming h k f) s = .next (reply h 6 .notHere .none (acknowledge s)))) ∧
    (isPresent s k = true → ∀ w : Vector (BitVec 8) 8, ∃ (u : State) (new : Vector Nat 15),
      exec (.voiceSetPulseLow h k w) s = .next (reply h 6
        (if ∀ i : Fin 8, 1 ≤ w[i].toNat ∧ w[i].toNat ≤ 250 then .done else .doneClamped) .none u) ∧
      u.channels = s.channels.set k { s.channels[k] with voicing := { s.channels[k].voicing with curve := new } } ∧
      (∀ (i : Fin 15) (j : Fin 8), i.val = j.val → new[i] = max 1 (min 250 w[j].toNat)) ∧
      (∀ i : Fin 15, 8 ≤ i.val → new[i] = s.channels[k].voicing.curve[i]) ∧ Unchanged [.channels] (acknowledge s) u) ∧
    (isPresent s k = true → ∀ w : Vector (BitVec 8) 7, ∃ (u : State) (new : Vector Nat 15),
      exec (.voiceSetPulseHigh h k w) s = .next (reply h 6
        (if ∀ i : Fin 7, 1 ≤ w[i].toNat ∧ w[i].toNat ≤ 250 then .done else .doneClamped) .none u) ∧
      u.channels = s.channels.set k { s.channels[k] with voicing := { s.channels[k].voicing with curve := new } } ∧
      (∀ (i : Fin 15) (j : Fin 7), i.val = j.val + 8 → new[i] = max 1 (min 250 w[j].toNat)) ∧
      (∀ i : Fin 15, i.val < 8 → new[i] = s.channels[k].voicing.curve[i]) ∧ Unchanged [.channels] (acknowledge s) u) ∧
    (isPresent s k = true → ∀ f : TimingFields, ∃ u v r,
      exec (.voiceSetTiming h k f) s = .next (reply h 6 r .none u) ∧
      v.curve = s.channels[k].voicing.curve ∧ v.f1 = max 8 (min 1000 f.f1.toNat) ∧
      v.f15 = min (max 8 (min 1000 f.f15.toNat)) v.f1 ∧ v.back = max (max 40 (min 4000 f.back.toNat)) v.f1 ∧
      v.damped = f.damped ∧ v.lead = max 20 (min 400 f.lead.toNat) ∧ v.coil = max 1 (min 64 f.coil.toNat) ∧
      r = (if v.f1 = f.f1.toNat ∧ v.f15 = f.f15.toNat ∧ v.back = f.back.toNat ∧ v.lead = f.lead.toNat ∧
        v.coil = f.coil.toNat then .done else .doneClamped) ∧
      (∀ j : Fin 8, j ≠ k → u.channels[j] = s.channels[j]) ∧
      (s.channels[k].voicing.damped = false ∨ f.damped = true →
        u.channels[k] = { s.channels[k] with voicing := v } ∧ Unchanged [.channels] (acknowledge s) u) ∧
      (s.channels[k].voicing.damped = true → f.damped = false →
        u.channels[k] = { s.channels[k] with voicing := v, drop := none, damperUp := false } ∧
        u.queue = s.queue.map (fun e => if e.channel = k then { e with lift := none, duration := none } else e) ∧
        u.drive = (if s.drive.mode = .draining ∧ settled u = true
          then { mode := .off, level := 0, idle := s.drive.idle } else s.drive) ∧
        Unchanged [.channels, .queue, .drive] (acknowledge s) u))

/-- CAL_SET, CAL_CLEAR and QUIET_SET write or clear what they name when every field is in its range, and change nothing
otherwise. -/
def Obligations.CalendarWrites : Prop :=
  ∀ (h : Service) (s : State), s.powered = true → targeted s h = true → storing s = false →
    (∀ (n : BitVec 8) (f : CalFields) (i : Fin 24) (t : Fin 32) (pr : Priority), n.toNat = i.val →
      f.slot.toNat = t.val → f.priority.toNat = pr.level → f.minute.toNat ≤ 59 →
      exec (.calSet h n f) s = .next (reply h 7 .done .none { acknowledge s with
        calendar := { s.calendar with entries := (s.calendar.entries.set i
          { enabled := f.enabled, days := f.days, hours := f.hours, minute := f.minute.toNat, slot := t
            priority := pr, lastFired := none }) } })) ∧
    (∀ (n : BitVec 8) (f : CalFields), 23 < n.toNat ∨ 31 < f.slot.toNat ∨ f.priority.toNat = 0 ∨ 59 < f.minute.toNat →
      exec (.calSet h n f) s = .next (reply h 7 .range .none (acknowledge s))) ∧
    (∀ (n : BitVec 5) (i : Fin 24), n.toNat = i.val →
      exec (.calClear h n) s = .next (reply h 8 .done .none { acknowledge s with
        calendar := { s.calendar with entries := (s.calendar.entries.set i
          { enabled := false, days := 0, hours := 0, minute := 0, slot := 0, priority := .low
            lastFired := none }) } })) ∧
    exec (.calClear h 31) s = .next (reply h 8 .done .none { acknowledge s with
      calendar := { s.calendar with entries := (Vector.replicate 24
        { enabled := false, days := 0, hours := 0, minute := 0, slot := 0, priority := .low
          lastFired := none }) } }) ∧
    (∀ n : BitVec 5, 23 < n.toNat → n.toNat < 31 →
      exec (.calClear h n) s = .next (reply h 8 .range .none (acknowledge s))) ∧
    (∀ (n : BitVec 8) (f : QuietFields) (i : Fin 4), n.toNat = i.val → f.start.toNat ≤ 1439 → f.stop.toNat ≤ 1439 →
      f.level.toNat ≤ 3 → exec (.quietSet h n f) s = .next (reply h 9 .done .none { acknowledge s with
        calendar := { s.calendar with windows := (s.calendar.windows.set i
          { days := f.days, start := f.start.toNat, stop := f.stop.toNat, level := f.level.toNat }) } })) ∧
    (∀ (n : BitVec 8) (f : QuietFields),
      3 < n.toNat ∨ 1439 < f.start.toNat ∨ 1439 < f.stop.toNat ∨ 3 < f.level.toNat →
      exec (.quietSet h n f) s = .next (reply h 9 .range .none (acknowledge s)))

/-- NODE_SET writes every pair in the order carried with a value of the setting's range, and nothing when a pair names
no setting; a new ready level, idle time, resume mode or hold time acts at once on the drive state, the drain and the
silence; MASK_SET writes the enable mask with its two fixed flags, which acts at once: a condition newly enabled as
at its assertion, a hard one before all, and the last one masked as at its clearing. -/
def Obligations.NodeAndMaskSet : Prop :=
  (∀ (h : Service) (pairs : List (BitVec 8 × BitVec 24)) (s : State), s.powered = true → targeted s h = true →
    storing s = false → 1 ≤ pairs.length → pairs.length ≤ 3 →
    ((∃ p ∈ pairs, 20 < p.1.toNat) → exec (.nodeSet h pairs) s = .next (reply h 10 .range .none (acknowledge s))) ∧
    ((∀ p ∈ pairs, p.1.toNat ≤ 20) → exec (.nodeSet h pairs) s = .next (reply h 10
      (if pairs.any (fun p => settingReplaced p.1.toNat p.2.toNat) then .doneClamped else .done)
      (.settings (pairs.map fun p => (p.1, BitVec.ofNat 24 (settingValue p.1.toNat p.2.toNat))))
      (pairs.foldl (fun t p => writeSetting p.1.toNat (settingValue p.1.toNat p.2.toNat) t) (acknowledge s))))) ∧
  (∀ (n : Fin 21) (v : Nat) (s : State),
    readSetting (writeSetting n.val (settingValue n.val v) s).settings n = settingValue n.val v ∧
    (∀ m : Fin 21, m ≠ n →
      readSetting (writeSetting n.val (settingValue n.val v) s).settings m = readSetting s.settings m) ∧
    Unchanged [.settings, .drive, .silence, .trace, .conductor, .counters, .calendar, .library] s
      (writeSetting n.val (settingValue n.val v) s)) ∧
  (∀ (v : Nat) (s : State),
    (∀ n ∈ [0, 2, 4, 5, 6, 7, 8, 9, 10, 11, 12, 13, 15, 16, 19, 20], Unchanged [.settings] s (writeSetting n v s)) ∧
    writeSetting 1 v s = { s with
      settings := { s.settings with readyLevel := v }
      drive := { s.drive with mode := if s.drive.mode = .charging ∨ s.drive.mode = .ready
        then (if v ≤ s.drive.level then .ready else .charging) else s.drive.mode } } ∧
    writeSetting 3 v s = { s with
      settings := { s.settings with idleTime := v }
      drive := if (s.drive.mode = .charging ∨ s.drive.mode = .ready) ∧ v ≠ 0 ∧ v ≤ s.drive.idle
        then (if settled s = true then { mode := .off, level := 0, idle := 0 }
          else { mode := .draining, level := s.drive.level, idle := 0 })
        else s.drive } ∧
    writeSetting 17 0 s = { s with
      settings := { s.settings with resume := .auto }
      silence := if s.settings.resume = .manual ∧ s.silence.state = .silent ∧ s.silence.resumable = true
        then (if s.settings.holdTime = 0
          then { s.silence with state := .voiced, level := 0, fadeCount := 0, resumable := false, hold := 0 }
          else { s.silence with state := .holding, level := 15, fadeCount := 0, resumable := false, hold := 0 })
        else s.silence } ∧
    writeSetting 17 1 s = { s with
      settings := { s.settings with resume := .manual }
      silence := if s.settings.resume = .auto ∧ s.silence.state = .holding
        then { s.silence with state := .silent, level := 15, fadeCount := 0, resumable := true, hold := 0 }
        else s.silence
      trace := if s.settings.resume = .auto ∧ s.silence.state = .holding then (silentTrigger s).trace else s.trace } ∧
    writeSetting 18 v s = { s with
      settings := { s.settings with holdTime := v }
      silence := if s.silence.state = .holding ∧ v ≤ s.silence.hold
        then { s.silence with state := .voiced, level := 0, fadeCount := 0, resumable := false, hold := 0 }
        else s.silence }) ∧
  (∀ v n lo hi : Nat, (n, lo, hi) ∈ [(0, 1, 32), (1, 1, 60000), (2, 0, 60000), (4, 0, 160), (5, 1, 8),
      (6, 2000, 16000), (8, 1, 64), (9, 4000, 16000), (10, 1, 64), (11, 1, 64), (12, 1, 64), (13, 1, 64),
      (14, 8000, 120000), (17, 0, 1), (19, 0, 3), (20, 0, 63)] →
    (v < lo → settingValue n v = lo) ∧ (lo ≤ v → v ≤ hi → settingValue n v = v) ∧ (hi < v → settingValue n v = hi)) ∧
  (∀ v : Nat, settingValue 3 0 = 0 ∧ (0 < v → settingValue 3 v = max 4000 (min 14400000 v)) ∧
    settingValue 7 v ∈ [64000, 128000, 192000, 256000] ∧ settingValue 18 v ∈ [0, 8000, 16000, 32000] ∧
    (∀ n ∈ [15, 16], settingValue n v % 256 = min 31 (v % 256) ∧ settingValue n v / 256 = v / 256 % 2 ∧
      settingReplaced n v = decide (31 < v % 256)) ∧
    (∀ n, n ≠ 15 → n ≠ 16 → settingReplaced n v = decide (settingValue n v ≠ v))) ∧
  (∀ v w : Nat, (w ∈ [64000, 128000, 192000, 256000] →
      ((v : Int) - settingValue 7 v).natAbs ≤ ((v : Int) - w).natAbs ∧
      (((v : Int) - settingValue 7 v).natAbs = ((v : Int) - w).natAbs → w ≤ settingValue 7 v)) ∧
    (w ∈ [0, 8000, 16000, 32000] →
      ((v : Int) - settingValue 18 v).natAbs ≤ ((v : Int) - w).natAbs ∧
      (((v : Int) - settingValue 18 v).natAbs = ((v : Int) - w).natAbs → w ≤ settingValue 18 v))) ∧
  (∀ (h : Service) (mask : BitVec 8) (s : State), s.powered = true → targeted s h = true → storing s = false →
    ∃ u, exec (.maskSet h mask) s = .next (reply h 11
      (if mask ||| 0xC0#8 = mask then .done else .doneClamped) (.mask (mask ||| 0xC0#8)) u) ∧
      u.silence.mask = mask ||| 0xC0#8 ∧ u.silence.conds = s.silence.conds ∧
      u.trace = (if s.silence.state ≠ .silent ∧ u.silence.state = .silent then silentTrigger s else s).trace ∧
      (∀ new : Condition → Prop, (∀ c, new c ↔ hasCondition (enabledActive u.silence) c = true ∧
          hasCondition (enabledActive s.silence) c = false) →
        ((∃ c, new c ∧ c.hard = true) → u.silence.state = .silent ∧ u.silence.level = 15 ∧
          u.silence.resumable = false) ∧
        ((∃ c, new c) → (∀ c, new c → c.hard = false) →
          (s.silence.state = .voiced → s.queue ≠ [] → u.silence.state = .fading ∧ u.silence.level = 1 ∧
            u.silence.fadeCount = 0) ∧
          (s.silence.state = .fading → u.silence.state = .fading ∧ u.silence.level = s.silence.level ∧
            u.silence.fadeCount = s.silence.fadeCount) ∧
          (s.silence.state = .holding ∨ (s.silence.state = .voiced ∧ s.queue = []) →
            u.silence.state = .silent ∧ u.silence.level = 15) ∧
          (s.silence.state = .silent → u.silence.state = .silent ∧ u.silence.resumable = false)) ∧
        ((∀ c, ¬ new c) →
          (enabledActive s.silence ≠ 0 → enabledActive u.silence = 0 →
            s.silence.state = .fading ∨ s.silence.state = .silent →
            (s.settings.resume = .manual → u.silence.state = .silent ∧ u.silence.level = 15 ∧
              u.silence.resumable = true) ∧
            (s.settings.resume = .auto → s.settings.holdTime ≠ 0 → u.silence.state = .holding ∧
              u.silence.level = 15 ∧ u.silence.hold = 0) ∧
            (s.settings.resume = .auto → s.settings.holdTime = 0 → u.silence.state = .voiced ∧
              u.silence.level = 0)) ∧
          (enabledActive s.silence = 0 ∨ enabledActive u.silence ≠ 0 ∨ s.silence.state = .voiced ∨
              s.silence.state = .holding →
            u.silence.state = s.silence.state ∧ u.silence.level = s.silence.level))) ∧
      Unchanged [.silence, .trace] (acknowledge s) u)

/-- Loading a tune: LOAD_BEGIN reserves its events, LOAD_DATA takes them in order from the loader, LOAD_END makes the
part VALID when every event arrived and the checksum agrees, and EMPTY otherwise; DELETE empties a part and OVERLAY
changes what slots 0 to 7 resolve to, each refused while a performance plays from it. A slot number above 31, a slot 0
to 7 with OVERLAY off, one that is not LOADING and a sender that is not its loader are refused, and so is a header or an
event with a field outside its range. A LOAD_DATA without an
event is too short for its number, RANGE also while a store is in progress (the model's own order,
notes/assumptions/17.md). -/
def Obligations.LibraryCommands : Prop :=
  (∀ (h : Service) (n : BitVec 8) (t : Fin 32) (s : State), s.powered = true → targeted s h = true →
    storing s = false → n.toNat = t.val →
    (∀ f, readHeader f = none → exec (.loadBegin h n f) s = .next (reply h 12 .range .none (acknowledge s))) ∧
    (∀ f x, readHeader f = some x →
      (notHere s t = true → exec (.loadBegin h n f) s = .next (reply h 12 .notHere .none (acknowledge s))) ∧
      (notHere s t = false → isLocked s t = true →
        exec (.loadBegin h n f) s = .next (reply h 12 .busy .none (acknowledge s))) ∧
      (notHere s t = false → isLocked s t = false → poolFree s + s.library.parts[t].poolEvents < x.count →
        exec (.loadBegin h n f) s = .next (reply h 12 .noRoom .none (acknowledge s))) ∧
      (notHere s t = false → isLocked s t = false → x.count ≤ poolFree s + s.library.parts[t].poolEvents → ∃ u,
        exec (.loadBegin h n f) s = .next (reply h 12 .done (.free (poolFree u)) u) ∧
        u = { acknowledge s with library := { s.library with
          parts := s.library.parts.set t (.loading x [] h.heard.sender) } })) ∧
    (∀ x got index events, notHere s t = false → s.library.parts[t] = .loading x got h.heard.sender →
      1 ≤ events.length → events.length ≤ 2 →
      (index.toNat ≠ got.length → exec (.loadData h n index events) s = .next (reply h 13 .sequence .none
        { acknowledge s with library := { s.library with parts := s.library.parts.set t .empty } })) ∧
      (∀ es, index.toNat = got.length → readTuneEvents events = some es → got.length + es.length ≤ x.count →
        exec (.loadData h n index events) s = .next (reply h 13 .done (.next (got.length + es.length))
          { acknowledge s with library := { s.library with
            parts := s.library.parts.set t (.loading x (got ++ es) h.heard.sender) } })) ∧
      (index.toNat = got.length → (readTuneEvents events = none ∨ x.count < got.length + events.length) →
        exec (.loadData h n index events) s = .next (reply h 13 .range .none (acknowledge s)))) ∧
    (∀ x got checksum, notHere s t = false → s.library.parts[t] = .loading x got h.heard.sender →
      (got.length = x.count → checksum = checksumOf got →
        exec (.loadEnd h n checksum) s = .next (reply h 14 .done (.checksum checksum)
          { acknowledge s with library := { s.library with
            parts := s.library.parts.set t (.valid x (tuneMask got) got) } })) ∧
      (got.length ≠ x.count ∨ checksum ≠ checksumOf got →
        exec (.loadEnd h n checksum) s = .next (reply h 14 .check (.checksum (checksumOf got))
          { acknowledge s with library := { s.library with parts := s.library.parts.set t .empty } }))) ∧
    (∀ got : List TuneEvent, checksumOf got = BitVec.ofNat 16
      (got.zipIdx.map fun e => e.1.delta + 3 * e.1.bell + 5 * e.1.velocity + 7 * e.1.duration + e.2).sum) ∧
    (notHere s t = true → exec (.delete h n) s = .next (reply h 15 .notHere .none (acknowledge s))) ∧
    (notHere s t = false → isLocked s t = true →
      exec (.delete h n) s = .next (reply h 15 .busy .none (acknowledge s))) ∧
    (notHere s t = false → isLocked s t = false → exec (.delete h n) s = .next (reply h 15 .done .none
      { acknowledge s with library := { s.library with parts := s.library.parts.set t .empty } })) ∧
    (∀ on, ((∃ j : Fin 32, j.val < 8 ∧ (isLocked s j = true ∨ s.library.parts[j].isLoading = true)) →
        exec (.overlay h on) s = .next (reply h 16 .busy .none (acknowledge s))) ∧
      ((∀ j : Fin 32, j.val < 8 → isLocked s j = false ∧ s.library.parts[j].isLoading = false) →
        exec (.overlay h on) s = .next (reply h 16 .done .none
          { acknowledge s with library := { s.library with overlay := on } })))) ∧
  (∀ (h : Service) (n : BitVec 8) (s : State), s.powered = true → targeted s h = true → storing s = false →
    31 < n.toNat →
    (∀ f, exec (.loadBegin h n f) s = .next (reply h 12 .range .none (acknowledge s))) ∧
    (∀ i e es, exec (.loadData h n i (e :: es)) s = .next (reply h 13 .range .none (acknowledge s))) ∧
    (∀ c, exec (.loadEnd h n c) s = .next (reply h 14 .range .none (acknowledge s))) ∧
    exec (.delete h n) s = .next (reply h 15 .range .none (acknowledge s))) ∧
  (∀ (h : Service) (n : BitVec 8) (t : Fin 32) (s : State), s.powered = true → targeted s h = true →
    storing s = false → n.toNat = t.val →
    (notHere s t = true ↔ t.val < 8 ∧ s.library.overlay = false) ∧
    ∀ (r : Result), (notHere s t = true ∧ r = .notHere) ∨
        (notHere s t = false ∧ r = .sequence ∧ s.library.parts[t].isLoading = false) ∨
        (notHere s t = false ∧ r = .busy ∧
          ∃ x got loader, s.library.parts[t] = .loading x got loader ∧ loader ≠ h.heard.sender) →
      (∀ i e es, exec (.loadData h n i (e :: es)) s = .next (reply h 13 r .none (acknowledge s))) ∧
      (∀ c, exec (.loadEnd h n c) s = .next (reply h 14 r .none (acknowledge s)))) ∧
  (∀ f : LoadFields,
    (f.priority = 0#2 ∨ f.tempo.toNat < 1 ∨ 4000 < f.tempo.toNat ∨ f.count.toNat < 1 ∨ 2048 < f.count.toNat →
      readHeader f = none) ∧
    (f.priority ≠ 0#2 → 1 ≤ f.tempo.toNat → f.tempo.toNat ≤ 4000 → 1 ≤ f.count.toNat → f.count.toNat ≤ 2048 →
      ∃ x, readHeader f = some x ∧ x.tuneId = f.tuneId ∧ x.rule = f.rule ∧ x.retry = f.retry ∧
        x.tempo = f.tempo.toNat ∧ x.count = f.count.toNat ∧ x.priority.level = f.priority.toNat)) ∧
  (∀ events : List LoadEvent,
    ((∃ e ∈ events, 64 < e.bell.toNat ∨ 15 < e.velocity.toNat ∨ (e.bell ≠ 0 ∧ e.velocity = 0)) →
      readTuneEvents events = none) ∧
    ((∀ e ∈ events, e.bell.toNat ≤ 64 ∧ e.velocity.toNat ≤ 15 ∧ (e.bell = 0 ∨ e.velocity ≠ 0)) →
      readTuneEvents events = some (events.map fun e =>
        { delta := e.delta.toNat, bell := e.bell.toNat, velocity := e.velocity.toNat
          duration := e.duration.toNat }))) ∧
  (∀ (h : Service) (n : BitVec 8) (i : BitVec 16) (s : State), s.powered = true → targeted s h = true →
    exec (.loadData h n i []) s = .next (reply h 13 .range .none (acknowledge s)))

/-- STORE takes the image of the moment it begins and marks the memory invalid; its completion marks it valid with that
image, its failure leaves it invalid; the reply comes at the end. -/
def Obligations.StoreResult : Prop :=
  (∀ (h : Service) (s : State), s.powered = true → targeted s h = true → storing s = false → ∃ x,
    exec (.store h) s = .next { acknowledge s with service := { s.service with
      settingsState := .storing x h.tag, memory := none } } ∧
    x.settings = s.settings ∧ x.mask = s.silence.mask ∧ x.windows = s.calendar.windows ∧
    (∀ k : Fin 8, x.voicings[k] = s.channels[k].voicing) ∧
    (∀ i : Fin 24, x.entries[i].taken = { s.calendar.entries[i] with lastFired := none }) ∧
    (∀ t : Fin 32, x.tunes[t] = match s.library.parts[t] with
      | .valid hd mask events => some { header := hd, mask := mask, events := events }
      | _ => none)) ∧
  (∀ (x : StoreImage) (tag : BitVec 6) (s : State), s.powered = true → s.service.settingsState = .storing x tag →
    (∃ u, exec .storeComplete s = .next (handFrame
        { frame := .reply { command := 17, tag := tag, result := .done, final := true, part := 0, body := .none }
          origin := .single } u).1 ∧
      u.service = { s.service with settingsState := .valid, memory := some x } ∧ Raised .settingsWrites s u ∧
      (∀ c : Counter, c ≠ .settingsWrites → readCounter u c = readCounter s c) ∧
      Unchanged [.service, .counters] s u) ∧
    exec .storeFailure s = .next (handFrame
        { frame := .reply { command := 17, tag := tag, result := .check, final := true, part := 0, body := .none }
          origin := .single }
        { s with service := { s.service with settingsState := .lost, memory := none } }).1)

/-- STATUS and TRACE take an image and hand part 0, which says how many parts follow; a later part is handed once the
part before it is out and the queue has room. The parts of a STATUS reply hold the groups of its image in their order,
each group once: drive, silence, time, floor, channels, queue and line, conductor, library, calendar, settings, peers,
counters. The number of STATUS parts, the part in which a group ends and the bytes of a part are free values
(notes/assumptions/15.md), of which only the bounds are used. When a reply is under way, that of an empty trace
included, what the image holds of a tune slot, and which trigger setting and post count part 0 of a TRACE carries, are
the model's own readings (notes/assumptions/16.md, notes/assumptions/50.md, notes/assumptions/51.md,
notes/assumptions/56.md). -/
def Obligations.StatusAndTraceReplies : Prop :=
  (∀ (h : Service) (s : State), s.powered = true → targeted s h = true →
    (s.service.reply.isSome = true → exec (.status h) s = .next (reply h 19 .busy .none (acknowledge s)) ∧
      exec (.trace h) s = .next (reply h 20 .busy .none (acknowledge s))) ∧
    (s.service.reply = none → ∃ n, 1 ≤ n ∧ n ≤ 255 ∧ exec (.status h) s = .next
      (handPart 19 h.tag false 0 (.statusHead s.straps (settingsKind s) n) { acknowledge s with
        free := s.free + 1
        service := { s.service with reply := (some
          { command := 19, tag := h.tag, image := .status s.free n (statusImage (acknowledge s)), next := 1, last := n
            out := false }) } })) ∧
    (s.service.reply = none → exec (.trace h) s = .next
      (handPart 20 h.tag (decide (s.trace.records = [])) 0
        (.traceHead s.trace.state s.settings.trigger s.settings.postCount s.trace.remaining s.trace.records.length)
        { acknowledge s with
          service := { s.service with reply := (some
            { command := 20, tag := h.tag, image := .trace s.trace.records, next := 1
              last := s.trace.records.length, out := false }) } }))) ∧
  (∀ (j : ReplyJob) (s : State), s.powered = true → s.service.reply = some j → j.out = true → j.next ≤ j.last →
    txCount s < 8 → exec .replyPart s = .next
      (handPart j.command j.tag (decide (j.next = j.last)) j.next (partBody j.image j.next) { s with
        service := { s.service with reply := some { j with next := j.next + 1, out := false } } })) ∧
  (∀ (records : List StrikeRecord) (n : Nat) (r : StrikeRecord), records[n]? = some r →
    partBody (.trace records) (n + 1) = .traceRecord r) ∧
  (∀ (fresh n i : Nat) (groups : List StatusGroup),
    partBody (.status fresh n groups) i = .statusPart fresh i (groupsOf fresh n groups i) ∧
    (1 ≤ n → (List.range n).flatMap (fun j => groupsOf fresh n groups (j + 1)) = groups)) ∧
  (∀ s : State, statusImage s =
    [.drive s.drive (chargerEnable s) s.pins.feedback,
      .silence s.silence s.settings.resume s.settings.holdTime,
      .time s.time.tower s.time.validity s.time.lock s.time.trim s.time.slew s.time.reference s.straps.timeSource
        (match s.straps.timeSource, s.time.lastMark with
          | true, some m => some (ticksSince s.time.count m.count)
          | _, _ => none),
      .floor s.floor (match s.floor.holder with
        | some x => some (ticksSince s.time.count x.lastBeacon)
        | none => none),
      .channels ((List.finRange 8).map fun k =>
        { state := channelState s k, halted := s.halted.getLsbD k.val, conflict := s.channels[k].conflict
          hammer := s.channels[k].hammer, damperUp := s.channels[k].damperUp, drop := s.channels[k].drop
          lastFired := match s.channels[k].lastFired with
            | some l => some l.launch
            | none => none }),
      .queueAndLine s.queue.length (s.line.queue.length + if s.line.sending.isSome then 1 else 0) s.line.txErrors
        s.line.faultAt.isSome s.line.clashAt.isSome,
      .conductor s.conductor.slots,
      .library ((List.finRange 32).map fun n =>
        { part := s.library.parts[n], locks := s.library.locks[n]
          state := if s.library.overlay = true ∨ 8 ≤ n.val
            then (match s.library.parts[n] with
              | .empty => .empty
              | .loading _ _ _ => .loading
              | .valid _ _ _ => .valid)
            else if n.val < 6 then .valid else .empty }) s.library.overlay (poolUsed s) (poolFree s),
      .calendar s.calendar.entries s.calendar.windows s.settings.map1 s.settings.map2 s.calendar.contacts
        s.settings.preroll,
      .settings s.settings,
      .peers ((List.finRange 16).map (peerRecord s)),
      .counters s.counters] ∧
    poolUsed s = (s.library.parts.toList.map LoadedPart.poolEvents).sum ∧ poolFree s = 6144 - poolUsed s) ∧
  (∀ (x : TuneHeader) (mask : BellMask) (events : List TuneEvent) (loader : Fin 16),
    LoadedPart.empty.poolEvents = 0 ∧ (LoadedPart.loading x events loader).poolEvents = x.count ∧
    (LoadedPart.valid x mask events).poolEvents = x.count) ∧
  (∀ (c : Nat) (tag : BitVec 6) (final : Bool) (n : Nat) (b : ReplyBody) (s : State), txCount s < 8 →
    Joined s { frame := .reply { command := c, tag := tag, result := .done, final := final, part := n, body := b }
               origin := .part } s.line.queue (handPart c tag final n b s).line.queue ∧
    Unchanged [.line] s (handPart c tag final n b s))

/-- TRACE_RELEASE empties and opens the trace, COUNTERS_CLEAR sets every counter to 0, and a command the node has no
command for is answered RANGE: one with a number, a mode or a part that names none, or a body too short for its number.
That RANGE comes before BUSY while a store is in progress, that the remaining count of a released trace is 0, and that
the counters are cleared before the reply is handed, are the model's own (notes/assumptions/17.md,
notes/assumptions/48.md, notes/assumptions/55.md). -/
def Obligations.ReleaseClearAndUnknown : Prop :=
  ∀ (h : Service) (s : State), s.powered = true → targeted s h = true →
    exec (.traceRelease h) s = .next (reply h 21 .done .none { acknowledge s with
      trace := { records := [], state := .open, remaining := 0 } }) ∧
    (∃ u, exec (.countersClear h) s = .next (reply h 22 .done .none u) ∧ (∀ c : Counter, readCounter u c = 0) ∧
      Unchanged [.counters] (acknowledge s) u) ∧
    (∀ command body, commandKnown command (List.replicate 16 false ++ body) = false →
      exec (.unknownCommand h command body) s = .next (reply h command.toNat .range .none (acknowledge s)))

/-- Every node acknowledges a SERVICE frame, but not while its transmitter is off; a node that is not targeted does
nothing more, SET_TIME and STOP apart; and a store in progress refuses every command that writes what is stored. The
field that shows the acknowledge, and BUSY before every other refusal, are the model's own (notes/assumptions/27.md,
notes/assumptions/17.md). -/
def Obligations.ServiceAcknowledgedAndRefused : Prop :=
  (∀ s : State, acknowledge s = { s with line := { s.line with ackDriven := s.line.faultAt.isNone } }) ∧
  (∀ (h : Service) (s : State), s.powered = true → targeted s h = false →
    (∀ a b c, exec (.cue h a b c) s = .next (acknowledge s)) ∧ exec (.resume h) s = .next (acknowledge s) ∧
    exec (.wake h) s = .next (acknowledge s) ∧ (∀ m, exec (.channelSet h m) s = .next (acknowledge s)) ∧
    (∀ m, exec (.channelMerge h m) s = .next (acknowledge s)) ∧
    (∀ m, exec (.channelClear h m) s = .next (acknowledge s)) ∧
    (∀ m v, exec (.channelPulse h m v) s = .next (acknowledge s)) ∧
    (∀ k w, exec (.voiceSetPulseLow h k w) s = .next (acknowledge s)) ∧
    (∀ k w, exec (.voiceSetPulseHigh h k w) s = .next (acknowledge s)) ∧
    (∀ k f, exec (.voiceSetTiming h k f) s = .next (acknowledge s)) ∧
    (∀ n f, exec (.calSet h n f) s = .next (acknowledge s)) ∧ (∀ n, exec (.calClear h n) s = .next (acknowledge s)) ∧
    (∀ n f, exec (.quietSet h n f) s = .next (acknowledge s)) ∧
    (∀ ps, exec (.nodeSet h ps) s = .next (acknowledge s)) ∧ (∀ m, exec (.maskSet h m) s = .next (acknowledge s)) ∧
    (∀ n f, exec (.loadBegin h n f) s = .next (acknowledge s)) ∧
    (∀ n i es, exec (.loadData h n i es) s = .next (acknowledge s)) ∧
    (∀ n c, exec (.loadEnd h n c) s = .next (acknowledge s)) ∧ (∀ n, exec (.delete h n) s = .next (acknowledge s)) ∧
    (∀ on, exec (.overlay h on) s = .next (acknowledge s)) ∧ exec (.store h) s = .next (acknowledge s) ∧
    exec (.restart h) s = .next (acknowledge s) ∧ exec (.status h) s = .next (acknowledge s) ∧
    exec (.trace h) s = .next (acknowledge s) ∧ exec (.traceRelease h) s = .next (acknowledge s) ∧
    exec (.countersClear h) s = .next (acknowledge s) ∧
    (∀ c b, commandKnown c (List.replicate 16 false ++ b) = false →
      exec (.unknownCommand h c b) s = .next (acknowledge s))) ∧
  (∀ (h : Service) (s : State), s.powered = true → targeted s h = true → storing s = true →
    (∀ k w, exec (.voiceSetPulseLow h k w) s = .next (reply h 6 .busy .none (acknowledge s))) ∧
    (∀ k w, exec (.voiceSetPulseHigh h k w) s = .next (reply h 6 .busy .none (acknowledge s))) ∧
    (∀ k f, exec (.voiceSetTiming h k f) s = .next (reply h 6 .busy .none (acknowledge s))) ∧
    (∀ n f, exec (.calSet h n f) s = .next (reply h 7 .busy .none (acknowledge s))) ∧
    (∀ n, exec (.calClear h n) s = .next (reply h 8 .busy .none (acknowledge s))) ∧
    (∀ n f, exec (.quietSet h n f) s = .next (reply h 9 .busy .none (acknowledge s))) ∧
    (∀ ps, exec (.nodeSet h ps) s = .next (reply h 10 .busy .none (acknowledge s))) ∧
    (∀ m, exec (.maskSet h m) s = .next (reply h 11 .busy .none (acknowledge s))) ∧
    (∀ n f, exec (.loadBegin h n f) s = .next (reply h 12 .busy .none (acknowledge s))) ∧
    (∀ n i e es, exec (.loadData h n i (e :: es)) s = .next (reply h 13 .busy .none (acknowledge s))) ∧
    (∀ n c, exec (.loadEnd h n c) s = .next (reply h 14 .busy .none (acknowledge s))) ∧
    (∀ n, exec (.delete h n) s = .next (reply h 15 .busy .none (acknowledge s))) ∧
    (∀ on, exec (.overlay h on) s = .next (reply h 16 .busy .none (acknowledge s))) ∧
    exec (.store h) s = .next (reply h 17 .busy .none (acknowledge s)))

/-- Decode and encode agree: the frame of every well-formed command that a frame brings decodes to that command, and
every frame the node sends is read by another node as the command it stands for, a REPLY as one that no node is
delivered. A payload stands as a list of bits in the order they are sent (notes/assumptions/25.md). -/
def Obligations.DecodeEncodeAgree : Prop :=
  (∀ (i : Instr) (stamp : Stamp) (ident : BitVec 11) (p : Payload), i.wellFormed = true →
    encodeFrame i = some (ident, p) → stampOf i = some stamp → decodeFrame stamp ident p = .command i) ∧
  (∀ (s : State) (stamp : Stamp) (rx : Heard), rx = { sender := s.straps.station, stamp := stamp } →
    (∀ pr b, decodeFrame stamp (sentIdent s (.claim pr b)) (Frame.payload (.claim pr b)) = .command (.claim rx pr b)) ∧
    (∀ pr b, decodeFrame stamp (sentIdent s (.floor pr b)) (Frame.payload (.floor pr b)) = .command (.floor rx pr b)) ∧
    (∀ seq r, decodeFrame stamp (sentIdent s (.release seq r)) (Frame.payload (.release seq r)) =
      .command (.release rx seq r)) ∧
    (∀ b, decodeFrame stamp (sentIdent s (.presence b)) (Frame.payload (.presence b)) =
      .command (.presence rx (.node b))) ∧
    (∀ seq base items, 1 ≤ items.length → items.length ≤ 3 →
      decodeFrame stamp (sentIdent s (.order seq base items)) (Frame.payload (.order seq base items)) =
        .command (.order rx seq base items)) ∧
    (∀ r : Reply, (∀ ps, r.body = .settings ps → ps.length ≤ 3) →
      decodeFrame stamp (sentIdent s (.reply r)) (Frame.payload (.reply r)) = .notForNodes))

/-- What a sender puts on the line is what a receiver reads: the cells of a frame of whole bytes, 16 at most, are a good
frame with its identifier and payload; cells that break off early, a CRC that differs and a length value of 17 to 31 are
none. Every frame the node sends is such a frame. -/
def Obligations.FrameCellsReadBack : Prop :=
  (∀ (ident : BitVec 11) (p : Payload), payloadWellFormed p = true →
    receiveCells (frameCells ident p) = some (ident, p)) ∧
  (∀ (ident : BitVec 11) (p : Payload) (c : BitVec 16), payloadWellFormed p = true →
    c ≠ crc (checkedCells ident p) →
    receiveCells (false :: (checkedCells ident p ++ (putField c ++ [true]))) = none) ∧
  (∀ (ident : BitVec 11) (p : Payload) (n : Nat), payloadWellFormed p = true → n ≤ p.length + 32 →
    receiveCells ((frameCells ident p).take n) = none) ∧
  (∀ (ident : BitVec 11) (n : BitVec 5) (rest : List Bool), 17 ≤ n.toNat →
    receiveCells (false :: (putField ident ++ (putField n ++ rest))) = none) ∧
  (∀ (s : State) (f : Frame), FramePacked f →
    (∀ (r : Reply) (ps : List (BitVec 8 × BitVec 24)), f = .reply r → r.body = .settings ps → ps.length ≤ 3) →
    payloadWellFormed f.payload = true ∧ receiveCells (sentCells s f) = some (sentIdent s f, f.payload))

/-- The machine right after reset meets every invariant stated here. -/
def Obligations.ResetMeetsInvariants : Prop :=
  RangesKept State.reset ∧ BankSound State.reset ∧ ClockSound State.reset ∧ CapacitySound State.reset ∧
  TxQueueSound State.reset ∧ SilenceSound State.reset ∧ ConditionsSound State.reset ∧ QueueSound State.reset ∧
  DampersSound State.reset ∧ FloorSound State.reset ∧ QueueBelongs State.reset ∧ LocksSound State.reset ∧
  HaltedSound State.reset ∧ PoolSound State.reset ∧ OrdersPacked State.reset ∧ QueueOrdered State.reset

/-- Every step keeps settings and voicings within their ranges, those of the settings memory included, and the halted
set to channels that are present. -/
def Obligations.StepsKeepRanges : Prop :=
  (∀ s t : State, RangesKept s → step s = .next t → RangesKept t) ∧
  ∀ s t : State, HaltedSound s → step s = .next t → HaltedSound t

/-- Every step keeps the bank and the clock sound: the bank level within its bounds and on its state's side of the ready
level, the bank OFF while the chamber is open, tower time within the week, trim and slew within theirs. -/
def Obligations.StepsKeepBankAndClock : Prop :=
  ∀ s t : State, RangesKept s → BankSound s → ClockSound s → step s = .next t → BankSound t ∧ ClockSound t

/-- Every step keeps the capacities, and the transmit queue in the order of its identifiers with one PRESENCE at
most and one to three orders in each of its ORDER frames. -/
def Obligations.StepsKeepCapacities : Prop :=
  (∀ s t : State, CapacitySound s → TxQueueSound s → step s = .next t → CapacitySound t ∧ TxQueueSound t) ∧
  ∀ s t : State, OrdersPacked s → step s = .next t → OrdersPacked t

/-- Every step keeps silence state, reduction, mark and conditions together, and each condition asserted exactly while
its cause stands; of CHECK_ERRORS one way only, since it clears by an event of its own: more than 8 errors in the window
imply it asserted. -/
def Obligations.StepsKeepSilence : Prop :=
  ∀ s t : State, SilenceSound s → ConditionsSound s → step s = .next t → SilenceSound t ∧ ConditionsSound t

/-- Every step keeps the entries and the dampers sound, and the strike queue in the order of launch times, by admission
number among equal ones. Launch times and admission numbers wrap, so the order is stated for a queue whose launch times
lie within 1,000,000,000 ticks of each other, before and after, and whose entries are among the last admitted. -/
def Obligations.StepsKeepQueueAndDampers : Prop :=
  (∀ s t : State, QueueSound s → DampersSound s → step s = .next t → QueueSound t ∧ DampersSound t) ∧
  ∀ (s t : State) (base : Nat), QueueOrdered s → FloorSound s → OrdersPacked s → step s = .next t →
    (∀ e ∈ s.queue ++ t.queue, minus e.launch base ≤ 1000000000) →
    (∀ e ∈ s.queue, 1 ≤ (s.admission - e.admission).toNat ∧ (s.admission - e.admission).toNat ≤ 2147483640) →
    QueueOrdered t

/-- Every step keeps the floor record sound, and every queued entry one of the holder, of the fading performance, or a
TEST entry under a VACANT record. -/
def Obligations.StepsKeepFloor : Prop :=
  ∀ s t : State, FloorSound s → QueueBelongs s → step s = .next t → FloorSound t ∧ QueueBelongs t

/-- Every step keeps the locks: as many on a tune slot as performances that play from it, and none on a slot that does
not resolve to a VALID part; and it keeps the loaded parts within their pool of 6144 events. -/
def Obligations.StepsKeepLocks : Prop :=
  (∀ s t : State, LocksSound s → step s = .next t → LocksSound t) ∧
  ∀ s t : State, PoolSound s → step s = .next t → PoolSound t

/-- The stages between floor and insertion, for an order and a TEST entry alike. The floor stage knows the holder's and,
before its cut-off, the fading performance's orders. The launch time is the impact less the flight, which falls from F1
to F15 with the velocity, moved to now, and then to the channel's ready time, by no more than the late limit each, or
discarded LATE or TOO_CLOSE. A full queue gives the holder's order the place of the last fading entry and discards any
other with OVERFLOW. An entry removed leaves the queue with its counter and its record. An order with velocity 0 does
nothing. That the record is written before an entry to SILENT is announced to the trace, the mark of an entry that is
held at its insertion, the lift where R64 names no earliest lift time, and the place and the eviction of an entry among
launch times that R64 does not order, are the model's own (notes/assumptions/9.md, notes/assumptions/12.md,
notes/assumptions/58.md, notes/assumptions/59.md). -/
def Obligations.OrderPlanned : Prop :=
  (∀ (p : PerfId) (base now : Nat) (o : OrderItem) (s : State), o.velocity = 0 → takeOrder p base now o s = s) ∧
  (∀ (p : PerfId) (impact : Nat) (s : State),
    (∀ h, s.floor.holder = some h → h.perf = p → floorStanding s p impact = some (.holder, h.priority.level)) ∧
    (∀ f, (∀ h, s.floor.holder = some h → h.perf ≠ p) → s.floor.fading = some f → f.perf = p →
      ((∀ c, f.cutoff = some c → isBefore impact c = true) →
        floorStanding s p impact = some (.fading, f.priority.level)) ∧
      (∀ c, f.cutoff = some c → isBefore impact c = false → floorStanding s p impact = none)) ∧
    ((∀ h, s.floor.holder = some h → h.perf ≠ p) → (∀ f, s.floor.fading = some f → f.perf ≠ p) →
      floorStanding s p impact = none)) ∧
  (∀ (v : Voicing) (velocity : Nat),
    flightAt v velocity = v.f1 - ((v.f1 - v.f15) * (velocity - 1) + 7) / 14 ∧
    (v.f15 ≤ v.f1 → flightAt v 1 = v.f1 ∧ flightAt v 15 = v.f15 ∧
      (1 ≤ velocity → velocity ≤ 15 → v.f15 ≤ flightAt v velocity ∧ flightAt v velocity ≤ v.f1))) ∧
  (∀ limit launch earliest : Nat,
    (isBefore launch earliest = false → clampLaunch limit launch earliest = some launch) ∧
    (isBefore launch earliest = true → Machine.dist earliest launch ≤ limit →
      clampLaunch limit launch earliest = some earliest) ∧
    (isBefore launch earliest = true → limit < Machine.dist earliest launch →
      clampLaunch limit launch earliest = none)) ∧
  (∀ (k : Fin 8) (impact velocity now : Nat) (s : State),
    planLaunch s k impact velocity now =
      (match clampLaunch s.settings.lateLimit (minus impact (flightAt s.channels[k].voicing velocity)) now with
        | none => .discard .late
        | some t =>
          match readyTime s k with
          | none => .launch t
          | some r =>
            match clampLaunch s.settings.lateLimit t r with
            | none => .discard .tooClose
            | some u => .launch u)) ∧
  (∀ (k : Fin 8) (s : State),
    (readyTime s k = none ↔ (∀ e ∈ s.queue, e.channel ≠ k) ∧ s.channels[k].lastFired = none) ∧
    (∀ r base, readyTime s k = some r → (∀ e ∈ s.queue, e.channel = k → minus e.launch base ≤ 1000000000) →
      (∀ l, s.channels[k].lastFired = some l → minus l.launch base ≤ 1000000000) → ∃ last,
        r = plus last s.channels[k].voicing.back ∧
        ((∃ e ∈ s.queue, e.channel = k ∧ e.launch = last) ∨
          ∃ l, s.channels[k].lastFired = some l ∧ l.launch = last) ∧
        (∀ e ∈ s.queue, e.channel = k → isAfter e.launch last = false) ∧
        ∀ l, s.channels[k].lastFired = some l → isAfter l.launch last = false)) ∧
  (∀ (k : Fin 8) (owner : Owner) (pr impact velocity : Nat) (d : Option Nat) (st : Standing) (now : Nat) (s : State),
    (∀ c, planLaunch s k impact velocity now = .discard c →
      admitRequest k owner pr impact velocity d st now s = (raise c s, false)) ∧
    (∀ launch, planLaunch s k impact velocity now = .launch launch →
      (∀ r : State, (s.queue.length < 96 ∧ r = s) ∨
          (96 ≤ s.queue.length ∧ st = .holder ∧ ∃ pre x post, s.queue = pre ++ x :: post ∧
            (fadingOf s x).isSome = true ∧ (∀ y ∈ post, fadingOf s y = none) ∧ r = removeEntry .purged x s) →
        ∃ (e : Entry) (t : State), e.channel = k ∧ e.owner = owner ∧ e.priority = pr ∧ e.impact = impact ∧
          e.launch = launch ∧ e.velocity = velocity ∧
          e.duration = (if s.channels[k].voicing.damped = true then d else none) ∧
          e.lift = e.duration.map (fun _ => minus launch s.channels[k].voicing.lead) ∧
          e.admission = s.admission ∧ e.held = false ∧ EntryInserted e r t ∧
          admitRequest k owner pr impact velocity d st now s = (afterInsertion e t, true)) ∧
      (96 ≤ s.queue.length → st ≠ .holder ∨ (∀ x ∈ s.queue, fadingOf s x = none) →
        admitRequest k owner pr impact velocity d st now s = (raise .overflow s, false)))) ∧
  (∀ (o : StrikeOutcome) (e : Entry) (s : State),
    (removeEntry o e s).queue = s.queue.erase e ∧ Raised (outcomeCounter o) s (removeEntry o e s) ∧
    (∀ r : StrikeRecord, r =
        { channel := e.channel, owner := e.owner, impact := e.impact, launch := s.time.tower, requested := e.velocity
          fired := 0, outcome := o, lateness := 0 } →
      (s.trace.state ≠ .frozen → (removeEntry o e s).trace.records.getLast? = some r) ∧
      (removeEntry o e s).trace = (if s.silence.state ≠ .silent ∧ (removeEntry o e s).silence.state = .silent
        then silentTrigger (writeRecord r s) else writeRecord r s).trace) ∧
    Unchanged removal s (removeEntry o e s))
end

