-- ==== Sys2Proof/Laws/Frame.lean ====
section
/-! SUPPORT. The algebra of `Unchanged`: how the frames of operations compose. -/

namespace Sys2Proof.Machine

-- One proof after another: many at once would ask for more threads than the memory limit allows.
set_option Elab.async false

/-- Nothing done changes nothing. -/
theorem Unchanged.refl (ps : List Part) (s : State) : Unchanged ps s s := by
  intro p _
  cases p <;> rfl

/-- A part that is the same twice is the same. -/
theorem Part.same_trans (p : Part) {s t u : State} (h1 : p.same s t) (h2 : p.same t u) : p.same s u := by
  cases p <;> exact Eq.trans h2 h1

/-- A longer list of parts promises less. -/
theorem Unchanged.widen {ps qs : List Part} {s t : State} (h : Unchanged ps s t)
    (hsub : ∀ q ∈ ps, q ∈ qs := by decide) : Unchanged qs s t :=
  fun p hp => h p fun hm => hp (hsub p hm)

/-- One operation after another, the second within the first's parts. -/
theorem Unchanged.andThen {ps qs : List Part} {s t u : State} (h1 : Unchanged ps s t)
    (h2 : Unchanged qs t u) (hsub : ∀ q ∈ qs, q ∈ ps := by decide) : Unchanged ps s u :=
  fun p hp => p.same_trans (h1 p hp) (h2 p fun hm => hp (hsub p hm))

/-- Either branch of a test. -/
theorem Unchanged.ite {ps : List Part} {s a b : State} {c : Prop} [Decidable c]
    (h1 : Unchanged ps s a) (h2 : Unchanged ps s b) : Unchanged ps s (if c then a else b) := by
  by_cases h : c
  · rw [if_pos h]; exact h1
  · rw [if_neg h]; exact h2

/-- An operation repeated along a list. -/
theorem Unchanged.foldl {α : Type} {ps : List Part} (f : State → α → State)
    (h : ∀ t a, Unchanged ps t (f t a)) (l : List α) (s : State) : Unchanged ps s (l.foldl f s) := by
  induction l generalizing s with
  | nil => exact .refl ps s
  | cons a l ih => exact (h s a).andThen (ih (f s a)) (fun _ hq => hq)

end Sys2Proof.Machine
end

