-- ==== Sys2Proof/Laws/Ops.lean ====
section
/-! SUPPORT. The frames of the operations of Machine/Ops.lean and Machine/Flags.lean: which parts of the state each
may change. -/

namespace Sys2Proof.Machine

-- One proof after another: many at once would ask for more threads than the memory limit allows.
set_option Elab.async false

/-- Raising a counter changes only the counters. -/
theorem raise_unchanged (c : Counter) (s : State) : Unchanged [.counters] s (raise c s) := by
  intro p hp
  cases p <;> first | rfl | simp at hp

/-- A trigger changes only the trace. -/
theorem fireTrigger_unchanged (s : State) : Unchanged [.trace] s (fireTrigger s) := by
  intro p hp
  cases p <;> first | rfl | simp at hp

/-- An announced entry to SILENT changes only the trace. -/
theorem silentTrigger_unchanged (s : State) : Unchanged [.trace] s (silentTrigger s) := by
  exact .ite (fireTrigger_unchanged s) (.refl _ s)

/-- A record offered changes only the trace. -/
theorem writeRecord_unchanged (r : StrikeRecord) (s : State) : Unchanged [.trace] s (writeRecord r s) := by
  unfold writeRecord
  split
  · exact .refl _ s
  · intro p hp
    cases p <;> first | rfl | simp at hp
  · refine .ite (Unchanged.andThen (t := { s with trace := _ }) ?_ (fireTrigger_unchanged _)) ?_ <;>
      (intro p hp; cases p <;> first | rfl | simp at hp)

/-- A channel record changes, nothing else. -/
theorem updChannel_unchanged (k : Fin 8) (f : Channel → Channel) (s : State) : Unchanged [.channels] s (updChannel k f s) := by
  intro p hp
  cases p <;> first | rfl | simp at hp

/-- Channel records change, nothing else. -/
theorem mapChannels_unchanged (f : Channel → Channel) (s : State) : Unchanged [.channels] s (mapChannels f s) := by
  intro p hp
  cases p <;> first | rfl | simp at hp

/-- Only the bank changes. -/
theorem bankSync_unchanged (s : State) : Unchanged [.drive] s (bankSync s) := by
  intro p hp
  cases p <;> first | rfl | simp at hp

/-- Only the bank changes. -/
theorem wakeBank_unchanged (s : State) : Unchanged [.drive] s (wakeBank s) := by
  intro p hp
  cases p <;> first | rfl | simp at hp

/-- Only the bank changes. -/
theorem drainCheck_unchanged (s : State) : Unchanged [.drive] s (drainCheck s) := by
  unfold drainCheck
  refine .ite ?_ (.refl _ s)
  intro p hp
  cases p <;> first | rfl | simp at hp

/-- Only the bank changes. -/
theorem startDrain_unchanged (s : State) : Unchanged [.drive] s (startDrain s) := by
  refine Unchanged.andThen (t := { s with drive := _ }) ?_ (drainCheck_unchanged _)
  intro p hp
  cases p <;> first | rfl | simp at hp

/-- Only the bank changes. -/
theorem chargeTick_unchanged (s : State) : Unchanged [.drive] s (chargeTick s) := by
  unfold chargeTick
  refine .ite (Unchanged.andThen (t := { s with drive := _ }) ?_ (bankSync_unchanged _)) (.refl _ s)
  intro p hp
  cases p <;> first | rfl | simp at hp

/-- Only the bank changes. -/
theorem idleTick_unchanged (s : State) : Unchanged [.drive] s (idleTick s) := by
  intro p hp
  cases p <;> first | rfl | simp at hp

/-- The bank and the hammer gates change. -/
theorem shutBank_unchanged (s : State) : Unchanged [.drive, .channels] s (shutBank s) := by
  intro p hp
  cases p <;> first | rfl | simp at hp

/-- Only the damper changes. -/
theorem tryLift_unchanged (k : Fin 8) (s : State) : Unchanged [.channels] s (tryLift k s) := by
  exact .ite (updChannel_unchanged k _ s) (.refl _ s)

/-- The damper, and the bank when a drain completes. -/
theorem idleDrop_unchanged (k : Fin 8) (s : State) : Unchanged [.channels, .drive] s (idleDrop k s) := by
  exact .ite ((updChannel_unchanged k _ s).widen.andThen (drainCheck_unchanged _)) (.refl _ s)

/-- The damper, and the bank when a drain completes. -/
theorem dropDamper_unchanged (k : Fin 8) (s : State) : Unchanged [.channels, .drive] s (dropDamper k s) := by
  unfold dropDamper
  split
  · exact .refl _ s
  · exact .ite (updChannel_unchanged k _ s).widen
      (((updChannel_unchanged k _ s).widen.andThen (tryLift_unchanged k _)).andThen (drainCheck_unchanged _))

/-- Only the dampers change. -/
theorem dropAll_unchanged (s : State) : Unchanged [.channels] s (dropAll s) := by
  exact mapChannels_unchanged _ s

/-! ### Silence -/

/-- Silence, and the trace when it is a trigger. -/
theorem goSilent_unchanged (mark : Bool) (s : State) : Unchanged [.silence, .trace] s (goSilent mark s) := by
  have h : Unchanged [.silence, .trace] s { s with silence := { s.silence with
      state := .silent, level := 15, fadeCount := 0, resumable := mark, hold := 0 } } := by
    intro p hp
    cases p <;> first | rfl | simp at hp
  exact .ite h (h.andThen (silentTrigger_unchanged _))

/-- Only silence changes. -/
theorem goVoiced_unchanged (s : State) : Unchanged [.silence] s (goVoiced s) := by
  intro p hp
  cases p <;> first | rfl | simp at hp

/-- Only silence changes. -/
theorem goHolding_unchanged (s : State) : Unchanged [.silence] s (goHolding s) := by
  refine .ite (goVoiced_unchanged s) ?_
  intro p hp
  cases p <;> first | rfl | simp at hp

/-- Silence, and the trace when it is a trigger. -/
theorem fadeOut_unchanged (s : State) : Unchanged [.silence, .trace] s (fadeOut s) := by
  exact .ite (goSilent_unchanged false s) (.refl _ s)

/-- Silence, and the trace when it is a trigger. -/
theorem goFading_unchanged (s : State) : Unchanged [.silence, .trace] s (goFading s) := by
  refine Unchanged.andThen (t := { s with silence := _ }) ?_ (fadeOut_unchanged _)
  intro p hp
  cases p <;> first | rfl | simp at hp

/-- Silence, and the trace when it is a trigger. -/
theorem actOn_unchanged (c : Condition) (s : State) : Unchanged [.silence, .trace] s (actOn c s) := by
  refine .ite (goSilent_unchanged false s) ?_
  split
  · exact goFading_unchanged s
  · exact .refl _ s
  · intro p hp
    cases p <;> first | rfl | simp at hp
  · exact goSilent_unchanged false s

/-- Silence, and the trace when it is a trigger. -/
theorem allCleared_unchanged (s : State) : Unchanged [.silence, .trace] s (allCleared s) := by
  unfold allCleared
  split
  · exact .refl _ s
  · exact .refl _ s
  all_goals
    split
    · exact (goHolding_unchanged s).widen
    · exact goSilent_unchanged true s

/-- A condition asserted: silence, and the trace when it is a trigger. -/
theorem assertCond_unchanged (c : Condition) (s : State) : Unchanged [.silence, .trace] s (assertCond c s) := by
  have h : Unchanged [.silence, .trace] s
      { s with silence := { s.silence with conds := s.silence.conds ||| c.flag } } := by
    intro p hp
    cases p <;> first | rfl | simp at hp
  exact .ite (.refl _ s) (.ite (h.andThen (actOn_unchanged c _)) h)

/-- A condition cleared: silence, and the trace when it is a trigger. -/
theorem clearCond_unchanged (c : Condition) (s : State) : Unchanged [.silence, .trace] s (clearCond c s) := by
  have h : Unchanged [.silence, .trace] s
      { s with silence := { s.silence with conds := s.silence.conds &&& ~~~c.flag } } := by
    intro p hp
    cases p <;> first | rfl | simp at hp
  exact .ite (.ite (h.andThen (allCleared_unchanged _)) h) (.refl _ s)

/-- Silence, and the trace when it is a trigger. -/
theorem fadeStepSilence_unchanged (s : State) : Unchanged [.silence, .trace] s (fadeStepSilence s) := by
  refine .ite (.ite (.ite (goSilent_unchanged false s) ?_) ?_) (.refl _ s) <;>
    (intro p hp; cases p <;> first | rfl | simp at hp)

/-- Silence, and the trace when it is a trigger. -/
theorem actNewlyEnabled_unchanged (before : BitVec 8) (s : State) : Unchanged [.silence, .trace] s (actNewlyEnabled before s) := by
  exact .foldl _ (fun t c => .ite (actOn_unchanged c t) (.refl _ t)) _ s

/-- A new mask: silence, and the trace when it is a trigger. -/
theorem setMask_unchanged (mask : BitVec 8) (s : State) : Unchanged [.silence, .trace] s (setMask mask s) := by
  have h : Unchanged [.silence, .trace] s { s with silence := { s.silence with mask := mask } } := by
    intro p hp
    cases p <;> first | rfl | simp at hp
  have h2 := h.andThen (actNewlyEnabled_unchanged (enabledActive s.silence) _)
  exact .ite (h2.andThen (allCleared_unchanged _)) h2

/-- Only silence changes. -/
theorem holdTick_unchanged (s : State) : Unchanged [.silence] s (holdTick s) := by
  refine .ite ?_ (.refl _ s)
  intro p hp
  cases p <;> first | rfl | simp at hp

/-- The lock state, and the silence that follows it. -/
theorem setLock_unchanged (l : LockState) (s : State) : Unchanged [.time, .silence, .trace] s (setLock l s) := by
  have h : Unchanged [.time, .silence, .trace] s { s with time := { s.time with lock := l } } := by
    intro p hp
    cases p <;> first | rfl | simp at hp
  exact .ite (h.andThen (assertCond_unchanged _ _)) (h.andThen (clearCond_unchanged _ _))

end Sys2Proof.Machine
end

