-- ==== Sys2Proof/Laws/Strike.lean ====
section
/-! SUPPORT. The frames of the operations of Machine/Strike.lean. -/

namespace Sys2Proof.Machine

-- One proof after another: many at once would ask for more threads than the memory limit allows.
set_option Elab.async false

/-- The fading part at most is cleared. -/
theorem checkFading_unchanged (s : State) : Unchanged [.floor] s (checkFading s) := by
  unfold checkFading
  split
  · exact .refl _ s
  · refine .ite (.refl _ s) ?_
    intro p hp
    cases p <;> first | rfl | simp at hp

/-- What follows a removal. -/
theorem afterRemoval_unchanged (e : Entry) (s : State) : Unchanged [.floor, .channels, .drive, .silence, .trace] s (afterRemoval e s) := by
  have h : Unchanged [.floor, .channels, .drive, .silence, .trace] s
      (if (fadingOf s e).isSome then checkFading s else s) :=
    .ite (checkFading_unchanged s).widen (.refl _ s)
  exact (h.andThen (idleDrop_unchanged e.channel _)).andThen (fadeOut_unchanged _)

/-- Only the queue changes. -/
theorem dequeue_unchanged (e : Entry) (s : State) : Unchanged [.queue] s (dequeue e s) := by
  intro p hp
  cases p <;> first | rfl | simp at hp

/-- An entry removed without a launch event. -/
theorem removeEntry_unchanged (o : StrikeOutcome) (e : Entry) (s : State) : Unchanged removal s (removeEntry o e s) := by
  have h : Unchanged removal s (dequeue e s) := (dequeue_unchanged e s).widen
  exact ((h.andThen (writeRecord_unchanged _ _)).andThen (raise_unchanged _ _)).andThen
    (afterRemoval_unchanged e _)

/-- A purge. -/
theorem purge_unchanged (sel : Entry → Bool) (s : State) : Unchanged removal s (purge sel s) := by
  exact .foldl _ (fun t e => removeEntry_unchanged .purged e t) _ s

/-- A purge of one performance. -/
theorem purgePerf_unchanged (p : PerfId) (s : State) : Unchanged removal s (purgePerf p s) := by
  exact purge_unchanged _ s

/-- A purge of the TEST entries. -/
theorem purgeTest_unchanged (s : State) : Unchanged removal s (purgeTest s) := by
  exact purge_unchanged _ s

/-- A strike fired: the bank and its channel. -/
theorem fireEntry_unchanged (e : Entry) (v : Nat) (s : State) : Unchanged [.drive, .channels] s (fireEntry e v s) := by
  have h : Unchanged [.drive, .channels] s { s with drive := { s.drive with
      level := s.drive.level - strikeCost s.channels[e.channel].voicing v } } := by
    intro p hp
    cases p <;> first | rfl | simp at hp
  exact (h.andThen (updChannel_unchanged _ _ _)).andThen (bankSync_unchanged _)

/-- The preempt fade: only the floor record. -/
theorem preemptStep_unchanged (e : Entry) (s : State) : Unchanged [.floor] s (preemptStep e s) := by
  unfold preemptStep
  split
  · exact .refl _ s
  · refine .ite (.refl _ s) ?_
    intro p hp
    cases p <;> first | rfl | simp at hp

/-- What every launch event brings. -/
theorem closeLaunch_unchanged (e : Entry) (o : StrikeOutcome) (s : State) : Unchanged [.counters, .floor, .channels, .drive, .silence, .trace] s (closeLaunch e o s) := by
  have h : Unchanged [.counters, .floor, .channels, .drive, .silence, .trace] s
      (raise (outcomeCounter o) s) := (raise_unchanged _ s).widen
  exact ((h.andThen (preemptStep_unchanged e _)).andThen (fadeStepSilence_unchanged _)).andThen
    (afterRemoval_unchanged e _)

/-- A launch event. -/
theorem launchEntry_unchanged (e : Entry) (s : State) : Unchanged removal s (launchEntry e s) := by
  have h : Unchanged removal s (dequeue e s) := (dequeue_unchanged e s).widen
  unfold launchEntry
  dsimp only
  split
  · rename_i o _
    have h2 : Unchanged removal s (writeRecord (unfiredRecord s (servedEntry s e) o) (dequeue e s)) :=
      h.andThen (writeRecord_unchanged _ _)
    exact h2.andThen (closeLaunch_unchanged _ _ _)
  · rename_i u o _
    have h2 : Unchanged removal s (fireEntry (servedEntry s e) u (dequeue e s)) :=
      h.andThen (fireEntry_unchanged _ _ _)
    exact (h2.andThen (writeRecord_unchanged _ _)).andThen (closeLaunch_unchanged _ _ _)

/-- An entry held. -/
theorem holdEntry_unchanged (e : Entry) (s : State) : Unchanged [.queue] s (holdEntry e s) := by
  intro p hp
  cases p <;> first | rfl | simp at hp

/-- An entry no longer held. -/
theorem releaseEntry_unchanged (e : Entry) (s : State) : Unchanged [.queue] s (releaseEntry e s) := by
  intro p hp
  cases p <;> first | rfl | simp at hp

/-- Entries held. -/
theorem markHeld_unchanged (s : State) : Unchanged [.queue] s (markHeld s) := by
  intro p hp
  cases p <;> first | rfl | simp at hp

/-- The full-queue stage, when it makes room. -/
theorem makeRoom_unchanged (st : Standing) (s t : State) (h : makeRoom st s = some t) :
    Unchanged removal s t := by
  unfold makeRoom at h
  split at h
  · cases h; exact .refl _ s
  · cases st with
    | holder =>
      simp only [Option.map_eq_some_iff] at h
      obtain ⟨e, _, rfl⟩ := h
      exact removeEntry_unchanged .purged e s
    | fading => cases h
    | test => cases h

/-- An insertion, with the launch event it may bring. -/
theorem insertStrike_unchanged (e : Entry) (s : State) : Unchanged admission s (insertStrike e s) := by
  have h : Unchanged admission s
      { s with queue := insertEntry { e with admission := s.admission, held := false } s.queue
               admission := s.admission + 1 } := by
    intro p hp
    cases p <;> first | rfl | simp [admission] at hp
  have h2 := (h.andThen (wakeBank_unchanged _)).andThen (tryLift_unchanged e.channel _)
  exact .ite (h2.andThen (launchEntry_unchanged _ _)) (.ite (h2.andThen (holdEntry_unchanged _ _)) h2)

/-- An order or TEST entry through its stages. -/
theorem admitRequest_unchanged (k : Fin 8) (owner : Owner) (priority impact velocity : Nat)
    (duration : Option Nat) (st : Standing) (now : Nat) (s : State) :
    Unchanged admission s (admitRequest k owner priority impact velocity duration st now s).1 := by
  unfold admitRequest
  split
  · exact (raise_unchanged _ s).widen
  · split
    · exact (raise_unchanged _ s).widen
    · rename_i t h
      exact (makeRoom_unchanged st s t h).widen.andThen (insertStrike_unchanged _ t)

/-- One order through the stages. -/
theorem takeOrder_unchanged (p : PerfId) (base now : Nat) (o : OrderItem) (s : State) :
    Unchanged admission s (takeOrder p base now o s) := by
  unfold takeOrder
  split
  · exact .refl _ s
  · refine .ite (.refl _ s) (.ite (raise_unchanged _ s).widen ?_)
    dsimp only
    split
    · exact (raise_unchanged _ s).widen
    · exact .ite (raise_unchanged _ s).widen (admitRequest_unchanged _ _ _ _ _ _ _ _ s)

/-- The orders of a frame. -/
theorem takeOrders_unchanged (p : PerfId) (base : Nat) (items : List OrderItem) (s : State) :
    Unchanged admission s (takeOrders p base items s) :=
  .foldl _ (fun t o => takeOrder_unchanged p base s.time.tower o t) items s

/-- A queued entry meets a step. -/
theorem stepEntry_unchanged (e : Entry) (s : State) : Unchanged removal s (stepEntry e s) :=
  .ite (.ite (removeEntry_unchanged .silenced e s)
    (.ite (.ite (launchEntry_unchanged e s) (holdEntry_unchanged e s).widen) (releaseEntry_unchanged e s).widen))
    (.refl _ s)

/-- The queue meets a step. -/
theorem stepQueue_unchanged (s : State) : Unchanged removal s (stepQueue s) :=
  .foldl _ (fun t e => stepEntry_unchanged e t) s.queue s

end Sys2Proof.Machine
end

