-- ==== Sys2Proof/Laws/Transmit.lean ====
section
/-! SUPPORT. The frames of the operations of Machine/Transmit.lean. -/

namespace Sys2Proof.Machine

-- One proof after another: many at once would ask for more threads than the memory limit allows.
set_option Elab.async false

/-- Only the slots change. -/
theorem setSlot_unchanged (k : Fin 4) (x : Slot) (s : State) : Unchanged [.conductor] s (setSlot k x s) := by
  intro p hp
  cases p <;> first | rfl | simp at hp

/-- Only the slots change. -/
theorem updPerf_unchanged (k : Fin 4) (f : Perf → Perf) (s : State) : Unchanged [.conductor] s (updPerf k f s) := by
  exact setSlot_unchanged k _ s

/-- Only the reply under way changes. -/
theorem partOut_unchanged (s : State) : Unchanged [.service] s (partOut s) := by
  unfold partOut
  split
  · exact .refl _ s
  · refine .ite ?_ ?_ <;> (intro p hp; cases p <;> first | rfl | simp at hp)

/-- A frame that has left the queue. -/
theorem frameGone_unchanged (o : Origin) (s : State) : Unchanged [.conductor, .service] s (frameGone o s) := by
  have h : Unchanged [.conductor, .service] s { s with conductor := { s.conductor with
      slots := Vector.ofFn fun k : Fin 4 => s.conductor.slots[k].change fun p => { p with chance := true } } } := by
    intro p hp
    cases p <;> first | rfl | simp at hp
  exact .ite (h.andThen (partOut_unchanged _)) h

/-- A frame reported lost to its builder. -/
theorem frameLost_unchanged (x : TxFrame) (s : State) : Unchanged [.conductor, .counters] s (frameLost x s) := by
  unfold frameLost
  split
  · split
    · exact (updPerf_unchanged _ _ s).widen
    · exact (updPerf_unchanged _ _ s).widen.andThen (raise_unchanged _ _)
    all_goals exact .refl _ s
  all_goals exact .refl _ s

/-- Only the transmit queue changes. -/
theorem joinTx_unchanged (x : TxFrame) (s : State) : Unchanged [.line] s (joinTx x s) := by
  intro p hp
  cases p <;> first | rfl | simp at hp

/-- An eviction. -/
theorem evictTx_unchanged (x : TxFrame) (s : State) : Unchanged handed s (evictTx x s) := by
  have h : Unchanged handed s { s with line := { s.line with queue := s.line.queue.dropLast } } := by
    intro p hp
    cases p <;> first | rfl | simp [handed] at hp
  exact ((h.andThen (raise_unchanged _ _)).andThen (frameLost_unchanged x _)).andThen
    (frameGone_unchanged _ _)

/-- A refusal. -/
theorem refuseTx_unchanged (x : TxFrame) (s : State) : Unchanged [.counters, .service] s (refuseTx x s) := by
  have h : Unchanged [.counters, .service] s
      (if countsRefusal x.frame then raise .txDropped s else s) :=
    .ite (raise_unchanged _ s).widen (.refl _ s)
  exact .ite (h.andThen (partOut_unchanged _)) h

/-- A frame handed to the queue. -/
theorem handFrame_unchanged (x : TxFrame) (s : State) : Unchanged handed s ((handFrame x s).1) := by
  unfold handFrame
  split
  · exact (joinTx_unchanged x s).widen
  · split
    · exact (refuseTx_unchanged x s).widen
    · split
      · exact (evictTx_unchanged _ s).andThen (joinTx_unchanged x _)
      · exact (refuseTx_unchanged x s).widen

/-- A PRESENCE handed to the queue. -/
theorem handBeacon_unchanged (b : NodeBeacon) (s : State) : Unchanged handed s (handBeacon b s) := by
  refine .ite ?_ (.ite ?_ (handFrame_unchanged _ s)) <;>
    (intro p hp; cases p <;> first | rfl | simp [handed] at hp)

/-- A PRESENCE built and handed. -/
theorem buildPresence_unchanged (s : State) : Unchanged handed s (buildPresence s) := by
  exact handBeacon_unchanged _ s

/-- A reply handed. -/
theorem reply_unchanged (h : Service) (n : Nat) (r : Result) (b : ReplyBody) (s : State) : Unchanged handed s (reply h n r b s) := by
  exact .ite (handFrame_unchanged _ s) (.refl _ s)

/-- A part of a reply handed. -/
theorem handPart_unchanged (n : Nat) (tag : BitVec 6) (final : Bool) (part : Nat) (b : ReplyBody) (s : State) : Unchanged handed s (handPart n tag final part b s) := by
  exact handFrame_unchanged _ s

/-- A frame offered: only the line. -/
theorem offerFrame_unchanged (s : State) : Unchanged [.line] s (offerFrame s) := by
  unfold offerFrame
  split
  · exact .refl _ s
  · intro p hp
    cases p <;> first | rfl | simp at hp

/-- Lost arbitration: only the line. -/
theorem loseArbitration_unchanged (c : Fin 11) (s : State) : Unchanged [.line] s (loseArbitration c s) := by
  unfold loseArbitration
  split
  · exact .refl _ s
  · refine .ite ?_ (.refl _ s)
    intro p hp
    cases p <;> first | rfl | simp at hp

/-- The end of a transmission. -/
theorem endSending_unchanged (o : Origin) (s : State) : Unchanged handed s (endSending o s) := by
  have h : Unchanged handed s { s with line := { s.line with sending := none, setAside := none } } := by
    intro p hp
    cases p <;> first | rfl | simp [handed] at hp
  have h2 := h.andThen (frameGone_unchanged o _)
  unfold endSending
  split
  · exact h2.andThen (handBeacon_unchanged _ _)
  · exact h2

/-- The beginning of LINE_FAULT. -/
theorem faultCheck_unchanged (s : State) : Unchanged [.line, .silence, .trace] s (faultCheck s) := by
  refine .ite (Unchanged.andThen (t := { s with line := _ }) ?_ (assertCond_unchanged _ _)) (.refl _ s)
  intro p hp
  cases p <;> first | rfl | simp at hp

/-- A transmission abandoned. -/
theorem abandonFrame_unchanged (s : State) : Unchanged [.line, .conductor, .counters, .service, .silence, .trace] s (abandonFrame s) := by
  unfold abandonFrame
  split
  · exact .refl _ s
  · have h : Unchanged [.line, .conductor, .counters, .service, .silence, .trace] s
        { s with line := { s.line with txErrors := s.line.txErrors + 1 } } := by
      intro p hp
      cases p <;> first | rfl | simp at hp
    exact (((h.andThen (raise_unchanged _ _)).andThen (frameLost_unchanged _ _)).andThen
      (endSending_unchanged _ _)).andThen (faultCheck_unchanged _)

/-- A frame acknowledged: only the line. -/
theorem acknowledge_unchanged (s : State) : Unchanged [.line] s (acknowledge s) := by
  intro p hp
  cases p <;> first | rfl | simp at hp

/-- Old receive errors forgotten: only the line. -/
theorem forgetErrors_unchanged (s : State) : Unchanged [.line] s (forgetErrors s) := by
  intro p hp
  cases p <;> first | rfl | simp at hp

/-- A receive error. -/
theorem receiveFailure_unchanged (s : State) : Unchanged [.line, .counters, .silence, .trace] s (receiveFailure s) := by
  have h : Unchanged [.line, .counters, .silence, .trace] s { s with line := { s.line with
      errors := recentErrors s ++ [s.time.count], ackDriven := false } } := by
    intro p hp
    cases p <;> first | rfl | simp at hp
  have h2 := h.andThen (raise_unchanged .rxError _)
  exact .ite (h2.andThen (assertCond_unchanged _ _)) h2

end Sys2Proof.Machine
end

