-- ==== Sys2Proof/Laws/Conduct.lean ====
section
/-! SUPPORT. The frames of the operations of Machine/Tunes.lean and Machine/Conduct.lean. -/

namespace Sys2Proof.Machine

-- One proof after another: many at once would ask for more threads than the memory limit allows.
set_option Elab.async false

/-- Only the library changes. -/
theorem setPart_unchanged (k : Fin 32) (x : LoadedPart) (s : State) : Unchanged [.library] s (setPart k x s) := by
  intro p hp
  cases p <;> first | rfl | simp at hp

/-- Only the library changes. -/
theorem lockTune_unchanged (k : Fin 32) (s : State) : Unchanged [.library] s (lockTune k s) := by
  intro p hp
  cases p <;> first | rfl | simp at hp

/-- Only the library changes. -/
theorem unlockTune_unchanged (k : Fin 32) (s : State) : Unchanged [.library] s (unlockTune k s) := by
  intro p hp
  cases p <;> first | rfl | simp at hp

/-- Only the Conductor changes. -/
theorem bumpSequence_unchanged (n : BitVec 8) (s : State) : Unchanged [.conductor] s (bumpSequence n s) := by
  intro p hp
  cases p <;> first | rfl | simp at hp

/-- Only the play contacts change. -/
theorem freeContactsOf_unchanged (k : Fin 4) (s : State) : Unchanged [.calendar] s (freeContactsOf k s) := by
  intro p hp
  cases p <;> first | rfl | simp at hp

/-- A slot ended. -/
theorem closeSlot_unchanged (k : Fin 4) (n : BitVec 8) (o : PerfOutcome) (s : State) :
    Unchanged [.conductor, .counters, .calendar] s (closeSlot k n o s) :=
  (Unchanged.andThen (setSlot_unchanged k _ s).widen (raise_unchanged _ _)).andThen (freeContactsOf_unchanged k _)

/-- A cue handed to the Conductor. -/
theorem takeCue_unchanged (n : Fin 32) (pr : Option Priority) (m : Nat) (s : State) :
    Unchanged [.conductor, .counters, .calendar, .library] s (takeCue n pr m s).1 := by
  unfold takeCue
  split
  · exact .refl _ s
  · dsimp only
    split
    · exact (bumpSequence_unchanged _ s).widen.andThen (closeSlot_unchanged _ _ _ _)
    · exact ((bumpSequence_unchanged _ s).widen.andThen (setSlot_unchanged _ _ _)).andThen (lockTune_unchanged _ _)

/-- A frame handed. -/
theorem handOnly_unchanged (x : TxFrame) (s : State) : Unchanged handed s (handOnly x s) := handFrame_unchanged x s

/-- A RELEASE handed. -/
theorem handRelease_unchanged (k : Fin 4) (p : Perf) (o : PerfOutcome) (s : State) :
    Unchanged handed s (handRelease k p o s) :=
  .ite (handOnly_unchanged _ s) (.refl _ s)

/-- A slot that ends. -/
theorem endPerf_unchanged (k : Fin 4) (p : Perf) (o : PerfOutcome) (s : State) :
    Unchanged ending s (endPerf k p o s) :=
  ((handRelease_unchanged k p o s).widen.andThen (unlockTune_unchanged _ _)).andThen (closeSlot_unchanged _ _ _ _)

/-- A slot that has rung out. -/
theorem finishPerf_unchanged (k : Fin 4) (p : Perf) (s : State) : Unchanged ending s (finishPerf k p s) := by
  have h : Unchanged ending s (handOnly (releaseFrame (.slot k) p.seq .ended) s) :=
    (handOnly_unchanged _ s).widen
  unfold finishPerf
  dsimp only
  split
  · exact h
  · exact (h.andThen (unlockTune_unchanged _ _)).andThen (closeSlot_unchanged _ _ _ _)

/-- A slot's streaming. -/
theorem stream_unchanged (n : Nat) (k : Fin 4) (s : State) : Unchanged handed s (stream n k s) := by
  induction n generalizing s with
  | zero => exact .refl _ s
  | succ n ih =>
    unfold stream
    split
    · exact .refl _ s
    · dsimp only
      split
      · exact (updPerf_unchanged k _ s).widen
      · rename_i p _ _ first rest _
        have h : Unchanged handed s (updPerf k (fun q => { q with cursor := first.1 }) s) :=
          (updPerf_unchanged k _ s).widen
        refine .ite h (.ite ?_ (.ite ?_ ?_))
        · have h2 : Unchanged handed s (skipLate k first.1 (updPerf k (fun q => { q with cursor := first.1 }) s)) :=
            (h.andThen (updPerf_unchanged k _ _)).andThen (raise_unchanged _ _)
          exact h2.andThen (ih _)
        · have h2 := h.andThen (handFrame_unchanged (orderFrame k p (packNotes first rest) first.2.1) _)
          exact (h2.andThen (updPerf_unchanged k _ _)).andThen (ih _)
        · have h2 := h.andThen (handFrame_unchanged (orderFrame k p (packNotes first rest) first.2.1) _)
          exact h2.andThen (updPerf_unchanged k _ _)

/-- A slot that builds. -/
theorem build_unchanged (k : Fin 4) (s : State) : Unchanged handed s (build k s) := by
  unfold build
  split
  · exact .refl _ s
  · exact .ite ((updPerf_unchanged k _ s).widen.andThen (stream_unchanged _ k _)) (.refl _ s)

/-- The ensemble gate. -/
theorem evalGate_unchanged (k : Fin 4) (p : Perf) (s : State) : Unchanged ending s (evalGate k p s) := by
  refine .ite ?_ (.ite ?_ (endPerf_unchanged k p _ s))
  · exact ((updPerf_unchanged k _ s).widen (qs := ending)).andThen (build_unchanged k _)
  · exact ((updPerf_unchanged k _ s).widen (qs := ending)).andThen (handOnly_unchanged _ _)

/-- The ensemble gate, if due. -/
theorem gateIfDue_unchanged (k : Fin 4) (s : State) : Unchanged ending s (gateIfDue k s) := by
  unfold gateIfDue
  split
  · exact .refl _ s
  · exact .ite (evalGate_unchanged k _ s) (.refl _ s)

/-- GATHERING entered. -/
theorem enterGathering_unchanged (k : Fin 4) (s : State) : Unchanged ending s (enterGathering k s) :=
  ((updPerf_unchanged k _ s).widen (qs := ending)).andThen (gateIfDue_unchanged k _)

/-- ACCEPTED or ADOPTED. -/
theorem onAccepted_unchanged (n : BitVec 8) (s : State) : Unchanged ending s (onAccepted n s) := by
  unfold onAccepted
  split
  · exact (handOnly_unchanged _ s).widen
  · split
    · exact .refl _ s
    · exact .ite (.refl _ s) (enterGathering_unchanged _ s)

/-- REFUSED. -/
theorem onRefused_unchanged (n : BitVec 8) (c : LocalCount) (s : State) : Unchanged ending s (onRefused n c s) := by
  unfold onRefused
  split
  · exact .refl _ s
  · split
    · exact .refl _ s
    · exact .ite (.ite (endPerf_unchanged _ _ _ s) (updPerf_unchanged _ _ s).widen) (.refl _ s)

/-- DUPLICATE. -/
theorem onDuplicate_unchanged (n : BitVec 8) (s : State) : Unchanged ending s (onDuplicate n s) := by
  unfold onDuplicate
  split
  · exact .refl _ s
  · split
    · exact .refl _ s
    · exact .ite (endPerf_unchanged _ _ _ s) (.refl _ s)

/-- CONTESTED or LAPSED. -/
theorem endHolding_unchanged (n : BitVec 8) (o : PerfOutcome) (s : State) : Unchanged ending s (endHolding n o s) := by
  unfold endHolding
  split
  · exact .refl _ s
  · split
    · exact .refl _ s
    · exact .ite (endPerf_unchanged _ _ _ s) (.refl _ s)

/-- PREEMPTED. -/
theorem onPreempted_unchanged (n : BitVec 8) (s : State) : Unchanged ending s (onPreempted n s) := by
  unfold onPreempted
  split
  · exact .refl _ s
  · rename_i k _
    split
    · exact .refl _ s
    · rename_i p _
      refine .ite (.refl _ s) (.ite ?_ (endPerf_unchanged _ _ _ s))
      have h : Unchanged ending s (closeSlot k p.seq .preempted (handRelease k p .preempted s)) :=
        (handRelease_unchanged k p _ s).widen.andThen (closeSlot_unchanged _ _ _ _)
      exact (h.andThen (bumpSequence_unchanged _ _)).andThen (setSlot_unchanged _ _ _)

/-- STOPPED. -/
theorem onStopped_unchanged (n : BitVec 8) (s : State) : Unchanged ending s (onStopped n s) := by
  unfold onStopped
  split
  · exact .refl _ s
  · split
    · exact .refl _ s
    · exact endPerf_unchanged _ _ _ s

/-- VACANT. -/
theorem onVacant_unchanged (s : State) : Unchanged [.conductor] s (onVacant s) :=
  .foldl _ (fun t k => updPerf_unchanged k _ t) allSlots s

/-- A notice. -/
theorem onNotice_unchanged (n : Notice) (s : State) : Unchanged ending s (onNotice n s) := by
  cases n with
  | accepted n => exact onAccepted_unchanged n s
  | adopted n => exact onAccepted_unchanged n s
  | refused n c => exact onRefused_unchanged n c s
  | duplicate n => exact onDuplicate_unchanged n s
  | preempted n => exact onPreempted_unchanged n s
  | contested n => exact endHolding_unchanged n _ s
  | lapsed n => exact endHolding_unchanged n _ s
  | stopped n => exact onStopped_unchanged n s
  | vacant => exact (onVacant_unchanged s).widen

/-- Notices in turn. -/
theorem giveNotices_unchanged (ns : List Notice) (s : State) : Unchanged ending s (giveNotices ns s) :=
  .foldl _ (fun t n => onNotice_unchanged n t) ns s

end Sys2Proof.Machine
end

