-- ==== Sys2Proof/Laws/Floor.lean ====
section
/-! SUPPORT. The frames of the operations of Machine/FloorRules.lean and Machine/Cues.lean. -/

namespace Sys2Proof.Machine

-- One proof after another: many at once would ask for more threads than the memory limit allows.
set_option Elab.async false

/-- The holder part is written. -/
theorem writeHolder_unchanged (h : Holder) (s : State) : Unchanged [.floor] s (writeHolder h s) := by
  intro p hp
  cases p <;> first | rfl | simp at hp

/-- The holder part is removed. -/
theorem dropHolder_unchanged (s : State) : Unchanged [.floor] s (dropHolder s) := by
  intro p hp
  cases p <;> first | rfl | simp at hp

/-- The fading part is cleared. -/
theorem clearFading_unchanged (s : State) : Unchanged [.floor] s (clearFading s) := by
  intro p hp
  cases p <;> first | rfl | simp at hp

/-- The floor record is written. -/
theorem writeFloor_unchanged (r : FloorRecord) (s : State) : Unchanged [.floor] s { s with floor := r } := by
  intro p hp
  cases p <;> first | rfl | simp at hp

/-- The fading performance is purged. -/
theorem purgeFading_unchanged (s : State) : Unchanged removal s (purgeFading s) := by
  unfold purgeFading
  split
  · exact .refl _ s
  · exact (purgePerf_unchanged _ s).andThen (clearFading_unchanged _)

/-- A wake, when touched. -/
theorem wakeIfTouched_unchanged (m : BellMask) (s : State) : Unchanged [.drive] s (wakeIfTouched m s) :=
  .ite (wakeBank_unchanged s) (.refl _ s)

/-- A holder taken on a VACANT record. -/
theorem takeVacant_unchanged (h : Holder) (s : State) : Unchanged removal s (takeVacant h s) :=
  (((purgeFading_unchanged s).andThen (purgeTest_unchanged _) (fun _ hq => hq)).andThen
    (writeHolder_unchanged h _)).andThen (wakeIfTouched_unchanged _ _)

/-- A preemption. -/
theorem preempt_unchanged (old new : Holder) (s : State) : Unchanged removal s (preempt old new s) := by
  have h : Unchanged removal s
      (purge (fromCutoff old.perf (minus new.start Config.gateLead)) (purgeFading s)) :=
    (purgeFading_unchanged s).andThen (purge_unchanged _ _) (fun _ hq => hq)
  exact (((h.andThen (writeFloor_unchanged _ _)).andThen (checkFading_unchanged _)).andThen
    (wakeIfTouched_unchanged _ _)).andThen (raise_unchanged _ _)

/-- A refresh. -/
theorem refresh_unchanged (t : Nat) (c : LocalCount) (s : State) : Unchanged [.floor] s (refresh t c s) := by
  unfold refresh
  split
  · exact .refl _ s
  · exact writeHolder_unchanged _ s

/-- A CLAIM applied. -/
theorem applyClaim_unchanged (h : Holder) (s : State) : Unchanged floorEvent s (applyClaim h s) := by
  unfold applyClaim
  split
  · exact (takeVacant_unchanged h s).widen.andThen (giveNotices_unchanged _ _)
  · exact (refresh_unchanged _ _ s).widen.andThen (giveNotices_unchanged _ _)
  · exact (giveNotices_unchanged _ s).widen
  · exact (giveNotices_unchanged _ s).widen
  · split
    · exact .refl _ s
    · exact (preempt_unchanged _ h s).widen.andThen (giveNotices_unchanged _ _)

/-- The holder leaves the floor. -/
theorem vacate_unchanged (x : Holder) (s : State) : Unchanged removal s (vacate x s) := by
  unfold vacate
  split
  · exact (writeFloor_unchanged _ s).widen.andThen (checkFading_unchanged _)
  · exact (purgePerf_unchanged x.perf s).andThen (writeFloor_unchanged _ _)

/-- A RELEASE applied. -/
theorem applyRelease_unchanged (q : PerfId) (s : State) : Unchanged floorEvent s (applyRelease q s) := by
  unfold applyRelease
  split
  · exact .refl _ s
  · exact .ite ((vacate_unchanged _ s).widen.andThen (giveNotices_unchanged _ _)) (.refl _ s)

/-- A fading performance that becomes holder. -/
theorem purgeIfFading_unchanged (q : PerfId) (s : State) : Unchanged removal s (purgeIfFading q s) := by
  unfold purgeIfFading
  split
  · exact .refl _ s
  · exact .ite (purgeFading_unchanged s) (.refl _ s)

/-- A beacon replaces the holder. -/
theorem replaceHolder_unchanged (x b : Holder) (s : State) : Unchanged removal s (replaceHolder x b s) :=
  ((((purgeIfFading_unchanged b.perf s).andThen (purgePerf_unchanged x.perf _)).andThen (writeHolder_unchanged b _)).andThen
    (wakeIfTouched_unchanged _ _)).andThen (raise_unchanged _ _)

/-- A FLOOR beacon applied. -/
theorem applyFloor_unchanged (b : Holder) (s : State) : Unchanged floorEvent s (applyFloor b s) := by
  unfold applyFloor
  split
  · exact (takeVacant_unchanged b s).widen.andThen (giveNotices_unchanged _ _)
  · refine .ite (refresh_unchanged _ _ s).widen (.ite ?_ (giveNotices_unchanged _ s).widen)
    exact (replaceHolder_unchanged _ b s).widen.andThen (giveNotices_unchanged _ _)

/-- A lapse. -/
theorem applyLapse_unchanged (s : State) : Unchanged floorEvent s (applyLapse s) := by
  unfold applyLapse
  split
  · exact .refl _ s
  · exact ((vacate_unchanged _ s).widen (qs := floorEvent)).andThen (raise_unchanged _ _) |>.andThen
      (giveNotices_unchanged _ _)

/-- A STOP of one performance, less its notices. -/
theorem stopPerf_unchanged (q : PerfId) (s : State) : Unchanged removal s (stopPerf q s) :=
  .ite ((purgePerf_unchanged q s).andThen (dropHolder_unchanged _)) (.ite (purgeFading_unchanged s) (.refl _ s))

/-- A STOP of one performance. -/
theorem applyStopPerf_unchanged (q : PerfId) (s : State) : Unchanged floorEvent s (applyStopPerf q s) :=
  (stopPerf_unchanged q s).widen.andThen (giveNotices_unchanged _ _)

/-- The holder purged. -/
theorem purgeHolder_unchanged (s : State) : Unchanged removal s (purgeHolder s) := by
  unfold purgeHolder
  split
  · exact .refl _ s
  · exact purgePerf_unchanged _ s

/-- A STOP of the floor, less its notices. -/
theorem stopFloorRecord_unchanged (s : State) : Unchanged removal s (stopFloorRecord s) :=
  (((purgeHolder_unchanged s).andThen (purgeFading_unchanged _) (fun _ hq => hq)).andThen
    (purgeTest_unchanged _) (fun _ hq => hq)).andThen (dropHolder_unchanged _)

/-- A STOP of the floor. -/
theorem applyStopFloor_unchanged (s : State) : Unchanged floorEvent s (applyStopFloor s) :=
  (stopFloorRecord_unchanged s).widen.andThen (giveNotices_unchanged _ _)

/-! ### Calendar and contacts -/

/-- A calendar entry changes. -/
theorem updEntry_unchanged (i : Fin 24) (f : CalEntry → CalEntry) (s : State) :
    Unchanged [.calendar] s (updEntry i f s) := by
  intro p hp
  cases p <;> first | rfl | simp at hp

/-- A calendar cue. -/
theorem fireCue_unchanged (i : Fin 24) (m : Nat) (s : State) :
    Unchanged [.conductor, .counters, .calendar, .library] s (fireCue i m s) := by
  have h : Unchanged [.conductor, .counters, .calendar, .library] s
      (raise .cuesFired (updEntry i (fun x => { x with lastFired := some m }) s)) :=
    (updEntry_unchanged i _ s).widen.andThen (raise_unchanged _ _)
  unfold fireCue
  dsimp only
  split
  · exact (h.andThen (takeCue_unchanged _ _ _ _)).andThen (raise_unchanged _ _)
  · exact h.andThen (takeCue_unchanged _ _ _ _)
  · exact h.andThen (takeCue_unchanged _ _ _ _)

/-- One entry decided. -/
theorem decideEntry_unchanged (m : Nat) (i : Fin 24) (s : State) :
    Unchanged [.conductor, .counters, .calendar, .library] s (decideEntry m i s) :=
  .ite (.refl _ s) (.ite (.refl _ s) (.ite (raise_unchanged _ s).widen (.ite (raise_unchanged _ s).widen
    (.ite (raise_unchanged _ s).widen (fireCue_unchanged i m s)))))

/-- A whole minute decided. -/
theorem decideMinute_unchanged (m : Nat) (s : State) :
    Unchanged [.conductor, .counters, .calendar, .library] s (decideMinute m s) :=
  .foldl _ (fun t i => decideEntry_unchanged m i t) allEntries s

/-- The calendar takes a value. -/
theorem setCalendar_unchanged (c : Calendar) (s : State) : Unchanged [.calendar] s (setCalendar c s) := by
  intro p hp
  cases p <;> first | rfl | simp at hp

/-- The oldest point reached is decided. -/
theorem decideDue_unchanged (s : State) :
    Unchanged [.conductor, .counters, .calendar, .library] s (decideDue s) := by
  unfold decideDue
  split
  · exact .refl _ s
  · exact (setCalendar_unchanged _ s).widen.andThen (decideMinute_unchanged _ _)

/-- A point brought to now. -/
theorem bringDue_unchanged (m : Nat) (s : State) :
    Unchanged [.conductor, .counters, .calendar, .library] s (bringDue m s) :=
  .ite (setCalendar_unchanged _ s).widen ((setCalendar_unchanged _ s).widen.andThen (decideMinute_unchanged m _))

/-- A new pre-roll. -/
theorem setPreroll_unchanged (n : Nat) (s : State) :
    Unchanged [.settings, .conductor, .counters, .calendar, .library] s (setPreroll n s) := by
  have h : Unchanged [.settings, .conductor, .counters, .calendar, .library] s
      { s with settings := { s.settings with preroll := n } } := by
    intro p hp
    cases p <;> first | rfl | simp at hp
  unfold setPreroll
  dsimp only
  split
  · exact h.andThen (setCalendar_unchanged _ _)
  · exact h.andThen (bringDue_unchanged _ _)

/-- The calendar's account of a forward step. -/
theorem countMissed_unchanged (old n : Nat) (s : State) : Unchanged [.counters] s (countMissed old n s) :=
  .foldl _ (fun t _ => .ite (raise_unchanged _ t) (.refl _ t)) allEntries s

/-- The points passed by a step. -/
theorem passPoints_unchanged (t n : Nat) (s : State) : Unchanged [.calendar] s (passPoints t n s) :=
  setCalendar_unchanged _ s

/-- The calendar meets a step. -/
theorem stepCalendar_unchanged (old : Nat) (b : Bool) (s : State) :
    Unchanged [.counters, .calendar] s (stepCalendar old b s) := by
  unfold stepCalendar
  refine .ite ?_ (passPoints_unchanged _ _ s).widen
  exact Unchanged.andThen (.ite (countMissed_unchanged _ _ s).widen (.refl _ s)) (passPoints_unchanged _ _ _)

/-- A play contact's level changes. -/
theorem setContact_unchanged (c : Fin 2) (b : Bool) (s : State) : Unchanged [.pins] s (setContact c b s) := by
  refine .ite ?_ ?_ <;> (intro p hp; cases p <;> first | rfl | simp at hp)

/-- A play contact's state changes. -/
theorem setContactState_unchanged (c : Fin 2) (x : ContactState) (s : State) :
    Unchanged [.calendar] s (setContactState c x s) := by
  intro p hp
  cases p <;> first | rfl | simp at hp

/-- A press. -/
theorem takePress_unchanged (c : Fin 2) (s : State) :
    Unchanged [.conductor, .counters, .calendar, .library] s (takePress c s) := by
  refine .ite (.refl _ s) (.ite (raise_unchanged _ s).widen ?_)
  dsimp only
  split
  · exact (takeCue_unchanged _ _ _ s).andThen (raise_unchanged _ _)
  · exact (takeCue_unchanged _ _ _ s).andThen (setContactState_unchanged _ _ _)
  · exact (takeCue_unchanged _ _ _ s).andThen (setContactState_unchanged _ _ _)

end Sys2Proof.Machine
end

