-- ==== Sys2Proof/Laws/Clock.lean ====
section
/-! SUPPORT. The frames of the operations of Machine/Clock.lean. -/

namespace Sys2Proof.Machine

-- One proof after another: many at once would ask for more threads than the memory limit allows.
set_option Elab.async false

/-- The advance of a local tick. -/
theorem tickTime_unchanged (s : State) : Unchanged [.time, .calendar] s (tickTime s) := by
  intro p hp
  cases p <;> first | rfl | simp at hp

/-- A damper meets a step. -/
theorem stepDamper_unchanged (k : Fin 8) (s : State) : Unchanged [.channels, .drive] s (stepDamper k s) :=
  (dropDamper_unchanged k s).andThen (tryLift_unchanged k _)

/-- The timebase is written. -/
theorem writeTime_unchanged (x : Timebase) (s : State) : Unchanged [.time] s { s with time := x } := by
  intro p hp
  cases p <;> first | rfl | simp at hp

/-- TIME_STEP starts. -/
theorem startTimeStep_unchanged (s : State) : Unchanged [.time, .silence, .trace] s (startTimeStep s) :=
  (writeTime_unchanged _ s).widen.andThen (assertCond_unchanged _ _)

/-- A step of tower time. -/
theorem stepTime_unchanged (new : Nat) (s : State) : Unchanged timeStepped s (stepTime new s) := by
  unfold stepTime
  dsimp only
  refine Unchanged.andThen (qs := ending) ?_
    (.foldl (fun t k => gateIfDue k t) (fun t k => gateIfDue_unchanged k t) allSlots _)
  refine Unchanged.andThen (qs := [.channels, .drive]) ?_
    (.foldl (fun t k => stepDamper k t) (fun t k => stepDamper_unchanged k t) allChannels _)
  refine Unchanged.andThen ?_ (stepCalendar_unchanged _ _ _)
  refine Unchanged.andThen ?_ (stepQueue_unchanged _)
  refine Unchanged.andThen ?_ (startTimeStep_unchanged _)
  exact (writeTime_unchanged _ s).widen

/-- The pending slew. -/
theorem setSlew_unchanged (e : Int) (s : State) : Unchanged [.time] s (setSlew e s) := writeTime_unchanged _ s

/-- The mark baseline. -/
theorem setMarkBase_unchanged (c : LocalCount) (s : State) : Unchanged [.time] s (setMarkBase c s) :=
  writeTime_unchanged _ s

/-- A choice made. -/
theorem adoptChoice_unchanged (c : Fin 16) (s : State) : Unchanged [.time, .silence, .trace] s (adoptChoice c s) :=
  (writeTime_unchanged _ s).widen.andThen (setLock_unchanged _ _)

/-- The choice made again. -/
theorem rechoose_unchanged (s : State) : Unchanged [.time, .silence, .trace] s (rechoose s) :=
  .ite (.refl _ s) (adoptChoice_unchanged _ s)

/-- Validity set. -/
theorem setValid_unchanged (s : State) : Unchanged [.time] s (setValid s) := writeTime_unchanged _ s

/-- The trim measured. -/
theorem measureTrim_unchanged (r : Int) (n : Nat) (s : State) : Unchanged [.time] s (measureTrim r n s) :=
  .ite (writeTime_unchanged _ s) (.refl _ s)

/-- The trim from a beacon. -/
theorem trimFromBeacon_unchanged (n : Nat) (c : LocalCount) (s : State) : Unchanged [.time] s (trimFromBeacon n c s) := by
  unfold trimFromBeacon
  dsimp only
  split
  · exact (measureTrim_unchanged _ _ s).andThen (writeTime_unchanged _ _)
  · exact writeTime_unchanged _ s

/-- A beacon counted toward lock. -/
theorem countTowardLock_unchanged (e : Int) (s : State) : Unchanged [.time, .silence, .trace] s (countTowardLock e s) := by
  have h (n : Nat) : Unchanged [.time, .silence, .trace] s (setClose n s) := (writeTime_unchanged _ s).widen
  refine .ite ((h 0).andThen (setLock_unchanged _ _)) (.ite (h 0) ?_)
  exact .ite ((h _).andThen (setLock_unchanged _ _)) (h _)

/-- A step to a beacon. -/
theorem stepToBeacon_unchanged (n : Nat) (c : LocalCount) (s : State) : Unchanged timeStepped s (stepToBeacon n c s) :=
  ((stepTime_unchanged _ s).andThen (setLock_unchanged _ _)).andThen (writeTime_unchanged _ _)

/-- A beacon measured. -/
theorem measureBeacon_unchanged (b : NodeBeacon) (t : Stamp) (s : State) :
    Unchanged timeStepped s (measureBeacon b t s) := by
  have h (n : Int) : Unchanged timeStepped s (setSlew n s) := (writeTime_unchanged _ s).widen
  have h0 : Unchanged timeStepped s (setClose 0 s) := (writeTime_unchanged _ s).widen
  unfold measureBeacon
  dsimp only
  split
  · exact ((stepToBeacon_unchanged _ _ s).andThen (setValid_unchanged _)).andThen (rechoose_unchanged _)
  · exact stepToBeacon_unchanged _ _ s
  · exact (h0.andThen (setLock_unchanged _ _)).andThen (trimFromBeacon_unchanged _ _ _)
  · exact ((h _).andThen (countTowardLock_unchanged _ _)).andThen (trimFromBeacon_unchanged _ _ _)

/-- The week position taken. -/
theorem takeWeek_unchanged (b : NodeBeacon) (t : Stamp) (s : State) : Unchanged timeStepped s (takeWeek b t s) :=
  ((stepTime_unchanged _ s).andThen (setValid_unchanged _)).andThen (rechoose_unchanged _)

/-- The conflict flags. -/
theorem evalConflicts_unchanged (s : State) : Unchanged [.channels] s (evalConflicts s) := by
  intro p hp
  cases p <;> first | rfl | simp at hp

/-- A peer record. -/
theorem setPeer_unchanged (k : Fin 16) (x : PeerRecord) (s : State) : Unchanged [.peers] s (setPeer k x s) := by
  intro p hp
  cases p <;> first | rfl | simp at hp

/-- A peer record has changed. -/
theorem peerChanged_unchanged (s : State) : Unchanged [.channels, .time, .silence, .trace] s (peerChanged s) :=
  (evalConflicts_unchanged s).widen.andThen (rechoose_unchanged _)

/-- A peer's beacon measured. -/
theorem measurePeer_unchanged (k : Fin 16) (t : Stamp) (b : Beacon) (s : State) :
    Unchanged timeStepped s (measurePeer k t b s) := by
  unfold measurePeer
  split
  · exact .refl _ s
  · exact .ite (measureBeacon_unchanged _ t s) (.ite (takeWeek_unchanged _ t s) (.refl _ s))

/-- A PRESENCE taken. -/
theorem takePresence_unchanged (k : Fin 16) (t : Stamp) (b : Beacon) (s : State) :
    Unchanged (.peers :: timeStepped) s (takePresence k t b s) := by
  have h : Unchanged (.peers :: timeStepped) s
      (setPeer k (.live { lastHeard := t.count, body := b }) s) := (setPeer_unchanged _ _ s).widen
  have h2 : Unchanged (.peers :: timeStepped) s
      (if k < s.straps.station then evalConflicts (setPeer k (.live { lastHeard := t.count, body := b }) s)
        else setPeer k (.live { lastHeard := t.count, body := b }) s) :=
    .ite (h.andThen (evalConflicts_unchanged _)) h
  exact (h2.andThen (rechoose_unchanged _)).andThen (measurePeer_unchanged k t b _)

/-- A minute mark. -/
theorem takeMark_unchanged (t : Stamp) (s : State) : Unchanged timeStepped s (takeMark t s) := by
  have h : Unchanged timeStepped s { s with time := { s.time with lastMark := some t } } :=
    (writeTime_unchanged _ s).widen
  have h2 : Unchanged timeStepped s (enterSourced { s with time := { s.time with lastMark := some t } }) :=
    .ite h ((h.andThen (setLock_unchanged _ _)).andThen (rechoose_unchanged _))
  refine .ite (.refl _ s) (.ite (.refl _ s) ?_)
  unfold correctMark
  dsimp only
  refine .ite ?_ ?_
  · refine Unchanged.andThen ?_ (setMarkBase_unchanged _ _)
    refine Unchanged.andThen (qs := [.time]) (h2.andThen (setSlew_unchanged (markError t.tower.toNat) _)) ?_
    unfold trimFromMark
    split
    · exact measureTrim_unchanged _ _ _
    · exact .refl _ _
  · exact (h2.andThen (stepTime_unchanged _ _) (fun _ hq => hq)).andThen (setMarkBase_unchanged _ _)

/-- SOURCED left. -/
theorem leaveSourced_unchanged (s : State) : Unchanged [.time, .silence, .trace] s (leaveSourced s) :=
  (setLock_unchanged _ s).andThen (rechoose_unchanged _)

/-- SET_TIME. -/
theorem takeSetTime_unchanged (n : Nat) (c : LocalCount) (s : State) : Unchanged timeStepped s (takeSetTime n c s) := by
  have h (y : Nat) : Unchanged timeStepped s (setValid (stepTime y s)) :=
    (stepTime_unchanged y s).andThen (setValid_unchanged _)
  unfold takeSetTime
  dsimp only
  unfold rechooseIfSet
  exact .ite (Unchanged.andThen (.ite ((h _).andThen (setLock_unchanged _ _)) (h _)) (rechoose_unchanged _))
    (.ite ((h _).andThen (setLock_unchanged _ _)) (h _))

end Sys2Proof.Machine
end

