-- ==== Sys2Proof/Laws/State.lean ====
section
/-! SUPPORT. Every field of the state after every single update: what the update writes and what it leaves. -/

namespace Sys2Proof.Machine

-- One proof after another: many at once would ask for more threads than the memory limit allows.
set_option Elab.async false

/-! ### `raise` -/
@[simp] theorem raise_powered (c : Counter) (s : State) :
    (raise c s).powered = s.powered := rfl
@[simp] theorem raise_straps (c : Counter) (s : State) :
    (raise c s).straps = s.straps := rfl
@[simp] theorem raise_pins (c : Counter) (s : State) :
    (raise c s).pins = s.pins := rfl
@[simp] theorem raise_settings (c : Counter) (s : State) :
    (raise c s).settings = s.settings := rfl
@[simp] theorem raise_listen (c : Counter) (s : State) :
    (raise c s).listen = s.listen := rfl
@[simp] theorem raise_channels (c : Counter) (s : State) :
    (raise c s).channels = s.channels := rfl
@[simp] theorem raise_halted (c : Counter) (s : State) :
    (raise c s).halted = s.halted := rfl
@[simp] theorem raise_drive (c : Counter) (s : State) :
    (raise c s).drive = s.drive := rfl
@[simp] theorem raise_queue (c : Counter) (s : State) :
    (raise c s).queue = s.queue := rfl
@[simp] theorem raise_admission (c : Counter) (s : State) :
    (raise c s).admission = s.admission := rfl
@[simp] theorem raise_time (c : Counter) (s : State) :
    (raise c s).time = s.time := rfl
@[simp] theorem raise_line (c : Counter) (s : State) :
    (raise c s).line = s.line := rfl
@[simp] theorem raise_peers (c : Counter) (s : State) :
    (raise c s).peers = s.peers := rfl
@[simp] theorem raise_floor (c : Counter) (s : State) :
    (raise c s).floor = s.floor := rfl
@[simp] theorem raise_conductor (c : Counter) (s : State) :
    (raise c s).conductor = s.conductor := rfl
@[simp] theorem raise_library (c : Counter) (s : State) :
    (raise c s).library = s.library := rfl
@[simp] theorem raise_calendar (c : Counter) (s : State) :
    (raise c s).calendar = s.calendar := rfl
@[simp] theorem raise_silence (c : Counter) (s : State) :
    (raise c s).silence = s.silence := rfl
@[simp] theorem raise_trace (c : Counter) (s : State) :
    (raise c s).trace = s.trace := rfl
@[simp] theorem raise_service (c : Counter) (s : State) :
    (raise c s).service = s.service := rfl
@[simp] theorem raise_counters (c : Counter) (s : State) :
    (raise c s).counters = s.counters.set c.index (min Config.counterMax (s.counters[c.index] + 1)) := rfl
@[simp] theorem raise_free (c : Counter) (s : State) :
    (raise c s).free = s.free := rfl
@[simp] theorem raise_pending (c : Counter) (s : State) :
    (raise c s).pending = s.pending := rfl

/-! ### `updChannel` -/
@[simp] theorem updChannel_powered (k : Fin 8) (f : Channel → Channel) (s : State) :
    (updChannel k f s).powered = s.powered := rfl
@[simp] theorem updChannel_straps (k : Fin 8) (f : Channel → Channel) (s : State) :
    (updChannel k f s).straps = s.straps := rfl
@[simp] theorem updChannel_pins (k : Fin 8) (f : Channel → Channel) (s : State) :
    (updChannel k f s).pins = s.pins := rfl
@[simp] theorem updChannel_settings (k : Fin 8) (f : Channel → Channel) (s : State) :
    (updChannel k f s).settings = s.settings := rfl
@[simp] theorem updChannel_listen (k : Fin 8) (f : Channel → Channel) (s : State) :
    (updChannel k f s).listen = s.listen := rfl
@[simp] theorem updChannel_channels (k : Fin 8) (f : Channel → Channel) (s : State) :
    (updChannel k f s).channels = s.channels.set k (f s.channels[k]) := rfl
@[simp] theorem updChannel_halted (k : Fin 8) (f : Channel → Channel) (s : State) :
    (updChannel k f s).halted = s.halted := rfl
@[simp] theorem updChannel_drive (k : Fin 8) (f : Channel → Channel) (s : State) :
    (updChannel k f s).drive = s.drive := rfl
@[simp] theorem updChannel_queue (k : Fin 8) (f : Channel → Channel) (s : State) :
    (updChannel k f s).queue = s.queue := rfl
@[simp] theorem updChannel_admission (k : Fin 8) (f : Channel → Channel) (s : State) :
    (updChannel k f s).admission = s.admission := rfl
@[simp] theorem updChannel_time (k : Fin 8) (f : Channel → Channel) (s : State) :
    (updChannel k f s).time = s.time := rfl
@[simp] theorem updChannel_line (k : Fin 8) (f : Channel → Channel) (s : State) :
    (updChannel k f s).line = s.line := rfl
@[simp] theorem updChannel_peers (k : Fin 8) (f : Channel → Channel) (s : State) :
    (updChannel k f s).peers = s.peers := rfl
@[simp] theorem updChannel_floor (k : Fin 8) (f : Channel → Channel) (s : State) :
    (updChannel k f s).floor = s.floor := rfl
@[simp] theorem updChannel_conductor (k : Fin 8) (f : Channel → Channel) (s : State) :
    (updChannel k f s).conductor = s.conductor := rfl
@[simp] theorem updChannel_library (k : Fin 8) (f : Channel → Channel) (s : State) :
    (updChannel k f s).library = s.library := rfl
@[simp] theorem updChannel_calendar (k : Fin 8) (f : Channel → Channel) (s : State) :
    (updChannel k f s).calendar = s.calendar := rfl
@[simp] theorem updChannel_silence (k : Fin 8) (f : Channel → Channel) (s : State) :
    (updChannel k f s).silence = s.silence := rfl
@[simp] theorem updChannel_trace (k : Fin 8) (f : Channel → Channel) (s : State) :
    (updChannel k f s).trace = s.trace := rfl
@[simp] theorem updChannel_service (k : Fin 8) (f : Channel → Channel) (s : State) :
    (updChannel k f s).service = s.service := rfl
@[simp] theorem updChannel_counters (k : Fin 8) (f : Channel → Channel) (s : State) :
    (updChannel k f s).counters = s.counters := rfl
@[simp] theorem updChannel_free (k : Fin 8) (f : Channel → Channel) (s : State) :
    (updChannel k f s).free = s.free := rfl
@[simp] theorem updChannel_pending (k : Fin 8) (f : Channel → Channel) (s : State) :
    (updChannel k f s).pending = s.pending := rfl

/-! ### `mapChannels` -/
@[simp] theorem mapChannels_powered (f : Channel → Channel) (s : State) :
    (mapChannels f s).powered = s.powered := rfl
@[simp] theorem mapChannels_straps (f : Channel → Channel) (s : State) :
    (mapChannels f s).straps = s.straps := rfl
@[simp] theorem mapChannels_pins (f : Channel → Channel) (s : State) :
    (mapChannels f s).pins = s.pins := rfl
@[simp] theorem mapChannels_settings (f : Channel → Channel) (s : State) :
    (mapChannels f s).settings = s.settings := rfl
@[simp] theorem mapChannels_listen (f : Channel → Channel) (s : State) :
    (mapChannels f s).listen = s.listen := rfl
@[simp] theorem mapChannels_channels (f : Channel → Channel) (s : State) :
    (mapChannels f s).channels = Vector.ofFn fun k : Fin 8 => f s.channels[k] := rfl
@[simp] theorem mapChannels_halted (f : Channel → Channel) (s : State) :
    (mapChannels f s).halted = s.halted := rfl
@[simp] theorem mapChannels_drive (f : Channel → Channel) (s : State) :
    (mapChannels f s).drive = s.drive := rfl
@[simp] theorem mapChannels_queue (f : Channel → Channel) (s : State) :
    (mapChannels f s).queue = s.queue := rfl
@[simp] theorem mapChannels_admission (f : Channel → Channel) (s : State) :
    (mapChannels f s).admission = s.admission := rfl
@[simp] theorem mapChannels_time (f : Channel → Channel) (s : State) :
    (mapChannels f s).time = s.time := rfl
@[simp] theorem mapChannels_line (f : Channel → Channel) (s : State) :
    (mapChannels f s).line = s.line := rfl
@[simp] theorem mapChannels_peers (f : Channel → Channel) (s : State) :
    (mapChannels f s).peers = s.peers := rfl
@[simp] theorem mapChannels_floor (f : Channel → Channel) (s : State) :
    (mapChannels f s).floor = s.floor := rfl
@[simp] theorem mapChannels_conductor (f : Channel → Channel) (s : State) :
    (mapChannels f s).conductor = s.conductor := rfl
@[simp] theorem mapChannels_library (f : Channel → Channel) (s : State) :
    (mapChannels f s).library = s.library := rfl
@[simp] theorem mapChannels_calendar (f : Channel → Channel) (s : State) :
    (mapChannels f s).calendar = s.calendar := rfl
@[simp] theorem mapChannels_silence (f : Channel → Channel) (s : State) :
    (mapChannels f s).silence = s.silence := rfl
@[simp] theorem mapChannels_trace (f : Channel → Channel) (s : State) :
    (mapChannels f s).trace = s.trace := rfl
@[simp] theorem mapChannels_service (f : Channel → Channel) (s : State) :
    (mapChannels f s).service = s.service := rfl
@[simp] theorem mapChannels_counters (f : Channel → Channel) (s : State) :
    (mapChannels f s).counters = s.counters := rfl
@[simp] theorem mapChannels_free (f : Channel → Channel) (s : State) :
    (mapChannels f s).free = s.free := rfl
@[simp] theorem mapChannels_pending (f : Channel → Channel) (s : State) :
    (mapChannels f s).pending = s.pending := rfl

/-! ### `bankSync` -/
@[simp] theorem bankSync_powered (s : State) :
    (bankSync s).powered = s.powered := rfl
@[simp] theorem bankSync_straps (s : State) :
    (bankSync s).straps = s.straps := rfl
@[simp] theorem bankSync_pins (s : State) :
    (bankSync s).pins = s.pins := rfl
@[simp] theorem bankSync_settings (s : State) :
    (bankSync s).settings = s.settings := rfl
@[simp] theorem bankSync_listen (s : State) :
    (bankSync s).listen = s.listen := rfl
@[simp] theorem bankSync_channels (s : State) :
    (bankSync s).channels = s.channels := rfl
@[simp] theorem bankSync_halted (s : State) :
    (bankSync s).halted = s.halted := rfl
@[simp] theorem bankSync_drive (s : State) :
    (bankSync s).drive = { s.drive with mode := driveFor s s.drive.mode s.drive.level } := rfl
@[simp] theorem bankSync_queue (s : State) :
    (bankSync s).queue = s.queue := rfl
@[simp] theorem bankSync_admission (s : State) :
    (bankSync s).admission = s.admission := rfl
@[simp] theorem bankSync_time (s : State) :
    (bankSync s).time = s.time := rfl
@[simp] theorem bankSync_line (s : State) :
    (bankSync s).line = s.line := rfl
@[simp] theorem bankSync_peers (s : State) :
    (bankSync s).peers = s.peers := rfl
@[simp] theorem bankSync_floor (s : State) :
    (bankSync s).floor = s.floor := rfl
@[simp] theorem bankSync_conductor (s : State) :
    (bankSync s).conductor = s.conductor := rfl
@[simp] theorem bankSync_library (s : State) :
    (bankSync s).library = s.library := rfl
@[simp] theorem bankSync_calendar (s : State) :
    (bankSync s).calendar = s.calendar := rfl
@[simp] theorem bankSync_silence (s : State) :
    (bankSync s).silence = s.silence := rfl
@[simp] theorem bankSync_trace (s : State) :
    (bankSync s).trace = s.trace := rfl
@[simp] theorem bankSync_service (s : State) :
    (bankSync s).service = s.service := rfl
@[simp] theorem bankSync_counters (s : State) :
    (bankSync s).counters = s.counters := rfl
@[simp] theorem bankSync_free (s : State) :
    (bankSync s).free = s.free := rfl
@[simp] theorem bankSync_pending (s : State) :
    (bankSync s).pending = s.pending := rfl

/-! ### `idleTick` -/
@[simp] theorem idleTick_powered (s : State) :
    (idleTick s).powered = s.powered := rfl
@[simp] theorem idleTick_straps (s : State) :
    (idleTick s).straps = s.straps := rfl
@[simp] theorem idleTick_pins (s : State) :
    (idleTick s).pins = s.pins := rfl
@[simp] theorem idleTick_settings (s : State) :
    (idleTick s).settings = s.settings := rfl
@[simp] theorem idleTick_listen (s : State) :
    (idleTick s).listen = s.listen := rfl
@[simp] theorem idleTick_channels (s : State) :
    (idleTick s).channels = s.channels := rfl
@[simp] theorem idleTick_halted (s : State) :
    (idleTick s).halted = s.halted := rfl
@[simp] theorem idleTick_drive (s : State) :
    (idleTick s).drive = { s.drive with idle := if idleRuns s then tickOn s.drive.idle else 0 } := rfl
@[simp] theorem idleTick_queue (s : State) :
    (idleTick s).queue = s.queue := rfl
@[simp] theorem idleTick_admission (s : State) :
    (idleTick s).admission = s.admission := rfl
@[simp] theorem idleTick_time (s : State) :
    (idleTick s).time = s.time := rfl
@[simp] theorem idleTick_line (s : State) :
    (idleTick s).line = s.line := rfl
@[simp] theorem idleTick_peers (s : State) :
    (idleTick s).peers = s.peers := rfl
@[simp] theorem idleTick_floor (s : State) :
    (idleTick s).floor = s.floor := rfl
@[simp] theorem idleTick_conductor (s : State) :
    (idleTick s).conductor = s.conductor := rfl
@[simp] theorem idleTick_library (s : State) :
    (idleTick s).library = s.library := rfl
@[simp] theorem idleTick_calendar (s : State) :
    (idleTick s).calendar = s.calendar := rfl
@[simp] theorem idleTick_silence (s : State) :
    (idleTick s).silence = s.silence := rfl
@[simp] theorem idleTick_trace (s : State) :
    (idleTick s).trace = s.trace := rfl
@[simp] theorem idleTick_service (s : State) :
    (idleTick s).service = s.service := rfl
@[simp] theorem idleTick_counters (s : State) :
    (idleTick s).counters = s.counters := rfl
@[simp] theorem idleTick_free (s : State) :
    (idleTick s).free = s.free := rfl
@[simp] theorem idleTick_pending (s : State) :
    (idleTick s).pending = s.pending := rfl

/-! ### `goVoiced` -/
@[simp] theorem goVoiced_powered (s : State) :
    (goVoiced s).powered = s.powered := rfl
@[simp] theorem goVoiced_straps (s : State) :
    (goVoiced s).straps = s.straps := rfl
@[simp] theorem goVoiced_pins (s : State) :
    (goVoiced s).pins = s.pins := rfl
@[simp] theorem goVoiced_settings (s : State) :
    (goVoiced s).settings = s.settings := rfl
@[simp] theorem goVoiced_listen (s : State) :
    (goVoiced s).listen = s.listen := rfl
@[simp] theorem goVoiced_channels (s : State) :
    (goVoiced s).channels = s.channels := rfl
@[simp] theorem goVoiced_halted (s : State) :
    (goVoiced s).halted = s.halted := rfl
@[simp] theorem goVoiced_drive (s : State) :
    (goVoiced s).drive = s.drive := rfl
@[simp] theorem goVoiced_queue (s : State) :
    (goVoiced s).queue = s.queue := rfl
@[simp] theorem goVoiced_admission (s : State) :
    (goVoiced s).admission = s.admission := rfl
@[simp] theorem goVoiced_time (s : State) :
    (goVoiced s).time = s.time := rfl
@[simp] theorem goVoiced_line (s : State) :
    (goVoiced s).line = s.line := rfl
@[simp] theorem goVoiced_peers (s : State) :
    (goVoiced s).peers = s.peers := rfl
@[simp] theorem goVoiced_floor (s : State) :
    (goVoiced s).floor = s.floor := rfl
@[simp] theorem goVoiced_conductor (s : State) :
    (goVoiced s).conductor = s.conductor := rfl
@[simp] theorem goVoiced_library (s : State) :
    (goVoiced s).library = s.library := rfl
@[simp] theorem goVoiced_calendar (s : State) :
    (goVoiced s).calendar = s.calendar := rfl
@[simp] theorem goVoiced_silence (s : State) :
    (goVoiced s).silence = { s.silence with state := .voiced, level := 0, fadeCount := 0, resumable := false, hold := 0 } := rfl
@[simp] theorem goVoiced_trace (s : State) :
    (goVoiced s).trace = s.trace := rfl
@[simp] theorem goVoiced_service (s : State) :
    (goVoiced s).service = s.service := rfl
@[simp] theorem goVoiced_counters (s : State) :
    (goVoiced s).counters = s.counters := rfl
@[simp] theorem goVoiced_free (s : State) :
    (goVoiced s).free = s.free := rfl
@[simp] theorem goVoiced_pending (s : State) :
    (goVoiced s).pending = s.pending := rfl

/-! ### `holdEntry` -/
@[simp] theorem holdEntry_powered (e : Entry) (s : State) :
    (holdEntry e s).powered = s.powered := rfl
@[simp] theorem holdEntry_straps (e : Entry) (s : State) :
    (holdEntry e s).straps = s.straps := rfl
@[simp] theorem holdEntry_pins (e : Entry) (s : State) :
    (holdEntry e s).pins = s.pins := rfl
@[simp] theorem holdEntry_settings (e : Entry) (s : State) :
    (holdEntry e s).settings = s.settings := rfl
@[simp] theorem holdEntry_listen (e : Entry) (s : State) :
    (holdEntry e s).listen = s.listen := rfl
@[simp] theorem holdEntry_channels (e : Entry) (s : State) :
    (holdEntry e s).channels = s.channels := rfl
@[simp] theorem holdEntry_halted (e : Entry) (s : State) :
    (holdEntry e s).halted = s.halted := rfl
@[simp] theorem holdEntry_drive (e : Entry) (s : State) :
    (holdEntry e s).drive = s.drive := rfl
@[simp] theorem holdEntry_queue (e : Entry) (s : State) :
    (holdEntry e s).queue = s.queue.map fun x => if x = e then { x with held := true } else x := rfl
@[simp] theorem holdEntry_admission (e : Entry) (s : State) :
    (holdEntry e s).admission = s.admission := rfl
@[simp] theorem holdEntry_time (e : Entry) (s : State) :
    (holdEntry e s).time = s.time := rfl
@[simp] theorem holdEntry_line (e : Entry) (s : State) :
    (holdEntry e s).line = s.line := rfl
@[simp] theorem holdEntry_peers (e : Entry) (s : State) :
    (holdEntry e s).peers = s.peers := rfl
@[simp] theorem holdEntry_floor (e : Entry) (s : State) :
    (holdEntry e s).floor = s.floor := rfl
@[simp] theorem holdEntry_conductor (e : Entry) (s : State) :
    (holdEntry e s).conductor = s.conductor := rfl
@[simp] theorem holdEntry_library (e : Entry) (s : State) :
    (holdEntry e s).library = s.library := rfl
@[simp] theorem holdEntry_calendar (e : Entry) (s : State) :
    (holdEntry e s).calendar = s.calendar := rfl
@[simp] theorem holdEntry_silence (e : Entry) (s : State) :
    (holdEntry e s).silence = s.silence := rfl
@[simp] theorem holdEntry_trace (e : Entry) (s : State) :
    (holdEntry e s).trace = s.trace := rfl
@[simp] theorem holdEntry_service (e : Entry) (s : State) :
    (holdEntry e s).service = s.service := rfl
@[simp] theorem holdEntry_counters (e : Entry) (s : State) :
    (holdEntry e s).counters = s.counters := rfl
@[simp] theorem holdEntry_free (e : Entry) (s : State) :
    (holdEntry e s).free = s.free := rfl
@[simp] theorem holdEntry_pending (e : Entry) (s : State) :
    (holdEntry e s).pending = s.pending := rfl

/-! ### `releaseEntry` -/
@[simp] theorem releaseEntry_powered (e : Entry) (s : State) :
    (releaseEntry e s).powered = s.powered := rfl
@[simp] theorem releaseEntry_straps (e : Entry) (s : State) :
    (releaseEntry e s).straps = s.straps := rfl
@[simp] theorem releaseEntry_pins (e : Entry) (s : State) :
    (releaseEntry e s).pins = s.pins := rfl
@[simp] theorem releaseEntry_settings (e : Entry) (s : State) :
    (releaseEntry e s).settings = s.settings := rfl
@[simp] theorem releaseEntry_listen (e : Entry) (s : State) :
    (releaseEntry e s).listen = s.listen := rfl
@[simp] theorem releaseEntry_channels (e : Entry) (s : State) :
    (releaseEntry e s).channels = s.channels := rfl
@[simp] theorem releaseEntry_halted (e : Entry) (s : State) :
    (releaseEntry e s).halted = s.halted := rfl
@[simp] theorem releaseEntry_drive (e : Entry) (s : State) :
    (releaseEntry e s).drive = s.drive := rfl
@[simp] theorem releaseEntry_queue (e : Entry) (s : State) :
    (releaseEntry e s).queue = s.queue.map fun x => if x = e then { x with held := false } else x := rfl
@[simp] theorem releaseEntry_admission (e : Entry) (s : State) :
    (releaseEntry e s).admission = s.admission := rfl
@[simp] theorem releaseEntry_time (e : Entry) (s : State) :
    (releaseEntry e s).time = s.time := rfl
@[simp] theorem releaseEntry_line (e : Entry) (s : State) :
    (releaseEntry e s).line = s.line := rfl
@[simp] theorem releaseEntry_peers (e : Entry) (s : State) :
    (releaseEntry e s).peers = s.peers := rfl
@[simp] theorem releaseEntry_floor (e : Entry) (s : State) :
    (releaseEntry e s).floor = s.floor := rfl
@[simp] theorem releaseEntry_conductor (e : Entry) (s : State) :
    (releaseEntry e s).conductor = s.conductor := rfl
@[simp] theorem releaseEntry_library (e : Entry) (s : State) :
    (releaseEntry e s).library = s.library := rfl
@[simp] theorem releaseEntry_calendar (e : Entry) (s : State) :
    (releaseEntry e s).calendar = s.calendar := rfl
@[simp] theorem releaseEntry_silence (e : Entry) (s : State) :
    (releaseEntry e s).silence = s.silence := rfl
@[simp] theorem releaseEntry_trace (e : Entry) (s : State) :
    (releaseEntry e s).trace = s.trace := rfl
@[simp] theorem releaseEntry_service (e : Entry) (s : State) :
    (releaseEntry e s).service = s.service := rfl
@[simp] theorem releaseEntry_counters (e : Entry) (s : State) :
    (releaseEntry e s).counters = s.counters := rfl
@[simp] theorem releaseEntry_free (e : Entry) (s : State) :
    (releaseEntry e s).free = s.free := rfl
@[simp] theorem releaseEntry_pending (e : Entry) (s : State) :
    (releaseEntry e s).pending = s.pending := rfl

/-! ### `markHeld` -/
@[simp] theorem markHeld_powered (s : State) :
    (markHeld s).powered = s.powered := rfl
@[simp] theorem markHeld_straps (s : State) :
    (markHeld s).straps = s.straps := rfl
@[simp] theorem markHeld_pins (s : State) :
    (markHeld s).pins = s.pins := rfl
@[simp] theorem markHeld_settings (s : State) :
    (markHeld s).settings = s.settings := rfl
@[simp] theorem markHeld_listen (s : State) :
    (markHeld s).listen = s.listen := rfl
@[simp] theorem markHeld_channels (s : State) :
    (markHeld s).channels = s.channels := rfl
@[simp] theorem markHeld_halted (s : State) :
    (markHeld s).halted = s.halted := rfl
@[simp] theorem markHeld_drive (s : State) :
    (markHeld s).drive = s.drive := rfl
@[simp] theorem markHeld_queue (s : State) :
    (markHeld s).queue = s.queue.map fun e => if becomesHeld s e then { e with held := true } else e := rfl
@[simp] theorem markHeld_admission (s : State) :
    (markHeld s).admission = s.admission := rfl
@[simp] theorem markHeld_time (s : State) :
    (markHeld s).time = s.time := rfl
@[simp] theorem markHeld_line (s : State) :
    (markHeld s).line = s.line := rfl
@[simp] theorem markHeld_peers (s : State) :
    (markHeld s).peers = s.peers := rfl
@[simp] theorem markHeld_floor (s : State) :
    (markHeld s).floor = s.floor := rfl
@[simp] theorem markHeld_conductor (s : State) :
    (markHeld s).conductor = s.conductor := rfl
@[simp] theorem markHeld_library (s : State) :
    (markHeld s).library = s.library := rfl
@[simp] theorem markHeld_calendar (s : State) :
    (markHeld s).calendar = s.calendar := rfl
@[simp] theorem markHeld_silence (s : State) :
    (markHeld s).silence = s.silence := rfl
@[simp] theorem markHeld_trace (s : State) :
    (markHeld s).trace = s.trace := rfl
@[simp] theorem markHeld_service (s : State) :
    (markHeld s).service = s.service := rfl
@[simp] theorem markHeld_counters (s : State) :
    (markHeld s).counters = s.counters := rfl
@[simp] theorem markHeld_free (s : State) :
    (markHeld s).free = s.free := rfl
@[simp] theorem markHeld_pending (s : State) :
    (markHeld s).pending = s.pending := rfl

/-! ### `setCalendar` -/
@[simp] theorem setCalendar_powered (c : Calendar) (s : State) :
    (setCalendar c s).powered = s.powered := rfl
@[simp] theorem setCalendar_straps (c : Calendar) (s : State) :
    (setCalendar c s).straps = s.straps := rfl
@[simp] theorem setCalendar_pins (c : Calendar) (s : State) :
    (setCalendar c s).pins = s.pins := rfl
@[simp] theorem setCalendar_settings (c : Calendar) (s : State) :
    (setCalendar c s).settings = s.settings := rfl
@[simp] theorem setCalendar_listen (c : Calendar) (s : State) :
    (setCalendar c s).listen = s.listen := rfl
@[simp] theorem setCalendar_channels (c : Calendar) (s : State) :
    (setCalendar c s).channels = s.channels := rfl
@[simp] theorem setCalendar_halted (c : Calendar) (s : State) :
    (setCalendar c s).halted = s.halted := rfl
@[simp] theorem setCalendar_drive (c : Calendar) (s : State) :
    (setCalendar c s).drive = s.drive := rfl
@[simp] theorem setCalendar_queue (c : Calendar) (s : State) :
    (setCalendar c s).queue = s.queue := rfl
@[simp] theorem setCalendar_admission (c : Calendar) (s : State) :
    (setCalendar c s).admission = s.admission := rfl
@[simp] theorem setCalendar_time (c : Calendar) (s : State) :
    (setCalendar c s).time = s.time := rfl
@[simp] theorem setCalendar_line (c : Calendar) (s : State) :
    (setCalendar c s).line = s.line := rfl
@[simp] theorem setCalendar_peers (c : Calendar) (s : State) :
    (setCalendar c s).peers = s.peers := rfl
@[simp] theorem setCalendar_floor (c : Calendar) (s : State) :
    (setCalendar c s).floor = s.floor := rfl
@[simp] theorem setCalendar_conductor (c : Calendar) (s : State) :
    (setCalendar c s).conductor = s.conductor := rfl
@[simp] theorem setCalendar_library (c : Calendar) (s : State) :
    (setCalendar c s).library = s.library := rfl
@[simp] theorem setCalendar_calendar (c : Calendar) (s : State) :
    (setCalendar c s).calendar = c := rfl
@[simp] theorem setCalendar_silence (c : Calendar) (s : State) :
    (setCalendar c s).silence = s.silence := rfl
@[simp] theorem setCalendar_trace (c : Calendar) (s : State) :
    (setCalendar c s).trace = s.trace := rfl
@[simp] theorem setCalendar_service (c : Calendar) (s : State) :
    (setCalendar c s).service = s.service := rfl
@[simp] theorem setCalendar_counters (c : Calendar) (s : State) :
    (setCalendar c s).counters = s.counters := rfl
@[simp] theorem setCalendar_free (c : Calendar) (s : State) :
    (setCalendar c s).free = s.free := rfl
@[simp] theorem setCalendar_pending (c : Calendar) (s : State) :
    (setCalendar c s).pending = s.pending := rfl

/-! ### `evalConflicts` -/
@[simp] theorem evalConflicts_powered (s : State) :
    (evalConflicts s).powered = s.powered := rfl
@[simp] theorem evalConflicts_straps (s : State) :
    (evalConflicts s).straps = s.straps := rfl
@[simp] theorem evalConflicts_pins (s : State) :
    (evalConflicts s).pins = s.pins := rfl
@[simp] theorem evalConflicts_settings (s : State) :
    (evalConflicts s).settings = s.settings := rfl
@[simp] theorem evalConflicts_listen (s : State) :
    (evalConflicts s).listen = s.listen := rfl
@[simp] theorem evalConflicts_channels (s : State) :
    (evalConflicts s).channels = Vector.ofFn fun k : Fin 8 => { s.channels[k] with conflict := conflictOf s k } := rfl
@[simp] theorem evalConflicts_halted (s : State) :
    (evalConflicts s).halted = s.halted := rfl
@[simp] theorem evalConflicts_drive (s : State) :
    (evalConflicts s).drive = s.drive := rfl
@[simp] theorem evalConflicts_queue (s : State) :
    (evalConflicts s).queue = s.queue := rfl
@[simp] theorem evalConflicts_admission (s : State) :
    (evalConflicts s).admission = s.admission := rfl
@[simp] theorem evalConflicts_time (s : State) :
    (evalConflicts s).time = s.time := rfl
@[simp] theorem evalConflicts_line (s : State) :
    (evalConflicts s).line = s.line := rfl
@[simp] theorem evalConflicts_peers (s : State) :
    (evalConflicts s).peers = s.peers := rfl
@[simp] theorem evalConflicts_floor (s : State) :
    (evalConflicts s).floor = s.floor := rfl
@[simp] theorem evalConflicts_conductor (s : State) :
    (evalConflicts s).conductor = s.conductor := rfl
@[simp] theorem evalConflicts_library (s : State) :
    (evalConflicts s).library = s.library := rfl
@[simp] theorem evalConflicts_calendar (s : State) :
    (evalConflicts s).calendar = s.calendar := rfl
@[simp] theorem evalConflicts_silence (s : State) :
    (evalConflicts s).silence = s.silence := rfl
@[simp] theorem evalConflicts_trace (s : State) :
    (evalConflicts s).trace = s.trace := rfl
@[simp] theorem evalConflicts_service (s : State) :
    (evalConflicts s).service = s.service := rfl
@[simp] theorem evalConflicts_counters (s : State) :
    (evalConflicts s).counters = s.counters := rfl
@[simp] theorem evalConflicts_free (s : State) :
    (evalConflicts s).free = s.free := rfl
@[simp] theorem evalConflicts_pending (s : State) :
    (evalConflicts s).pending = s.pending := rfl

/-! ### `setPeer` -/
@[simp] theorem setPeer_powered (st : Fin 16) (x : PeerRecord) (s : State) :
    (setPeer st x s).powered = s.powered := rfl
@[simp] theorem setPeer_straps (st : Fin 16) (x : PeerRecord) (s : State) :
    (setPeer st x s).straps = s.straps := rfl
@[simp] theorem setPeer_pins (st : Fin 16) (x : PeerRecord) (s : State) :
    (setPeer st x s).pins = s.pins := rfl
@[simp] theorem setPeer_settings (st : Fin 16) (x : PeerRecord) (s : State) :
    (setPeer st x s).settings = s.settings := rfl
@[simp] theorem setPeer_listen (st : Fin 16) (x : PeerRecord) (s : State) :
    (setPeer st x s).listen = s.listen := rfl
@[simp] theorem setPeer_channels (st : Fin 16) (x : PeerRecord) (s : State) :
    (setPeer st x s).channels = s.channels := rfl
@[simp] theorem setPeer_halted (st : Fin 16) (x : PeerRecord) (s : State) :
    (setPeer st x s).halted = s.halted := rfl
@[simp] theorem setPeer_drive (st : Fin 16) (x : PeerRecord) (s : State) :
    (setPeer st x s).drive = s.drive := rfl
@[simp] theorem setPeer_queue (st : Fin 16) (x : PeerRecord) (s : State) :
    (setPeer st x s).queue = s.queue := rfl
@[simp] theorem setPeer_admission (st : Fin 16) (x : PeerRecord) (s : State) :
    (setPeer st x s).admission = s.admission := rfl
@[simp] theorem setPeer_time (st : Fin 16) (x : PeerRecord) (s : State) :
    (setPeer st x s).time = s.time := rfl
@[simp] theorem setPeer_line (st : Fin 16) (x : PeerRecord) (s : State) :
    (setPeer st x s).line = s.line := rfl
@[simp] theorem setPeer_peers (st : Fin 16) (x : PeerRecord) (s : State) :
    (setPeer st x s).peers = s.peers.set st x := rfl
@[simp] theorem setPeer_floor (st : Fin 16) (x : PeerRecord) (s : State) :
    (setPeer st x s).floor = s.floor := rfl
@[simp] theorem setPeer_conductor (st : Fin 16) (x : PeerRecord) (s : State) :
    (setPeer st x s).conductor = s.conductor := rfl
@[simp] theorem setPeer_library (st : Fin 16) (x : PeerRecord) (s : State) :
    (setPeer st x s).library = s.library := rfl
@[simp] theorem setPeer_calendar (st : Fin 16) (x : PeerRecord) (s : State) :
    (setPeer st x s).calendar = s.calendar := rfl
@[simp] theorem setPeer_silence (st : Fin 16) (x : PeerRecord) (s : State) :
    (setPeer st x s).silence = s.silence := rfl
@[simp] theorem setPeer_trace (st : Fin 16) (x : PeerRecord) (s : State) :
    (setPeer st x s).trace = s.trace := rfl
@[simp] theorem setPeer_service (st : Fin 16) (x : PeerRecord) (s : State) :
    (setPeer st x s).service = s.service := rfl
@[simp] theorem setPeer_counters (st : Fin 16) (x : PeerRecord) (s : State) :
    (setPeer st x s).counters = s.counters := rfl
@[simp] theorem setPeer_free (st : Fin 16) (x : PeerRecord) (s : State) :
    (setPeer st x s).free = s.free := rfl
@[simp] theorem setPeer_pending (st : Fin 16) (x : PeerRecord) (s : State) :
    (setPeer st x s).pending = s.pending := rfl

/-! ### `setSlot` -/
@[simp] theorem setSlot_powered (k : Fin 4) (x : Slot) (s : State) :
    (setSlot k x s).powered = s.powered := rfl
@[simp] theorem setSlot_straps (k : Fin 4) (x : Slot) (s : State) :
    (setSlot k x s).straps = s.straps := rfl
@[simp] theorem setSlot_pins (k : Fin 4) (x : Slot) (s : State) :
    (setSlot k x s).pins = s.pins := rfl
@[simp] theorem setSlot_settings (k : Fin 4) (x : Slot) (s : State) :
    (setSlot k x s).settings = s.settings := rfl
@[simp] theorem setSlot_listen (k : Fin 4) (x : Slot) (s : State) :
    (setSlot k x s).listen = s.listen := rfl
@[simp] theorem setSlot_channels (k : Fin 4) (x : Slot) (s : State) :
    (setSlot k x s).channels = s.channels := rfl
@[simp] theorem setSlot_halted (k : Fin 4) (x : Slot) (s : State) :
    (setSlot k x s).halted = s.halted := rfl
@[simp] theorem setSlot_drive (k : Fin 4) (x : Slot) (s : State) :
    (setSlot k x s).drive = s.drive := rfl
@[simp] theorem setSlot_queue (k : Fin 4) (x : Slot) (s : State) :
    (setSlot k x s).queue = s.queue := rfl
@[simp] theorem setSlot_admission (k : Fin 4) (x : Slot) (s : State) :
    (setSlot k x s).admission = s.admission := rfl
@[simp] theorem setSlot_time (k : Fin 4) (x : Slot) (s : State) :
    (setSlot k x s).time = s.time := rfl
@[simp] theorem setSlot_line (k : Fin 4) (x : Slot) (s : State) :
    (setSlot k x s).line = s.line := rfl
@[simp] theorem setSlot_peers (k : Fin 4) (x : Slot) (s : State) :
    (setSlot k x s).peers = s.peers := rfl
@[simp] theorem setSlot_floor (k : Fin 4) (x : Slot) (s : State) :
    (setSlot k x s).floor = s.floor := rfl
@[simp] theorem setSlot_conductor (k : Fin 4) (x : Slot) (s : State) :
    (setSlot k x s).conductor = { s.conductor with slots := s.conductor.slots.set k x } := rfl
@[simp] theorem setSlot_library (k : Fin 4) (x : Slot) (s : State) :
    (setSlot k x s).library = s.library := rfl
@[simp] theorem setSlot_calendar (k : Fin 4) (x : Slot) (s : State) :
    (setSlot k x s).calendar = s.calendar := rfl
@[simp] theorem setSlot_silence (k : Fin 4) (x : Slot) (s : State) :
    (setSlot k x s).silence = s.silence := rfl
@[simp] theorem setSlot_trace (k : Fin 4) (x : Slot) (s : State) :
    (setSlot k x s).trace = s.trace := rfl
@[simp] theorem setSlot_service (k : Fin 4) (x : Slot) (s : State) :
    (setSlot k x s).service = s.service := rfl
@[simp] theorem setSlot_counters (k : Fin 4) (x : Slot) (s : State) :
    (setSlot k x s).counters = s.counters := rfl
@[simp] theorem setSlot_free (k : Fin 4) (x : Slot) (s : State) :
    (setSlot k x s).free = s.free := rfl
@[simp] theorem setSlot_pending (k : Fin 4) (x : Slot) (s : State) :
    (setSlot k x s).pending = s.pending := rfl

/-! ### `joinTx` -/
@[simp] theorem joinTx_powered (x : TxFrame) (s : State) :
    (joinTx x s).powered = s.powered := rfl
@[simp] theorem joinTx_straps (x : TxFrame) (s : State) :
    (joinTx x s).straps = s.straps := rfl
@[simp] theorem joinTx_pins (x : TxFrame) (s : State) :
    (joinTx x s).pins = s.pins := rfl
@[simp] theorem joinTx_settings (x : TxFrame) (s : State) :
    (joinTx x s).settings = s.settings := rfl
@[simp] theorem joinTx_listen (x : TxFrame) (s : State) :
    (joinTx x s).listen = s.listen := rfl
@[simp] theorem joinTx_channels (x : TxFrame) (s : State) :
    (joinTx x s).channels = s.channels := rfl
@[simp] theorem joinTx_halted (x : TxFrame) (s : State) :
    (joinTx x s).halted = s.halted := rfl
@[simp] theorem joinTx_drive (x : TxFrame) (s : State) :
    (joinTx x s).drive = s.drive := rfl
@[simp] theorem joinTx_queue (x : TxFrame) (s : State) :
    (joinTx x s).queue = s.queue := rfl
@[simp] theorem joinTx_admission (x : TxFrame) (s : State) :
    (joinTx x s).admission = s.admission := rfl
@[simp] theorem joinTx_time (x : TxFrame) (s : State) :
    (joinTx x s).time = s.time := rfl
@[simp] theorem joinTx_line (x : TxFrame) (s : State) :
    (joinTx x s).line = { s.line with queue := insertTx s x s.line.queue } := rfl
@[simp] theorem joinTx_peers (x : TxFrame) (s : State) :
    (joinTx x s).peers = s.peers := rfl
@[simp] theorem joinTx_floor (x : TxFrame) (s : State) :
    (joinTx x s).floor = s.floor := rfl
@[simp] theorem joinTx_conductor (x : TxFrame) (s : State) :
    (joinTx x s).conductor = s.conductor := rfl
@[simp] theorem joinTx_library (x : TxFrame) (s : State) :
    (joinTx x s).library = s.library := rfl
@[simp] theorem joinTx_calendar (x : TxFrame) (s : State) :
    (joinTx x s).calendar = s.calendar := rfl
@[simp] theorem joinTx_silence (x : TxFrame) (s : State) :
    (joinTx x s).silence = s.silence := rfl
@[simp] theorem joinTx_trace (x : TxFrame) (s : State) :
    (joinTx x s).trace = s.trace := rfl
@[simp] theorem joinTx_service (x : TxFrame) (s : State) :
    (joinTx x s).service = s.service := rfl
@[simp] theorem joinTx_counters (x : TxFrame) (s : State) :
    (joinTx x s).counters = s.counters := rfl
@[simp] theorem joinTx_free (x : TxFrame) (s : State) :
    (joinTx x s).free = s.free := rfl
@[simp] theorem joinTx_pending (x : TxFrame) (s : State) :
    (joinTx x s).pending = s.pending := rfl

/-! ### `bumpSequence` -/
@[simp] theorem bumpSequence_powered (seq : BitVec 8) (s : State) :
    (bumpSequence seq s).powered = s.powered := rfl
@[simp] theorem bumpSequence_straps (seq : BitVec 8) (s : State) :
    (bumpSequence seq s).straps = s.straps := rfl
@[simp] theorem bumpSequence_pins (seq : BitVec 8) (s : State) :
    (bumpSequence seq s).pins = s.pins := rfl
@[simp] theorem bumpSequence_settings (seq : BitVec 8) (s : State) :
    (bumpSequence seq s).settings = s.settings := rfl
@[simp] theorem bumpSequence_listen (seq : BitVec 8) (s : State) :
    (bumpSequence seq s).listen = s.listen := rfl
@[simp] theorem bumpSequence_channels (seq : BitVec 8) (s : State) :
    (bumpSequence seq s).channels = s.channels := rfl
@[simp] theorem bumpSequence_halted (seq : BitVec 8) (s : State) :
    (bumpSequence seq s).halted = s.halted := rfl
@[simp] theorem bumpSequence_drive (seq : BitVec 8) (s : State) :
    (bumpSequence seq s).drive = s.drive := rfl
@[simp] theorem bumpSequence_queue (seq : BitVec 8) (s : State) :
    (bumpSequence seq s).queue = s.queue := rfl
@[simp] theorem bumpSequence_admission (seq : BitVec 8) (s : State) :
    (bumpSequence seq s).admission = s.admission := rfl
@[simp] theorem bumpSequence_time (seq : BitVec 8) (s : State) :
    (bumpSequence seq s).time = s.time := rfl
@[simp] theorem bumpSequence_line (seq : BitVec 8) (s : State) :
    (bumpSequence seq s).line = s.line := rfl
@[simp] theorem bumpSequence_peers (seq : BitVec 8) (s : State) :
    (bumpSequence seq s).peers = s.peers := rfl
@[simp] theorem bumpSequence_floor (seq : BitVec 8) (s : State) :
    (bumpSequence seq s).floor = s.floor := rfl
@[simp] theorem bumpSequence_conductor (seq : BitVec 8) (s : State) :
    (bumpSequence seq s).conductor = { s.conductor with sequence := seq + 1 } := rfl
@[simp] theorem bumpSequence_library (seq : BitVec 8) (s : State) :
    (bumpSequence seq s).library = s.library := rfl
@[simp] theorem bumpSequence_calendar (seq : BitVec 8) (s : State) :
    (bumpSequence seq s).calendar = s.calendar := rfl
@[simp] theorem bumpSequence_silence (seq : BitVec 8) (s : State) :
    (bumpSequence seq s).silence = s.silence := rfl
@[simp] theorem bumpSequence_trace (seq : BitVec 8) (s : State) :
    (bumpSequence seq s).trace = s.trace := rfl
@[simp] theorem bumpSequence_service (seq : BitVec 8) (s : State) :
    (bumpSequence seq s).service = s.service := rfl
@[simp] theorem bumpSequence_counters (seq : BitVec 8) (s : State) :
    (bumpSequence seq s).counters = s.counters := rfl
@[simp] theorem bumpSequence_free (seq : BitVec 8) (s : State) :
    (bumpSequence seq s).free = s.free := rfl
@[simp] theorem bumpSequence_pending (seq : BitVec 8) (s : State) :
    (bumpSequence seq s).pending = s.pending := rfl

/-! ### `freeContactsOf` -/
@[simp] theorem freeContactsOf_powered (k : Fin 4) (s : State) :
    (freeContactsOf k s).powered = s.powered := rfl
@[simp] theorem freeContactsOf_straps (k : Fin 4) (s : State) :
    (freeContactsOf k s).straps = s.straps := rfl
@[simp] theorem freeContactsOf_pins (k : Fin 4) (s : State) :
    (freeContactsOf k s).pins = s.pins := rfl
@[simp] theorem freeContactsOf_settings (k : Fin 4) (s : State) :
    (freeContactsOf k s).settings = s.settings := rfl
@[simp] theorem freeContactsOf_listen (k : Fin 4) (s : State) :
    (freeContactsOf k s).listen = s.listen := rfl
@[simp] theorem freeContactsOf_channels (k : Fin 4) (s : State) :
    (freeContactsOf k s).channels = s.channels := rfl
@[simp] theorem freeContactsOf_halted (k : Fin 4) (s : State) :
    (freeContactsOf k s).halted = s.halted := rfl
@[simp] theorem freeContactsOf_drive (k : Fin 4) (s : State) :
    (freeContactsOf k s).drive = s.drive := rfl
@[simp] theorem freeContactsOf_queue (k : Fin 4) (s : State) :
    (freeContactsOf k s).queue = s.queue := rfl
@[simp] theorem freeContactsOf_admission (k : Fin 4) (s : State) :
    (freeContactsOf k s).admission = s.admission := rfl
@[simp] theorem freeContactsOf_time (k : Fin 4) (s : State) :
    (freeContactsOf k s).time = s.time := rfl
@[simp] theorem freeContactsOf_line (k : Fin 4) (s : State) :
    (freeContactsOf k s).line = s.line := rfl
@[simp] theorem freeContactsOf_peers (k : Fin 4) (s : State) :
    (freeContactsOf k s).peers = s.peers := rfl
@[simp] theorem freeContactsOf_floor (k : Fin 4) (s : State) :
    (freeContactsOf k s).floor = s.floor := rfl
@[simp] theorem freeContactsOf_conductor (k : Fin 4) (s : State) :
    (freeContactsOf k s).conductor = s.conductor := rfl
@[simp] theorem freeContactsOf_library (k : Fin 4) (s : State) :
    (freeContactsOf k s).library = s.library := rfl
@[simp] theorem freeContactsOf_calendar (k : Fin 4) (s : State) :
    (freeContactsOf k s).calendar = { s.calendar with contacts := Vector.ofFn fun i : Fin 2 => freeContact k s.calendar.contacts[i] } := rfl
@[simp] theorem freeContactsOf_silence (k : Fin 4) (s : State) :
    (freeContactsOf k s).silence = s.silence := rfl
@[simp] theorem freeContactsOf_trace (k : Fin 4) (s : State) :
    (freeContactsOf k s).trace = s.trace := rfl
@[simp] theorem freeContactsOf_service (k : Fin 4) (s : State) :
    (freeContactsOf k s).service = s.service := rfl
@[simp] theorem freeContactsOf_counters (k : Fin 4) (s : State) :
    (freeContactsOf k s).counters = s.counters := rfl
@[simp] theorem freeContactsOf_free (k : Fin 4) (s : State) :
    (freeContactsOf k s).free = s.free := rfl
@[simp] theorem freeContactsOf_pending (k : Fin 4) (s : State) :
    (freeContactsOf k s).pending = s.pending := rfl

/-! ### `updEntry` -/
@[simp] theorem updEntry_powered (i : Fin 24) (f : CalEntry → CalEntry) (s : State) :
    (updEntry i f s).powered = s.powered := rfl
@[simp] theorem updEntry_straps (i : Fin 24) (f : CalEntry → CalEntry) (s : State) :
    (updEntry i f s).straps = s.straps := rfl
@[simp] theorem updEntry_pins (i : Fin 24) (f : CalEntry → CalEntry) (s : State) :
    (updEntry i f s).pins = s.pins := rfl
@[simp] theorem updEntry_settings (i : Fin 24) (f : CalEntry → CalEntry) (s : State) :
    (updEntry i f s).settings = s.settings := rfl
@[simp] theorem updEntry_listen (i : Fin 24) (f : CalEntry → CalEntry) (s : State) :
    (updEntry i f s).listen = s.listen := rfl
@[simp] theorem updEntry_channels (i : Fin 24) (f : CalEntry → CalEntry) (s : State) :
    (updEntry i f s).channels = s.channels := rfl
@[simp] theorem updEntry_halted (i : Fin 24) (f : CalEntry → CalEntry) (s : State) :
    (updEntry i f s).halted = s.halted := rfl
@[simp] theorem updEntry_drive (i : Fin 24) (f : CalEntry → CalEntry) (s : State) :
    (updEntry i f s).drive = s.drive := rfl
@[simp] theorem updEntry_queue (i : Fin 24) (f : CalEntry → CalEntry) (s : State) :
    (updEntry i f s).queue = s.queue := rfl
@[simp] theorem updEntry_admission (i : Fin 24) (f : CalEntry → CalEntry) (s : State) :
    (updEntry i f s).admission = s.admission := rfl
@[simp] theorem updEntry_time (i : Fin 24) (f : CalEntry → CalEntry) (s : State) :
    (updEntry i f s).time = s.time := rfl
@[simp] theorem updEntry_line (i : Fin 24) (f : CalEntry → CalEntry) (s : State) :
    (updEntry i f s).line = s.line := rfl
@[simp] theorem updEntry_peers (i : Fin 24) (f : CalEntry → CalEntry) (s : State) :
    (updEntry i f s).peers = s.peers := rfl
@[simp] theorem updEntry_floor (i : Fin 24) (f : CalEntry → CalEntry) (s : State) :
    (updEntry i f s).floor = s.floor := rfl
@[simp] theorem updEntry_conductor (i : Fin 24) (f : CalEntry → CalEntry) (s : State) :
    (updEntry i f s).conductor = s.conductor := rfl
@[simp] theorem updEntry_library (i : Fin 24) (f : CalEntry → CalEntry) (s : State) :
    (updEntry i f s).library = s.library := rfl
@[simp] theorem updEntry_calendar (i : Fin 24) (f : CalEntry → CalEntry) (s : State) :
    (updEntry i f s).calendar = { s.calendar with entries := s.calendar.entries.set i (f s.calendar.entries[i]) } := rfl
@[simp] theorem updEntry_silence (i : Fin 24) (f : CalEntry → CalEntry) (s : State) :
    (updEntry i f s).silence = s.silence := rfl
@[simp] theorem updEntry_trace (i : Fin 24) (f : CalEntry → CalEntry) (s : State) :
    (updEntry i f s).trace = s.trace := rfl
@[simp] theorem updEntry_service (i : Fin 24) (f : CalEntry → CalEntry) (s : State) :
    (updEntry i f s).service = s.service := rfl
@[simp] theorem updEntry_counters (i : Fin 24) (f : CalEntry → CalEntry) (s : State) :
    (updEntry i f s).counters = s.counters := rfl
@[simp] theorem updEntry_free (i : Fin 24) (f : CalEntry → CalEntry) (s : State) :
    (updEntry i f s).free = s.free := rfl
@[simp] theorem updEntry_pending (i : Fin 24) (f : CalEntry → CalEntry) (s : State) :
    (updEntry i f s).pending = s.pending := rfl

/-! ### `setContactState` -/
@[simp] theorem setContactState_powered (c : Fin 2) (x : ContactState) (s : State) :
    (setContactState c x s).powered = s.powered := rfl
@[simp] theorem setContactState_straps (c : Fin 2) (x : ContactState) (s : State) :
    (setContactState c x s).straps = s.straps := rfl
@[simp] theorem setContactState_pins (c : Fin 2) (x : ContactState) (s : State) :
    (setContactState c x s).pins = s.pins := rfl
@[simp] theorem setContactState_settings (c : Fin 2) (x : ContactState) (s : State) :
    (setContactState c x s).settings = s.settings := rfl
@[simp] theorem setContactState_listen (c : Fin 2) (x : ContactState) (s : State) :
    (setContactState c x s).listen = s.listen := rfl
@[simp] theorem setContactState_channels (c : Fin 2) (x : ContactState) (s : State) :
    (setContactState c x s).channels = s.channels := rfl
@[simp] theorem setContactState_halted (c : Fin 2) (x : ContactState) (s : State) :
    (setContactState c x s).halted = s.halted := rfl
@[simp] theorem setContactState_drive (c : Fin 2) (x : ContactState) (s : State) :
    (setContactState c x s).drive = s.drive := rfl
@[simp] theorem setContactState_queue (c : Fin 2) (x : ContactState) (s : State) :
    (setContactState c x s).queue = s.queue := rfl
@[simp] theorem setContactState_admission (c : Fin 2) (x : ContactState) (s : State) :
    (setContactState c x s).admission = s.admission := rfl
@[simp] theorem setContactState_time (c : Fin 2) (x : ContactState) (s : State) :
    (setContactState c x s).time = s.time := rfl
@[simp] theorem setContactState_line (c : Fin 2) (x : ContactState) (s : State) :
    (setContactState c x s).line = s.line := rfl
@[simp] theorem setContactState_peers (c : Fin 2) (x : ContactState) (s : State) :
    (setContactState c x s).peers = s.peers := rfl
@[simp] theorem setContactState_floor (c : Fin 2) (x : ContactState) (s : State) :
    (setContactState c x s).floor = s.floor := rfl
@[simp] theorem setContactState_conductor (c : Fin 2) (x : ContactState) (s : State) :
    (setContactState c x s).conductor = s.conductor := rfl
@[simp] theorem setContactState_library (c : Fin 2) (x : ContactState) (s : State) :
    (setContactState c x s).library = s.library := rfl
@[simp] theorem setContactState_calendar (c : Fin 2) (x : ContactState) (s : State) :
    (setContactState c x s).calendar = { s.calendar with contacts := s.calendar.contacts.set c x } := rfl
@[simp] theorem setContactState_silence (c : Fin 2) (x : ContactState) (s : State) :
    (setContactState c x s).silence = s.silence := rfl
@[simp] theorem setContactState_trace (c : Fin 2) (x : ContactState) (s : State) :
    (setContactState c x s).trace = s.trace := rfl
@[simp] theorem setContactState_service (c : Fin 2) (x : ContactState) (s : State) :
    (setContactState c x s).service = s.service := rfl
@[simp] theorem setContactState_counters (c : Fin 2) (x : ContactState) (s : State) :
    (setContactState c x s).counters = s.counters := rfl
@[simp] theorem setContactState_free (c : Fin 2) (x : ContactState) (s : State) :
    (setContactState c x s).free = s.free := rfl
@[simp] theorem setContactState_pending (c : Fin 2) (x : ContactState) (s : State) :
    (setContactState c x s).pending = s.pending := rfl

/-! ### `setWindow` -/
@[simp] theorem setWindow_powered (i : Fin 4) (w : QuietWindow) (s : State) :
    (setWindow i w s).powered = s.powered := rfl
@[simp] theorem setWindow_straps (i : Fin 4) (w : QuietWindow) (s : State) :
    (setWindow i w s).straps = s.straps := rfl
@[simp] theorem setWindow_pins (i : Fin 4) (w : QuietWindow) (s : State) :
    (setWindow i w s).pins = s.pins := rfl
@[simp] theorem setWindow_settings (i : Fin 4) (w : QuietWindow) (s : State) :
    (setWindow i w s).settings = s.settings := rfl
@[simp] theorem setWindow_listen (i : Fin 4) (w : QuietWindow) (s : State) :
    (setWindow i w s).listen = s.listen := rfl
@[simp] theorem setWindow_channels (i : Fin 4) (w : QuietWindow) (s : State) :
    (setWindow i w s).channels = s.channels := rfl
@[simp] theorem setWindow_halted (i : Fin 4) (w : QuietWindow) (s : State) :
    (setWindow i w s).halted = s.halted := rfl
@[simp] theorem setWindow_drive (i : Fin 4) (w : QuietWindow) (s : State) :
    (setWindow i w s).drive = s.drive := rfl
@[simp] theorem setWindow_queue (i : Fin 4) (w : QuietWindow) (s : State) :
    (setWindow i w s).queue = s.queue := rfl
@[simp] theorem setWindow_admission (i : Fin 4) (w : QuietWindow) (s : State) :
    (setWindow i w s).admission = s.admission := rfl
@[simp] theorem setWindow_time (i : Fin 4) (w : QuietWindow) (s : State) :
    (setWindow i w s).time = s.time := rfl
@[simp] theorem setWindow_line (i : Fin 4) (w : QuietWindow) (s : State) :
    (setWindow i w s).line = s.line := rfl
@[simp] theorem setWindow_peers (i : Fin 4) (w : QuietWindow) (s : State) :
    (setWindow i w s).peers = s.peers := rfl
@[simp] theorem setWindow_floor (i : Fin 4) (w : QuietWindow) (s : State) :
    (setWindow i w s).floor = s.floor := rfl
@[simp] theorem setWindow_conductor (i : Fin 4) (w : QuietWindow) (s : State) :
    (setWindow i w s).conductor = s.conductor := rfl
@[simp] theorem setWindow_library (i : Fin 4) (w : QuietWindow) (s : State) :
    (setWindow i w s).library = s.library := rfl
@[simp] theorem setWindow_calendar (i : Fin 4) (w : QuietWindow) (s : State) :
    (setWindow i w s).calendar = { s.calendar with windows := s.calendar.windows.set i w } := rfl
@[simp] theorem setWindow_silence (i : Fin 4) (w : QuietWindow) (s : State) :
    (setWindow i w s).silence = s.silence := rfl
@[simp] theorem setWindow_trace (i : Fin 4) (w : QuietWindow) (s : State) :
    (setWindow i w s).trace = s.trace := rfl
@[simp] theorem setWindow_service (i : Fin 4) (w : QuietWindow) (s : State) :
    (setWindow i w s).service = s.service := rfl
@[simp] theorem setWindow_counters (i : Fin 4) (w : QuietWindow) (s : State) :
    (setWindow i w s).counters = s.counters := rfl
@[simp] theorem setWindow_free (i : Fin 4) (w : QuietWindow) (s : State) :
    (setWindow i w s).free = s.free := rfl
@[simp] theorem setWindow_pending (i : Fin 4) (w : QuietWindow) (s : State) :
    (setWindow i w s).pending = s.pending := rfl

/-! ### `clearEntries` -/
@[simp] theorem clearEntries_powered (s : State) :
    (clearEntries s).powered = s.powered := rfl
@[simp] theorem clearEntries_straps (s : State) :
    (clearEntries s).straps = s.straps := rfl
@[simp] theorem clearEntries_pins (s : State) :
    (clearEntries s).pins = s.pins := rfl
@[simp] theorem clearEntries_settings (s : State) :
    (clearEntries s).settings = s.settings := rfl
@[simp] theorem clearEntries_listen (s : State) :
    (clearEntries s).listen = s.listen := rfl
@[simp] theorem clearEntries_channels (s : State) :
    (clearEntries s).channels = s.channels := rfl
@[simp] theorem clearEntries_halted (s : State) :
    (clearEntries s).halted = s.halted := rfl
@[simp] theorem clearEntries_drive (s : State) :
    (clearEntries s).drive = s.drive := rfl
@[simp] theorem clearEntries_queue (s : State) :
    (clearEntries s).queue = s.queue := rfl
@[simp] theorem clearEntries_admission (s : State) :
    (clearEntries s).admission = s.admission := rfl
@[simp] theorem clearEntries_time (s : State) :
    (clearEntries s).time = s.time := rfl
@[simp] theorem clearEntries_line (s : State) :
    (clearEntries s).line = s.line := rfl
@[simp] theorem clearEntries_peers (s : State) :
    (clearEntries s).peers = s.peers := rfl
@[simp] theorem clearEntries_floor (s : State) :
    (clearEntries s).floor = s.floor := rfl
@[simp] theorem clearEntries_conductor (s : State) :
    (clearEntries s).conductor = s.conductor := rfl
@[simp] theorem clearEntries_library (s : State) :
    (clearEntries s).library = s.library := rfl
@[simp] theorem clearEntries_calendar (s : State) :
    (clearEntries s).calendar = { s.calendar with entries := Vector.replicate 24 clearedEntry } := rfl
@[simp] theorem clearEntries_silence (s : State) :
    (clearEntries s).silence = s.silence := rfl
@[simp] theorem clearEntries_trace (s : State) :
    (clearEntries s).trace = s.trace := rfl
@[simp] theorem clearEntries_service (s : State) :
    (clearEntries s).service = s.service := rfl
@[simp] theorem clearEntries_counters (s : State) :
    (clearEntries s).counters = s.counters := rfl
@[simp] theorem clearEntries_free (s : State) :
    (clearEntries s).free = s.free := rfl
@[simp] theorem clearEntries_pending (s : State) :
    (clearEntries s).pending = s.pending := rfl

/-! ### `setPart` -/
@[simp] theorem setPart_powered (t : Fin 32) (x : LoadedPart) (s : State) :
    (setPart t x s).powered = s.powered := rfl
@[simp] theorem setPart_straps (t : Fin 32) (x : LoadedPart) (s : State) :
    (setPart t x s).straps = s.straps := rfl
@[simp] theorem setPart_pins (t : Fin 32) (x : LoadedPart) (s : State) :
    (setPart t x s).pins = s.pins := rfl
@[simp] theorem setPart_settings (t : Fin 32) (x : LoadedPart) (s : State) :
    (setPart t x s).settings = s.settings := rfl
@[simp] theorem setPart_listen (t : Fin 32) (x : LoadedPart) (s : State) :
    (setPart t x s).listen = s.listen := rfl
@[simp] theorem setPart_channels (t : Fin 32) (x : LoadedPart) (s : State) :
    (setPart t x s).channels = s.channels := rfl
@[simp] theorem setPart_halted (t : Fin 32) (x : LoadedPart) (s : State) :
    (setPart t x s).halted = s.halted := rfl
@[simp] theorem setPart_drive (t : Fin 32) (x : LoadedPart) (s : State) :
    (setPart t x s).drive = s.drive := rfl
@[simp] theorem setPart_queue (t : Fin 32) (x : LoadedPart) (s : State) :
    (setPart t x s).queue = s.queue := rfl
@[simp] theorem setPart_admission (t : Fin 32) (x : LoadedPart) (s : State) :
    (setPart t x s).admission = s.admission := rfl
@[simp] theorem setPart_time (t : Fin 32) (x : LoadedPart) (s : State) :
    (setPart t x s).time = s.time := rfl
@[simp] theorem setPart_line (t : Fin 32) (x : LoadedPart) (s : State) :
    (setPart t x s).line = s.line := rfl
@[simp] theorem setPart_peers (t : Fin 32) (x : LoadedPart) (s : State) :
    (setPart t x s).peers = s.peers := rfl
@[simp] theorem setPart_floor (t : Fin 32) (x : LoadedPart) (s : State) :
    (setPart t x s).floor = s.floor := rfl
@[simp] theorem setPart_conductor (t : Fin 32) (x : LoadedPart) (s : State) :
    (setPart t x s).conductor = s.conductor := rfl
@[simp] theorem setPart_library (t : Fin 32) (x : LoadedPart) (s : State) :
    (setPart t x s).library = { s.library with parts := s.library.parts.set t x } := rfl
@[simp] theorem setPart_calendar (t : Fin 32) (x : LoadedPart) (s : State) :
    (setPart t x s).calendar = s.calendar := rfl
@[simp] theorem setPart_silence (t : Fin 32) (x : LoadedPart) (s : State) :
    (setPart t x s).silence = s.silence := rfl
@[simp] theorem setPart_trace (t : Fin 32) (x : LoadedPart) (s : State) :
    (setPart t x s).trace = s.trace := rfl
@[simp] theorem setPart_service (t : Fin 32) (x : LoadedPart) (s : State) :
    (setPart t x s).service = s.service := rfl
@[simp] theorem setPart_counters (t : Fin 32) (x : LoadedPart) (s : State) :
    (setPart t x s).counters = s.counters := rfl
@[simp] theorem setPart_free (t : Fin 32) (x : LoadedPart) (s : State) :
    (setPart t x s).free = s.free := rfl
@[simp] theorem setPart_pending (t : Fin 32) (x : LoadedPart) (s : State) :
    (setPart t x s).pending = s.pending := rfl

/-! ### `lockTune` -/
@[simp] theorem lockTune_powered (t : Fin 32) (s : State) :
    (lockTune t s).powered = s.powered := rfl
@[simp] theorem lockTune_straps (t : Fin 32) (s : State) :
    (lockTune t s).straps = s.straps := rfl
@[simp] theorem lockTune_pins (t : Fin 32) (s : State) :
    (lockTune t s).pins = s.pins := rfl
@[simp] theorem lockTune_settings (t : Fin 32) (s : State) :
    (lockTune t s).settings = s.settings := rfl
@[simp] theorem lockTune_listen (t : Fin 32) (s : State) :
    (lockTune t s).listen = s.listen := rfl
@[simp] theorem lockTune_channels (t : Fin 32) (s : State) :
    (lockTune t s).channels = s.channels := rfl
@[simp] theorem lockTune_halted (t : Fin 32) (s : State) :
    (lockTune t s).halted = s.halted := rfl
@[simp] theorem lockTune_drive (t : Fin 32) (s : State) :
    (lockTune t s).drive = s.drive := rfl
@[simp] theorem lockTune_queue (t : Fin 32) (s : State) :
    (lockTune t s).queue = s.queue := rfl
@[simp] theorem lockTune_admission (t : Fin 32) (s : State) :
    (lockTune t s).admission = s.admission := rfl
@[simp] theorem lockTune_time (t : Fin 32) (s : State) :
    (lockTune t s).time = s.time := rfl
@[simp] theorem lockTune_line (t : Fin 32) (s : State) :
    (lockTune t s).line = s.line := rfl
@[simp] theorem lockTune_peers (t : Fin 32) (s : State) :
    (lockTune t s).peers = s.peers := rfl
@[simp] theorem lockTune_floor (t : Fin 32) (s : State) :
    (lockTune t s).floor = s.floor := rfl
@[simp] theorem lockTune_conductor (t : Fin 32) (s : State) :
    (lockTune t s).conductor = s.conductor := rfl
@[simp] theorem lockTune_library (t : Fin 32) (s : State) :
    (lockTune t s).library = { s.library with locks := s.library.locks.set t (s.library.locks[t] + 1) } := rfl
@[simp] theorem lockTune_calendar (t : Fin 32) (s : State) :
    (lockTune t s).calendar = s.calendar := rfl
@[simp] theorem lockTune_silence (t : Fin 32) (s : State) :
    (lockTune t s).silence = s.silence := rfl
@[simp] theorem lockTune_trace (t : Fin 32) (s : State) :
    (lockTune t s).trace = s.trace := rfl
@[simp] theorem lockTune_service (t : Fin 32) (s : State) :
    (lockTune t s).service = s.service := rfl
@[simp] theorem lockTune_counters (t : Fin 32) (s : State) :
    (lockTune t s).counters = s.counters := rfl
@[simp] theorem lockTune_free (t : Fin 32) (s : State) :
    (lockTune t s).free = s.free := rfl
@[simp] theorem lockTune_pending (t : Fin 32) (s : State) :
    (lockTune t s).pending = s.pending := rfl

/-! ### `unlockTune` -/
@[simp] theorem unlockTune_powered (t : Fin 32) (s : State) :
    (unlockTune t s).powered = s.powered := rfl
@[simp] theorem unlockTune_straps (t : Fin 32) (s : State) :
    (unlockTune t s).straps = s.straps := rfl
@[simp] theorem unlockTune_pins (t : Fin 32) (s : State) :
    (unlockTune t s).pins = s.pins := rfl
@[simp] theorem unlockTune_settings (t : Fin 32) (s : State) :
    (unlockTune t s).settings = s.settings := rfl
@[simp] theorem unlockTune_listen (t : Fin 32) (s : State) :
    (unlockTune t s).listen = s.listen := rfl
@[simp] theorem unlockTune_channels (t : Fin 32) (s : State) :
    (unlockTune t s).channels = s.channels := rfl
@[simp] theorem unlockTune_halted (t : Fin 32) (s : State) :
    (unlockTune t s).halted = s.halted := rfl
@[simp] theorem unlockTune_drive (t : Fin 32) (s : State) :
    (unlockTune t s).drive = s.drive := rfl
@[simp] theorem unlockTune_queue (t : Fin 32) (s : State) :
    (unlockTune t s).queue = s.queue := rfl
@[simp] theorem unlockTune_admission (t : Fin 32) (s : State) :
    (unlockTune t s).admission = s.admission := rfl
@[simp] theorem unlockTune_time (t : Fin 32) (s : State) :
    (unlockTune t s).time = s.time := rfl
@[simp] theorem unlockTune_line (t : Fin 32) (s : State) :
    (unlockTune t s).line = s.line := rfl
@[simp] theorem unlockTune_peers (t : Fin 32) (s : State) :
    (unlockTune t s).peers = s.peers := rfl
@[simp] theorem unlockTune_floor (t : Fin 32) (s : State) :
    (unlockTune t s).floor = s.floor := rfl
@[simp] theorem unlockTune_conductor (t : Fin 32) (s : State) :
    (unlockTune t s).conductor = s.conductor := rfl
@[simp] theorem unlockTune_library (t : Fin 32) (s : State) :
    (unlockTune t s).library = { s.library with locks := s.library.locks.set t (s.library.locks[t] - 1) } := rfl
@[simp] theorem unlockTune_calendar (t : Fin 32) (s : State) :
    (unlockTune t s).calendar = s.calendar := rfl
@[simp] theorem unlockTune_silence (t : Fin 32) (s : State) :
    (unlockTune t s).silence = s.silence := rfl
@[simp] theorem unlockTune_trace (t : Fin 32) (s : State) :
    (unlockTune t s).trace = s.trace := rfl
@[simp] theorem unlockTune_service (t : Fin 32) (s : State) :
    (unlockTune t s).service = s.service := rfl
@[simp] theorem unlockTune_counters (t : Fin 32) (s : State) :
    (unlockTune t s).counters = s.counters := rfl
@[simp] theorem unlockTune_free (t : Fin 32) (s : State) :
    (unlockTune t s).free = s.free := rfl
@[simp] theorem unlockTune_pending (t : Fin 32) (s : State) :
    (unlockTune t s).pending = s.pending := rfl

/-! ### `setStore` -/
@[simp] theorem setStore_powered (x : SettingsState) (memory : Option StoreImage) (s : State) :
    (setStore x memory s).powered = s.powered := rfl
@[simp] theorem setStore_straps (x : SettingsState) (memory : Option StoreImage) (s : State) :
    (setStore x memory s).straps = s.straps := rfl
@[simp] theorem setStore_pins (x : SettingsState) (memory : Option StoreImage) (s : State) :
    (setStore x memory s).pins = s.pins := rfl
@[simp] theorem setStore_settings (x : SettingsState) (memory : Option StoreImage) (s : State) :
    (setStore x memory s).settings = s.settings := rfl
@[simp] theorem setStore_listen (x : SettingsState) (memory : Option StoreImage) (s : State) :
    (setStore x memory s).listen = s.listen := rfl
@[simp] theorem setStore_channels (x : SettingsState) (memory : Option StoreImage) (s : State) :
    (setStore x memory s).channels = s.channels := rfl
@[simp] theorem setStore_halted (x : SettingsState) (memory : Option StoreImage) (s : State) :
    (setStore x memory s).halted = s.halted := rfl
@[simp] theorem setStore_drive (x : SettingsState) (memory : Option StoreImage) (s : State) :
    (setStore x memory s).drive = s.drive := rfl
@[simp] theorem setStore_queue (x : SettingsState) (memory : Option StoreImage) (s : State) :
    (setStore x memory s).queue = s.queue := rfl
@[simp] theorem setStore_admission (x : SettingsState) (memory : Option StoreImage) (s : State) :
    (setStore x memory s).admission = s.admission := rfl
@[simp] theorem setStore_time (x : SettingsState) (memory : Option StoreImage) (s : State) :
    (setStore x memory s).time = s.time := rfl
@[simp] theorem setStore_line (x : SettingsState) (memory : Option StoreImage) (s : State) :
    (setStore x memory s).line = s.line := rfl
@[simp] theorem setStore_peers (x : SettingsState) (memory : Option StoreImage) (s : State) :
    (setStore x memory s).peers = s.peers := rfl
@[simp] theorem setStore_floor (x : SettingsState) (memory : Option StoreImage) (s : State) :
    (setStore x memory s).floor = s.floor := rfl
@[simp] theorem setStore_conductor (x : SettingsState) (memory : Option StoreImage) (s : State) :
    (setStore x memory s).conductor = s.conductor := rfl
@[simp] theorem setStore_library (x : SettingsState) (memory : Option StoreImage) (s : State) :
    (setStore x memory s).library = s.library := rfl
@[simp] theorem setStore_calendar (x : SettingsState) (memory : Option StoreImage) (s : State) :
    (setStore x memory s).calendar = s.calendar := rfl
@[simp] theorem setStore_silence (x : SettingsState) (memory : Option StoreImage) (s : State) :
    (setStore x memory s).silence = s.silence := rfl
@[simp] theorem setStore_trace (x : SettingsState) (memory : Option StoreImage) (s : State) :
    (setStore x memory s).trace = s.trace := rfl
@[simp] theorem setStore_service (x : SettingsState) (memory : Option StoreImage) (s : State) :
    (setStore x memory s).service = { s.service with settingsState := x, memory := memory } := rfl
@[simp] theorem setStore_counters (x : SettingsState) (memory : Option StoreImage) (s : State) :
    (setStore x memory s).counters = s.counters := rfl
@[simp] theorem setStore_free (x : SettingsState) (memory : Option StoreImage) (s : State) :
    (setStore x memory s).free = s.free := rfl
@[simp] theorem setStore_pending (x : SettingsState) (memory : Option StoreImage) (s : State) :
    (setStore x memory s).pending = s.pending := rfl

/-! ### `acknowledge` -/
@[simp] theorem acknowledge_powered (s : State) :
    (acknowledge s).powered = s.powered := rfl
@[simp] theorem acknowledge_straps (s : State) :
    (acknowledge s).straps = s.straps := rfl
@[simp] theorem acknowledge_pins (s : State) :
    (acknowledge s).pins = s.pins := rfl
@[simp] theorem acknowledge_settings (s : State) :
    (acknowledge s).settings = s.settings := rfl
@[simp] theorem acknowledge_listen (s : State) :
    (acknowledge s).listen = s.listen := rfl
@[simp] theorem acknowledge_channels (s : State) :
    (acknowledge s).channels = s.channels := rfl
@[simp] theorem acknowledge_halted (s : State) :
    (acknowledge s).halted = s.halted := rfl
@[simp] theorem acknowledge_drive (s : State) :
    (acknowledge s).drive = s.drive := rfl
@[simp] theorem acknowledge_queue (s : State) :
    (acknowledge s).queue = s.queue := rfl
@[simp] theorem acknowledge_admission (s : State) :
    (acknowledge s).admission = s.admission := rfl
@[simp] theorem acknowledge_time (s : State) :
    (acknowledge s).time = s.time := rfl
@[simp] theorem acknowledge_line (s : State) :
    (acknowledge s).line = { s.line with ackDriven := s.line.faultAt.isNone } := rfl
@[simp] theorem acknowledge_peers (s : State) :
    (acknowledge s).peers = s.peers := rfl
@[simp] theorem acknowledge_floor (s : State) :
    (acknowledge s).floor = s.floor := rfl
@[simp] theorem acknowledge_conductor (s : State) :
    (acknowledge s).conductor = s.conductor := rfl
@[simp] theorem acknowledge_library (s : State) :
    (acknowledge s).library = s.library := rfl
@[simp] theorem acknowledge_calendar (s : State) :
    (acknowledge s).calendar = s.calendar := rfl
@[simp] theorem acknowledge_silence (s : State) :
    (acknowledge s).silence = s.silence := rfl
@[simp] theorem acknowledge_trace (s : State) :
    (acknowledge s).trace = s.trace := rfl
@[simp] theorem acknowledge_service (s : State) :
    (acknowledge s).service = s.service := rfl
@[simp] theorem acknowledge_counters (s : State) :
    (acknowledge s).counters = s.counters := rfl
@[simp] theorem acknowledge_free (s : State) :
    (acknowledge s).free = s.free := rfl
@[simp] theorem acknowledge_pending (s : State) :
    (acknowledge s).pending = s.pending := rfl

end Sys2Proof.Machine
end

