-- ==== Sys2Proof/Tests/Slice0.lean ====
section
/-! SUPPORT. Tests: ill-formed terms refused, the manual's worked examples, words of the line read back, and for each
statement with hypotheses a state and operands that meet them. -/

namespace Sys2Proof.Tests

-- One proof after another: many at once would ask for more threads than the memory limit allows.
set_option Elab.async false

open Sys2Proof Sys2Proof.Machine

/-! ### The states of the tests -/

/-- Node A of the manual's examples: station 5, bells 17 to 24, a time source. -/
def straps5 : Straps where
  station := 5
  fastLine := false
  bellBase := 16
  channelCount := 7
  timeSource := true

/-- A node that has listened, follows station 2, and has a charged bank. -/
def node : State :=
  { State.reset with
    straps := straps5
    listen := none
    drive := { mode := .ready, level := 40000, idle := 0 }
    time := { Timebase.initial with
      count := 300000, tower := 1000000, validity := .set, lock := .locked, reference := some 2 } }

/-- The stamp of an edge ten ticks ago. -/
def stamp10 : Stamp := { tower := 999990, count := 299990 }

/-- A frame of station 9. -/
def from9 : Heard := { sender := 9, stamp := stamp10 }

/-- A service frame of console 9 to station 5. -/
def toUs : Service := { heard := from9, target := 5, tag := 3 }

/-- A service frame of console 9 to station 6. -/
def toOther : Service := { heard := from9, target := 6, tag := 3 }

/-- Performance 1 of station 9. -/
def perf9 : PerfId := { station := 9, seq := 1 }

/-- Performance 1 of station 9 as the holder, at MELODY, all bells. -/
def holder9 : Holder where
  perf := perf9
  priority := .melody
  tag := 7
  start := 1100000
  mask := BitVec.allOnes 64
  lastBeacon := 299000

/-- The node with a holder. -/
def held : State := { node with floor := { holder := some holder9, fading := none } }

/-- The content of a CLAIM of performance 1. -/
def body1 : FloorBody := { seq := 1, tag := 8, start := 2000000, mask := BitVec.allOnes 64 }

/-- Channel 3 of the manual's worked strike (03, Worked strike). -/
def voice3 : Voicing where
  curve := #v[10, 20, 30, 40, 60, 75, 86, 98, 110, 120, 130, 140, 150, 160, 170]
  f1 := 480
  f15 := 160
  back := 600
  damped := true
  lead := 120
  coil := 40

/-- Channel 3 voiced and struck as in the worked strike. -/
def chan3 : Channel :=
  { freshChannel voice3 with lastFired := some { launch := 998900, back := 600 } }

/-- The node of the worked strike, at tower time `now`. -/
def strike (now : Nat) : State :=
  { held with
    channels := node.channels.set 3 chan3
    drive := { mode := .charging, level := 9000, idle := 0 }
    settings := { defaultSettings with reserve := 6000 }
    time := { node.time with tower := now } }

/-- An entry of channel 3, due at 999,703. -/
def entry3 : Entry where
  channel := 3
  owner := .perf perf9
  priority := 2
  impact := 1000000
  launch := 999703
  velocity := 9
  duration := none
  lift := none
  admission := 0
  held := false

/-- The worked strike at its launch event. -/
def launching : State := { strike 999703 with queue := [entry3] }

/-- An order of the worked strike: bell 20, velocity 9, offset 0, no duration. -/
def order20 : OrderItem := { bell := 19, velocity := 9, offset := 0, duration := 0 }

/-- A performance of this node in a phase. -/
def perfIn (phase : Phase) : Perf where
  phase := phase
  seq := 4
  slot := 0
  tag := 0xFFFF00
  priority := .hour
  cueTime := 1004000
  start := 1004000
  claimTime := 1000000
  postponed := 0
  cursor := 0
  sent := 0
  lost := 0
  deadline := none
  beaconTimer := 4000
  mask := 0
  rule := .any
  retry := true
  source := .resident [{ offset := 0, bell := 1, velocity := 12 }]
  refused := false
  chance := false

/-- The node with that performance in slot 0. -/
def slotIn (phase : Phase) : State := setSlot 0 (.active (perfIn phase)) node

/-- A node's beacon, of the tower time `now`. -/
def beaconAt (now : BitVec 32) : NodeBeacon where
  validity := .set
  lock := .locked
  drive := .ready
  silence := .voiced
  tower := now
  playable := 0xFF
  bellBase := 22
  count := 3
  holder := none

/-- A PRESENCE of station 2. -/
def from2 : Heard := { sender := 2, stamp := stamp10 }

/-- A header of one event. -/
def header1 : TuneHeader :=
  { tuneId := 1, priority := .low, rule := .any, retry := false, tempo := 100, count := 1 }

/-! ### Ill-formed terms are refused -/

theorem test_illformed_stamp : (Instr.minuteMark { tower := 2419200000, count := 0 }).wellFormed = false := by decide
theorem test_illformed_order_empty : (Instr.order from9 1 0 []).wellFormed = false := by decide
theorem test_illformed_order_four :
    (Instr.order from9 1 0 [order20, order20, order20, order20]).wellFormed = false := by decide
theorem test_illformed_nodeSet_empty : (Instr.nodeSet toUs []).wellFormed = false := by decide
theorem test_illformed_nodeSet_four :
    (Instr.nodeSet toUs [(0, 0), (0, 0), (0, 0), (0, 0)]).wellFormed = false := by decide
theorem test_illformed_loadData_empty : (Instr.loadData toUs 9 0 []).wellFormed = false := by decide
theorem test_illformed_loadData_three :
    (Instr.loadData toUs 9 0 [⟨0, 1, 1, 0⟩, ⟨0, 1, 1, 0⟩, ⟨0, 1, 1, 0⟩]).wellFormed = false := by decide
theorem test_illformed_unknownFrame : (Instr.unknownFrame 1168 (true :: fill 7)).wellFormed = false := by decide
theorem test_illformed_unknownCommand : (Instr.unknownCommand toUs 4 []).wellFormed = false := by decide
theorem test_wellformed_order : (Instr.order from9 1 0 [order20]).wellFormed = true := by decide

/-! ### Identifiers and frames, written out from R86 and the layout tables of 05 -/

theorem test_ident_hour_claim : FrameKind.ident (.claim .hour) 9 = 144 := by decide
theorem test_ident_presence : FrameKind.ident .presence 2 = 1056 := by decide
theorem test_ident_order : FrameKind.ident .order 5 = 1360 := by decide
theorem test_ident_floor_melody : FrameKind.ident (.floor .melody) 5 = 850 := by decide

/-- RELEASE: sequence in bits 0 to 7, reason in bits 8 and 9. -/
theorem test_read_release : decodeFrame stamp10 920
    [false, false, false, false, false, false, false, true, true, false, false, false, false, false, false, false] =
    .command (.release from9 1 .abandoned) := by decide

/-- A console's PRESENCE of one byte. -/
theorem test_read_console : decodeFrame stamp10 1168 [true, false, false, false, false, false, false, false] =
    .command (.presence from9 .console) := by decide

/-- WAKE to station 5 with tag 3: target in bits 0 to 4, command 4 in bits 5 to 9, tag in bits 10 to 15. -/
theorem test_read_wake : decodeFrame stamp10 1680
    [false, false, true, false, true, false, false, true, false, false, false, false, false, false, true, true] =
    .command (.wake toUs) := by decide

/-- CHANNEL MERGE of channel 0: mode 1 in the first body byte, flag k of the mask in bit 24 + k. -/
theorem test_read_channel : decodeFrame stamp10 1680
    ([false, false, true, false, true, false, false, true, false, true, false, false, false, false, true, true] ++
      [false, false, false, false, false, false, false, true] ++
      [true, false, false, false, false, false, false, false] ++ fill 8) =
    .command (.channelMerge toUs 1) := by decide

/-- A class and kind the line does not know. -/
theorem test_read_unknown : decodeFrame stamp10 145 [] = .unknown := by decide

/-! ### The manual's worked examples -/

/-- The flights of the default voicing (R9). -/
theorem test_flight_table : [1, 2, 4, 5, 8, 12, 15].map (flightAt defaultVoicing) =
    [400, 383, 349, 331, 280, 211, 160] := by decide

/-- The signed differences of R64's table. -/
theorem test_signed_differences : Machine.dist 100 2419199900 = 200 ∧ Machine.dist 2419199900 100 = -200 ∧
    Machine.dist 1209600000 0 = 1209600000 ∧ Machine.dist 0 1209600000 = 1209600000 ∧
    Machine.dist 1209600001 0 = -1209599999 := by decide

/-- The trim measurements of R74's table. -/
theorem test_trim_table : trimTarget 2000 2000 = 0 ∧ trimTarget 2003 2000 = 6 ∧ trimTarget 1999 2000 = -2 ∧
    trimTarget 2010 2000 = 8 ∧ trimTarget 4002 4000 = 2 := by decide

/-- The mark errors of R77's table. -/
theorem test_mark_errors : markError 345840090 = -90 ∧ markError 346079700 = 300 ∧ markError 346320700 = -700 ∧
    markTime 346320700 5 = 346320005 := by decide

/-- The tune of 08's worked load. -/
def workedTune : List TuneEvent :=
  [⟨0, 20, 10, 0⟩, ⟨0, 24, 10, 8⟩, ⟨2, 17, 9, 0⟩, ⟨10, 0, 0, 0⟩, ⟨3, 22, 8, 20⟩, ⟨40, 18, 12, 0⟩]

/-- The checksum and the bells of 08's worked load. -/
theorem test_worked_load : checksumOf workedTune = 814 ∧ bellsOf (tuneMask workedTune) = [17, 18, 20, 22, 24] := by
  decide

/-- The worked strike is admitted with launch 999,703. -/
theorem test_worked_admission :
    (takeOrder perf9 1000000 999500 order20 (strike 999500)).queue.map (fun e => (e.launch, e.priority)) =
      [(999703, 2)] := by decide

/-- The worked strike fires at 6, leaves 6000 in the bank, and is 69 ticks late. -/
theorem test_worked_launch : (launchFirst launching).drive.level = 6000 ∧
    (launchFirst launching).trace.records.map (fun r => (r.fired, r.outcome, r.lateness)) = [(6, .degraded, 69)] := by
  decide

/-- The same strike at priority 3 fires at 9 and leaves 4600. -/
theorem test_worked_launch_hour :
    (launchFirst { launching with queue := [{ entry3 with priority := 3 }] }).drive.level = 4600 := by decide

/-- Node A and station 2's overlap: the playable mask keeps channels 0 to 5 (01, Example). -/
theorem test_overlap :
    playableMask (takePresence 2 stamp10 (.node (beaconAt 999990)) node) = 0x3F := by decide

/-- The full queue of 05's example: a FLOOR beacon evicts the REPLY, then an ORDER is refused. -/
theorem test_full_queue :
    let o : TxFrame := { frame := .order 1 0 [], origin := .slot 1 }
    let r : TxFrame := { frame := .reply ⟨0, 0, .done, true, 0, .none⟩, origin := .single }
    let f : TxFrame := { frame := .floor .melody body1, origin := .slot 1 }
    let s : State := { node with line := { node.line with queue := [o, o, o, o, o, o, o, r] } }
    (handFrame f s).1.line.queue = [f, o, o, o, o, o, o, o] ∧
      (handFrame o (handFrame f s).1).2 = false := by decide

/-- A holder and a fading performance of station 8 with one entry. -/
def crowdedFloor : State :=
  { held with
    floor := { holder := some holder9
               fading := some { perf := { station := 8, seq := 1 }, priority := .low, reduction := 1, launches := 0
                                cutoff := none } }
    queue := [{ entry3 with owner := .perf { station := 8, seq := 1 } }] }

/-- An entry exactly half a week from the new time is not before it: a step leaves it in the queue (R61, R64). -/
theorem test_half_week_stays :
    (stepQueue { launching with time := { node.time with tower := 999703 + 1209600000 } }).queue.length = 1 ∧
    (stepQueue { launching with time := { node.time with tower := 999703 + 1209599999 } }).queue = [] := by decide

/-- A held entry that a backward step puts ahead is held no longer (R50, R61). -/
theorem test_held_released :
    (stepQueue { launching with
      time := { node.time with tower := 999000 }, queue := [{ entry3 with held := true }] }).queue = [entry3] := by
  decide

/-- A REPLY heard is acknowledged and not counted (R88, R90). -/
theorem test_reply_acknowledged :
    exec (.unknownFrame (FrameKind.ident .reply 9) (fill 24)) { node with line := { node.line with ackDriven := false } }
      = .next { node with line := { node.line with ackDriven := true } } := by rfl

/-- A fading performance that wins the contest is purged and its fading part cleared (R103, R112). -/
theorem test_fading_winner :
    (applyFloor { holder9 with perf := { station := 8, seq := 1 }, priority := .hour } crowdedFloor).floor.fading = none ∧
    (applyFloor { holder9 with perf := { station := 8, seq := 1 }, priority := .hour } crowdedFloor).queue = [] := by
  decide

/-- A trace record of the manual's layout: channel 3, performance 1 of station 9 (05, REPLY bodies). -/
theorem test_record_bits : (putRecord ⟨3, .perf perf9, 1000000, 999703, 9, 6, .degraded, -1⟩).take 16 =
    [false, true, true, false, true, false, false, true, false, false, false, false, false, false, false, true] ∧
    (putRecord ⟨3, .perf perf9, 1000000, 999703, 9, 6, .degraded, -1⟩).length = 104 := by decide

/-- A pre-roll point that a shorter pre-roll put ahead again is not decided there (R160). -/
theorem test_settled_point :
    (reachPoint 14400000 (settle 14380000 32000 8000 { node.calendar with decided := [14400000] })).due = [] ∧
    (reachPoint 14400000 { node.calendar with decided := [14400000] }).due = [14400000] := by decide

/-- Two points reached under a pre-roll of 120,000, a backward step over the later one only, and a shorter pre-roll:
the earlier minute is settled, and decided no second time (R160, R163). -/
theorem test_settled_after_step :
    let s : State := { node with
      settings := { node.settings with preroll := 120000 }
      time := { node.time with tower := 14390000 }
      calendar := { node.calendar with decided := [14640000, 14400000] } }
    (setPreroll 8000 (passPoints 14390000 130010 s)).calendar.settled = [14400000] ∧
    (setPreroll 8000 (passPoints 14390000 130010 s)).calendar.decided = [] := by decide

/-- A timer of local ticks wraps (R65). -/
theorem test_timer_wraps : tickOn 4294967295 = 0 ∧ tickOn 7 = 8 := by decide

/-! ### The step -/

theorem test_step_runs_front :
    step { node with pending := [.coilHotAssert] } = exec .coilHotAssert { node with pending := [] } := by rfl
theorem test_no_table_word : node.withFetchWord 8 0 = node := by rfl

/-! ### Witnesses: the hypotheses of the statements can be met -/

/-- The node with its play contacts pressed: nothing is due there. -/
def still : State := { node with pins := { node.pins with contact1 := true, contact2 := true } }

theorem witness_nothing_due : listenOver still = false ∧ offerable still = none ∧ still.line.sending = none ∧
    faultOver still = false ∧ errorsFew still = false ∧ beaconDue still = false ∧ clashOver still = false ∧
    (∀ p, lapsing still p = none) ∧ (∀ p, vanishing still p = false) ∧ firstDue still = none ∧
    (∀ k, pulseOver still k = false ∧ returnOver still k = false ∧ liftReached still k = false ∧
      dropDue still k = none) ∧
    (∀ k : Fin 8, still.channels[k].hammer = .rest) ∧ drainDue still = false ∧ sourcedOver still = false ∧
    stepOver still = false ∧ holdReached still = false ∧ lapseDue still = false ∧
    (∀ k : Fin 4, still.conductor.slots[k].isFree = true) ∧ still.calendar.due = [] ∧
    (∀ c, contactLevel still c = true) ∧ storing still = false ∧ partDue still = none := by decide
theorem witness_unpowered : ({ node with powered := false } : State).powered = false := by rfl
theorem witness_writers : exec .lapse node = .next node := by rfl
theorem witness_powered : node.powered = true ∧ targeted node toUs = true ∧ targeted node toOther = false ∧
    storing node = false := by decide
theorem witness_storing :
    storing { node with service := { node.service with settingsState := .storing defaultImage 3 } } = true := by decide
theorem witness_trim : (-8 : Int) ≤ -8 ∧ (8 : Int) ≤ 8 := by decide

theorem witness_mark_ignored : ({ node with straps := { straps5 with timeSource := false } } : State).straps.timeSource =
    false ∧ markRejected { node with time := { node.time with lastMark := some stamp10 } }
      { tower := 999990, count := 499989 } = true := by decide
theorem witness_mark_slewed : node.straps.timeSource = true ∧
    markRejected { node with time := { node.time with lastMark := some stamp10 } }
      { tower := 1200400, count := 499990 } = false ∧ (markError 1200400).natAbs = 400 := by decide
theorem witness_mark_stepped : markRejected node { tower := 1200401, count := 299990 } = false ∧
    (markError 1200401).natAbs = 401 := by decide
theorem witness_sourcedExit :
    let s : State := { node with time := { node.time with lock := .sourced, lastMark := some ⟨0, 20000⟩ } }
    s.time.lock = .sourced ∧ ticksSince s.time.count 20000 = 280000 := by decide
theorem witness_setTime : (2419200000#32).toNat = 2419200000 ∧ (2419199999#32).toNat < 2419200000 := by decide
/-- The launching node at another tower time. -/
def launchingAt (now : Nat) : State := { launching with time := { launching.time with tower := now } }
theorem witness_setTime_queue : launching.queue = [] ++ entry3 :: [] ∧
    passedBy (launchingAt 999743) entry3 = false ∧ passedBy (launchingAt 999744) entry3 = true ∧
    passedBy (launchingAt (999703 + 1209600000)) entry3 = false ∧ atOrBefore 999703 (999703 + 1209600000) = false ∧
    atOrBefore 999703 999703 = true ∧ atOrBefore 999703 999702 = false ∧ channelState launching 3 = .run ∧
    isClear launching 3 = true ∧
    isClear { launching with channels := launching.channels.set 3 { chan3 with hammer := .returning 0 600 } } 3 = false := by
  decide
theorem witness_setTime_choice : launching.time.validity = .set ∧ node.listen = none ∧
    node.time.reference ≠ some (chooseReference { node with time := { node.time with validity := .unset } }) := by decide
theorem witness_trace : node.trace.state = .open ∧ node.settings.trigger = .none ∧
    ({ node with trace := { node.trace with state := .counting, remaining := 1 } } : State).trace.state ≠ .frozen ∧
    recordTriggers .starved .starved = true ∧ recordTriggers .notFired .purged = true := by decide
theorem witness_setAside :
    let b := ownBeacon node
    let s : State := { node with line := { node.line with
      sending := some { tx := { frame := .presence b, origin := .beacon }, stamp := stamp10 }, setAside := some b } }
    s.line.setAside = some b ∧ s.line.sending.isSome = true ∧ s.line.queue.length < 8 := by
  refine ⟨rfl, rfl, by decide⟩
theorem witness_mask_new :
    let s : State := { node with silence := { node.silence with conds := 0x12, mask := 0xC0 } }
    enabledActive s.silence = 0 ∧ hasCondition (0x12 &&& 0xFF) .driveFault = true ∧ Condition.driveFault.hard = true ∧
    hasCondition (0x12 &&& 0xC2) .timeStep = true ∧ Condition.timeStep.hard = false := by decide

theorem witness_presence : from2.sender ≠ node.straps.station ∧
    ({ sender := 5, stamp := stamp10 } : Heard).sender = node.straps.station := by decide
/-- The node with a record of station 2 as old as a lapse, and as an absence. -/
def agedPeer (age : Nat) : State :=
  { node with
    peers := (node.peers.set 2
      (.live { lastHeard := node.time.count - BitVec.ofNat 32 age, body := .node (beaconAt 0) })) }
theorem witness_peerLapse : lapsing (agedPeer 6000) 2 =
    some { lastHeard := 294000, body := .node (beaconAt 0) } ∧ lapsing (agedPeer 5999) 2 = none := by decide
theorem witness_peerAbsence : vanishing (agedPeer 120000) 2 = true ∧ vanishing (agedPeer 119999) 2 = false := by decide
theorem witness_beacon : node.listen = none ∧ node.time.validity = .set ∧ node.time.lock = .locked ∧
    node.time.reference = some 2 ∧
    chooseReference (setPeer 2 (.live { lastHeard := 299990, body := .node (beaconAt 1000390) }) node) = 2 ∧
    Machine.dist 1000390 999990 = 400 ∧ Machine.dist 1000391 999990 = 401 ∧ Machine.dist 1000014 999990 = 24 ∧
    Machine.dist 999998 999990 = 8 := by decide

/-- The node not yet SET, following station 2. -/
def unset : State := { node with time := { node.time with validity := .unset, lock := .acquiring } }
theorem witness_beacon_unset : unset.time.validity = .unset ∧ unset.time.lock = .acquiring ∧
    chooseReference (setPeer 2 (.live { lastHeard := 299990, body := .node (beaconAt 1000390) }) unset) = 2 ∧
    (beaconAt 1000390).validity = .set ∧
    chooseReference (setPeer 2 (.live
      { lastHeard := 299990, body := .node { beaconAt 1000390 with validity := .unset } }) unset) = 2 := by decide
theorem witness_week :
    let s : State := { unset with time := { unset.time with lock := .sourced } }
    s.time.lock = .sourced ∧ s.time.validity = .unset ∧ (∀ st : Fin 16, s.peers[st] = .absent) ∧
    samePhase 1000000 14400000 = 14440000 := by decide
theorem witness_sourcedExit_listen :
    let s : State := { node with listen := some 0, time := { node.time with lock := .sourced, reference := none } }
    s.listen.isSome = true ∧ s.time.lock = .sourced ∧ s.time.lastMark = none ∧ s.time.reference = none := by decide
/-- A reply, the lowest of the frames. -/
def reply1 : TxFrame := { frame := .reply ⟨4, 3, .done, true, 0, .none⟩, origin := .single }
/-- A beacon that waits. -/
def presence1 : TxFrame := { frame := .presence (beaconAt 0), origin := .beacon }
/-- The node with a full transmit queue. -/
def full : State := { node with line := { node.line with queue := List.replicate 7 presence1 ++ [reply1] } }
theorem witness_queue : txCount node < 8 ∧ txCount full = 8 ∧
    full.line.queue = List.replicate 7 presence1 ++ [reply1] ∧
    txIdent full presence1.frame < txIdent full reply1.frame ∧
    txIdent full reply1.frame ≤ txIdent full reply1.frame := by decide
/-- The node in transmission of a frame. -/
def sendingOf (x : TxFrame) : State :=
  { node with line := { node.line with sending := some { tx := x, stamp := stamp10 } } }
theorem witness_sendingPresence : sendingPresence (sendingOf presence1) = true ∧ sendingPresence node = false ∧
    presence1.frame.isPresence = true := by decide
/-- The node with one frame that waits. -/
def waitingOf (x : TxFrame) : State := { node with line := { node.line with queue := [x] } }
theorem witness_offer : (waitingOf reply1).listen = none ∧ (waitingOf reply1).line.faultAt = none ∧
    (waitingOf reply1).line.sending = none ∧ (waitingOf reply1).line.clashAt = none ∧
    (waitingOf reply1).line.queue = reply1 :: [] := by decide
theorem witness_offer_clash :
    let s : State := { waitingOf presence1 with line := { (waitingOf presence1).line with clashAt := some 0 } }
    s.line.clashAt.isSome = true ∧ s.line.queue = [] ++ presence1 :: [] := by decide
theorem witness_arbitration : (sendingOf reply1).line.sending = some { tx := reply1, stamp := stamp10 } ∧
    identCell (sendingOf reply1) reply1.frame 0 = true := by decide
theorem witness_lineFault :
    let s : State := { sendingOf reply1 with line := { (sendingOf reply1).line with txErrors := 15 } }
    s.line.faultAt = none ∧ s.line.txErrors = 15 ∧ s.line.setAside = none := by decide
theorem witness_claim_lost : (perfIn .claiming).phase = .claiming ∧
    (slotIn .claiming).conductor.slots[(0 : Fin 4)] = .active (perfIn .claiming) := by decide
theorem witness_receiveErrors :
    (recentErrors { node with line := { node.line with errors := List.replicate 8 296000 } }).length = 8 ∧
    (recentErrors { node with line := { node.line with errors := List.replicate 8 295999 } }).length = 0 := by decide
theorem witness_unknownFrame : frameAccepted 145 [] = false ∧
    frameKind (FrameKind.ident .reply 9) = some .reply ∧
    frameAccepted (FrameKind.ident .reply 9) (fill 24) = true := by decide
theorem witness_timers :
    faultOver { node with line := { node.line with faultAt := some 292000 } } = true ∧
    stepOver { node with time := { node.time with stepAt := some 292000 } } = true ∧
    clashOver { node with line := { node.line with clashAt := some 180000 } } = true ∧
    errorsFew { node with silence := { node.silence with conds := 8 } } = true := by decide
theorem witness_listenEnd : listenOver { node with listen := some 294000 } = true ∧
    beaconDue { node with line := { node.line with beaconTimer := 2000 } } = true := by decide

theorem witness_orderAdmitted : channelOfBell (strike 999500) 20 = some 3 ∧ order20.velocity ≠ 0 ∧
    channelState (strike 999500) 3 = .run ∧ (strike 999500).floor.holder = some holder9 ∧
    Machine.dist (plus 1000000 0) 999500 ≤ 40000 ∧ (strike 999500).queue.length < 96 ∧
    isBefore 999500 (minus 1000000 (flightAt voice3 9)) = true ∧ readyTime (strike 999500) 3 = some 999500 ∧
    reached (minus 1000000 (flightAt voice3 9)) 999500 = true := by decide
theorem witness_orderDiscarded : floorStanding node perf9 1000000 = none ∧
    floorStanding (strike 999744) perf9 1000000 = some (.holder, 2) ∧
    isBefore (minus 1000000 (flightAt voice3 9)) 999744 = true ∧
    (40 : Int) < Machine.dist 999744 (minus 1000000 (flightAt voice3 9)) := by decide
theorem witness_orderPlanned : floorStanding (strike 999500) perf9 1000000 = some (.holder, 2) ∧
    planLaunch (strike 999500) 3 1000000 9 999500 = .launch 999703 ∧
    planLaunch (strike 999743) 3 1000000 9 999743 = .launch 999743 ∧
    planLaunch (strike 999744) 3 1000000 9 999744 = .discard .late ∧
    planLaunch launching 3 1000560 9 999703 = .launch 1000303 ∧
    planLaunch launching 3 1000559 9 999703 = .discard .tooClose ∧
    isBefore 999500 999703 = true := by decide
theorem witness_clamp : isBefore 999700 999740 = true ∧ Machine.dist 999740 999700 = 40 ∧
    Machine.dist 999741 999700 = 41 ∧ isBefore 999740 999740 = false := by decide
theorem witness_standing :
    let f : FadingPart := { perf := perf9, priority := .low, reduction := 1, launches := 0, cutoff := some 1000000 }
    let s : State := { node with floor := { holder := none, fading := some f } }
    floorStanding s perf9 999999 = some (.fading, 1) ∧ floorStanding s perf9 1000000 = none ∧
    floorStanding s { station := 8, seq := 1 } 999999 = none := by decide
theorem witness_readyTime : readyTime launching 3 = some 1000303 ∧ minus entry3.launch 998900 = 803 ∧
    readyTime node 3 = none := by decide
/-- A full strike queue whose entry of station 8 fades. -/
def crowded : State :=
  { held with
    floor := { holder := some holder9
               fading := some { perf := { station := 8, seq := 1 }, priority := .low, reduction := 1, launches := 0
                                cutoff := none } }
    queue := { entry3 with owner := .perf { station := 8, seq := 1 } } :: List.replicate 95 entry3 }
set_option maxRecDepth 20000 in
theorem witness_fullQueue : crowded.queue.length = 96 ∧
    (fadingOf crowded { entry3 with owner := .perf { station := 8, seq := 1 } }).isSome = true ∧
    (∀ y ∈ List.replicate 95 entry3, fadingOf crowded y = none) ∧
    (∀ y ∈ List.replicate 96 entry3, fadingOf held y = none) := by decide
theorem witness_orderEarly : isPresent node 3 = true ∧ bellOf node 3 = 20 ∧ bellBase node = 17 ∧
    bellBase node + presentCount node = 25 ∧
    channelState { node with halted := 8 } 3 = .halted ∧ Machine.dist 1040001 1000000 = 40001 ∧
    Machine.dist 1040000 1000000 = 40000 := by decide
theorem witness_effectiveVelocity : channelState launching 3 = .run ∧ isClear launching 3 = true ∧
    launching.silence.state ≠ .silent ∧ bankUp launching.drive.mode = true ∧
    effectiveVelocity launching entry3 = 9 ∧
    effectiveVelocity { launching with silence := { launching.silence with level := 9 } } entry3 = 0 := by decide
theorem witness_launch_fires : firstDue launching = some entry3 ∧ servedEntry launching entry3 = entry3 ∧
    serve launching entry3 = .fired 6 .degraded := by decide
theorem witness_launch_unfired :
    let s : State := { launching with halted := 8 }
    firstDue s = some entry3 ∧ serve s (servedEntry s entry3) = .unfired .halted := by decide

/-- The worked strike pays from what lies above the reserve (R27). -/
theorem witness_reserve : entry3.priority < 3 ∧ entry3.velocity ≤ 15 ∧
    VoicingInRange launching.channels[(3 : Fin 8)].voicing ∧
    available launching 2 = launching.drive.level - launching.settings.reserve ∧
    launching.settings.reserve ≤ (launchFirst launching).drive.level := by unfold VoicingInRange; decide

/-- The node whose entry of 999,703 meets, at a tower time, a last fired launch at 999,143 with H of 600. -/
def returning (now : Nat) : State :=
  { launchingAt now with
    channels := launching.channels.set 3 { chan3 with lastFired := some { launch := 999143, back := 600 } } }
/-- An entry never found held, whose launch lies within H of the strike before it, is served from the tower time of
its launch event, H after that strike (R50). -/
theorem test_return_spacing : firstDue (returning 999743) = some entry3 ∧ entry3.held = false ∧
    servedEntry (returning 999743) entry3 = { entry3 with launch := 999743 } ∧ plus 999143 600 = 999743 ∧
    serve (returning 999743) { entry3 with launch := 999743 } = .fired 6 .degraded := by decide
/-- Not clear at the tick before, the channel leaves the entry waiting as it is (R50). -/
theorem witness_return_notClear : isClear (returning 999742) 3 = false ∧ launchDue (returning 999742) entry3 = false ∧
    servedEntry (returning 999742) entry3 = entry3 := by decide

/-- The worked strike of a performance that fades, under a node that fades. -/
def fadingStrike : State :=
  { launching with
    floor := { holder := none
               fading := some { perf := perf9, priority := .melody, reduction := 1, launches := 1, cutoff := none } }
    silence := { node.silence with state := .fading, level := 14, fadeCount := 1, conds := 2 } }
theorem witness_launch_fades : firstDue fadingStrike = some entry3 ∧ fadingStrike.settings.fadeStep = 2 ∧
    (launchFirst fadingStrike).queue = [] ∧ (launchFirst fadingStrike).floor.fading = none ∧
    (launchFirst fadingStrike).silence.state = .silent ∧
    (launchFirst { fadingStrike with queue := [entry3, { entry3 with channel := 4 }] }).floor.fading =
      some { perf := perf9, priority := .melody, reduction := 2, launches := 0, cutoff := none } := by decide
/-- The node with channel 3 in a state. -/
def with3 (c : Channel) : State := { node with channels := node.channels.set 3 c }
theorem witness_pulse : pulseOver (with3 { chan3 with gate := some { since := 299981, width := 249 } }) 3 = true ∧
    pulseOver (with3 { chan3 with gate := some { since := 299981, width := 250 } }) 3 = false := by decide
theorem witness_strokes :
    (with3 { chan3 with hammer := .flying 299703 297 600 }).channels[(3 : Fin 8)].hammer = .flying 299703 297 600 ∧
    ticksSince node.time.count 299703 = 297 ∧
    returnOver (with3 { chan3 with hammer := .returning 299400 600 }) 3 = true := by decide
theorem witness_straightToRest :
    (with3 { chan3 with hammer := .flying 299703 297 297 }).channels[(3 : Fin 8)].hammer = .flying 299703 297 297 ∧
    ticksSince node.time.count 299703 = 297 ∧ returnOver (with3 { chan3 with hammer := .flying 299703 297 297 }) 3 = true ∧
    (endFlight 3 (with3 { chan3 with hammer := .flying 299703 297 297 })).channels[(3 : Fin 8)].hammer = .rest := by
  decide
theorem witness_dampers :
    let s : State := { with3 chan3 with queue := [{ entry3 with lift := some 1000000 }] }
    isPresent s 3 = true ∧ s.channels[(3 : Fin 8)].voicing.damped = true ∧
    s.channels[(3 : Fin 8)].damperUp = false ∧ liftReached s 3 = true ∧
    dropDue (with3 { chan3 with drop := some 1000000 }) 3 = some 1000000 ∧
    dropDue (with3 { chan3 with drop := some 1000001 }) 3 = none := by decide
theorem witness_drain : drainDue { node with drive := { node.drive with idle := 480000 } } = true ∧
    drainDue { node with drive := { node.drive with idle := 479999 } } = false := by decide
theorem witness_access : node.pins.access = false ∧ hasCondition node.silence.conds .access = false ∧
    hasCondition node.silence.mask .access = true := by decide
/-- The node with the chamber open. -/
def opened : State :=
  { node with
    pins := { node.pins with access := true }
    drive := Drive.initial
    silence := { node.silence with state := .silent, level := 15, conds := 0x80 } }
theorem witness_release : opened.pins.access = true ∧ opened.drive.mode = .off ∧ opened.queue = [] ∧
    holderTouches opened = false ∧
    holderTouches { opened with floor := { holder := some holder9, fading := none } } = true := by decide
theorem witness_silence : hasCondition node.silence.mask .timeStep = true ∧ Condition.timeStep.hard = false ∧
    hasCondition opened.silence.conds .access = true ∧ opened.silence.state = .silent ∧
    enabledActive (clearCond .access opened).silence = 0 ∧ enabledActive opened.silence ≠ 0 ∧
    enabledActive node.silence = 0 ∧ node.settings.resume = .auto := by decide
theorem witness_hold :
    let s : State := { node with silence := { node.silence with state := .holding, level := 15, hold := 16000 } }
    s.silence.state = .holding ∧ s.settings.holdTime ≤ s.silence.hold ∧ enabledActive s.silence = 0 := by decide

theorem witness_claim : node.floor.holder = none ∧ held.floor.holder = some holder9 ∧
    holder9.perf = { station := from9.sender, seq := body1.seq } ∧ holder9.perf ≠ { station := 9, seq := 2 } ∧
    holder9.priority.level < Priority.hour.level ∧ Priority.low.level ≤ holder9.priority.level ∧
    holder9.tag ≠ body1.tag ∧ touches held body1.mask = true ∧
    (Machine.dist 1108000 holder9.start).natAbs = 8000 := by decide
theorem witness_contest : isBefore 1099999 holder9.start = true ∧ isBefore holder9.start 1100001 = true ∧
    isBefore 1100000 holder9.start = false ∧ (8 : Fin 16) < holder9.perf.station := by decide
theorem witness_lapse :
    lapseDue { held with floor := { holder := some { holder9 with lastBeacon := 286000 }, fading := none } } = true ∧
    lapseDue { held with floor := { holder := some { holder9 with lastBeacon := 286001 }, fading := none } } =
      false := by decide

theorem witness_notices : slotOfSeq (slotIn .claiming) 4 = some 0 ∧
    (slotIn .claiming).conductor.slots[(0 : Fin 4)] = .active (perfIn .claiming) ∧
    isBefore 999999 (minus (perfIn .claiming).start 4000) = true ∧ (perfIn .claiming).deadline = none ∧
    Phase.playing.holds = true ∧ (perfIn .playing).retry = true ∧ countReached 300000 300000 = true ∧
    countReached 299999 300000 = false := by decide
theorem witness_claimHandoff : (perfIn .preroll).phase = .preroll ∧
    reached node.time.tower (perfIn .preroll).claimTime = true ∧
    txCanTake (slotIn .preroll) (claimFrame 0 (perfIn .preroll)).frame = true ∧
    (perfIn .gathering).phase.holds = true ∧ (perfIn .gathering).beaconTimer = 4000 := by decide
/-- The node with that performance in PREROLL in slots 0 and 1. -/
def twins : State := setSlot 1 (.active (perfIn .preroll)) (slotIn .preroll)
theorem witness_claims_in_turn : claimsBefore twins 0 1 (perfIn .preroll) = true ∧
    (∀ j : Fin 4, claimsBefore twins j 0 (perfIn .preroll) = false) := by decide
theorem witness_ringOut :
    let s : State := { slotIn .ending with time := { node.time with tower := 1012000 } }
    lastImpact s (perfIn .ending) = 1004000 ∧ reached s.time.tower (plus 1004000 8000) = true ∧ txCount s < 8 := by
  decide
/-- A gate that a step reaches is evaluated, one that it does not reach waits on (R129). -/
theorem witness_step_gate :
    reached 1000000 (minus (perfIn .gathering).start 4000) = true ∧
    reached 900000 (minus (perfIn .gathering).start 4000) = false ∧
    (slotIn .gathering).conductor.slots[(0 : Fin 4)] = .active (perfIn .gathering) ∧
    (perfIn .gathering).phase = .gathering ∧ node.settings.claimWait < 124000 + 8000 := by decide
theorem witness_gate : gateDue (slotIn .gathering) (perfIn .gathering) = true ∧
    gatePasses (slotIn .gathering) .any 0 = true ∧ gatePasses (slotIn .gathering) .all 1 = false ∧
    (perfIn .gathering).postponed + 8000 ≤ node.settings.claimWait := by decide
theorem witness_events : (perfIn .playing).source = .resident [{ offset := 0, bell := 1, velocity := 12 }] ∧
    (perfEvents (slotIn .playing) (perfIn .playing)).length = 1 ∧
    (∀ b ∈ [node.settings.hourBell, node.settings.quarter1, node.settings.quarter2, node.settings.quarter3,
      node.settings.quarter4], 1 ≤ b ∧ b ≤ 64) := by decide
/-- At its entry to PLAYING a slot may find its first event beyond the lookahead: it waits (R133). -/
theorem witness_build_entry :
    let s : State := { slotIn .playing with time := { node.time with tower := minus (perfIn .playing).start 8001 } }
    s.settings.lookahead < Machine.dist (perfIn .playing).start s.time.tower ∧
    s.conductor.slots[(0 : Fin 4)] = .active (perfIn .playing) ∧ buildDue s (perfIn .playing) = false := by decide
theorem witness_build : buildDue (slotIn .playing) (perfIn .playing) = true ∧
    notesFrom (perfEvents (slotIn .playing) (perfIn .playing)) 0 = [(0, 0, ⟨1, 12, 0⟩)] ∧
    notesFrom (perfEvents (slotIn .playing) (perfIn .playing)) 1 = [] ∧
    Machine.dist (plus (perfIn .playing).start 0) node.time.tower = 4000 := by decide
theorem witness_build_beyond :
    buildDue (setSlot 0 (.active { perfIn .playing with source := .resident [⟨5000, 1, 12⟩], refused := true, chance := true })
      node) { perfIn .playing with source := .resident [⟨5000, 1, 12⟩], refused := true, chance := true } = true ∧
    (4000 : Int) < Machine.dist (plus 1004000 5000) node.time.tower := by decide
/-- A performance with three notes within one frame, and one too many. -/
def chord (n : Nat) : Perf :=
  { perfIn .playing with source := .resident ((List.range n).map fun i => { offset := 100 * i, bell := 1, velocity := 12 }) }
theorem witness_build_frames : buildDue node (chord 3) = true ∧
    (packNotes (0, 0, ⟨1, 12, 0⟩) [(1, 100, ⟨1, 12, 0⟩), (2, 200, ⟨1, 12, 0⟩)]).length = 3 ∧
    (notesFrom (perfEvents node (chord 4)) 0).length = 4 ∧
    packNotes (0, 0, ⟨1, 12, 0⟩) [(1, 255, ⟨1, 12, 0⟩), (2, 256, ⟨1, 12, 0⟩)] =
      [(0, 0, ⟨1, 12, 0⟩), (1, 255, ⟨1, 12, 0⟩)] := by decide
theorem witness_build_refused :
    let o : TxFrame := { frame := .order 1 0 [order20], origin := .slot 1 }
    let s : State := setSlot 0 (.active (chord 4)) { node with line := { node.line with queue := List.replicate 8 o } }
    txCount s = 8 ∧ (handFrame o s).2 = false ∧ (handFrame o node).2 = true ∧
    buildDue s { chord 4 with refused := true } = false ∧
    buildDue s { chord 4 with refused := true, chance := true } = true ∧
    Machine.dist (plus (chord 4).start 0) 1003001 = 999 := by decide
theorem witness_cue : cueRefused node 0 0 1009000 = false ∧ cueRefused node 32 0 1009000 = true ∧
    freeSlot node = some 0 ∧ (tuneInfo node 0 1009000).isSome = true ∧ tuneInfo node 6 1009000 = none := by decide
theorem witness_no_slot :
    freeSlot { node with conductor := { slots := Vector.replicate 4 (.active (perfIn .preroll)), sequence := 0 } } =
      none := by decide
/-- The node with contact 1 mapped to HOUR_COUNT. -/
def mapped : State := { node with settings := { node.settings with map1 := { enabled := true, slot := 0 } } }
theorem witness_press : contactLevel mapped 0 = false ∧ (contactMap mapped 0).enabled = true ∧
    (contactMap mapped 1).enabled = false ∧ mapped.calendar.contacts[(0 : Fin 2)].busy = false ∧
    (tuneInfo mapped 0 1008000).isSome = true := by decide
theorem witness_press_missing :
    let s : State := { node with settings := { node.settings with map1 := { enabled := true, slot := 6 } } }
    contactLevel s 0 = false ∧ (contactMap s 0).enabled = true ∧ s.calendar.contacts[(0 : Fin 2)].busy = false ∧
    freeSlot s = some 0 ∧ tuneInfo s 6 1008000 = none := by decide
theorem witness_press_busy :
    ({ mapped with calendar := { mapped.calendar with contacts := Vector.replicate 2 ⟨true, some 0⟩ } } :
      State).calendar.contacts[(0 : Fin 2)].busy = true := by decide
/-- An entry for every hour of every day, on the hour. -/
def hourly : CalEntry :=
  { enabled := true, days := 0x7F, hours := 0xFFFFFF, minute := 0, slot := 0, priority := .hour, lastFired := none }
/-- The node with that entry as number 3, and 14,400,000 (01:00) due. -/
def due1 : State :=
  { node with calendar := { node.calendar with entries := node.calendar.entries.set 3 hourly, due := [14400000] } }
theorem witness_preroll : due1.calendar.due = 14400000 :: [] ∧
    (∀ j : Fin 24, matchesMinute due1.calendar.entries[j] 14400000 = decide (j = 3)) ∧
    due1.calendar.entries[(3 : Fin 24)].lastFired ≠ some 14400000 ∧ due1.listen = none ∧
    heldBack due1 14400000 .hour = false ∧ (∀ j : Fin 24, matchesMinute node.calendar.entries[j] 14400000 = false) ∧
    heldBack { due1 with calendar := { due1.calendar with windows := Vector.replicate 4 ⟨0x7F, 0, 0, 3⟩ } }
      14400000 .hour = true := by decide
/-- The node at a tower time; the point of 14,400,000 was reached, and 14,160,000 is settled. -/
def ahead (tower : Nat) : State :=
  { node with
    time := { node.time with tower := tower }
    calendar := { node.calendar with decided := [14400000], settled := [14160000] } }
theorem witness_preroll_longer : (ahead 14340000).settings.preroll = 32000 ∧
    isAfter (minus 14400000 32000) 14340000 = true ∧ isBefore 14340000 (minus 14400000 60000) = false ∧
    isBefore 14340000 (minus 14400000 59999) = true ∧ 14400000 ∉ (ahead 14340000).calendar.settled ∧
    14160000 ∈ (ahead 14100000).calendar.settled ∧ isAfter (minus 14160000 32000) 14100000 = true ∧
    isBefore 14100000 (minus 14160000 60000) = false := by decide
theorem witness_preroll_shorter : isBefore 14368000 (minus 14400000 32000) = false ∧
    isAfter (minus 14400000 31999) 14368000 = true ∧ isAfter (minus 14400000 32000) 14368000 = false ∧
    putAhead 14368000 32000 31999 14400000 = true ∧ putAhead 14368000 32000 32000 14400000 = false := by decide
theorem witness_notices_none : Phase.claiming.holds = false ∧ slotOfSeq (slotIn .preroll) 4 = some 0 ∧
    txCount (slotIn .playing) < 8 := by decide
theorem witness_notices_gate : slotOfSeq node 4 = none ∧
    gateDue (slotIn .gathering) (perfIn .gathering) = true ∧ node.powered = true := by decide
theorem witness_windows : (∀ i : Fin 4, node.calendar.windows[i].start ≤ 1439 ∧
    node.calendar.windows[i].stop ≤ 1439) ∧ slotOfSeq node node.conductor.sequence = none := by decide
/-- A forward step passes over the points after the old time and up to the new one, a backward step those after the
new time and up to the old one (R163). -/
theorem witness_stepPassed :
    let at_ (t : Nat) : State := { node with time := { node.time with tower := t } }
    StepPassed (at_ 14367999) (at_ 14368000) 14400000 ∧ ¬StepPassed (at_ 14368000) (at_ 14368001) 14400000 ∧
    StepPassed (at_ 14368000) (at_ 14367999) 14400000 ∧ ¬StepPassed (at_ 14368001) (at_ 14368000) 14400000 := by
  unfold StepPassed; decide
theorem witness_points : pointsReached node 14367999 1 = [14400000] ∧ pointsReached node 14368000 1 = [] ∧
    pointsReached node 14367997 3 = [14400000] := by decide
theorem witness_pulse_command : (16#8).toNat = 16 ∧ 1 ≤ (15#8).toNat ∧ (15#8).toNat ≤ 15 ∧ node.floor.holder = none ∧
    held.floor.holder.isSome = true := by decide
theorem witness_voice : isPresent node 7 = true ∧
    isPresent { node with straps := { straps5 with channelCount := 6 } } 7 = false ∧
    (with3 chan3).channels[(3 : Fin 8)].voicing.damped = true := by decide
theorem witness_calSet : (23#8).toNat = (23 : Fin 24).val ∧ (31#8).toNat = (31 : Fin 32).val ∧
    (3#2).toNat = Priority.hour.level ∧ (59#8).toNat ≤ 59 ∧ (1439#16).toNat ≤ 1439 ∧ (3#8).toNat ≤ 3 := by decide
theorem witness_nodeSet : (∀ p ∈ [((20 : BitVec 8), (63 : BitVec 24))], p.1.toNat ≤ 20) ∧
    (∃ p ∈ [((21 : BitVec 8), (0 : BitVec 24))], 20 < p.1.toNat) := by simp
theorem witness_maskSet : enabledActive opened.silence ≠ 0 ∧ opened.silence.state = .silent ∧
    node.silence.state = .voiced := by decide
/-- The node with slot 9 LOADING from console 9. -/
def loading9 : State := setPart 9 (.loading header1 [] 9) node
theorem witness_writeSetting :
    let w : State := { node with drive := { mode := .ready, level := 30000, idle := 5000 } }
    (writeSetting 1 30001 w).drive.mode = .charging ∧ (writeSetting 3 4000 w).drive.mode = .off ∧
    (writeSetting 3 5001 w).drive.mode = .ready ∧
    (writeSetting 18 8000 { w with silence := { node.silence with state := .holding, level := 15, hold := 8000 } }
      ).silence.state = .voiced ∧
    (writeSetting 17 1 { w with silence := { node.silence with state := .holding, level := 15, hold := 8000 } }
      ).silence.resumable = true := by decide
theorem witness_header : (readHeader ⟨1, 1, .any, false, 4000, 2048⟩).isSome = true ∧
    readHeader ⟨1, 0, .any, false, 100, 1⟩ = none := by simp [readHeader, priorityOf]
set_option maxRecDepth 20000 in
theorem witness_load :
    notHere node 7 = true ∧ notHere node 9 = false ∧ isLocked (lockTune 9 node) 9 = true ∧
    poolFree loading9 = 6143 ∧ loading9.library.parts[(9 : Fin 32)] = .loading header1 [] from9.sender ∧
    readTuneEvents [⟨0, 64, 15, 0⟩] = some [⟨0, 64, 15, 0⟩] ∧ readTuneEvents [⟨0, 65, 15, 0⟩] = none ∧
    loading9.library.parts[(9 : Fin 32)].isLoading = true := by decide
theorem witness_load_refused : notHere node 7 = true ∧ notHere node 9 = false ∧
    node.library.parts[(9 : Fin 32)].isLoading = false ∧ (9 : Fin 16) ≠ 14 ∧ 31 < (32#8).toNat := by decide
theorem witness_noRoom :
    let s : State := setPart 10 (.loading { header1 with count := 6143 } [] 9) node
    poolFree s + s.library.parts[(9 : Fin 32)].poolEvents < 2 := by decide
theorem witness_status : node.service.reply = none := by decide
theorem witness_replyPart :
    let j : ReplyJob := { command := 20, tag := 3, image := .trace [], next := 1, last := 1, out := true }
    partDue { node with service := { node.service with reply := some j } } = some j := by decide
theorem witness_unknownCommand : commandKnown 23 (List.replicate 16 false ++ []) = false := by decide
theorem witness_decode : (Instr.wake toUs).wellFormed = true ∧
    encodeFrame (.wake toUs) = some (1680,
      [false, false, true, false, true, false, false, true, false, false, false, false, false, false, true, true]) ∧
    stampOf (.wake toUs) = some stamp10 := by decide
set_option maxRecDepth 20000 in
theorem witness_payload : payloadWellFormed [] = true ∧ payloadWellFormed (fill 128) = true ∧
    payloadWellFormed (fill 129) = false := by decide

theorem witness_sent : FramePacked (.order 1 0 [order20]) ∧ ¬ FramePacked (.order 1 0 []) ∧
    FramePacked (.reply ⟨4, 3, .done, true, 0, .none⟩) := by unfold FramePacked; decide
theorem witness_length : 17 ≤ (17#5).toNat ∧ 17 ≤ (31#5).toNat := by decide

/-! For the statements that every step keeps an invariant: a state that meets it, with a command in front of the queue
that changes the part in question. -/

/-- A state with one command waiting. -/
def sent (c : Instr) (s : State) : State := { s with pending := [c] }

/-- The state a step leads to. -/
def stepped (s : State) : State :=
  match step s with
  | .next t => t
  | .fault _ => s
  | .refused _ => s

/-- A NODE_SET of the pre-roll. -/
def setsPreroll : State := sent (.nodeSet toUs [(14, 60000)]) node
theorem witness_ranges_kept : RangesKept setsPreroll ∧ step setsPreroll = .next (stepped setsPreroll) ∧
    (stepped setsPreroll).settings.preroll = 60000 := by
  refine ⟨⟨?_, ?_, ?_, ?_⟩, by rfl, by decide⟩
  · unfold SettingsInRange; decide
  · unfold VoicingInRange; decide
  · intro x h; cases h
  · intro x h; cases h
/-- A CHANNEL that halts channels 0 and 7 of a node of seven channels. -/
def halts : State := sent (.channelSet toUs 0x81) { node with straps := { straps5 with channelCount := 6 } }
theorem witness_halted : HaltedSound halts ∧ step halts = .next (stepped halts) ∧ (stepped halts).halted = 1 := by
  refine ⟨?_, by rfl, by decide⟩
  unfold HaltedSound; decide
/-- A local tick of a bank that charges. -/
def charges : State :=
  sent (.localTick true) { node with drive := { mode := .charging, level := 100, idle := 0 } }
theorem witness_bank_charges : RangesKept charges ∧ BankSound charges ∧ ClockSound charges ∧
    step charges = .next (stepped charges) ∧ 100 < (stepped charges).drive.level ∧
    (stepped charges).time.tower = 1000001 := by
  refine ⟨⟨?_, ?_, ?_, ?_⟩, ?_, ?_, by rfl, by decide, by decide⟩
  · unfold SettingsInRange; decide
  · unfold VoicingInRange; decide
  · intro x h; cases h
  · intro x h; cases h
  · unfold BankSound; decide
  · unfold ClockSound; decide
/-- A WAKE, whose reply joins the transmit queue. -/
def wakes : State := sent (.wake toUs) node
theorem witness_capacity : CapacitySound wakes ∧ TxQueueSound wakes ∧ OrdersPacked wakes ∧
    step wakes = .next (stepped wakes) ∧ (stepped wakes).line.queue.length = 1 := by
  refine ⟨?_, ⟨List.Pairwise.nil, by decide, by decide, by decide⟩, ⟨?_, ?_⟩, by rfl, by decide⟩
  · unfold CapacitySound; decide
  · intro x h; cases h
  · intro y h; cases h
/-- The sum of the conditions' clauses, of a node without receive errors. -/
theorem conditionsSound_of (s : State) (hn : s.line.errors = [])
    (h : hasCondition s.silence.conds .timeUnlocked = decide (s.time.lock = .acquiring) ∧
      hasCondition s.silence.conds .timeStep = s.time.stepAt.isSome ∧
      hasCondition s.silence.conds .lineFault = s.line.faultAt.isSome ∧
      hasCondition s.silence.conds .driveFault = s.pins.chargerFault ∧
      hasCondition s.silence.conds .coilHot = s.pins.coilHot ∧
      hasCondition s.silence.conds .stationClash = s.line.clashAt.isSome ∧
      hasCondition s.silence.conds .access = s.pins.access) : ConditionsSound s := by
  obtain ⟨a, b, c, d, e, f, g⟩ := h
  refine ⟨a, b, c, d, e, f, g, ?_, ?_⟩ <;> simp [hn]
/-- The driver thermal input becomes active. -/
def heats : State := sent .coilHotAssert node
theorem witness_silence_sound : SilenceSound heats ∧ ConditionsSound heats ∧ step heats = .next (stepped heats) ∧
    (stepped heats).silence.state = .silent ∧ hasCondition (stepped heats).silence.conds .coilHot = true := by
  refine ⟨⟨by decide, by decide, ?_⟩, conditionsSound_of heats rfl (by decide), by rfl, by decide, by decide⟩
  show heats.silence.level = 0 ∧ heats.silence.resumable = false ∧ enabledActive heats.silence = 0
  decide
/-- The ninth receive error of a window, its CHECK_ERRORS not yet asserted. -/
def disturbed : State :=
  sent .receiveError { node with line := { node.line with errors := List.replicate 8 299000 } }
theorem witness_errors : disturbed.line.errors.length = 8 ∧ step disturbed = .next (stepped disturbed) ∧
    (stepped disturbed).line.errors.length = 9 ∧
    hasCondition (stepped disturbed).silence.conds .checkErrors = true := by
  refine ⟨by decide, by rfl, by decide, by decide⟩
/-- An ORDER of the holder, for channel 3 behind an entry of channel 4. -/
def ordered : State := sent (.order from9 1 1000000 [order20])
  { strike 999500 with queue := [{ entry3 with channel := 4, launch := 999600 }], admission := 1 }
theorem witness_queue_sound : QueueSound ordered ∧ DampersSound ordered ∧ step ordered = .next (stepped ordered) ∧
    (stepped ordered).queue.length = 2 := by
  refine ⟨?_, ?_, by rfl, by decide⟩
  · intro e he
    have : e = { entry3 with channel := 4, launch := 999600 } := by simpa [ordered, sent] using he
    subst this
    refine ⟨by decide, by decide, by decide, by decide⟩
  · unfold DampersSound; decide
theorem witness_queue_ordered : QueueOrdered ordered ∧ FloorSound ordered ∧ OrdersPacked ordered ∧
    (∀ e ∈ ordered.queue ++ (stepped ordered).queue, minus e.launch 999500 ≤ 1000000000) ∧
    (∀ e ∈ ordered.queue, 1 ≤ (ordered.admission - e.admission).toNat ∧
      (ordered.admission - e.admission).toNat ≤ 2147483640) := by
  refine ⟨List.pairwise_singleton _ _, ?_, ⟨?_, ?_⟩, by decide, by decide⟩
  · intro h f _ hf; cases hf
  · intro x h; cases h
  · intro y h; cases h
/-- A CLAIM at HOUR, which preempts the holder; the holder's entry is due before the cut-off. -/
def claimed : State := sent (.claim { from9 with sender := 8 } .hour body1) { held with queue := [entry3] }
theorem witness_floor : FloorSound claimed ∧ QueueBelongs claimed ∧ step claimed = .next (stepped claimed) ∧
    (stepped claimed).floor.holder.map Holder.perf = some { station := 8, seq := 1 } ∧
    (stepped claimed).floor.fading.map FadingPart.perf = some perf9 := by
  refine ⟨?_, ?_, by rfl, by decide, by decide⟩
  · intro h f _ hf; cases hf
  · intro e he
    have : e = entry3 := by simpa [claimed, sent] using he
    subst this
    exact Or.inl ⟨holder9, rfl, rfl⟩
/-- A CUE of tune slot 0. -/
def cued : State := sent (.cue toUs 0 0 1009000) node
theorem witness_locks : LocksSound cued ∧ step cued = .next (stepped cued) ∧
    (stepped cued).library.locks[(0 : Fin 32)] = 1 := by
  refine ⟨?_, by rfl, by decide⟩
  unfold LocksSound; decide
/-- A LOAD_BEGIN of two events into slot 9. -/
def loads : State := sent (.loadBegin toUs 9 ⟨1, 1, .any, false, 4000, 2⟩) node
set_option maxRecDepth 20000 in
theorem witness_pool : PoolSound loads ∧ step loads = .next (stepped loads) ∧ poolUsed (stepped loads) = 2 := by
  refine ⟨⟨by decide, ?_, ?_⟩, by rfl, by decide⟩
  · intro x h; cases h
  · intro x h; cases h

end Sys2Proof.Tests
end

