-- ==== Sys2Proof/Proofs/PresentChannels.lean ====
section
/-! The present channels, their bells and their states (R1, R2, R41). -/

namespace Sys2Proof.Machine

theorem allChannels_complete (k : Fin 8) : k ∈ allChannels := by
  fin_cases k <;> decide

theorem bellBase_eq (s : State) : bellBase s = s.straps.bellBase.toNat + 1 := rfl

theorem bellOf_eq (s : State) (k : Fin 8) : bellOf s k = bellBase s + k.val := rfl

theorem isPresent_iff (s : State) (k : Fin 8) : isPresent s k = true ↔ k.val < presentCount s :=
  decide_eq_true_iff

/-- The straps are six and three bits wide, so there is at least one channel and there are at most eight. -/
theorem presentCount_bounds (s : State) : 1 ≤ presentCount s ∧ presentCount s ≤ 8 := by
  have hbase : s.straps.bellBase.toNat < 64 := s.straps.bellBase.isLt
  have hcount : s.straps.channelCount.toNat < 8 := s.straps.channelCount.isLt
  unfold presentCount bellBase
  omega

/-- A channel is present when the strap count takes it in and its bell is a bell of the tower (R1). -/
theorem isPresent_iff_bell_le (s : State) (k : Fin 8) :
    isPresent s k = true ↔ k.val < s.straps.channelCount.toNat + 1 ∧ bellOf s k ≤ 64 := by
  rw [isPresent_iff, bellOf_eq, presentCount]
  omega

/-- No two channels have one bell, so a bell of the range names its channel (R41). -/
theorem channelOfBell_eq_some_iff (s : State) (bell : Nat) (k : Fin 8) :
    channelOfBell s bell = some k ↔ isPresent s k = true ∧ bellOf s k = bell := by
  have names : ∀ j, channelOfBell s bell = some j → isPresent s j = true ∧ bellOf s j = bell := by
    intro j hj
    simpa using List.find?_some hj
  refine ⟨names k, fun ⟨hpresent, hbell⟩ => ?_⟩
  cases hfound : channelOfBell s bell with
  | none =>
    have hnot := List.find?_eq_none.mp hfound k (allChannels_complete k)
    simp [hpresent, hbell] at hnot
  | some j =>
    obtain ⟨-, hj⟩ := names j hfound
    rw [bellOf_eq] at hj hbell
    have hjk : j = k := Fin.ext (by omega)
    rw [hjk]

theorem channelOfBell_eq_none_of_outside {s : State} {bell : Nat}
    (h : bell < bellBase s ∨ bellBase s + presentCount s ≤ bell) : channelOfBell s bell = none := by
  refine Option.eq_none_iff_forall_ne_some.mpr fun k hk => ?_
  obtain ⟨hpresent, hbell⟩ := (channelOfBell_eq_some_iff s bell k).mp hk
  rw [isPresent_iff] at hpresent
  rw [bellOf_eq] at hbell
  omega

/-! ### Channel state (R2) -/

section ChannelState
variable {s : State} {k : Fin 8}

theorem channelState_of_not_present (hp : isPresent s k = false) : channelState s k = .absent := by
  simp [channelState, hp]

theorem channelState_of_conflict (hp : isPresent s k = true) (hc : s.channels[k].conflict = true) :
    channelState s k = .conflict := by
  unfold channelState
  rw [hp, hc]
  rfl

theorem channelState_of_halted (hp : isPresent s k = true) (hc : s.channels[k].conflict = false)
    (hh : s.halted.getLsbD k.val = true) : channelState s k = .halted := by
  unfold channelState
  rw [hp, hc, hh]
  rfl

theorem channelState_of_free (hp : isPresent s k = true) (hc : s.channels[k].conflict = false)
    (hh : s.halted.getLsbD k.val = false) : channelState s k = .run := by
  unfold channelState
  rw [hp, hc, hh]
  rfl

end ChannelState

end Sys2Proof.Machine
end

