-- ==== Sys2Proof/Proofs/OrderStages.lean ====
section
/-! What an order comes to at the range, channel, floor and early stages (R41, R42, R43). -/

namespace Sys2Proof.Machine

section Stages
variable {p : PerfId} {base now : Nat} {o : OrderItem} {s : State} {k : Fin 8}

/-- The range stage: no channel of the node has the bell. -/
theorem takeOrder_of_no_channel (hbell : channelOfBell s (o.bell.toNat + 1) = none) :
    takeOrder p base now o s = s := by
  simp only [takeOrder, hbell]

/-- The channel stage. -/
theorem takeOrder_of_not_run (hbell : channelOfBell s (o.bell.toNat + 1) = some k) (hv : o.velocity ≠ 0)
    (hrun : channelState s k ≠ .run) : takeOrder p base now o s = raise .refusedChannel s := by
  simp only [takeOrder, hbell, if_neg hv, if_pos hrun]

/-- The early stage, and what an order that passes it goes on to. -/
theorem takeOrder_of_standing {st : Standing} {priority : Nat}
    (hbell : channelOfBell s (o.bell.toNat + 1) = some k) (hv : o.velocity ≠ 0)
    (hrun : channelState s k = .run)
    (hfloor : floorStanding s p (plus base o.offset.toNat) = some (st, priority)) :
    takeOrder p base now o s =
      if 40000 < dist (plus base o.offset.toNat) now then raise .early s
      else (admitRequest k (.perf p) priority (plus base o.offset.toNat) o.velocity.toNat
        (orderDuration o) st now s).1 := by
  simp only [takeOrder, hbell, if_neg hv, if_neg (not_not_intro hrun), hfloor]
  rfl

end Stages

/-- Settles O20: the bell of an order names its one channel, and each stage of `takeOrder` answers for the orders
that the stages before it let pass. -/
theorem orderEarlyStages : Obligations.OrderEarlyStages := by
  intro p base o s
  obtain ⟨hpos, hle⟩ := presentCount_bounds s
  refine ⟨⟨bellBase_eq s, hpos, hle, fun k => ?_⟩, ?_, ?_⟩
  · exact ⟨rfl, isPresent_iff s k, isPresent_iff_bell_le s k, channelState_of_not_present,
      channelState_of_conflict, channelState_of_halted, channelState_of_free⟩
  · intro houtside
    exact takeOrder_of_no_channel (channelOfBell_eq_none_of_outside houtside)
  · intro k hpresent hbell hv
    have hchannel : channelOfBell s (o.bell.toNat + 1) = some k :=
      (channelOfBell_eq_some_iff s _ k).mpr ⟨hpresent, hbell.symm⟩
    refine ⟨fun hstopped => ?_, fun st pr hrun hfloor => ⟨fun hearly => ?_, fun hnear => ?_⟩⟩
    · refine takeOrder_of_not_run hchannel hv fun hrun => ?_
      simp [hrun] at hstopped
    · rw [takeOrder_of_standing hchannel hv hrun hfloor, if_pos hearly]
    · rw [takeOrder_of_standing hchannel hv hrun hfloor, if_neg (not_lt.mpr hnear)]

end Sys2Proof.Machine
end

