-- ==== Sys2Proof/Proofs/StrikeVelocity.lean ====
section
/-! The effective velocity, and the velocity at which an entry is served (R51, R52, R54). -/

namespace Sys2Proof.Machine

theorem preemptReduction_of_no_fading {s : State} (e : Entry) (hf : s.floor.fading = none) :
    preemptReduction s e = 0 := by
  simp [preemptReduction, fadingOf, hf]

theorem preemptReduction_of_fading {s : State} {f : FadingPart} (e : Entry)
    (hf : s.floor.fading = some f) :
    preemptReduction s e = if e.owner = .perf f.perf then f.reduction else 0 := by
  by_cases howner : e.owner = .perf f.perf <;>
    simp [preemptReduction, fadingOf, Entry.ownedBy, hf, howner]

theorem effectiveVelocity_le (s : State) (e : Entry) : effectiveVelocity s e ≤ e.velocity := by
  unfold effectiveVelocity
  omega

/-- The two reductions, taken one after the other, stop at 0 as their sum does. -/
theorem effectiveVelocity_eq_max (s : State) (e : Entry) :
    (effectiveVelocity s e : Int) = max 0 ((e.velocity : Int) - s.silence.level - preemptReduction s e) := by
  unfold effectiveVelocity
  omega

/-- The degrade only goes down (R54). -/
theorem degrade_le {x : Voicing} {energy n u : Nat} (h : degrade x energy n = some u) : u ≤ n := by
  induction n with
  | zero => simp [degrade] at h
  | succ n ih =>
    rw [degrade] at h
    split at h
    · exact (Option.some.inj h).ge
    · exact Nat.le_succ_of_le (ih h)

/-- The tests of R51 before the velocity's, all passed. -/
structure ReadyToServe (s : State) (e : Entry) : Prop where
  run : channelState s e.channel = .run
  clear : isClear s e.channel = true
  notSilent : s.silence.state ≠ .silent
  bank : bankUp s.drive.mode = true

/-- The last two tests of R51: the velocity and the energy. -/
def serveVelocity (s : State) (e : Entry) : Served :=
  if effectiveVelocity s e = 0 then .unfired .silenced
  else
    match degrade s.channels[e.channel].voicing (available s e.priority) (effectiveVelocity s e) with
    | none => .unfired .starved
    | some u => .fired u (if u = effectiveVelocity s e then .fired else .degraded)

theorem serve_of_ready {s : State} {e : Entry} (h : ReadyToServe s e) : serve s e = serveVelocity s e := by
  obtain ⟨hrun, hclear, hsilent, hbank⟩ := h
  simp only [serve, serveVelocity, hrun, hclear, hsilent, hbank, ne_eq, not_true, Bool.not_true,
    Bool.false_eq_true, if_false]
  congr 1
  cases degrade s.channels[e.channel].voicing (available s e.priority) (effectiveVelocity s e) with
  | none => rfl
  | some u => by_cases hu : u = effectiveVelocity s e <;> simp [hu]

/-- Only an entry that passes the tests before the velocity's fires. -/
theorem ready_of_serve_fired {s : State} {e : Entry} {u : Nat} {o : StrikeOutcome}
    (h : serve s e = .fired u o) : ReadyToServe s e := by
  unfold serve at h
  split at h
  · cases h
  split at h
  · cases h
  split at h
  · cases h
  split at h
  · cases h
  next hrun hclear hsilent hbank =>
    exact ⟨not_not.mp hrun, by simpa using hclear, hsilent, by simpa using hbank⟩

/-- The velocity of a strike is the one the degrade answers. -/
theorem degrade_of_serve_fired {s : State} {e : Entry} {u : Nat} {o : StrikeOutcome}
    (h : serve s e = .fired u o) :
    degrade s.channels[e.channel].voicing (available s e.priority) (effectiveVelocity s e) = some u := by
  rw [serve_of_ready (ready_of_serve_fired h), serveVelocity] at h
  split at h
  · cases h
  split at h
  · cases h
  next hd =>
    cases h
    exact hd

/-- Settles O21: a strike fires at the velocity of the degrade, which goes down from the effective velocity. -/
theorem effectiveVelocityBoundsEveryStrike : Obligations.EffectiveVelocityBoundsEveryStrike := by
  intro s e
  refine ⟨?_, fun u o hfired => ?_, fun hrun hclear hsilent hbank => ?_⟩
  · rw [effectiveVelocity_eq_max]
    cases hf : s.floor.fading with
    | none => simp [preemptReduction_of_no_fading e hf]
    | some f => simp [preemptReduction_of_fading e hf]
  · have hle : u ≤ effectiveVelocity s e := degrade_le (degrade_of_serve_fired hfired)
    exact ⟨hle, hle.trans (effectiveVelocity_le s e), (ready_of_serve_fired hfired).notSilent⟩
  · rw [serve_of_ready ⟨hrun, hclear, hsilent, hbank⟩, serveVelocity]
    exact ⟨fun hzero => if_pos hzero, fun hpos => if_neg (Nat.one_le_iff_ne_zero.mp hpos)⟩

end Sys2Proof.Machine
end

