-- ==== Sys2Proof/Proofs/FloorRefresh.lean ====
section
/-! A FLOOR beacon that names the holder's performance (R110). -/

namespace Sys2Proof.Machine

theorem act_of_powered {s : State} (f : State → State) (hpowered : s.powered = true) :
    act f s = .next (f s) := by
  rw [act, if_pos hpowered]

/-- A FLOOR heard by a powered node is acknowledged and applied to the record under its sender's performance. -/
theorem exec_floor_of_powered {s : State} (rx : Heard) (pr : Priority) (body : FloorBody)
    (hpowered : s.powered = true) :
    exec (.floor rx pr body) s =
      .next (applyFloor (holderFrom (heardPerf rx body.seq) pr body rx.stamp.count) (acknowledge s)) := by
  change execFloor rx pr body s = _
  rw [execFloor, act_of_powered _ hpowered]

section Held
variable {s : State} {x : Holder}

theorem refresh_of_held (start : Nat) (stamp : LocalCount) (hheld : s.floor.holder = some x) :
    refresh start stamp s = writeHolder { x with start := start, lastBeacon := stamp } s := by
  simp only [refresh, hheld]

/-- The holder's own beacon is the one case of `applyFloor` without purge, wake or notice. -/
theorem applyFloor_of_holder_perf {b : Holder} (hheld : s.floor.holder = some x) (hperf : x.perf = b.perf) :
    applyFloor b s = refresh b.start b.lastBeacon s := by
  simp only [applyFloor, hheld, if_pos hperf]

end Held

/-- Settles O28: the acknowledge keeps the floor record, so the beacon finds the holder it names and refreshes it. -/
theorem floorBeaconRefreshesHolder : Obligations.FloorBeaconRefreshesHolder := by
  intro rx pr b x s hpowered hholder hperf
  have hheld : (acknowledge s).floor.holder = some x := by rw [acknowledge_floor, hholder]
  rw [exec_floor_of_powered rx pr b hpowered, applyFloor_of_holder_perf hheld hperf,
    refresh_of_held _ _ hheld, writeHolder, acknowledge_floor]
  rfl

end Sys2Proof.Machine
end

