-- ==== Sys2Proof/Proofs/EnsembleGate.lean ====
section
/-! The ready owners of the needed bells, and the ensemble gate over them (R99, R128). -/

namespace Sys2Proof.Machine

theorem allStations_complete (st : Fin 16) : st ∈ allStations := by
  fin_cases st <;> decide

/-! ### The record of a station (R99) -/

section Record
variable {s : State}

theorem peerRecord_own_of_listened (hlisten : s.listen = none) : peerRecord s s.straps.station =
    .live { lastHeard := s.time.count, body := .node (ownBeacon s) } := by
  rw [peerRecord, if_pos rfl, hlisten]

theorem peerRecord_own_of_listening {c : LocalCount} (hlisten : s.listen = some c) :
    peerRecord s s.straps.station = .absent := by
  rw [peerRecord, if_pos rfl, hlisten]

theorem peerRecord_of_other {st : Fin 16} (hother : st ≠ s.straps.station) :
    peerRecord s st = s.peers[st] :=
  if_neg hother

end Record

/-! ### Ready owners (R99) -/

theorem liveNode_eq_some_iff {r : PeerRecord} {b : NodeBeacon} :
    liveNode r = some b ↔ ∃ i, r = .live i ∧ i.body = .node b := by
  cases r with
  | absent => simp [liveNode]
  | lapsed i => simp [liveNode]
  | live i => cases hbody : i.body <;> simp [liveNode, hbody]

theorem readyFor_iff {b : NodeBeacon} {bell : Nat} : readyFor b bell = true ↔
    b.bellBase.toNat + 1 ≤ bell ∧ bell ≤ b.bellBase.toNat + 1 + b.count.toNat ∧
      b.playable.getLsbD (bell - (b.bellBase.toNat + 1)) = true ∧ b.drive = .ready ∧ b.silence = .voiced := by
  simp only [readyFor, announces, Bool.and_eq_true, decide_eq_true_eq, and_assoc]

theorem hasReadyOwner_iff {s : State} {bell : Nat} : hasReadyOwner s bell = true ↔
    ∃ st b, liveNode (peerRecord s st) = some b ∧ readyFor b bell = true := by
  rw [hasReadyOwner, List.any_eq_true]
  refine exists_congr fun st => ?_
  cases hnode : liveNode (peerRecord s st) with
  | none => simp
  | some b => simp [allStations_complete st]

/-! ### The gate (R128) -/

theorem mem_bellsOf_iff {mask : BellMask} {bell : Nat} :
    bell ∈ bellsOf mask ↔ (1 ≤ bell ∧ bell ≤ 64) ∧ maskHas mask bell = true := by
  have hrange : bell ∈ (List.range 64).map (· + 1) ↔ 1 ≤ bell ∧ bell ≤ 64 := by
    rw [List.mem_map]
    constructor
    · rintro ⟨i, hi, rfl⟩
      rw [List.mem_range] at hi
      omega
    · rintro ⟨hpos, hle⟩
      exact ⟨bell - 1, List.mem_range.mpr (by omega), Nat.sub_add_cancel hpos⟩
  rw [bellsOf, List.mem_filter, hrange]

/-- Bit `i` of a mask is bell `i + 1`, so a mask with a bit set has a bell. -/
theorem bellsOf_eq_nil_iff {mask : BellMask} : bellsOf mask = [] ↔ mask = 0 := by
  rw [List.eq_nil_iff_forall_not_mem]
  constructor
  · intro hempty
    refine BitVec.eq_of_getLsbD_eq fun i hi => ?_
    have hbit : ¬ mask.getLsbD i = true := fun hset =>
      hempty (i + 1) (mem_bellsOf_iff.mpr ⟨by omega, hset⟩)
    simpa using hbit
  · rintro rfl bell hbell
    simp [mem_bellsOf_iff, maskHas] at hbell

theorem gatePasses_all_iff {s : State} {mask : BellMask} :
    gatePasses s .all mask = true ↔ ∀ bell ∈ bellsOf mask, hasReadyOwner s bell = true :=
  List.all_eq_true

theorem gatePasses_any_iff {s : State} {mask : BellMask} : gatePasses s .any mask = true ↔
    mask = 0 ∨ ∃ bell ∈ bellsOf mask, hasReadyOwner s bell = true := by
  rw [gatePasses, Bool.or_eq_true, List.isEmpty_iff, bellsOf_eq_nil_iff, List.any_eq_true]

/-- Settles O32: the gate runs over the bells of the mask, and a bell's ready owner is a LIVE node ready for it. -/
theorem ensembleGateRule : Obligations.EnsembleGateRule := by
  intro s mask
  refine ⟨?_, ?_, fun bell => ?_, fun hlisten => ?_, fun c => peerRecord_own_of_listening,
    fun st => peerRecord_of_other⟩
  · simp only [gatePasses_all_iff, mem_bellsOf_iff, and_imp]
  · simp only [gatePasses_any_iff, mem_bellsOf_iff, and_assoc]
  · simp only [hasReadyOwner_iff, liveNode_eq_some_iff, readyFor_iff]
    constructor
    · rintro ⟨st, b, ⟨i, hlive, hbody⟩, hready⟩
      exact ⟨st, i, b, hlive, hbody, hready⟩
    · rintro ⟨st, i, b, hlive, hbody, hready⟩
      exact ⟨st, b, ⟨i, hlive, hbody⟩, hready⟩
  · exact ⟨_, peerRecord_own_of_listened hlisten, rfl⟩

end Sys2Proof.Machine
end

