-- ==== Sys2Proof/Proofs/Moves.lean ====
section
/-! The moves that every command is made of: each is one operation of the model, with the facts about the moment at which
the model takes it. `Moves` chains them. What every step keeps is proved once for each move. -/

namespace Sys2Proof.Machine

-- One proof after another: many at once would ask for more threads than the memory limit allows.
set_option Elab.async false

/-- What a move may write beyond the parts of the node that many commands write. -/
inductive Kind where
  | plain
  | enqueue
  | settings
  | halted
  | voicing
  | peers
  | tick
  | tower
  | validity
  | mask
  | windows
  | overlay
  | parts
  | store
  | powerOn
  | restart
  deriving DecidableEq

/-- An entry takes its place and the next admission number (R39, R48). -/
def enqueue (e : Entry) (s : State) : State :=
  { s with queue := insertEntry e s.queue, admission := s.admission + 1 }

/-- The parts of the clock that only a tick, a step or a lock state change. -/
def SameLock (x y : Timebase) : Prop := y.count = x.count ∧ y.lock = x.lock ∧ y.stepAt = x.stepAt

/-- The bounds that `ClockSound` states, of a Tower Timebase alone. -/
def ClockBounds (x : Timebase) : Prop :=
  x.tower < Config.week ∧ (-8 ≤ x.trim ∧ x.trim ≤ 8) ∧ (-400 ≤ x.slew ∧ x.slew ≤ 400) ∧ x.close ≤ 3

/-- The parts of the Line Controller that hold frames, and those that stand for a condition, are the same. -/
def SameFrames (x y : Line) : Prop :=
  y.queue = x.queue ∧ y.sending = x.sending ∧ y.setAside = x.setAside ∧ y.errors = x.errors ∧ y.faultAt = x.faultAt ∧
    y.clashAt = x.clashAt

/-- The parts of the node that a local tick changes. -/
def ticked : List Part := [.pins, .time, .calendar, .drive, .silence, .conductor, .line, .queue]

/-- The parts of the node that power-on does not keep. -/
def poweredOn : List Part := [.powered, .straps, .pins, .settings, .listen, .channels, .halted, .drive, .queue, .admission,
  .time, .line, .peers, .floor, .conductor, .library, .calendar, .silence, .trace, .service, .counters]

/-- The parts of the node that RESTART changes. -/
def restarted : List Part := [.listen, .channels, .halted, .drive, .queue, .admission, .time, .line, .peers, .floor,
  .conductor, .library, .calendar, .silence, .trace, .service, .counters]

/-- One move, with its kind and the parts of the state it may change. -/
inductive Move : Kind → List Part → State → State → Prop
  -- counters and trace
  | raise (c : Counter) (s : State) : Move .plain [.counters] s (raise c s)
  | clearCounters (s : State) : Move .plain [.counters] s (clearCounters s)
  | releaseTrace (s : State) : Move .plain [.trace] s (releaseTrace s)
  -- strike queue
  | remove (o : StrikeOutcome) (e : Entry) (s : State) : Move .plain removal s (removeEntry o e s)
  | launch (e : Entry) (s : State) : Move .plain removal s (launchEntry e s)
  | hold (e : Entry) (s : State) : Move .plain [.queue] s (holdEntry e s)
  | release (e : Entry) (s : State) : Move .plain [.queue] s (releaseEntry e s)
  | enqueue (e : Entry) (s : State) (hroom : s.queue.length < 96) (hsound : EntrySound s e)
      (hbelongs : EntryBelongs s.floor e) : Move .enqueue [.queue, .admission] s (enqueue e s)
  | exchange (x e : Entry) (s : State) (hqueued : x ∈ s.queue) (hsound : EntrySound s e)
      (hbelongs : EntryBelongs (removeEntry .purged x s).floor e) :
      Move .enqueue admission s (Machine.enqueue e (removeEntry .purged x s))
  -- bank, hammers, dampers
  | wake (s : State) : Move .plain [.drive] s (wakeBank s)
  | startDrain (s : State) (hup : bankUp s.drive.mode = true) : Move .plain [.drive] s (startDrain s)
  | drainCheck (s : State) : Move .plain [.drive] s (drainCheck s)
  | stroke (k : Fin 8) (f : Channel → Channel) (s : State)
      (hf : ∀ c, (f c).voicing = c.voicing ∧ (f c).conflict = c.conflict ∧ (f c).damperUp = c.damperUp ∧
        (f c).drop = c.drop) : Move .plain [.channels] s (updChannel k f s)
  | idleDrop (k : Fin 8) (s : State) : Move .plain [.channels, .drive] s (idleDrop k s)
  | dropDamper (k : Fin 8) (s : State) : Move .plain [.channels, .drive] s (dropDamper k s)
  | tryLift (k : Fin 8) (s : State) : Move .plain [.channels] s (tryLift k s)
  -- channel settings
  | evalConflicts (s : State) : Move .peers [.channels] s (evalConflicts s)
  | setPeer (st : Fin 16) (x : PeerRecord) (s : State) : Move .peers [.peers] s (setPeer st x s)
  | setVoicing (k : Fin 8) (v : Voicing) (s : State) (hdamped : v.damped = s.channels[k].voicing.damped)
      (hrange : VoicingInRange s.channels[k].voicing → VoicingInRange v) :
      Move .voicing [.channels] s (setVoicing k v s)
  | writeTiming (k : Fin 8) (f : TimingFields) (s : State) :
      Move .voicing [.queue, .channels, .drive] s (writeTiming k f s)
  | setHalted (m : ChannelMask) (s : State)
      (hm : ∀ k : Fin 8, m.getLsbD k.val = true → s.halted.getLsbD k.val = true ∨ isPresent s k = true) :
      Move .halted [.halted] s { s with halted := m }
  -- contact and fault inputs
  | openChamber (s : State) : Move .plain [.pins, .drive, .channels, .silence, .trace] s (openChamber s)
  | closeChamber (s : State) : Move .plain [.pins, .drive, .channels, .silence, .trace] s (closeChamber s)
  | chargerFails (s : State) :
      Move .plain [.pins, .silence, .trace] s (assertCond .driveFault (setChargerFault true s))
  | chargerWorks (s : State) :
      Move .plain [.pins, .silence, .trace] s (clearCond .driveFault (setChargerFault false s))
  | coilHeats (s : State) : Move .plain [.pins, .silence, .trace] s (assertCond .coilHot (setCoilHot true s))
  | coilCools (s : State) : Move .plain [.pins, .silence, .trace] s (clearCond .coilHot (setCoilHot false s))
  | setContact (c : Fin 2) (level : Bool) (s : State) : Move .plain [.pins] s (setContact c level s)
  -- silence
  | goVoiced (s : State) (h : enabledActive s.silence = 0 ∨ s.silence.state = .holding) :
      Move .plain [.silence] s (goVoiced s)
  | setMask (m : BitVec 8) (s : State) (hclash : hasCondition m .stationClash = true)
      (haccess : hasCondition m .access = true) : Move .mask [.silence, .trace] s (setMask m s)
  -- clock and calendar
  | writeTime (x : Timebase) (s : State) (hlock : SameLock s.time x) (htower : x.tower = s.time.tower)
      (hvalid : x.validity = s.time.validity) (hbounds : ClockBounds s.time → ClockBounds x) :
      Move .plain [.time] s { s with time := x }
  | writeTower (x : Timebase) (s : State) (hlock : SameLock s.time x) (hvalid : x.validity = s.time.validity)
      (hbounds : ClockBounds s.time → ClockBounds x) : Move .tower [.time] s { s with time := x }
  | setValid (s : State) : Move .validity [.time] s (setValid s)
  | setLock (l : LockState) (s : State) : Move .plain [.time, .silence, .trace] s (setLock l s)
  | startTimeStep (s : State) : Move .plain [.time, .silence, .trace] s (startTimeStep s)
  | endTimeStep (s : State) : Move .plain [.time, .silence, .trace] s (endTimeStep s)
  | localTick (b : Bool) (s : State) : Move .tick ticked s (localTick b s)
  | endListening (s : State) : Move .plain [.listen] s { s with listen := none }
  | writeCalendar (c : Calendar) (s : State) (hwindows : c.windows = s.calendar.windows) :
      Move .plain [.calendar] s (setCalendar c s)
  | setWindow (i : Fin 4) (w : QuietWindow) (s : State) : Move .windows [.calendar] s (setWindow i w s)
  -- tower line
  | handFrame (x : TxFrame) (s : State) (hpacked : FramePacked x.frame) (hkind : x.frame.isPresence = false) :
      Move .plain handed s (handFrame x s).1
  | handBeacon (b : NodeBeacon) (s : State) : Move .plain handed s (handBeacon b s)
  | offerFrame (s : State) : Move .plain [.line] s (offerFrame s)
  | loseArbitration (c : Fin 11) (s : State) : Move .plain [.line] s (loseArbitration c s)
  | stopSending (s : State) :
      Move .plain [.line] s { s with line := { s.line with sending := none, setAside := none } }
  | frameGone (o : Origin) (s : State) : Move .plain [.conductor, .service] s (frameGone o s)
  | frameLost (x : TxFrame) (s : State) : Move .plain [.conductor, .counters] s (frameLost x s)
  | writeLine (x : Line) (s : State) (h : SameFrames s.line x) : Move .plain [.line] s { s with line := x }
  | receiveFailure (s : State) : Move .plain [.line, .counters, .silence, .trace] s (receiveFailure s)
  | clearErrors (s : State) (h : (recentErrors s).length ≤ Config.errorLimit) :
      Move .plain [.line, .silence, .trace] s (clearCond .checkErrors (forgetErrors s))
  | beginFault (s : State) : Move .plain [.line, .silence, .trace] s
      (assertCond .lineFault { s with line := { s.line with faultAt := some s.time.count } })
  | endFault (s : State) : Move .plain [.line, .silence, .trace] s (endFault s)
  | heardClash (s : State) : Move .plain [.line, .silence, .trace] s (heardClash s)
  | endClash (s : State) : Move .plain [.line, .silence, .trace] s (endClash s)
  -- performance slots and their locks
  | updPerf (k : Fin 4) (f : Perf → Perf) (s : State) (hf : ∀ p, (f p).slot = p.slot) :
      Move .plain [.conductor] s (updPerf k f s)
  | bumpSequence (seq : BitVec 8) (s : State) : Move .plain [.conductor] s (bumpSequence seq s)
  | endFree (k : Fin 4) (seq : BitVec 8) (o : PerfOutcome) (s : State) (h : s.conductor.slots[k].isFree = true) :
      Move .plain [.conductor] s (setSlot k (.ended seq o) s)
  | beginPerf (k : Fin 4) (p : Perf) (s : State) (hfree : s.conductor.slots[k].isFree = true)
      (hvalid : resolvesValid s p.slot = true) :
      Move .plain [.conductor, .library] s (lockTune p.slot (setSlot k (.active p) s))
  | endPerf (k : Fin 4) (p : Perf) (seq : BitVec 8) (o : PerfOutcome) (s : State)
      (h : s.conductor.slots[k] = .active p) :
      Move .plain [.conductor, .library] s (setSlot k (.ended seq o) (unlockTune p.slot s))
  | replacePerf (k : Fin 4) (p q : Perf) (s : State) (h : s.conductor.slots[k] = .active p) (hslot : q.slot = p.slot) :
      Move .plain [.conductor] s (setSlot k (.active q) s)
  -- replies, store, free values
  | setReply (j : ReplyJob) (s : State) : Move .plain [.service] s (setReply j s)
  | setStore (x : SettingsState) (m : Option StoreImage) (s : State)
      (hmemory : ∀ y, m = some y → storedNow s = some y)
      (himage : ∀ y tag, x = .storing y tag → y = storeImage s) : Move .store [.service] s (setStore x m s)
  | bumpFree (s : State) : Move .plain [.free] s { s with free := s.free + 1 }
  -- floor
  | writeFloor (r : FloorRecord) (s : State)
      (h : FloorSound s → QueueBelongs s → FloorSound { s with floor := r } ∧ QueueBelongs { s with floor := r }) :
      Move .plain [.floor] s { s with floor := r }
  -- tune library
  | setPart (t : Fin 32) (x : LoadedPart) (s : State)
      (hfree : resolvesValid s t = false ∨ isLocked s t = false)
      (hpool : x.poolEvents ≤ poolFree s + s.library.parts[t].poolEvents) : Move .parts [.library] s (setPart t x s)
  | setOverlay (on : Bool) (s : State) (h : overlayHeld s = false) : Move .overlay [.library] s (setOverlay on s)
  -- settings
  | writeSetting (n v : Nat) (s : State) (hn : n ≠ 14) :
      Move .settings [.settings, .drive, .silence, .trace] s (writeSetting n (settingValue n v) s)
  | writePreroll (v : Nat) (s : State) (h : 8000 ≤ v ∧ v ≤ 120000) :
      Move .settings [.settings] s { s with settings := { s.settings with preroll := v } }
  -- power and reset
  | powerOn (straps : Straps) (pins : Pins) (s : State) : Move .powerOn poweredOn s (powerOn straps pins s)
  | losePower (s : State) : Move .plain [.powered, .line, .drive, .channels] s (losePower s)
  | restart (s : State) : Move .restart restarted s (restart s)

/-- Moves of these kinds, one after another. -/
inductive Moves (ks : List Kind) : State → State → Prop
  | refl (s : State) : Moves ks s s
  | step {s t u : State} {k : Kind} {ps : List Part} (h : Moves ks s t) (hmove : Move k ps t u) (hk : k ∈ ks) :
      Moves ks s u

/-! ### Chains of moves -/

namespace Moves

variable {ks ls : List Kind} {s t u : State}

theorem single {k : Kind} {ps : List Part} (h : Move k ps s t) (hk : k ∈ ks := by decide) : Moves ks s t :=
  .step (.refl s) h hk

theorem one {ps : List Part} (h : Move .plain ps s t) : Moves [.plain] s t := single h

theorem move {k : Kind} {ps : List Part} (h : Moves ks s t) (hmove : Move k ps t u) (hk : k ∈ ks := by decide) :
    Moves ks s u := .step h hmove hk

theorem widen (h : Moves ks s t) (hsub : ∀ k ∈ ks, k ∈ ls := by decide) : Moves ls s t := by
  induction h with
  | refl => exact .refl _
  | step _ hmove hk ih => exact .step ih hmove (hsub _ hk)

theorem andThen (h1 : Moves ks s t) (h2 : Moves ls t u) (hsub : ∀ k ∈ ls, k ∈ ks := by decide) : Moves ks s u := by
  induction h2 with
  | refl => exact h1
  | step _ hmove hk ih => exact .step ih hmove (hsub _ hk)

theorem ite {c : Prop} [Decidable c] (h1 : c → Moves ks s t) (h2 : ¬c → Moves ks s u) :
    Moves ks s (if c then t else u) := by
  split
  · exact h1 ‹_›
  · exact h2 ‹_›

theorem foldl {α : Type} {f : State → α → State} (l : List α) (s : State) (h : ∀ t, ∀ a ∈ l, Moves ks t (f t a)) :
    Moves ks s (l.foldl f s) := by
  induction l generalizing s with
  | nil => exact .refl s
  | cons a l ih =>
    exact (h s a List.mem_cons_self).andThen (ih (f s a) fun t b hb => h t b (List.mem_cons_of_mem a hb))
      (fun _ hk => hk)

/-- What every move of these kinds keeps, a chain of them keeps. -/
theorem keeps {P : State → Prop} (h : Moves ks s t)
    (hmove : ∀ {k : Kind} {ps : List Part} {a b : State}, k ∈ ks → Move k ps a b → P a → P b) (hs : P s) : P t := by
  induction h with
  | refl => exact hs
  | step _ hm hk ih => exact hmove hk hm ih

end Moves

/-! ### What a move leaves unchanged -/

section
variable (s : State)

theorem writeLine_unchanged (x : Line) : Unchanged [.line] s { s with line := x } := by
  intro p hp
  cases p <;> first | rfl | simp at hp

theorem writePins_unchanged (x : Pins) : Unchanged [.pins] s { s with pins := x } := by
  intro p hp
  cases p <;> first | rfl | simp at hp

theorem writeSettings_unchanged (x : Settings) : Unchanged [.settings] s { s with settings := x } := by
  intro p hp
  cases p <;> first | rfl | simp at hp

theorem writeHaltedSet_unchanged (x : ChannelMask) : Unchanged [.halted] s { s with halted := x } := by
  intro p hp
  cases p <;> first | rfl | simp at hp

theorem writeListen_unchanged (x : Option LocalCount) : Unchanged [.listen] s { s with listen := x } := by
  intro p hp
  cases p <;> first | rfl | simp at hp

theorem writeLibrary_unchanged (x : Library) : Unchanged [.library] s { s with library := x } := by
  intro p hp
  cases p <;> first | rfl | simp at hp

theorem writeService_unchanged (x : ServiceUnit) : Unchanged [.service] s { s with service := x } := by
  intro p hp
  cases p <;> first | rfl | simp at hp

theorem writeFree_unchanged (x : Nat) : Unchanged [.free] s { s with free := x } := by
  intro p hp
  cases p <;> first | rfl | simp at hp

theorem writeQueue_unchanged (x : List Entry) : Unchanged [.queue] s { s with queue := x } := by
  intro p hp
  cases p <;> first | rfl | simp at hp

theorem writeTrace_unchanged (x : StrikeTrace) : Unchanged [.trace] s { s with trace := x } := by
  intro p hp
  cases p <;> first | rfl | simp at hp

theorem writeCounters_unchanged (x : Vector Nat 36) : Unchanged [.counters] s { s with counters := x } := by
  intro p hp
  cases p <;> first | rfl | simp at hp

theorem writePowered_unchanged (x : Bool) : Unchanged [.powered] s { s with powered := x } := by
  intro p hp
  cases p <;> first | rfl | simp at hp

theorem enqueue_unchanged (e : Entry) : Unchanged [.queue, .admission] s (enqueue e s) := by
  intro p hp
  cases p <;> first | rfl | simp at hp

theorem undamp_unchanged (k : Fin 8) : Unchanged [.queue, .channels, .drive] s (undamp k s) :=
  ((writeQueue_unchanged s _).widen.andThen (updChannel_unchanged k _ _)).andThen (drainCheck_unchanged _)

theorem writeTiming_unchanged (k : Fin 8) (f : TimingFields) :
    Unchanged [.queue, .channels, .drive] s (writeTiming k f s) :=
  .ite ((updChannel_unchanged k _ s).widen.andThen (undamp_unchanged _ k)) (updChannel_unchanged k _ s).widen

theorem openChamber_unchanged : Unchanged [.pins, .drive, .channels, .silence, .trace] s (openChamber s) :=
  (((writePins_unchanged s _).widen.andThen (shutBank_unchanged _)).andThen (dropAll_unchanged _)).andThen
    (assertCond_unchanged .access _)

theorem wakeAtRelease_unchanged : Unchanged [.drive] s (wakeAtRelease s) :=
  .ite (wakeBank_unchanged s) (.refl _ s)

theorem closeChamber_unchanged : Unchanged [.pins, .drive, .channels, .silence, .trace] s (closeChamber s) :=
  (((writePins_unchanged s _).widen.andThen (wakeAtRelease_unchanged _)).andThen
    (.foldl _ (fun t k => tryLift_unchanged k t) allChannels _)).andThen (clearCond_unchanged .access _)

theorem tickSlots_unchanged : Unchanged [.conductor] s (tickSlots s) := by
  intro p hp
  cases p <;> first | rfl | simp at hp

theorem tickBeacon_unchanged : Unchanged [.line] s (tickBeacon s) := by
  unfold tickBeacon
  split
  · exact .refl _ s
  · exact writeLine_unchanged s _

theorem localTick_unchanged (b : Bool) : Unchanged ticked s (localTick b s) :=
  ((((((((writePins_unchanged s _).widen.andThen (tickTime_unchanged _)).andThen (chargeTick_unchanged _)).andThen
    (idleTick_unchanged _)).andThen (holdTick_unchanged _)).andThen (tickSlots_unchanged _)).andThen
    (tickBeacon_unchanged _)).andThen (markHeld_unchanged _)).andThen (forgetErrors_unchanged _)

theorem beginPerf_unchanged (k : Fin 4) (x : Slot) (t : Fin 32) :
    Unchanged [.conductor, .library] s (lockTune t (setSlot k x s)) :=
  (setSlot_unchanged k x s).widen.andThen (lockTune_unchanged t _)

theorem freeSlot_unchanged (k : Fin 4) (x : Slot) (t : Fin 32) :
    Unchanged [.conductor, .library] s (setSlot k x (unlockTune t s)) :=
  (unlockTune_unchanged t s).widen.andThen (setSlot_unchanged k x _)

theorem setIdleTime_unchanged (v : Nat) : Unchanged [.settings, .drive] s (setIdleTime v s) :=
  .ite ((writeSettings_unchanged s _).widen.andThen (startDrain_unchanged _)) (writeSettings_unchanged s _).widen

theorem setAuto_unchanged : Unchanged [.settings, .silence] s (setAuto s) :=
  .ite ((writeSettings_unchanged s _).widen.andThen (goHolding_unchanged _)) (writeSettings_unchanged s _).widen

theorem setManual_unchanged : Unchanged [.settings, .silence, .trace] s (setManual s) :=
  .ite ((writeSettings_unchanged s _).widen.andThen (goSilent_unchanged true _)) (writeSettings_unchanged s _).widen

theorem setHoldTime_unchanged (v : Nat) : Unchanged [.settings, .silence] s (setHoldTime v s) :=
  .ite ((writeSettings_unchanged s _).widen.andThen (goVoiced_unchanged _)) (writeSettings_unchanged s _).widen

theorem writeSetting_unchanged {n : Nat} (v : Nat) (hn : n ≠ 14) :
    Unchanged [.settings, .drive, .silence, .trace] s (writeSetting n v s) := by
  unfold writeSetting
  split
  case h_2 => exact (writeSettings_unchanged s _).widen.andThen (bankSync_unchanged _)
  case h_4 => exact (setIdleTime_unchanged s v).widen
  case h_15 => exact absurd rfl hn
  case h_18 => exact .ite (setAuto_unchanged s).widen (setManual_unchanged s).widen
  case h_19 => exact (setHoldTime_unchanged s v).widen
  case h_22 => exact .refl _ s
  all_goals exact (writeSettings_unchanged s _).widen

theorem sampleCond_unchanged (c : Condition) (b : Bool) : Unchanged [.silence, .trace] s (sampleCond c b s) :=
  .ite (assertCond_unchanged c s) (.refl _ s)

theorem sampleConds_unchanged : Unchanged [.silence, .trace] s (sampleConds s) :=
  (((sampleCond_unchanged s .timeUnlocked _).andThen (sampleCond_unchanged _ .driveFault _)).andThen
    (sampleCond_unchanged _ .coilHot _)).andThen (sampleCond_unchanged _ .access _)

theorem powerOnBlocks_unchanged (straps : Straps) (pins : Pins) (m : Option StoreImage) :
    Unchanged poweredOn s (powerOnBlocks straps pins m s) := by
  intro p hp
  cases p <;> first | exact absurd (by decide) hp | rfl

theorem restartBlocks_unchanged : Unchanged restarted s (restartBlocks s) := by
  intro p hp
  cases p <;> first | exact absurd (by decide) hp | rfl

end

theorem Move.unchanged {k : Kind} {ps : List Part} {s t : State} (h : Move k ps s t) : Unchanged ps s t := by
  cases h with
  | raise c => exact raise_unchanged c s
  | clearCounters => exact writeCounters_unchanged s _
  | releaseTrace => exact writeTrace_unchanged s _
  | remove o e => exact removeEntry_unchanged o e s
  | launch e => exact launchEntry_unchanged e s
  | hold e => exact holdEntry_unchanged e s
  | release e => exact releaseEntry_unchanged e s
  | enqueue e => exact enqueue_unchanged s e
  | exchange x e => exact (removeEntry_unchanged .purged x s).widen.andThen (enqueue_unchanged _ e)
  | wake => exact wakeBank_unchanged s
  | startDrain => exact startDrain_unchanged s
  | drainCheck => exact drainCheck_unchanged s
  | stroke k f => exact updChannel_unchanged k f s
  | idleDrop k => exact idleDrop_unchanged k s
  | dropDamper k => exact dropDamper_unchanged k s
  | tryLift k => exact tryLift_unchanged k s
  | evalConflicts => exact evalConflicts_unchanged s
  | setPeer st x => exact setPeer_unchanged st x s
  | setVoicing k => exact updChannel_unchanged k _ s
  | writeTiming k f => exact writeTiming_unchanged s k f
  | setHalted m => exact writeHaltedSet_unchanged s m
  | openChamber => exact openChamber_unchanged s
  | closeChamber => exact closeChamber_unchanged s
  | chargerFails => exact (writePins_unchanged s _).widen.andThen (assertCond_unchanged .driveFault _)
  | chargerWorks => exact (writePins_unchanged s _).widen.andThen (clearCond_unchanged .driveFault _)
  | coilHeats => exact (writePins_unchanged s _).widen.andThen (assertCond_unchanged .coilHot _)
  | coilCools => exact (writePins_unchanged s _).widen.andThen (clearCond_unchanged .coilHot _)
  | setContact c level => exact setContact_unchanged c level s
  | goVoiced => exact goVoiced_unchanged s
  | setMask m => exact setMask_unchanged m s
  | writeTime x => exact writeTime_unchanged x s
  | writeTower x => exact writeTime_unchanged x s
  | setValid => exact setValid_unchanged s
  | setLock l => exact setLock_unchanged l s
  | startTimeStep => exact startTimeStep_unchanged s
  | endTimeStep => exact (writeTime_unchanged _ s).widen.andThen (clearCond_unchanged .timeStep _)
  | localTick b => exact localTick_unchanged s b
  | endListening => exact writeListen_unchanged s none
  | writeCalendar c => exact setCalendar_unchanged c s
  | setWindow => exact setCalendar_unchanged _ s
  | handFrame x => exact handFrame_unchanged x s
  | handBeacon b => exact handBeacon_unchanged b s
  | offerFrame => exact offerFrame_unchanged s
  | loseArbitration c => exact loseArbitration_unchanged c s
  | stopSending => exact writeLine_unchanged s _
  | frameGone o => exact frameGone_unchanged o s
  | frameLost x => exact frameLost_unchanged x s
  | writeLine x => exact writeLine_unchanged s x
  | receiveFailure => exact receiveFailure_unchanged s
  | clearErrors => exact (forgetErrors_unchanged s).widen.andThen (clearCond_unchanged .checkErrors _)
  | beginFault => exact (writeLine_unchanged s _).widen.andThen (assertCond_unchanged .lineFault _)
  | endFault => exact (writeLine_unchanged s _).widen.andThen (clearCond_unchanged .lineFault _)
  | heardClash => exact (writeLine_unchanged s _).widen.andThen (assertCond_unchanged .stationClash _)
  | endClash => exact (writeLine_unchanged s _).widen.andThen (clearCond_unchanged .stationClash _)
  | updPerf k f => exact updPerf_unchanged k f s
  | bumpSequence seq => exact bumpSequence_unchanged seq s
  | endFree k => exact setSlot_unchanged k _ s
  | beginPerf k p => exact beginPerf_unchanged s k _ _
  | endPerf k p => exact freeSlot_unchanged s k _ _
  | replacePerf k => exact setSlot_unchanged k _ s
  | setReply j => exact writeService_unchanged s _
  | setStore x m => exact writeService_unchanged s _
  | bumpFree => exact writeFree_unchanged s _
  | writeFloor r => exact writeFloor_unchanged r s
  | setPart t x => exact setPart_unchanged t x s
  | setOverlay on => exact writeLibrary_unchanged s _
  | writeSetting n v _ hn => exact writeSetting_unchanged s _ hn
  | writePreroll => exact writeSettings_unchanged s _
  | powerOn straps pins => exact (powerOnBlocks_unchanged s straps pins _).andThen (sampleConds_unchanged _)
  | losePower => exact (((writePowered_unchanged s false).widen.andThen (writeLine_unchanged _ _)).andThen
      (shutBank_unchanged _)).andThen (dropAll_unchanged _)
  | restart => exact (restartBlocks_unchanged s).andThen (sampleConds_unchanged _)

end Sys2Proof.Machine
end

