-- ==== Sys2Proof/Proofs/Removal.lean ====
section
/-! What a removal from the strike queue, a purge and a launch event do to the queue and to the floor record
(R58, R59, R115). -/

namespace Sys2Proof.Machine

-- One proof after another: many at once would ask for more threads than the memory limit allows.
set_option Elab.async false

section
variable (o : StrikeOutcome) (e : Entry) (s : State)

@[simp] theorem afterRemoval_queue : (afterRemoval e s).queue = s.queue :=
  afterRemoval_unchanged e s .queue (by decide)

@[simp] theorem removeEntry_queue : (removeEntry o e s).queue = s.queue.erase e := by
  rw [removeEntry, afterRemoval_queue, raise_queue, writeRecord_unchanged _ _ .queue (by decide)]
  rfl

@[simp] theorem closeLaunch_queue : (closeLaunch e o s).queue = s.queue :=
  closeLaunch_unchanged e o s .queue (by decide)

@[simp] theorem launchEntry_queue : (launchEntry e s).queue = s.queue.erase e := by
  simp only [launchEntry]
  split
  · rw [closeLaunch_queue, writeRecord_unchanged _ _ .queue (by decide)]
    rfl
  · rw [closeLaunch_queue, writeRecord_unchanged _ _ .queue (by decide), fireEntry_unchanged _ _ _ .queue (by decide)]
    rfl

end

/-! ### The queue after a purge -/

/-- Elements that differ from the head are erased behind it. -/
theorem foldl_erase_cons {α : Type} [DecidableEq α] {x : α} (gone l : List α) (h : ∀ y ∈ gone, y ≠ x) :
    gone.foldl List.erase (x :: l) = x :: gone.foldl List.erase l := by
  induction gone generalizing l with
  | nil => rfl
  | cons y gone ih =>
    have hy : x ≠ y := fun heq => h y List.mem_cons_self heq.symm
    rw [List.foldl_cons, List.foldl_cons, List.erase_cons_tail (by simpa using hy)]
    exact ih (l.erase y) fun z hz => h z (List.mem_cons_of_mem y hz)

/-- A list less all of its elements that satisfy a test, each erased in turn. -/
theorem foldl_erase_filter {α : Type} [DecidableEq α] (p : α → Bool) (l : List α) :
    (l.filter p).foldl List.erase l = l.filter fun x => !p x := by
  induction l with
  | nil => rfl
  | cons x l ih =>
    by_cases hx : p x = true
    · simp [hx, ih]
    · have hgone : ∀ y ∈ l.filter p, y ≠ x := by
        rintro y hy rfl
        exact hx (List.mem_filter.mp hy).2
      rw [List.filter_cons_of_neg hx, foldl_erase_cons _ _ hgone, ih, List.filter_cons_of_pos (by simpa using hx)]

theorem foldl_removeEntry_queue (o : StrikeOutcome) (l : List Entry) (s : State) :
    (l.foldl (fun t e => removeEntry o e t) s).queue = l.foldl List.erase s.queue := by
  induction l generalizing s with
  | nil => rfl
  | cons e l ih => rw [List.foldl_cons, ih, removeEntry_queue, List.foldl_cons]

/-- A purge leaves the entries that it does not select (R59). -/
@[simp] theorem purge_queue (sel : Entry → Bool) (s : State) :
    (purge sel s).queue = s.queue.filter fun e => !sel e := by
  rw [purge, foldl_removeEntry_queue, foldl_erase_filter]

/-! ### The floor record after a removal -/

/-- A floor record kept but for the fading part's reduction and count, or the fading part as a whole. -/
def FloorKept (x y : FloorRecord) : Prop :=
  y.holder = x.holder ∧ ∀ g, y.fading = some g → ∃ f, x.fading = some f ∧ g.perf = f.perf ∧ g.priority = f.priority ∧
    g.cutoff = f.cutoff

theorem FloorKept.refl (x : FloorRecord) : FloorKept x x := ⟨rfl, fun g hg => ⟨g, hg, rfl, rfl, rfl⟩⟩

theorem FloorKept.trans {x y z : FloorRecord} (h1 : FloorKept x y) (h2 : FloorKept y z) : FloorKept x z := by
  obtain ⟨hh1, hf1⟩ := h1
  obtain ⟨hh2, hf2⟩ := h2
  refine ⟨hh2.trans hh1, fun g hg => ?_⟩
  obtain ⟨f, hf, hp, hpr, hc⟩ := hf2 g hg
  obtain ⟨f', hf', hp', hpr', hc'⟩ := hf1 f hf
  exact ⟨f', hf', hp.trans hp', hpr.trans hpr', hc.trans hc'⟩

/-- The same floor record is a kept one. -/
theorem FloorKept.of_eq {x y : FloorRecord} (h : y = x) : FloorKept x y := h ▸ .refl x

/-- The fading part is cleared exactly when no entry of the fading performance is queued. -/
theorem checkFading_cases (s : State) :
    checkFading s = s ∨ ∃ f, s.floor.fading = some f ∧ (∀ e ∈ s.queue, e.ownedBy f.perf = false) ∧
      checkFading s = { s with floor := { s.floor with fading := none } } := by
  unfold checkFading
  split
  next => exact .inl rfl
  next f hf =>
    split
    next => exact .inl rfl
    next hnone => exact .inr ⟨f, hf, by simpa using hnone, rfl⟩

theorem checkFading_kept (s : State) : FloorKept s.floor (checkFading s).floor := by
  obtain heq | ⟨f, -, -, heq⟩ := checkFading_cases s
  · exact .of_eq (by rw [heq])
  · rw [heq]
    exact ⟨rfl, fun g hg => by cases hg⟩

theorem preemptStep_kept (e : Entry) (s : State) : FloorKept s.floor (preemptStep e s).floor := by
  unfold preemptStep
  split
  next => exact .refl _
  next f hf =>
    have hfading : s.floor.fading = some f := by
      simp only [fadingOf] at hf
      split at hf
      next g hg =>
        split at hf
        · exact hg.trans hf
        · cases hf
      next => cases hf
    split
    · exact .refl _
    · refine ⟨rfl, fun g hg => ⟨f, hfading, ?_⟩⟩
      have hg : _ = g := Option.some.inj hg
      subst hg
      split <;> exact ⟨rfl, rfl, rfl⟩

/-- An entry that belongs to a floor record stays one under a record with the same performances. -/
theorem EntryBelongs.of_perfs {x y : FloorRecord} {e : Entry} (h : EntryBelongs x e) (hholder : y.holder = x.holder)
    (hfading : ∀ f, x.fading = some f → ∃ g, y.fading = some g ∧ g.perf = f.perf) : EntryBelongs y e := by
  unfold EntryBelongs at *
  split at h
  · rw [hholder]; exact h
  · rcases h with ⟨h', hh, hp⟩ | ⟨f, hf, hp⟩
    · exact .inl ⟨h', hholder.trans hh, hp⟩
    · obtain ⟨g, hg, hgp⟩ := hfading f hf
      exact .inr ⟨g, hg, hgp.trans hp⟩

theorem ownedBy_iff {e : Entry} {p : PerfId} : e.ownedBy p = true ↔ e.owner = .perf p := decide_eq_true_iff

/-- An entry that is not of the fading performance belongs to the record without it. -/
theorem EntryBelongs.of_not_fading {x y : FloorRecord} {e : Entry} (h : EntryBelongs x e)
    (hholder : y.holder = x.holder) (hnot : ∀ f, x.fading = some f → e.ownedBy f.perf = false) : EntryBelongs y e := by
  unfold EntryBelongs at *
  split at h
  · rw [hholder]; exact h
  next p hp =>
    rcases h with ⟨h', hh, hperf⟩ | ⟨f, hf, hperf⟩
    · exact .inl ⟨h', hholder.trans hh, hperf⟩
    · have howned : e.ownedBy f.perf = true := ownedBy_iff.mpr (by rw [hp, hperf])
      rw [hnot f hf] at howned
      cases howned

theorem checkFading_belongs {s : State} (h : QueueBelongs s) : QueueBelongs (checkFading s) := by
  obtain heq | ⟨f, hf, hnone, heq⟩ := checkFading_cases s
  · rw [heq]; exact h
  · rw [heq]
    intro e he
    refine (h e he).of_not_fading rfl fun g hg => ?_
    rw [hf] at hg
    cases hg
    exact hnone e he

theorem preemptStep_belongs {e : Entry} {s : State} (h : QueueBelongs s) : QueueBelongs (preemptStep e s) := by
  intro x hx
  have hqueue : (preemptStep e s).queue = s.queue := preemptStep_unchanged e s .queue (by decide)
  refine (h x (hqueue ▸ hx)).of_perfs (preemptStep_kept e s).1 fun f hf => ?_
  have hkept := (preemptStep_kept e s).2
  cases hg : (preemptStep e s).floor.fading with
  | some g =>
    obtain ⟨f', hf', hp, -⟩ := hkept g hg
    exact ⟨g, rfl, by rw [hp, Option.some.inj (hf'.symm.trans hf)]⟩
  | none =>
    exfalso
    unfold preemptStep at hg
    split at hg
    · rw [hf] at hg; cases hg
    · split at hg
      · rw [hf] at hg; cases hg
      · cases hg

theorem afterRemoval_kept (e : Entry) (s : State) : FloorKept s.floor (afterRemoval e s).floor := by
  have hfloor : ∀ t : State, (fadeOut (idleDrop e.channel t)).floor = t.floor := fun t =>
    (fadeOut_unchanged _ .floor (by decide)).trans (idleDrop_unchanged _ t .floor (by decide))
  simp only [afterRemoval, hfloor]
  split
  · exact checkFading_kept s
  · exact .refl _

theorem afterRemoval_belongs {e : Entry} {s : State} (h : QueueBelongs s) : QueueBelongs (afterRemoval e s) := by
  have hkeep : ∀ t : State, QueueBelongs t → QueueBelongs (fadeOut (idleDrop e.channel t)) := by
    intro t ht x hx
    rw [fadeOut_unchanged _ .floor (by decide), idleDrop_unchanged _ t .floor (by decide)]
    rw [fadeOut_unchanged _ .queue (by decide), idleDrop_unchanged _ t .queue (by decide)] at hx
    exact ht x hx
  simp only [afterRemoval]
  split
  · exact hkeep _ (checkFading_belongs h)
  · exact hkeep _ h

theorem removeEntry_kept (o : StrikeOutcome) (e : Entry) (s : State) :
    FloorKept s.floor (removeEntry o e s).floor := by
  refine FloorKept.trans (.of_eq ?_) (afterRemoval_kept e _)
  rw [raise_floor, writeRecord_unchanged _ _ .floor (by decide)]
  rfl

/-- Entries taken out of the queue, and nothing said of the floor. -/
theorem QueueBelongs.of_sublist {s t : State} (h : QueueBelongs s) (hfloor : t.floor = s.floor)
    (hsub : ∀ e ∈ t.queue, e ∈ s.queue) : QueueBelongs t := fun e he => hfloor ▸ h e (hsub e he)

theorem removeEntry_belongs {o : StrikeOutcome} {e : Entry} {s : State} (h : QueueBelongs s) :
    QueueBelongs (removeEntry o e s) := by
  refine afterRemoval_belongs (h.of_sublist ?_ fun x hx => ?_)
  · rw [raise_floor, writeRecord_unchanged _ _ .floor (by decide)]
    rfl
  · rw [raise_queue, writeRecord_unchanged _ _ .queue (by decide)] at hx
    exact List.mem_of_mem_erase hx

theorem closeLaunch_kept (e : Entry) (o : StrikeOutcome) (s : State) :
    FloorKept s.floor (closeLaunch e o s).floor := by
  refine ((preemptStep_kept e (raise (outcomeCounter o) s)).trans (.of_eq ?_)).trans (afterRemoval_kept e _)
  exact fadeStepSilence_unchanged _ .floor (by decide)

theorem closeLaunch_belongs {e : Entry} {o : StrikeOutcome} {s : State} (h : QueueBelongs s) :
    QueueBelongs (closeLaunch e o s) := by
  refine afterRemoval_belongs ((preemptStep_belongs (e := e) (s := raise (outcomeCounter o) s) h).of_sublist
    (fadeStepSilence_unchanged _ .floor (by decide)) fun x hx => ?_)
  rw [fadeStepSilence_unchanged _ .queue (by decide)] at hx
  exact hx

theorem launchEntry_kept (e : Entry) (s : State) : FloorKept s.floor (launchEntry e s).floor := by
  simp only [launchEntry]
  split
  · refine FloorKept.trans (.of_eq ?_) (closeLaunch_kept _ _ _)
    rw [writeRecord_unchanged _ _ .floor (by decide)]
    rfl
  · refine FloorKept.trans (.of_eq ?_) (closeLaunch_kept _ _ _)
    rw [writeRecord_unchanged _ _ .floor (by decide), fireEntry_unchanged _ _ _ .floor (by decide)]
    rfl

theorem launchEntry_belongs {e : Entry} {s : State} (h : QueueBelongs s) : QueueBelongs (launchEntry e s) := by
  simp only [launchEntry]
  split
  · refine closeLaunch_belongs (h.of_sublist ?_ fun x hx => ?_)
    · rw [writeRecord_unchanged _ _ .floor (by decide)]
      rfl
    · rw [writeRecord_unchanged _ _ .queue (by decide)] at hx
      exact List.mem_of_mem_erase hx
  · refine closeLaunch_belongs (h.of_sublist ?_ fun x hx => ?_)
    · rw [writeRecord_unchanged _ _ .floor (by decide), fireEntry_unchanged _ _ _ .floor (by decide)]
      rfl
    · rw [writeRecord_unchanged _ _ .queue (by decide), fireEntry_unchanged _ _ _ .queue (by decide)] at hx
      exact List.mem_of_mem_erase hx

theorem purge_kept (sel : Entry → Bool) (s : State) : FloorKept s.floor (purge sel s).floor := by
  unfold purge
  generalize s.queue.filter sel = l
  induction l generalizing s with
  | nil => exact .refl _
  | cons e l ih => exact (removeEntry_kept .purged e s).trans (ih _)

theorem purge_holder (sel : Entry → Bool) (s : State) : (purge sel s).floor.holder = s.floor.holder :=
  (purge_kept sel s).1

end Sys2Proof.Machine
end

