-- ==== Sys2Proof/Proofs/StrikeMoves.lean ====
section
/-! The operations of the strike queue, the clock's step and the tower line as chains of moves. -/

namespace Sys2Proof.Machine

-- One proof after another: many at once would ask for more threads than the memory limit allows.
set_option Elab.async false

/-! ### Strike queue -/

theorem purge_moves (sel : Entry → Bool) (s : State) : Moves [.plain] s (purge sel s) :=
  .foldl _ s fun t e _ => .single (.remove .purged e t)

/-- The entry with the number it is admitted under (R39). -/
def numbered (e : Entry) (s : State) : Entry := { e with admission := s.admission, held := false }

theorem insertStrike_moves {s t : State} {e : Entry} (h : Moves [.plain, .enqueue] s (enqueue (numbered e t) t)) :
    Moves [.plain, .enqueue] s (insertStrike e t) := by
  have hlift : Moves [.plain, .enqueue] s (tryLift e.channel (wakeBank (enqueue (numbered e t) t))) :=
    (h.move (.wake _)).move (.tryLift e.channel _)
  exact .ite (fun _ => hlift.move (.launch _ _))
    fun _ => .ite (fun _ => hlift.move (.hold _ _)) fun _ => hlift

/-- Room is there, or made by the eviction of a queued entry for the holder's order (R47). -/
theorem makeRoom_cases {st : Standing} {s t : State} (h : makeRoom st s = some t) :
    (s.queue.length < 96 ∧ t = s) ∨
      (96 ≤ s.queue.length ∧ st = .holder ∧ ∃ x, evictable s = some x ∧ t = removeEntry .purged x s) := by
  unfold makeRoom at h
  split at h
  next hroom => exact .inl ⟨hroom, (Option.some.inj h).symm⟩
  next hfull =>
    cases st with
    | holder =>
      obtain ⟨x, hx, heq⟩ := Option.map_eq_some_iff.mp h
      exact .inr ⟨Nat.le_of_not_lt hfull, rfl, x, hx, heq.symm⟩
    | fading => cases h
    | test => cases h

theorem mem_queue_of_evictable {s : State} {x : Entry} (h : evictable s = some x) : x ∈ s.queue :=
  (List.mem_filter.mp (List.mem_of_getLast? h)).1

theorem newEntry_sound {s : State} {k : Fin 8} {owner : Owner} {priority impact velocity launch : Nat}
    {duration : Option Nat} {n : BitVec 32} (hpresent : isPresent s k = true) (hv : 1 ≤ velocity ∧ velocity ≤ 15) :
    EntrySound s { newEntry s k owner priority impact velocity launch duration with admission := n, held := false } := by
  refine ⟨hpresent, hv, by simp [newEntry], fun hd => ?_⟩
  by_contra hnot
  have hundamped : s.channels[k].voicing.damped = false := by simpa [newEntry] using hnot
  simp only [newEntry, hundamped] at hd
  cases hd

theorem admitRequest_moves {k : Fin 8} {owner : Owner} {priority impact velocity : Nat} {duration : Option Nat}
    {st : Standing} {now : Nat} {s : State} (hpresent : isPresent s k = true) (hv : 1 ≤ velocity ∧ velocity ≤ 15)
    (hbelongs : ∀ e : Entry, e.owner = owner → EntryBelongs s.floor e)
    (hholder : st = .holder → ∃ h, s.floor.holder = some h ∧ owner = .perf h.perf) :
    Moves [.plain, .enqueue] s (admitRequest k owner priority impact velocity duration st now s).1 := by
  unfold admitRequest
  split
  · exact .single (.raise _ s)
  · split
    · exact .single (.raise _ s)
    next s1 hroom =>
      obtain ⟨hlt, rfl⟩ | ⟨-, hst, x, hx, rfl⟩ := makeRoom_cases hroom
      · exact insertStrike_moves (.single (.enqueue _ s1 hlt (newEntry_sound hpresent hv) (hbelongs _ rfl)))
      · refine insertStrike_moves (.single (.exchange x _ s (mem_queue_of_evictable hx) (newEntry_sound hpresent hv) ?_))
        obtain ⟨h, hh, howner⟩ := hholder hst
        subst howner
        exact .inl ⟨h, (removeEntry_kept .purged x s).1.trans hh, rfl⟩

theorem floorStanding_belongs {s : State} {p : PerfId} {impact priority : Nat} {st : Standing}
    (h : floorStanding s p impact = some (st, priority)) :
    (∀ e : Entry, e.owner = .perf p → EntryBelongs s.floor e) ∧
      (st = .holder → ∃ x, s.floor.holder = some x ∧ Owner.perf p = .perf x.perf) := by
  have hfading : ∀ {st' : Standing} {n : Nat}, (match s.floor.fading with
      | some f => if f.perf = p ∧ beforeCutoff f impact then some (Standing.fading, f.priority.level) else none
      | none => none) = some (st', n) → st' = .fading ∧ ∀ e : Entry, e.owner = .perf p → EntryBelongs s.floor e := by
    intro st' n hst
    split at hst
    next f hf =>
      split at hst
      next hif =>
        cases hst
        refine ⟨rfl, fun e he => ?_⟩
        simp only [EntryBelongs, he]
        exact .inr ⟨f, hf, hif.1⟩
      next => cases hst
    next => cases hst
  simp only [floorStanding] at h
  split at h
  next x hx =>
    split at h
    next hperf =>
      cases h
      refine ⟨fun e he => ?_, fun _ => ⟨x, hx, by rw [hperf]⟩⟩
      simp only [EntryBelongs, he]
      exact .inl ⟨x, hx, hperf⟩
    next =>
      obtain ⟨rfl, hb⟩ := hfading h
      exact ⟨hb, fun hst => by cases hst⟩
  next =>
    obtain ⟨rfl, hb⟩ := hfading h
    exact ⟨hb, fun hst => by cases hst⟩

theorem takeOrder_moves (p : PerfId) (base now : Nat) (o : OrderItem) (s : State) :
    Moves [.plain, .enqueue] s (takeOrder p base now o s) := by
  unfold takeOrder
  split
  · exact .refl s
  next k hk =>
    refine .ite (fun _ => .refl s) fun hv => .ite (fun _ => .single (.raise _ s)) fun _ => ?_
    dsimp only
    split
    · exact .single (.raise _ s)
    next st priority hst =>
      refine .ite (fun _ => .single (.raise _ s)) fun _ => ?_
      obtain ⟨hbelongs, hholder⟩ := floorStanding_belongs hst
      have hvelocity : 1 ≤ o.velocity.toNat ∧ o.velocity.toNat ≤ 15 := by bv_omega
      exact admitRequest_moves ((channelOfBell_eq_some_iff s _ k).mp hk).1 hvelocity hbelongs hholder

theorem takeOrders_moves (p : PerfId) (base : Nat) (items : List OrderItem) (s : State) :
    Moves [.plain, .enqueue] s (takeOrders p base items s) :=
  .foldl items s fun t o _ => takeOrder_moves p base s.time.tower o t

theorem stepEntry_moves (e : Entry) (s : State) : Moves [.plain] s (stepEntry e s) :=
  .ite (fun _ => .ite (fun _ => .single (.remove .silenced e s)) fun _ =>
    .ite (fun _ => .ite (fun _ => .single (.launch e s)) fun _ => .single (.hold e s)) fun _ =>
      .single (.release e s)) fun _ => .refl s

theorem stepQueue_moves (s : State) : Moves [.plain] s (stepQueue s) :=
  .foldl s.queue s fun t e _ => stepEntry_moves e t

/-! ### Tower line -/

theorem hand_moves {x : TxFrame} (s : State) (hpacked : FramePacked x.frame) (hkind : x.frame.isPresence = false) :
    Moves [.plain] s (handOnly x s) := .single (.handFrame x s hpacked hkind)

theorem reply_moves (h : Service) (n : Nat) (r : Result) (b : ReplyBody) (s : State) :
    Moves [.plain] s (reply h n r b s) :=
  .ite (fun _ => hand_moves s trivial rfl) fun _ => .refl s

theorem handPart_moves (n : Nat) (tag : BitVec 6) (final : Bool) (part : Nat) (b : ReplyBody) (s : State) :
    Moves [.plain] s (handPart n tag final part b s) := hand_moves s trivial rfl

theorem acknowledge_moves (s : State) : Moves [.plain] s (acknowledge s) :=
  .single (.writeLine _ s ⟨rfl, rfl, rfl, rfl, rfl, rfl⟩)

theorem endSending_moves (o : Origin) (s : State) : Moves [.plain] s (endSending o s) := by
  have hgone : Moves [.plain] s
      (frameGone o { s with line := { s.line with sending := none, setAside := none } }) :=
    (Moves.one (.stopSending s)).move (.frameGone o _)
  simp only [endSending]
  split
  · exact hgone.move (.handBeacon _ _)
  · exact hgone

theorem faultCheck_moves (s : State) : Moves [.plain] s (faultCheck s) :=
  .ite (fun _ => .single (.beginFault s)) fun _ => .refl s

theorem abandonFrame_moves (s : State) : Moves [.plain] s (abandonFrame s) := by
  unfold abandonFrame
  split
  · exact .refl s
  · exact ((((Moves.one (.writeLine { s.line with txErrors := s.line.txErrors + 1 } s ⟨rfl, rfl, rfl, rfl, rfl, rfl⟩)).move (.raise .txError _)).move (.frameLost _ _)).andThen (endSending_moves _ _)).andThen (faultCheck_moves _)

end Sys2Proof.Machine
end

