-- ==== Sys2Proof/Proofs/ConductMoves.lean ====
section
/-! The operations of the Conductor and of the Calendar Unit as chains of moves, and what a frame handed to the transmit
queue leaves of a performance slot. -/

namespace Sys2Proof.Machine

-- One proof after another: many at once would ask for more threads than the memory limit allows.
set_option Elab.async false

/-! ### What the transmit queue leaves of a slot (R92, R125, R133, R135) -/

/-- A performance as it was but for what the fate of its frames changes: a CLAIM lost returns it to PREROLL, an ORDER lost
is counted, and a frame that left the queue gives a held slot its chance. -/
def PerfKept (p q : Perf) : Prop :=
  q = { p with phase := q.phase, lost := q.lost, chance := q.chance } ∧
    (q.phase = p.phase ∨ (p.phase = .claiming ∧ q.phase = .preroll))

/-- A slot as it was, its performance kept. -/
def SlotKept : Slot → Slot → Prop
  | .active p, y => ∃ q, y = .active q ∧ PerfKept p q
  | x, y => y = x

theorem PerfKept.refl (p : Perf) : PerfKept p p := ⟨rfl, .inl rfl⟩

theorem PerfKept.trans {p q r : Perf} (h1 : PerfKept p q) (h2 : PerfKept q r) : PerfKept p r := by
  obtain ⟨heq1, hph1⟩ := h1
  obtain ⟨heq2, hph2⟩ := h2
  refine ⟨by rw [heq2, heq1], ?_⟩
  rcases hph1 with h1 | ⟨h1, h1'⟩ <;> rcases hph2 with h2 | ⟨h2, h2'⟩
  · exact .inl (h2.trans h1)
  · exact .inr ⟨h1 ▸ h2, h2'⟩
  · exact .inr ⟨h1, h2.trans h1'⟩
  · rw [h1'] at h2; cases h2

theorem SlotKept.refl (x : Slot) : SlotKept x x := by
  cases x with
  | active p => exact ⟨p, rfl, .refl p⟩
  | idle => rfl
  | ended => rfl

theorem SlotKept.trans {x y z : Slot} (h1 : SlotKept x y) (h2 : SlotKept y z) : SlotKept x z := by
  cases x with
  | active p =>
    obtain ⟨q, rfl, hpq⟩ := h1
    obtain ⟨r, rfl, hqr⟩ := h2
    exact ⟨r, rfl, hpq.trans hqr⟩
  | idle => cases h1; exact h2
  | ended => cases h1; exact h2

theorem SlotKept.change {f : Perf → Perf} (hf : ∀ p, PerfKept p (f p)) (x : Slot) : SlotKept x (x.change f) := by
  cases x with
  | active p => exact ⟨f p, rfl, hf p⟩
  | idle => rfl
  | ended => rfl

/-- Every slot of a state kept in another. -/
def SlotsKept (s t : State) : Prop := ∀ k : Fin 4, SlotKept s.conductor.slots[k] t.conductor.slots[k]

theorem SlotsKept.refl (s : State) : SlotsKept s s := fun _ => .refl _

theorem SlotsKept.trans {s t u : State} (h1 : SlotsKept s t) (h2 : SlotsKept t u) : SlotsKept s u :=
  fun k => (h1 k).trans (h2 k)

theorem SlotsKept.of_eq {s t : State} (h : t.conductor = s.conductor) : SlotsKept s t := fun k => by
  rw [h]; exact .refl _

theorem updPerf_slots (k : Fin 4) (f : Perf → Perf) (s : State) (j : Fin 4) :
    (updPerf k f s).conductor.slots[j] = if k = j then s.conductor.slots[j].change f else s.conductor.slots[j] := by
  by_cases h : k = j
  · subst h
    simp [updPerf]
  · simp [updPerf, h, Fin.val_ne_of_ne h]

theorem updPerf_kept {f : Perf → Perf} (k : Fin 4) (s : State) (hf : ∀ p, PerfKept p (f p)) :
    SlotsKept s (updPerf k f s) := fun j => by
  rw [updPerf_slots]
  split
  · exact .change hf _
  · exact .refl _

theorem claimLost_kept (seq : BitVec 8) (p : Perf) : PerfKept p (claimLost seq p) := by
  unfold claimLost
  split
  next h => exact ⟨rfl, .inr ⟨h.1, rfl⟩⟩
  next => exact .refl p

theorem orderLost_kept (seq : BitVec 8) (p : Perf) : PerfKept p (orderLost seq p) := by
  unfold orderLost
  split
  · exact ⟨rfl, .inl rfl⟩
  · exact .refl p

theorem frameGone_kept (o : Origin) (s : State) : SlotsKept s (frameGone o s) := by
  have hchance : SlotsKept s { s with conductor := { s.conductor with
      slots := Vector.ofFn fun k : Fin 4 => s.conductor.slots[k].change fun p => { p with chance := true } } } := by
    intro k
    simp only [Fin.getElem_fin, Vector.getElem_ofFn]
    exact .change (f := fun p => { p with chance := true }) (fun p => ⟨rfl, .inl rfl⟩) _
  unfold frameGone
  dsimp only
  split
  · exact hchance.trans (.of_eq (partOut_unchanged _ .conductor (by decide)))
  · exact hchance

theorem frameLost_kept (x : TxFrame) (s : State) : SlotsKept s (frameLost x s) := by
  unfold frameLost
  split
  · split
    · exact updPerf_kept _ s (claimLost_kept _)
    · exact updPerf_kept _ s (orderLost_kept _)
    all_goals exact .refl s
  all_goals exact .refl s

theorem evictTx_kept (x : TxFrame) (s : State) : SlotsKept s (evictTx x s) :=
  (frameLost_kept x (raise .txDropped { s with line := { s.line with queue := s.line.queue.dropLast } })).trans
    (frameGone_kept _ _)

theorem handFrame_kept (x : TxFrame) (s : State) : SlotsKept s (handFrame x s).1 := by
  have hrefuse : SlotsKept s (refuseTx x s) := .of_eq (refuseTx_unchanged x s .conductor (by decide))
  unfold handFrame
  split
  · exact .refl s
  · split
    · exact hrefuse
    · split
      · exact evictTx_kept _ s
      · exact hrefuse

theorem handBeacon_kept (b : NodeBeacon) (s : State) : SlotsKept s (handBeacon b s) := by
  unfold handBeacon
  dsimp only
  split
  · exact .refl s
  · split
    · exact .refl s
    · exact handFrame_kept _ s

theorem SlotsKept.active {s t : State} {k : Fin 4} {p : Perf} (h : SlotsKept s t)
    (hp : s.conductor.slots[k] = .active p) : ∃ q, t.conductor.slots[k] = .active q ∧ PerfKept p q := by
  have hk := h k
  rw [hp] at hk
  exact hk

theorem PerfKept.slot {p q : Perf} (h : PerfKept p q) : q.slot = p.slot := by rw [h.1]

theorem perf?_eq_some {x : Slot} {p : Perf} : x.perf? = some p ↔ x = .active p := by
  cases x <;> simp [Slot.perf?]

theorem isFree_iff {x : Slot} : x.isFree = true ↔ ∀ p, x ≠ .active p := by
  cases x <;> simp [Slot.isFree, Slot.perf?]

/-! ### Endings and cues -/

theorem freeContactsOf_moves (k : Fin 4) (s : State) : Moves [.plain] s (freeContactsOf k s) :=
  .single (.writeCalendar _ s rfl)

theorem closing_moves (k : Fin 4) (c : Counter) (s : State) : Moves [.plain] s (freeContactsOf k (raise c s)) :=
  (Moves.one (.raise c s)).andThen (freeContactsOf_moves k _)

/-- An active slot that ends gives up its lock (R138). -/
theorem closeSlot_moves {k : Fin 4} {p : Perf} {s : State} (seq : BitVec 8) (o : PerfOutcome)
    (h : s.conductor.slots[k] = .active p) : Moves [.plain] s (closeSlot k seq o (unlockTune p.slot s)) :=
  (Moves.one (.endPerf k p seq o s h)).andThen (closing_moves k _ _)

theorem handRelease_moves (k : Fin 4) (p : Perf) (o : PerfOutcome) (s : State) :
    Moves [.plain] s (handRelease k p o s) :=
  .ite (fun _ => hand_moves s trivial rfl) fun _ => .refl s

theorem handRelease_kept (k : Fin 4) (p : Perf) (o : PerfOutcome) (s : State) : SlotsKept s (handRelease k p o s) := by
  unfold handRelease
  split
  · exact handFrame_kept _ s
  · exact .refl s

theorem endPerf_moves {k : Fin 4} {p : Perf} {s : State} (o : PerfOutcome)
    (h : s.conductor.slots[k] = .active p) : Moves [.plain] s (endPerf k p o s) := by
  obtain ⟨q, hq, hkept⟩ := (handRelease_kept k p o s).active h
  have hclose : Moves [.plain] _ (closeSlot k p.seq o (unlockTune q.slot (handRelease k p o s))) :=
    closeSlot_moves p.seq o hq
  rw [hkept.slot] at hclose
  exact (handRelease_moves k p o s).andThen hclose

theorem finishPerf_moves (k : Fin 4) (p : Perf) (s : State) : Moves [.plain] s (finishPerf k p s) := by
  have hhand : Moves [.plain] s (handOnly (releaseFrame (.slot k) p.seq .ended) s) := hand_moves s trivial rfl
  unfold finishPerf
  dsimp only
  split
  · exact hhand
  next q hq => exact hhand.andThen (closeSlot_moves q.seq _ (perf?_eq_some.mp hq))

theorem freeSlot_isFree {s : State} {k : Fin 4} (h : freeSlot s = some k) : s.conductor.slots[k].isFree = true :=
  List.find?_some (p := fun k : Fin 4 => s.conductor.slots[k].isFree) h

theorem resolvesValid_of_tuneInfo {s : State} {t : Fin 32} {cueTime : Nat} {i : TuneInfo}
    (h : tuneInfo s t cueTime = some i) : resolvesValid s t = true := by
  unfold tuneInfo at h
  unfold resolvesValid
  split at h <;> simp_all

theorem takeCue_moves (t : Fin 32) (priority : Option Priority) (cueTime : Nat) (s : State) :
    Moves [.plain] s (takeCue t priority cueTime s).1 := by
  unfold takeCue
  split
  · exact .refl s
  next k hk =>
    have hfree := freeSlot_isFree hk
    dsimp only
    split
    · exact ((Moves.one (.bumpSequence (newSequence s) s)).move (.endFree k (newSequence s) .missingTune _ hfree)).andThen (closing_moves k _ _)
    next i hi =>
      exact (Moves.one (.bumpSequence (newSequence s) s)).move (.beginPerf k (newPerf (newSequence s) t i (priority.getD i.priority) cueTime s.time.tower) _ hfree
          (resolvesValid_of_tuneInfo hi))

/-! ### Streaming and the gate -/

theorem packNotes_length (first : Nat × Nat × NoteOrder) (rest : List (Nat × Nat × NoteOrder)) :
    1 ≤ (packNotes first rest).length ∧ (packNotes first rest).length ≤ 3 := by
  simp only [packNotes, List.length_cons, List.length_take]
  omega

theorem orderFrame_packed (k : Fin 4) (p : Perf) (first : Nat × Nat × NoteOrder) (rest : List (Nat × Nat × NoteOrder))
    (base : Nat) : FramePacked (orderFrame k p (packNotes first rest) base).frame := by
  show 1 ≤ ((packNotes first rest).map _).length ∧ ((packNotes first rest).map _).length ≤ 3
  rw [List.length_map]
  exact packNotes_length first rest

theorem stream_moves (fuel : Nat) (k : Fin 4) (s : State) : Moves [.plain] s (stream fuel k s) := by
  induction fuel generalizing s with
  | zero => exact .refl s
  | succ fuel ih =>
    unfold stream
    split
    · exact .refl s
    next p hp =>
      dsimp only
      split
      · exact .single (.updPerf k _ s (by intro; rfl))
      next first rest _ =>
        have hcursor : Moves [.plain] s (updPerf k (fun q => { q with cursor := first.1 }) s) :=
          .single (.updPerf k _ s (by intro; rfl))
        refine .ite (fun _ => hcursor) fun _ => .ite (fun _ => ?_) fun _ => ?_
        · exact ((hcursor.move (.updPerf k _ _ (by intro; rfl))).move (.raise .lateSend _)).andThen
            (ih _)
        · have hhanded := hcursor.move (.handFrame (orderFrame k p (packNotes first rest) first.2.1) _
            (orderFrame_packed k p first rest first.2.1) rfl)
          exact .ite (fun _ => (hhanded.move (.updPerf k _ _ (by intro; rfl))).andThen (ih _))
            fun _ => hhanded.move (.updPerf k _ _ (by intro; rfl))

theorem build_moves (k : Fin 4) (s : State) : Moves [.plain] s (build k s) := by
  unfold build
  split
  · exact .refl s
  · exact .ite (fun _ => (Moves.one (.updPerf k _ s (by intro; rfl))).andThen (stream_moves _ k _)) fun _ => .refl s

theorem postpone_slot (p : Perf) : (postpone p).slot = p.slot := by rw [postpone]

theorem evalGate_moves {k : Fin 4} {p : Perf} {s : State} (h : s.conductor.slots[k] = .active p) :
    Moves [.plain] s (evalGate k p s) :=
  .ite (fun _ => (Moves.one (.updPerf k _ s (by intro; rfl))).andThen (build_moves k _)) fun _ =>
    .ite (fun _ => (Moves.one (.updPerf k postpone s postpone_slot)).andThen
      (hand_moves (x := floorFrame k (postpone p)) _ trivial rfl)) fun _ => endPerf_moves .abandoned h

theorem gateIfDue_moves (k : Fin 4) (s : State) : Moves [.plain] s (gateIfDue k s) := by
  unfold gateIfDue
  split
  · exact .refl s
  next p hp => exact .ite (fun _ => evalGate_moves (perf?_eq_some.mp hp)) fun _ => .refl s

/-! ### Notices -/

theorem onAccepted_moves (seq : BitVec 8) (s : State) : Moves [.plain] s (onAccepted seq s) := by
  unfold onAccepted
  split
  · exact hand_moves s trivial rfl
  · split
    · exact .refl s
    · exact .ite (fun _ => .refl s) fun _ =>
        (Moves.one (.updPerf _ _ s (by intro; rfl))).andThen (gateIfDue_moves _ _)

theorem onRefused_moves (seq : BitVec 8) (stamp : LocalCount) (s : State) :
    Moves [.plain] s (onRefused seq stamp s) := by
  unfold onRefused
  split
  · exact .refl s
  · split
    · exact .refl s
    next p hp =>
      exact .ite (fun _ => .ite (fun _ => endPerf_moves .abandoned (perf?_eq_some.mp hp)) fun _ =>
        .single (.updPerf _ _ s (by intro; rfl))) fun _ => .refl s

theorem onDuplicate_moves (seq : BitVec 8) (s : State) : Moves [.plain] s (onDuplicate seq s) := by
  unfold onDuplicate
  split
  · exact .refl s
  · split
    · exact .refl s
    next p hp => exact .ite (fun _ => endPerf_moves .duplicate (perf?_eq_some.mp hp)) fun _ => .refl s

theorem endHolding_moves (seq : BitVec 8) (o : PerfOutcome) (s : State) : Moves [.plain] s (endHolding seq o s) := by
  unfold endHolding
  split
  · exact .refl s
  · split
    · exact .refl s
    next p hp => exact .ite (fun _ => endPerf_moves o (perf?_eq_some.mp hp)) fun _ => .refl s

/-- The slot of a preempted performance that is cued again is free only in passing: the same state comes from the new
performance put in its place (R139). -/
theorem recue_eq (k : Fin 4) (p : Perf) (n seq : BitVec 8) (o : PerfOutcome) (s : State) :
    setSlot k (.active p) (bumpSequence n (closeSlot k seq o s)) =
      freeContactsOf k (raise (perfCounter o) (bumpSequence n (setSlot k (.active p) s))) := by
  simp [closeSlot, setSlot, bumpSequence, freeContactsOf, raise]

theorem onPreempted_moves (seq : BitVec 8) (s : State) : Moves [.plain] s (onPreempted seq s) := by
  unfold onPreempted
  split
  · exact .refl s
  next k _ =>
    split
    · exact .refl s
    next p hp =>
      have hactive := perf?_eq_some.mp hp
      refine .ite (fun _ => .refl s) fun _ => .ite (fun _ => ?_) fun _ => endPerf_moves .preempted hactive
      obtain ⟨q, hq, hkept⟩ := (handRelease_kept k p .preempted s).active hactive
      dsimp only
      rw [recue_eq]
      exact (((handRelease_moves k p .preempted s).move (.replacePerf k q (retryPerf _ s.time.tower p) _ hq hkept.slot.symm)).move (.bumpSequence _ _)).andThen (closing_moves k _ _)

theorem onStopped_moves (seq : BitVec 8) (s : State) : Moves [.plain] s (onStopped seq s) := by
  unfold onStopped
  split
  · exact .refl s
  · split
    · exact .refl s
    next p hp => exact endPerf_moves .stopped (perf?_eq_some.mp hp)

theorem reclaim_slot (now : Nat) (p : Perf) : (reclaim now p).slot = p.slot := by
  unfold reclaim
  split <;> rfl

theorem onVacant_moves (s : State) : Moves [.plain] s (onVacant s) :=
  .foldl allSlots s fun t k _ => .single (.updPerf k _ t (reclaim_slot _))

theorem onNotice_moves (n : Notice) (s : State) : Moves [.plain] s (onNotice n s) := by
  cases n with
  | accepted seq => exact onAccepted_moves seq s
  | adopted seq => exact onAccepted_moves seq s
  | refused seq stamp => exact onRefused_moves seq stamp s
  | duplicate seq => exact onDuplicate_moves seq s
  | preempted seq => exact onPreempted_moves seq s
  | contested seq => exact endHolding_moves seq _ s
  | lapsed seq => exact endHolding_moves seq _ s
  | stopped seq => exact onStopped_moves seq s
  | vacant => exact onVacant_moves s

theorem giveNotices_moves (ns : List Notice) (s : State) : Moves [.plain] s (giveNotices ns s) :=
  .foldl ns s fun t n _ => onNotice_moves n t

/-! ### Calendar -/

theorem updEntry_moves (i : Fin 24) (f : CalEntry → CalEntry) (s : State) : Moves [.plain] s (updEntry i f s) :=
  .single (.writeCalendar _ s rfl)

theorem fireCue_moves (i : Fin 24) (m : Nat) (s : State) : Moves [.plain] s (fireCue i m s) := by
  have hcue := ((updEntry_moves i (fun x => { x with lastFired := some m }) s).move (.raise .cuesFired _)).andThen (takeCue_moves s.calendar.entries[i].slot
      (some s.calendar.entries[i].priority) m _)
  unfold fireCue
  dsimp only
  split
  · exact hcue.move (.raise .slotsFull _)
  · exact hcue
  · exact hcue

theorem decideEntry_moves (m : Nat) (i : Fin 24) (s : State) : Moves [.plain] s (decideEntry m i s) :=
  .ite (fun _ => .refl s) fun _ => .ite (fun _ => .refl s) fun _ => .ite (fun _ => .single (.raise _ s)) fun _ =>
    .ite (fun _ => .single (.raise _ s)) fun _ => .ite (fun _ => .single (.raise _ s)) fun _ => fireCue_moves i m s

theorem decideMinute_moves (m : Nat) (s : State) : Moves [.plain] s (decideMinute m s) :=
  .foldl allEntries s fun t i _ => decideEntry_moves m i t

theorem decideDue_moves (s : State) : Moves [.plain] s (decideDue s) := by
  unfold decideDue
  split
  · exact .refl s
  next m rest _ =>
    exact (Moves.one (.writeCalendar { s.calendar with due := rest } s rfl)).andThen (decideMinute_moves m _)

theorem bringDue_moves (m : Nat) (s : State) : Moves [.plain] s (bringDue m s) := by
  have hmark : Moves [.plain] s (setCalendar (markDecided m s.calendar) s) := .single (.writeCalendar _ s rfl)
  unfold bringDue
  dsimp only
  exact .ite (fun _ => hmark) fun _ => hmark.andThen (decideMinute_moves m _)

theorem setPreroll_moves {n : Nat} (s : State) (hn : 8000 ≤ n ∧ n ≤ 120000) :
    Moves [.plain, .settings] s (setPreroll n s) := by
  have hwrite : Moves [.plain, .settings] s { s with settings := { s.settings with preroll := n } } :=
    .single (.writePreroll n s hn)
  unfold setPreroll
  dsimp only
  split
  · exact hwrite.andThen (ls := [.plain]) (.single (.writeCalendar _ _ rfl))
  · exact hwrite.andThen (bringDue_moves _ _)

theorem countMissed_moves (old n : Nat) (s : State) : Moves [.plain] s (countMissed old n s) :=
  .foldl allEntries s fun t _ _ => .ite (fun _ => .single (.raise _ t)) fun _ => .refl t

theorem passPoints_moves (t n : Nat) (s : State) : Moves [.plain] s (passPoints t n s) :=
  .single (.writeCalendar _ s rfl)

theorem stepCalendar_moves (old : Nat) (wasSet : Bool) (s : State) : Moves [.plain] s (stepCalendar old wasSet s) := by
  unfold stepCalendar
  dsimp only
  refine .ite (fun _ => ?_) fun _ => passPoints_moves _ _ s
  split
  · exact (countMissed_moves _ _ s).andThen (passPoints_moves _ _ _)
  · exact passPoints_moves _ _ s

theorem takePress_moves (c : Fin 2) (s : State) : Moves [.plain] s (takePress c s) := by
  have hcue := takeCue_moves (contactMap s c).slot (some .low) (plus s.time.tower Config.cueLead) s
  unfold takePress
  dsimp only
  refine .ite (fun _ => .refl s) fun _ => .ite (fun _ => .single (.raise _ s)) fun _ => ?_
  split
  · exact hcue.move (.raise _ _)
  · exact hcue.move (.writeCalendar _ _ rfl)
  · exact hcue.move (.writeCalendar _ _ rfl)

end Sys2Proof.Machine
end

