-- ==== Sys2Proof/Proofs/FloorMoves.lean ====
section
/-! The operations of the Floor Tracker as chains of moves: what is purged before the record is written, so that every
queued entry belongs to the record as it then stands (R103, R106 to R114). -/

namespace Sys2Proof.Machine

-- One proof after another: many at once would ask for more threads than the memory limit allows.
set_option Elab.async false

/-- No entry of a performance is queued. -/
def NoneOf (s : State) (p : PerfId) : Prop := ∀ e ∈ s.queue, e.owner ≠ .perf p

theorem purgePerf_noneOf (p : PerfId) (s : State) : NoneOf (purgePerf p s) p := by
  intro e he howner
  rw [purgePerf, purge_queue, List.mem_filter] at he
  simp [ownedBy_iff.mpr howner] at he

theorem NoneOf.purge {s : State} {p : PerfId} (h : NoneOf s p) (sel : Entry → Bool) : NoneOf (purge sel s) p := by
  intro e he
  rw [purge_queue] at he
  exact h e (List.mem_filter.mp he).1

/-- No TEST entry is queued. -/
def NoTest (s : State) : Prop := ∀ e ∈ s.queue, e.owner ≠ .test

theorem purgeTest_noTest (s : State) : NoTest (purgeTest s) := by
  intro e he howner
  rw [purgeTest, purge_queue, List.mem_filter] at he
  simp [howner] at he

/-- Under a HELD record no TEST entry is queued. -/
theorem QueueBelongs.noTest {s : State} {h : Holder} (hq : QueueBelongs s) (hh : s.floor.holder = some h) : NoTest s := by
  intro e he howner
  have hb := hq e he
  simp only [EntryBelongs, howner, hh] at hb
  cases hb

/-- An entry of a performance that belongs is the holder's or the fading performance's. -/
theorem EntryBelongs.perf {r : FloorRecord} {e : Entry} (h : EntryBelongs r e) (htest : e.owner ≠ .test) :
    (∃ x, r.holder = some x ∧ e.owner = .perf x.perf) ∨ ∃ f, r.fading = some f ∧ e.owner = .perf f.perf := by
  unfold EntryBelongs at h
  split at h
  next howner => exact absurd howner htest
  next p howner =>
    rcases h with ⟨x, hx, hp⟩ | ⟨f, hf, hp⟩
    · exact .inl ⟨x, hx, by rw [howner, hp]⟩
    · exact .inr ⟨f, hf, by rw [howner, hp]⟩

theorem EntryBelongs.of_holder {r : FloorRecord} {e : Entry} {x : Holder} (h : r.holder = some x)
    (he : e.owner = .perf x.perf) : EntryBelongs r e := by
  simp only [EntryBelongs, he]
  exact .inl ⟨x, h, rfl⟩

theorem EntryBelongs.of_fading {r : FloorRecord} {e : Entry} {f : FadingPart} (h : r.fading = some f)
    (he : e.owner = .perf f.perf) : EntryBelongs r e := by
  simp only [EntryBelongs, he]
  exact .inr ⟨f, h, rfl⟩

theorem EntryBelongs.of_test {r : FloorRecord} {e : Entry} (h : r.holder = none) (he : e.owner = .test) :
    EntryBelongs r e := by
  simp only [EntryBelongs, he]
  exact h

/-- A record with no holder, or with no fading performance, has nothing to compare. -/
theorem floorSound_of_no_holder {s : State} (h : s.floor.holder = none) : FloorSound s := by
  intro x f hx
  rw [h] at hx
  cases hx

theorem floorSound_of_no_fading {s : State} (h : s.floor.fading = none) : FloorSound s := by
  intro x f _ hf
  rw [h] at hf
  cases hf

/-! ### Clearing the fading part -/

theorem checkFading_moves (s : State) : Moves [.plain] s (checkFading s) := by
  obtain heq | ⟨f, hf, hnone, heq⟩ := checkFading_cases s
  · rw [heq]; exact .refl s
  · have hb := @checkFading_belongs s
    rw [heq] at hb ⊢
    exact .one (.writeFloor _ s fun _ hq => ⟨floorSound_of_no_fading rfl, hb hq⟩)

/-- The fading part of a performance with no entry queued goes. -/
theorem clearFading_moves {s : State} (h : ∀ f, s.floor.fading = some f → NoneOf s f.perf) :
    Moves [.plain] s (clearFading s) := by
  refine .one (.writeFloor _ s fun _ hq => ⟨floorSound_of_no_fading rfl, fun e he => ?_⟩)
  refine (hq e he).of_not_fading rfl fun f hf => ?_
  have hno := h f hf e he
  rw [← Bool.not_eq_true, ownedBy_iff]
  exact hno

theorem purgeFading_moves (s : State) : Moves [.plain] s (purgeFading s) := by
  unfold purgeFading
  split
  · exact .refl s
  next f hf =>
    refine (purge_moves _ s).andThen (clearFading_moves fun g hg => ?_)
    obtain ⟨f', hf', hperf, -⟩ := (purge_kept _ s).2 g hg
    rw [hf] at hf'
    cases hf'
    rw [hperf]
    exact purgePerf_noneOf f.perf s

theorem purgeFading_fading (s : State) : (purgeFading s).floor.fading = none := by
  unfold purgeFading
  split
  · assumption
  · rfl

theorem purgeFading_holder (s : State) : (purgeFading s).floor.holder = s.floor.holder := by
  unfold purgeFading
  split
  · rfl
  · exact purge_holder _ s

theorem purgeFading_noneOf {s : State} {p : PerfId} (h : NoneOf s p) : NoneOf (purgeFading s) p := by
  unfold purgeFading
  split
  · exact h
  · exact h.purge _

theorem purge_fading_none {s : State} (sel : Entry → Bool) (h : s.floor.fading = none) :
    (purge sel s).floor.fading = none := by
  cases hg : (purge sel s).floor.fading with
  | none => rfl
  | some g =>
    obtain ⟨f, hf, -⟩ := (purge_kept sel s).2 g hg
    rw [h] at hf
    cases hf

/-! ### Writing the holder -/

theorem wakeIfTouched_moves (m : BellMask) (s : State) : Moves [.plain] s (wakeIfTouched m s) :=
  .ite (fun _ => .one (.wake s)) fun _ => .refl s

/-- A holder is written over a record whose queue holds entries of the fading performance and of the new holder alone. -/
theorem writeHolder_moves {h : Holder} {s : State}
    (hsound : FloorSound s → ∀ f, s.floor.fading = some f → f.priority.level < h.priority.level ∧ f.perf ≠ h.perf)
    (htest : QueueBelongs s → NoTest s)
    (hold : ∀ x, s.floor.holder = some x → x.perf = h.perf ∨ NoneOf s x.perf) :
    Moves [.plain] s (writeHolder h s) := by
  refine .one (.writeFloor _ s fun hf hq => ⟨fun x f hx hfading => ?_, fun e he => ?_⟩)
  · cases hx
    exact hsound hf f hfading
  · obtain ⟨x, hx, howner⟩ | ⟨f, hfading, howner⟩ := (hq e he).perf (htest hq e he)
    · obtain heq | hnone := hold x hx
      · exact .of_holder rfl (howner.trans (by rw [heq]))
      · exact absurd howner (hnone e he)
    · exact .of_fading hfading howner

/-- The holder leaves a record whose queue holds none of its entries. -/
theorem dropHolder_moves {s : State} (h : ∀ x, s.floor.holder = some x → NoneOf s x.perf) :
    Moves [.plain] s { s with floor := { s.floor with holder := none } } := by
  refine .one (.writeFloor _ s fun _ hq => ⟨floorSound_of_no_holder rfl, fun e he => ?_⟩)
  by_cases htest : e.owner = .test
  · exact .of_test rfl htest
  · obtain ⟨x, hx, howner⟩ | ⟨f, hfading, howner⟩ := (hq e he).perf htest
    · exact absurd howner (h x hx e he)
    · exact .of_fading hfading howner

theorem refresh_moves (start : Nat) (stamp : LocalCount) (s : State) : Moves [.plain] s (refresh start stamp s) := by
  unfold refresh
  split
  · exact .refl s
  next x hx =>
    refine writeHolder_moves (fun hf f hfading => hf x f hx hfading) (fun hq => hq.noTest hx) fun y hy => .inl ?_
    rw [hx] at hy
    cases hy
    rfl

theorem takeVacant_moves {h : Holder} {s : State} (hvacant : s.floor.holder = none) :
    Moves [.plain] s (takeVacant h s) := by
  have hnone : (purgeTest (purgeFading s)).floor.holder = none :=
    (purge_holder _ _).trans ((purgeFading_holder s).trans hvacant)
  have hwrite : Moves [.plain] (purgeTest (purgeFading s)) (writeHolder h (purgeTest (purgeFading s))) := by
    refine writeHolder_moves (fun _ f hf => ?_) (fun _ => purgeTest_noTest _) fun x hx => ?_
    · rw [purgeTest, purge_fading_none _ (purgeFading_fading s)] at hf
      cases hf
    · rw [hnone] at hx
      cases hx
  exact (((purgeFading_moves s).andThen (purge_moves _ _)).andThen hwrite).andThen (wakeIfTouched_moves _ _)

/-- A record after a change of floor: the old holder has become the fading performance. -/
theorem fadeOld_moves {old : Holder} {s : State} (holder : Option Holder) (f : FadingPart)
    (hold : s.floor.holder = some old) (hfading : s.floor.fading = none) (hperf : f.perf = old.perf)
    (hnew : ∀ h, holder = some h → f.priority.level < h.priority.level ∧ f.perf ≠ h.perf) :
    Moves [.plain] s (checkFading { s with floor := { holder := holder, fading := some f } }) := by
  refine (Moves.one (.writeFloor { holder := holder, fading := some f } s fun _ hq => ⟨fun h g hh hg => ?_,
    fun e he => ?_⟩)).andThen (checkFading_moves _)
  · cases hg
    exact hnew h hh
  · obtain ⟨x, hx, howner⟩ | ⟨g, hg, -⟩ := (hq e he).perf (hq.noTest hold e he)
    · rw [hold] at hx
      cases hx
      exact .of_fading rfl (by rw [howner, hperf])
    · rw [hfading] at hg
      cases hg

theorem preempt_moves {old new : Holder} {s : State} (hheld : s.floor.holder = some old) (hperf : old.perf ≠ new.perf)
    (hpriority : old.priority.level < new.priority.level) : Moves [.plain] s (preempt old new s) := by
  have hpurged := (purgeFading_moves s).andThen
    (purge_moves (fromCutoff old.perf (minus new.start Config.gateLead)) (purgeFading s))
  have hfade := fadeOld_moves (s := purge (fromCutoff old.perf (minus new.start Config.gateLead)) (purgeFading s))
    (some new) (fadingFrom old 1 (some (minus new.start Config.gateLead)))
    ((purge_holder _ _).trans ((purgeFading_holder s).trans hheld)) (purge_fading_none _ (purgeFading_fading s)) rfl
    fun h hh => by cases hh; exact ⟨hpriority, hperf⟩
  exact ((hpurged.andThen hfade).andThen (wakeIfTouched_moves _ _)).move (.raise .floorPreemptions _)

theorem vacate_moves {x : Holder} {s : State} (hheld : s.floor.holder = some x) : Moves [.plain] s (vacate x s) := by
  unfold vacate
  split
  next hf => exact fadeOld_moves none (fadingFrom x 0 none) hheld hf rfl fun h hh => by cases hh
  next f _ =>
    refine (purge_moves _ s).andThen (dropHolder_moves fun y hy => ?_)
    rw [purge_holder, hheld] at hy
    cases hy
    exact purgePerf_noneOf x.perf s

/-! ### Events of the floor -/

theorem judge_preemption {s : State} {x h : Holder} (hheld : s.floor.holder = some x) (hj : judge s h = .preemption) :
    x.perf ≠ h.perf ∧ x.priority.level < h.priority.level := by
  unfold judge at hj
  rw [hheld] at hj
  simp only at hj
  split at hj
  · cases hj
  next hperf =>
    split at hj
    · cases hj
    · split at hj
      next hlt => exact ⟨hperf, hlt⟩
      · cases hj

theorem judge_acceptance {s : State} {h : Holder} (hj : judge s h = .acceptance) : s.floor.holder = none := by
  unfold judge at hj
  split at hj
  · assumption
  · split at hj
    · cases hj
    · split at hj
      · cases hj
      · split at hj <;> cases hj

theorem applyClaim_moves (h : Holder) (s : State) : Moves [.plain] s (applyClaim h s) := by
  unfold applyClaim
  split
  next hj => exact (takeVacant_moves (judge_acceptance hj)).andThen (giveNotices_moves _ _)
  · exact (refresh_moves _ _ s).andThen (giveNotices_moves _ _)
  · exact giveNotices_moves _ s
  · exact giveNotices_moves _ s
  next hj =>
    split
    · exact .refl s
    next x hx =>
      obtain ⟨hperf, hlt⟩ := judge_preemption hx hj
      exact (preempt_moves hx hperf hlt).andThen (giveNotices_moves _ _)

theorem applyRelease_moves (p : PerfId) (s : State) : Moves [.plain] s (applyRelease p s) := by
  unfold applyRelease
  split
  · exact .refl s
  next x hx => exact .ite (fun _ => (vacate_moves hx).andThen (giveNotices_moves _ _)) fun _ => .refl s

theorem applyLapse_moves (s : State) : Moves [.plain] s (applyLapse s) := by
  unfold applyLapse
  split
  · exact .refl s
  next x hx => exact ((vacate_moves hx).move (.raise .floorLapses _)).andThen (giveNotices_moves _ _)

theorem purgeIfFading_moves (p : PerfId) (s : State) : Moves [.plain] s (purgeIfFading p s) := by
  unfold purgeIfFading
  split
  · exact .refl s
  · exact .ite (fun _ => purgeFading_moves s) fun _ => .refl s

theorem purgeIfFading_holder (p : PerfId) (s : State) : (purgeIfFading p s).floor.holder = s.floor.holder := by
  unfold purgeIfFading
  split
  · rfl
  · split
    · exact purgeFading_holder s
    · rfl

theorem purgeIfFading_fading {p : PerfId} {s : State} {f : FadingPart}
    (h : (purgeIfFading p s).floor.fading = some f) : f.perf ≠ p := by
  unfold purgeIfFading at h
  split at h
  next hf => rw [hf] at h; cases h
  next g hg =>
    split at h
    · rw [purgeFading_fading] at h; cases h
    next hne =>
      rw [hg] at h
      cases h
      exact hne

theorem beaconWins_level {b x : Holder} (h : beaconWins b x = true) : x.priority.level ≤ b.priority.level := by
  unfold beaconWins at h
  split at h
  · exact Nat.le_of_lt (of_decide_eq_true h)
  next heq => exact Nat.le_of_eq (not_not.mp heq).symm

theorem replaceHolder_moves {x b : Holder} {s : State} (hheld : s.floor.holder = some x)
    (hwins : beaconWins b x = true) : Moves [.plain] s (replaceHolder x b s) := by
  have hholder : (purgePerf x.perf (purgeIfFading b.perf s)).floor.holder = some x :=
    (purge_holder _ _).trans ((purgeIfFading_holder _ s).trans hheld)
  have hwrite : Moves [.plain] (purgePerf x.perf (purgeIfFading b.perf s))
      (writeHolder b (purgePerf x.perf (purgeIfFading b.perf s))) := by
    refine writeHolder_moves (fun hsound f hf => ?_) (fun hq => hq.noTest hholder) fun y hy => ?_
    · obtain ⟨g, hg, hperf, -⟩ := (purge_kept _ _).2 f hf
      exact ⟨Nat.lt_of_lt_of_le (hsound x f hholder hf).1 (beaconWins_level hwins),
        hperf ▸ purgeIfFading_fading hg⟩
    · rw [hholder] at hy
      cases hy
      exact .inr (purgePerf_noneOf x.perf _)
  exact ((((purgeIfFading_moves _ s).andThen (purge_moves _ _)).andThen hwrite).andThen (wakeIfTouched_moves _ _)).move
    (.raise .floorContests _)

theorem applyFloor_moves (b : Holder) (s : State) : Moves [.plain] s (applyFloor b s) := by
  unfold applyFloor
  split
  next hnone => exact (takeVacant_moves hnone).andThen (giveNotices_moves _ _)
  next x hx =>
    exact .ite (fun _ => refresh_moves _ _ s) fun _ =>
      .ite (fun hwins => (replaceHolder_moves hx hwins).andThen (giveNotices_moves _ _)) fun _ => giveNotices_moves _ s

theorem isHolder_iff {s : State} {p : PerfId} : isHolder s p = true ↔ ∃ x, s.floor.holder = some x ∧ x.perf = p := by
  unfold isHolder
  split <;> simp_all

theorem stopPerf_moves (p : PerfId) (s : State) : Moves [.plain] s (stopPerf p s) := by
  refine .ite (fun h => ?_) fun _ => .ite (fun _ => purgeFading_moves s) fun _ => .refl s
  obtain ⟨x, hx, hp⟩ := isHolder_iff.mp h
  refine (purge_moves _ s).andThen (dropHolder_moves fun y hy => ?_)
  rw [purge_holder, hx] at hy
  cases hy
  rw [hp]
  exact purgePerf_noneOf p s

theorem applyStopPerf_moves (p : PerfId) (s : State) : Moves [.plain] s (applyStopPerf p s) :=
  (stopPerf_moves p s).andThen (giveNotices_moves _ _)

theorem purgeHolder_moves (s : State) : Moves [.plain] s (purgeHolder s) := by
  unfold purgeHolder
  split
  · exact .refl s
  · exact purge_moves _ s

theorem purgeHolder_holder (s : State) : (purgeHolder s).floor.holder = s.floor.holder := by
  unfold purgeHolder
  split
  · rfl
  · exact purge_holder _ s

theorem purgeHolder_noneOf {s : State} {x : Holder} (h : s.floor.holder = some x) : NoneOf (purgeHolder s) x.perf := by
  unfold purgeHolder
  rw [h]
  exact purgePerf_noneOf x.perf s

theorem stopFloorRecord_moves (s : State) : Moves [.plain] s (stopFloorRecord s) := by
  refine (((purgeHolder_moves s).andThen (purgeFading_moves _)).andThen (purge_moves _ _)).andThen
    (dropHolder_moves fun x hx => ?_)
  rw [purge_holder, purgeFading_holder, purgeHolder_holder] at hx
  exact (purgeFading_noneOf (purgeHolder_noneOf hx)).purge _

theorem applyStopFloor_moves (s : State) : Moves [.plain] s (applyStopFloor s) :=
  (stopFloorRecord_moves s).andThen (giveNotices_moves _ _)

end Sys2Proof.Machine
end

