-- ==== Sys2Proof/Proofs/ClockMoves.lean ====
section
/-! The operations of the Tower Timebase and of the Peer Table as chains of moves. -/

namespace Sys2Proof.Machine

-- One proof after another: many at once would ask for more threads than the memory limit allows.
set_option Elab.async false

theorem stepDamper_moves (k : Fin 8) (s : State) : Moves [.plain] s (stepDamper k s) :=
  (Moves.one (.dropDamper k s)).move (.tryLift k _)

/-- The Tower Timebase as a step leaves it before TIME_STEP starts (R67). -/
def steppedClock (new : Nat) (x : Timebase) : Timebase :=
  { x with tower := new % Config.week, slew := 0, close := 0, beaconBase := none, markBase := none }

theorem steppedClock_bounds {new : Nat} {x : Timebase} (h : ClockBounds x) : ClockBounds (steppedClock new x) := by
  obtain ⟨-, htrim, -, -⟩ := h
  exact ⟨Nat.mod_lt _ (by decide), htrim, ⟨by simp [steppedClock], by simp [steppedClock]⟩, Nat.zero_le 3⟩

theorem stepTime_moves (new : Nat) (s : State) : Moves [.plain, .tower] s (stepTime new s) := by
  have hclock : Moves [.plain, .tower] s { s with time := steppedClock new s.time } :=
    .single (.writeTower _ s ⟨rfl, rfl, rfl⟩ rfl steppedClock_bounds)
  have hcalendar := ((hclock.move (.startTimeStep _)).andThen (stepQueue_moves _)).andThen
    (stepCalendar_moves s.time.tower (decide (s.time.validity = .set)) _)
  have hdampers := hcalendar.andThen
    (Moves.foldl (ks := [.plain]) (f := fun t k => stepDamper k t) allChannels _ fun t k _ => stepDamper_moves k t)
  exact hdampers.andThen
    (Moves.foldl (ks := [.plain]) (f := fun t k => gateIfDue k t) allSlots _ fun t k _ => gateIfDue_moves k t)

theorem adoptChoice_moves (choice : Fin 16) (s : State) : Moves [.plain] s (adoptChoice choice s) :=
  (Moves.one (.writeTime { s.time with reference := some choice, close := 0, beaconBase := none } s ⟨rfl, rfl, rfl⟩ rfl rfl
    fun ⟨htower, htrim, hslew, _⟩ => ⟨htower, htrim, hslew, Nat.zero_le 3⟩)).move (.setLock _ _)

theorem rechoose_moves (s : State) : Moves [.plain] s (rechoose s) :=
  .ite (fun _ => .refl s) fun _ => adoptChoice_moves _ s

theorem setClose_moves {n : Nat} (s : State) (hn : n ≤ 3) : Moves [.plain] s (setClose n s) :=
  .one (.writeTime { s.time with close := n } s ⟨rfl, rfl, rfl⟩ rfl rfl
    fun ⟨htower, htrim, hslew, _⟩ => ⟨htower, htrim, hslew, hn⟩)

theorem setSlew_moves {e : Int} (s : State) (he : e.natAbs ≤ 400) : Moves [.plain] s (setSlew e s) :=
  .one (.writeTime { s.time with slew := e } s ⟨rfl, rfl, rfl⟩ rfl rfl
    fun ⟨htower, htrim, _, hclose⟩ => ⟨htower, htrim, by dsimp only; omega, hclose⟩)

theorem trimTarget_bounds (ref : Int) (ticks : Nat) : -8 ≤ trimTarget ref ticks ∧ trimTarget ref ticks ≤ 8 := by
  unfold trimTarget
  dsimp only
  omega

theorem measureTrim_moves (ref : Int) (ticks : Nat) (s : State) : Moves [.plain] s (measureTrim ref ticks s) :=
  .ite (fun _ => .one (.writeTime { s.time with trim := trimTarget ref ticks } s ⟨rfl, rfl, rfl⟩ rfl rfl
    fun ⟨htower, _, hslew, hclose⟩ => ⟨htower, trimTarget_bounds ref ticks, hslew, hclose⟩)) fun _ => .refl s

/-- A new beacon baseline. -/
theorem setBeaconBase_moves (x : Option BeaconBase) (s : State) :
    Moves [.plain] s { s with time := { s.time with beaconBase := x } } :=
  .one (.writeTime { s.time with beaconBase := x } s ⟨rfl, rfl, rfl⟩ rfl rfl fun h => h)

theorem trimFromBeacon_moves (time : Nat) (count : LocalCount) (s : State) :
    Moves [.plain] s (trimFromBeacon time count s) := by
  unfold trimFromBeacon
  dsimp only
  split
  · exact (measureTrim_moves _ _ s).andThen (setBeaconBase_moves _ _)
  · exact setBeaconBase_moves _ s

theorem countTowardLock_moves (e : Int) (s : State) : Moves [.plain] s (countTowardLock e s) := by
  have hthree : min 3 (s.time.close + 1) ≤ 3 := Nat.min_le_left _ _
  exact .ite (fun _ => (setClose_moves s (Nat.zero_le 3)).move (.setLock .acquiring _)) fun _ =>
    .ite (fun _ => setClose_moves s (Nat.zero_le 3)) fun _ =>
      .ite (fun _ => (setClose_moves s hthree).move (.setLock .locked _)) fun _ => setClose_moves s hthree

theorem stepToBeacon_moves (time : Nat) (count : LocalCount) (s : State) :
    Moves [.plain, .tower] s (stepToBeacon time count s) :=
  ((stepTime_moves _ s).move (.setLock .acquiring _)).andThen (setBeaconBase_moves _ _)

theorem correctionFor_slew {own beacon : Validity} {e : Int} (h : correctionFor own beacon e = .slew) :
    e.natAbs ≤ 400 := by
  unfold correctionFor at h
  split at h
  · cases h
  all_goals
    split at h
    · cases h
    · omega

theorem measureBeacon_moves (b : NodeBeacon) (stamp : Stamp) (s : State) :
    Moves [.plain, .tower, .validity] s (measureBeacon b stamp s) := by
  unfold measureBeacon
  dsimp only
  split
  · exact (((stepToBeacon_moves _ _ s).widen).move (.setValid _)).andThen (rechoose_moves _)
  · exact (stepToBeacon_moves _ _ s).widen
  · exact ((((setClose_moves s (Nat.zero_le 3)).move (.setLock .acquiring _)).andThen
      (trimFromBeacon_moves _ _ _))).widen
  next hslew =>
    exact (((setSlew_moves s (correctionFor_slew hslew)).andThen (countTowardLock_moves _ _)).andThen
      (trimFromBeacon_moves _ _ _)).widen

theorem takeWeek_moves (b : NodeBeacon) (stamp : Stamp) (s : State) :
    Moves [.plain, .tower, .validity] s (takeWeek b stamp s) :=
  ((stepTime_moves _ s).widen.move (.setValid _)).andThen (rechoose_moves _)

theorem measurePeer_moves (sender : Fin 16) (stamp : Stamp) (body : Beacon) (s : State) :
    Moves [.plain, .tower, .validity] s (measurePeer sender stamp body s) := by
  unfold measurePeer
  split
  · exact .refl s
  · exact .ite (fun _ => measureBeacon_moves _ stamp s) fun _ =>
      .ite (fun _ => takeWeek_moves _ stamp s) fun _ => .refl s

theorem takePresence_moves (sender : Fin 16) (stamp : Stamp) (body : Beacon) (s : State) :
    Moves [.plain, .peers, .tower, .validity] s (takePresence sender stamp body s) := by
  have hpeer : Moves [.plain, .peers, .tower, .validity] s
      (setPeer sender (.live { lastHeard := stamp.count, body := body }) s) := .single (.setPeer _ _ s)
  have hconflicts := Moves.ite (c := sender < s.straps.station) (fun _ => hpeer.move (.evalConflicts _)) fun _ => hpeer
  exact (hconflicts.andThen (rechoose_moves _)).andThen (measurePeer_moves _ _ _ _)

theorem peerChanged_moves (s : State) : Moves [.plain, .peers] s (peerChanged s) :=
  (Moves.single (ks := [.plain, .peers]) (.evalConflicts s)).andThen (rechoose_moves _)

theorem enterSourced_moves (s : State) : Moves [.plain] s (enterSourced s) :=
  .ite (fun _ => .refl s) fun _ => (Moves.one (.setLock .sourced s)).andThen (rechoose_moves _)

theorem setMarkBase_moves (count : LocalCount) (s : State) : Moves [.plain] s (setMarkBase count s) :=
  .one (.writeTime { s.time with markBase := some count } s ⟨rfl, rfl, rfl⟩ rfl rfl fun h => h)

theorem trimFromMark_moves (count : LocalCount) (s : State) : Moves [.plain] s (trimFromMark count s) := by
  unfold trimFromMark
  split
  · exact measureTrim_moves _ _ s
  · exact .refl s

theorem correctMark_moves (stamp : Stamp) (s : State) : Moves [.plain, .tower] s (correctMark stamp s) :=
  .ite (fun h => (((setSlew_moves s h).andThen (trimFromMark_moves _ _)).andThen (setMarkBase_moves _ _)).widen)
    fun _ => (stepTime_moves _ s).andThen (setMarkBase_moves _ _)

theorem takeMark_moves (stamp : Stamp) (s : State) : Moves [.plain, .tower] s (takeMark stamp s) := by
  have hmark : Moves [.plain] s { s with time := { s.time with lastMark := some stamp } } :=
    .one (.writeTime { s.time with lastMark := some stamp } s ⟨rfl, rfl, rfl⟩ rfl rfl fun h => h)
  exact .ite (fun _ => .refl s) fun _ => .ite (fun _ => .refl s) fun _ =>
    (hmark.andThen (enterSourced_moves _)).widen.andThen (correctMark_moves stamp _)

theorem leaveSourced_moves (s : State) : Moves [.plain] s (leaveSourced s) :=
  (Moves.one (.setLock _ s)).andThen (rechoose_moves _)

theorem takeSetTime_moves (time : Nat) (count : LocalCount) (s : State) :
    Moves [.plain, .tower, .validity] s (takeSetTime time count s) := by
  have hset : ∀ y, Moves [.plain, .tower, .validity] s (setValid (stepTime y s)) := fun y =>
    (stepTime_moves y s).widen.move (.setValid _)
  have hchoose : ∀ (was : Validity) (t : State), Moves [.plain] t (rechooseIfSet was t) := fun was t =>
    .ite (fun _ => rechoose_moves t) fun _ => .refl t
  unfold takeSetTime
  dsimp only
  refine Moves.andThen (ls := [.plain]) ?_ (hchoose _ _)
  exact .ite (fun _ => (hset _).move (.setLock .acquiring _)) fun _ => hset _

end Sys2Proof.Machine
end

