-- ==== Sys2Proof/Proofs/ExecMoves.lean ====
section
/-! Every command is a chain of moves, of the kinds that its table of writers names. -/

namespace Sys2Proof.Machine

-- One proof after another: many at once would ask for more threads than the memory limit allows.
set_option Elab.async false

/-- The kinds of the moves that a command is made of. -/
def kindsOf : Instr → List Kind
  | .powerOn _ _ => [.powerOn]
  | .localTick _ => [.tick]
  | .txCompleted _ => [.plain, .enqueue]
  | .presence _ _ => [.plain, .peers, .tower, .validity]
  | .peerLapse _ => [.plain, .peers]
  | .peerAbsence _ => [.plain, .peers]
  | .order _ _ _ _ => [.plain, .enqueue]
  | .minuteMark _ => [.plain, .tower]
  | .setTime _ _ => [.plain, .tower, .validity]
  | .channelSet _ _ => [.plain, .halted]
  | .channelMerge _ _ => [.plain, .halted]
  | .channelClear _ _ => [.plain, .halted]
  | .channelPulse _ _ _ => [.plain, .enqueue]
  | .voiceSetPulseLow _ _ _ => [.plain, .voicing]
  | .voiceSetPulseHigh _ _ _ => [.plain, .voicing]
  | .voiceSetTiming _ _ _ => [.plain, .voicing]
  | .quietSet _ _ _ => [.plain, .windows]
  | .nodeSet _ _ => [.plain, .settings]
  | .maskSet _ _ => [.plain, .mask]
  | .loadBegin _ _ _ => [.plain, .parts]
  | .loadData _ _ _ _ => [.plain, .parts]
  | .loadEnd _ _ _ => [.plain, .parts]
  | .delete _ _ => [.plain, .parts]
  | .overlay _ _ => [.plain, .overlay]
  | .store _ => [.plain, .store]
  | .storeComplete => [.plain, .store]
  | .storeFailure => [.plain, .store]
  | .restart _ => [.plain, .restart]
  | _ => [.plain]

section
variable {ks : List Kind} {s t : State} {f : State → State}

theorem act_moves (ks : List Kind) (ha : act f s = .next t) (h : Moves ks s (f s)) : Moves ks s t := by
  unfold act at ha
  injection ha with ha
  subst ha
  exact .ite (fun _ => h) fun _ => .refl s

theorem onTarget_moves (h : Service) (hf : ∀ t, Moves ks t (f t)) (hk : .plain ∈ ks := by decide) :
    Moves ks s (onTarget h f s) := by
  have hack : Moves ks s (acknowledge s) := (acknowledge_moves s).widen (by simpa using hk)
  exact .ite (fun _ => hack.andThen (hf _) fun _ hx => hx) fun _ => hack

theorem unlessStoring_moves (h : Service) (n : Nat) (hf : Moves ks s (f s)) (hk : .plain ∈ ks := by decide) :
    Moves ks s (unlessStoring h n f s) :=
  .ite (fun _ => (reply_moves h n .busy .none s).widen (by simpa using hk)) fun _ => hf

end

/-- A part of the replies' own moves. -/
theorem Moves.reply {ks : List Kind} {s t : State} (hm : Moves ks s t) (h : Service) (n : Nat) (r : Result)
    (b : ReplyBody) (hk : .plain ∈ ks := by decide) : Moves ks s (Machine.reply h n r b t) :=
  hm.andThen (reply_moves h n r b t) (by simpa using hk)

/-! ### Events -/

theorem losePower_moves (s : State) : Moves [.plain] s (losePower s) := .one (.losePower s)

theorem buildPresence_moves (s : State) : Moves [.plain] s (buildPresence s) := .one (.handBeacon _ s)

theorem endListen_moves (s : State) : Moves [.plain] s (endListen s) :=
  ((((Moves.one (.endListening s)).move (.writeLine { s.line with beaconTimer := 0 } _ ⟨rfl, rfl, rfl, rfl, rfl, rfl⟩))).andThen
    (adoptChoice_moves _ _)).andThen (buildPresence_moves _)

theorem deliverOwn_moves (x : Sending) (s : State) : Moves [.plain, .enqueue] s (deliverOwn x s) := by
  unfold deliverOwn
  split
  · exact (applyClaim_moves _ s).widen
  · exact (applyFloor_moves _ s).widen
  · exact (applyRelease_moves _ s).widen
  · exact takeOrders_moves _ _ _ s
  · exact .refl s
  · exact .refl s

theorem completeFrame_moves (acked : Bool) (s : State) : Moves [.plain, .enqueue] s (completeFrame acked s) := by
  unfold completeFrame
  split
  · exact .refl s
  next x _ =>
    have hcount : Moves [.plain, .enqueue] s { s with line := { s.line with txErrors := 0 } } :=
      .single (.writeLine { s.line with txErrors := 0 } s ⟨rfl, rfl, rfl, rfl, rfl, rfl⟩)
    have hack := Moves.ite (c := acked = true) (fun _ => hcount) fun _ => hcount.move (.raise .noAck _)
    exact (hack.andThen (endSending_moves x.tx.origin _)).andThen (deliverOwn_moves x _)

theorem hearUnknown_moves (ident : BitVec 11) (payload : Payload) (s : State) :
    Moves [.plain] s (hearUnknown ident payload s) :=
  .ite (fun _ => .ite (fun _ => acknowledge_moves s) fun _ => .refl s) fun _ =>
    (acknowledge_moves s).move (.raise .rxUnknown _)

theorem buildDuePresence_moves (s : State) : Moves [.plain] s (buildDuePresence s) :=
  (Moves.one (.writeLine { s.line with beaconTimer := s.line.beaconTimer - Config.presenceTicks } s
    ⟨rfl, rfl, rfl, rfl, rfl, rfl⟩)).andThen (buildPresence_moves _)

theorem hearPresence_moves (rx : Heard) (body : Beacon) (s : State) :
    Moves [.plain, .peers, .tower, .validity] s (hearPresence rx body s) := by
  have hack : Moves [.plain, .peers, .tower, .validity] s (acknowledge s) := (acknowledge_moves s).widen
  exact .ite (fun _ => hack.move (.heardClash _)) fun _ => hack.andThen (takePresence_moves _ _ _ _)

theorem lapsePeer_moves (p : Fin 16) (s : State) : Moves [.plain, .peers] s (lapsePeer p s) := by
  unfold lapsePeer
  split
  · exact .refl s
  next i _ => exact (Moves.single (ks := [.plain, .peers]) (.setPeer p (.lapsed i) s)).andThen (peerChanged_moves _)

theorem hearOrder_moves (rx : Heard) (seq : BitVec 8) (base : BitVec 32) (items : List OrderItem) (s : State) :
    Moves [.plain, .enqueue] s (hearOrder rx seq base items s) :=
  .ite (fun _ => (acknowledge_moves s).widen.andThen (takeOrders_moves _ _ _ _)) fun _ =>
    ((acknowledge_moves s).move (.raise .rxUnknown _)).widen

theorem launchFirst_moves (s : State) : Moves [.plain] s (launchFirst s) := by
  unfold launchFirst
  split
  · exact .refl s
  · exact .one (.launch _ s)

theorem hammerRests_moves (k : Fin 8) (s : State) : Moves [.plain] s (hammerRests k s) :=
  ((Moves.one (.stroke k (fun c => { c with hammer := .rest }) s fun _ => ⟨rfl, rfl, rfl, rfl⟩)).move
    (.idleDrop k _)).move (.drainCheck _)

theorem endFlight_moves (k : Fin 8) (s : State) : Moves [.plain] s (endFlight k s) := by
  unfold endFlight
  split
  · exact .refl s
  · exact .refl s
  next since flight back _ =>
    exact .ite (fun _ => .ite (fun _ => hammerRests_moves k s) fun _ =>
      .one (.stroke k (fun c => { c with hammer := .returning since back }) s fun _ => ⟨rfl, rfl, rfl, rfl⟩)) fun _ =>
        .refl s

theorem execDrop_moves (k : Fin 8) (s : State) : Moves [.plain] s (Machine.drainCheck (idleDrop k (dropDamper k s))) :=
  ((Moves.one (.dropDamper k s)).move (.idleDrop k _)).move (.drainCheck _)

theorem pressContact_moves (c : Fin 2) (s : State) : Moves [.plain] s (pressContact c s) :=
  .ite (fun _ => .refl s) fun _ => (Moves.one (.setContact c true s)).andThen (takePress_moves c _)

/-! ### Performance slots -/

theorem handClaim_moves (k : Fin 4) (s : State) : Moves [.plain] s (handClaim k s) := by
  unfold handClaim
  split
  · exact .refl s
  next p _ =>
    have hhand : Moves [.plain] s (handFrame (claimFrame k p) s).1 := hand_moves s trivial rfl
    exact .ite (fun _ => .ite (fun _ => hhand.move (.updPerf k claimTaken _ fun _ => rfl)) fun _ => hhand) fun _ =>
      .refl s

theorem endWait_moves (k : Fin 4) (s : State) : Moves [.plain] s (endWait k s) := by
  unfold endWait
  split
  · exact .refl s
  next p hp => exact .ite (fun _ => endPerf_moves .abandoned (perf?_eq_some.mp hp)) fun _ => .refl s

theorem buildIfDue_moves (k : Fin 4) (s : State) : Moves [.plain] s (buildIfDue k s) := by
  unfold buildIfDue
  split
  · exact .refl s
  · exact .ite (fun _ => build_moves k s) fun _ => .refl s

theorem handFloorBeacon_moves (k : Fin 4) (s : State) : Moves [.plain] s (handFloorBeacon k s) := by
  unfold handFloorBeacon
  split
  · exact .refl s
  next p _ =>
    have htimer : Moves [.plain] s (updPerf k (fun q => { q with beaconTimer := 0 }) s) :=
      .one (.updPerf k _ s (by intro; rfl))
    exact .ite (fun _ => htimer.andThen (hand_moves (x := floorFrame k p) _ trivial rfl)) fun _ => .refl s

theorem endIfRungOut_moves (k : Fin 4) (s : State) : Moves [.plain] s (endIfRungOut k s) := by
  unfold endIfRungOut
  split
  · exact .refl s
  · exact .ite (fun _ => finishPerf_moves k _ s) fun _ => .refl s

/-! ### Service commands -/

theorem serveSetTime_moves (h : Service) (time : BitVec 32) (s : State) :
    Moves [.plain, .tower, .validity] s (serveSetTime h time s) := by
  have hack : Moves [.plain, .tower, .validity] s (acknowledge s) := (acknowledge_moves s).widen
  exact .ite (fun _ => hack.reply h _ _ _) fun _ => (hack.andThen (takeSetTime_moves _ _ _)).reply h _ _ _

theorem serveCue_moves (h : Service) (slot priority : BitVec 8) (start : BitVec 32) (s : State) :
    Moves [.plain] s (serveCue h slot priority start s) := by
  have hcue := takeCue_moves (Fin.ofNat 32 slot.toNat) (cuePriority priority.toNat) (cueStart s start.toNat) s
  refine .ite (fun _ => reply_moves h _ _ _ s) fun _ => ?_
  dsimp only
  split <;> exact hcue.reply h _ _ _

theorem serveResume_moves (h : Service) (s : State) : Moves [.plain] s (serveResume h s) := by
  refine .ite (fun _ => reply_moves h _ _ _ s) fun hclear => Moves.reply (.ite (fun _ => ?_) fun _ => .refl s) h _ _ _
  exact .one (.goVoiced s (.inl (not_not.mp hclear)))

theorem serveWake_moves (h : Service) (s : State) : Moves [.plain] s (serveWake h s) :=
  .ite (fun _ => reply_moves h _ _ _ s) fun _ => (Moves.one (.wake s)).reply h _ _ _

theorem writeHalted_moves (h : Service) (mask m : ChannelMask) (s : State)
    (hm : ∀ k : Fin 8, m.getLsbD k.val = true → s.halted.getLsbD k.val = true ∨ isPresent s k = true) :
    Moves [.plain, .halted] s (writeHalted h mask m s) :=
  (Moves.single (ks := [.plain, .halted]) (.setHalted m s hm)).reply h _ _ _

theorem presentMask_getLsbD (s : State) (k : Fin 8) : (presentMask s).getLsbD k.val = isPresent s k := by
  rw [presentMask, BitVec.getLsbD_ofNat, Nat.testBit_two_pow_sub_one, isPresent]
  simp

theorem presentOf_getLsbD (s : State) (mask : ChannelMask) (k : Fin 8) :
    (presentOf s mask).getLsbD k.val = (mask.getLsbD k.val && isPresent s k) := by
  rw [presentOf, BitVec.getLsbD_and, presentMask_getLsbD]

theorem pulseOne_moves {now velocity : Nat} {x : Fin 8 × Nat} {acc : State × ChannelMask}
    (hpresent : isPresent acc.1 x.1 = true) (hv : 1 ≤ velocity ∧ velocity ≤ 15) (hvacant : acc.1.floor.holder = none) :
    Moves [.plain, .enqueue] acc.1 (pulseOne now velocity acc x).1 :=
  admitRequest_moves hpresent hv (fun _ he => .of_test hvacant he) fun h => by cases h

/-- An admission leaves the straps and the holder as they are. -/
theorem pulseOne_kept (now velocity : Nat) (acc : State × ChannelMask) (x : Fin 8 × Nat)
    (hvacant : acc.1.floor.holder = none) : (pulseOne now velocity acc x).1.straps = acc.1.straps ∧
      (pulseOne now velocity acc x).1.floor.holder = none := by
  refine ⟨admitRequest_unchanged x.1 .test 0 _ velocity _ .test now acc.1 .straps (by decide), ?_⟩
  unfold pulseOne admitRequest
  dsimp only
  split
  · exact hvacant
  · split
    · exact hvacant
    next s1 hroom =>
      have hs1 : s1.floor.holder = none := by
        obtain ⟨-, rfl⟩ | ⟨-, hst, -⟩ := makeRoom_cases hroom
        · exact hvacant
        · cases hst
      have hlift : ∀ e : Entry, (tryLift e.channel (wakeBank (Machine.enqueue (numbered e s1) s1))).floor = s1.floor :=
        fun e => (tryLift_unchanged _ _ .floor (by decide)).trans (wakeBank_unchanged _ .floor (by decide))
      have hbase : ∀ e : Entry, (tryLift e.channel (wakeBank (Machine.enqueue (numbered e s1) s1))).floor.holder = none :=
        fun e => by rw [hlift]; exact hs1
      unfold insertStrike
      dsimp only
      split
      · exact (launchEntry_kept _ _).1.trans (hbase _)
      · split
        · exact hbase _
        · exact hbase _

theorem isPresent_of_straps {s t : State} (h : t.straps = s.straps) (k : Fin 8) : isPresent t k = isPresent s k := by
  unfold isPresent presentCount bellBase
  rw [h]

theorem foldl_pulseOne_moves {now velocity : Nat} (hv : 1 ≤ velocity ∧ velocity ≤ 15) (xs : List (Fin 8 × Nat))
    (acc : State × ChannelMask) (hpresent : ∀ x ∈ xs, isPresent acc.1 x.1 = true)
    (hvacant : acc.1.floor.holder = none) :
    Moves [.plain, .enqueue] acc.1 (xs.foldl (pulseOne now velocity) acc).1 := by
  induction xs generalizing acc with
  | nil => exact .refl _
  | cons x xs ih =>
    obtain ⟨hstraps, hholder⟩ := pulseOne_kept now velocity acc x hvacant
    refine (pulseOne_moves (hpresent x List.mem_cons_self) hv hvacant).andThen (ih _ (fun y hy => ?_) hholder)
    rw [isPresent_of_straps hstraps]
    exact hpresent y (List.mem_cons_of_mem x hy)

theorem isPresent_of_run {s : State} {k : Fin 8} (h : channelState s k = .run) : isPresent s k = true := by
  by_contra hno
  rw [channelState_of_not_present (Bool.eq_false_iff.mpr hno)] at h
  cases h

theorem pulseChannels_present {s : State} {mask : ChannelMask} {k : Fin 8} (h : k ∈ pulseChannels s mask) :
    isPresent s k = true := by
  have hrun := (List.mem_filter.mp h).2
  simp only [Bool.and_eq_true, decide_eq_true_eq] at hrun
  exact isPresent_of_run hrun.2

theorem servePulse_moves (h : Service) (mask : ChannelMask) (velocity : BitVec 8) (s : State) :
    Moves [.plain, .enqueue] s (servePulse h mask velocity s) := by
  refine .ite (fun _ => (reply_moves h _ _ _ s).widen) fun hv => .ite (fun _ => (reply_moves h _ _ _ s).widen)
    fun hvacant => Moves.reply ?_ h _ _ _
  refine (Moves.single (.wake s)).andThen (foldl_pulseOne_moves (by omega) _ (wakeBank s, 0) (fun x hx => ?_) ?_)
  · exact pulseChannels_present (s := s) (List.fst_mem_of_mem_zipIdx hx)
  · rw [wakeBank_unchanged s .floor (by decide)]
    simpa using hvacant

/-! ### Settings commands -/

theorem voiceWrite_moves {ks : List Kind} (h : Service) (k : Fin 8) {f : State → State} {s : State}
    (hf : Moves ks s (f s)) (hk : .plain ∈ ks := by decide) : Moves ks s (voiceWrite h k f s) :=
  unlessStoring_moves h _ (.ite (fun _ => hf) fun _ => (reply_moves h _ _ _ s).widen (by simpa using hk)) hk

theorem clamp_bounds {lo hi : Nat} (h : lo ≤ hi) (x : Nat) : lo ≤ clamp lo hi x ∧ clamp lo hi x ≤ hi := by
  unfold clamp
  omega

theorem curveLow_inRange {old : Vector Nat 15} (widths : Vector (BitVec 8) 8)
    (h : ∀ i : Fin 15, 1 ≤ old[i] ∧ old[i] ≤ 250) (i : Fin 15) :
    1 ≤ (curveLow old widths)[i] ∧ (curveLow old widths)[i] ≤ 250 := by
  simp only [curveLow, Fin.getElem_fin, Vector.getElem_ofFn]
  split
  · exact clamp_bounds (by decide) _
  · exact h i

theorem curveHigh_inRange {old : Vector Nat 15} (widths : Vector (BitVec 8) 7)
    (h : ∀ i : Fin 15, 1 ≤ old[i] ∧ old[i] ≤ 250) (i : Fin 15) :
    1 ≤ (curveHigh old widths)[i] ∧ (curveHigh old widths)[i] ≤ 250 := by
  simp only [curveHigh, Fin.getElem_fin, Vector.getElem_ofFn]
  split
  · exact clamp_bounds (by decide) _
  · exact h i

/-- A voicing record with a new curve keeps its ranges when the curve does. -/
theorem setCurve_moves (k : Fin 8) {curve : Vector Nat 15} (s : State)
    (h : (∀ i : Fin 15, 1 ≤ s.channels[k].voicing.curve[i] ∧ s.channels[k].voicing.curve[i] ≤ 250) →
      ∀ i : Fin 15, 1 ≤ curve[i] ∧ curve[i] ≤ 250) :
    Moves [.plain, .voicing] s (setVoicing k { s.channels[k].voicing with curve := curve } s) :=
  .single (.setVoicing k { s.channels[k].voicing with curve := curve } s rfl fun ⟨hcurve, hrest⟩ => ⟨h hcurve, hrest⟩)

theorem writeSetting_moves (n v : Nat) (s : State) :
    Moves [.plain, .settings] s (writeSetting n (settingValue n v) s) := by
  by_cases hn : n = 14
  · subst hn
    exact setPreroll_moves s (clamp_bounds (by decide) v)
  · exact .single (.writeSetting n v s hn)

theorem writePairs_moves (pairs : List (BitVec 8 × BitVec 24)) (s : State) :
    Moves [.plain, .settings] s (writePairs pairs s) :=
  .foldl pairs s fun t _ _ => writeSetting_moves _ _ t

theorem fixedFlags_set (mask : BitVec 8) : hasCondition (mask ||| fixedFlags) .stationClash = true ∧
    hasCondition (mask ||| fixedFlags) .access = true := by
  constructor <;> (simp only [hasCondition, BitVec.getLsbD_or]; rw [Bool.or_eq_true]; exact .inr (by decide))

/-! ### Library commands -/

theorem resolvesValid_of_notHere {s : State} {t : Fin 32} (h : notHere s t = false) :
    resolveSlot s t = .part s.library.parts[t] := by
  unfold notHere at h
  unfold resolveSlot
  have hpart : (s.library.overlay || decide (8 ≤ t.val)) = true := by
    cases hoverlay : s.library.overlay <;> simp_all
  rw [if_pos hpart]

theorem beginLoad_moves (h : Service) (t : Fin 32) (x : TuneHeader) (s : State) :
    Moves [.plain, .parts] s (beginLoad h t x s) := by
  refine .ite (fun _ => (reply_moves h _ _ _ s).widen) fun _ => .ite (fun _ => (reply_moves h _ _ _ s).widen)
    fun hlock => .ite (fun _ => (reply_moves h _ _ _ s).widen) fun hroom => Moves.reply (.single (.setPart t _ s
      (.inr (Bool.eq_false_iff.mpr hlock)) ?_)) h _ _ _
  exact Nat.le_of_not_lt hroom

theorem loading_notValid {s : State} {t : Fin 32} {x : TuneHeader} {got : List TuneEvent} {loader : Fin 16}
    (hhere : notHere s t = false) (hpart : s.library.parts[t] = .loading x got loader) : resolvesValid s t = false := by
  simp only [resolvesValid, resolvesValid_of_notHere hhere, hpart]

theorem loadInto_moves (h : Service) (t : Fin 32) (index : Nat) (events : List LoadEvent) (s : State) :
    Moves [.plain, .parts] s (loadInto h t index events s) := by
  have hreply : ∀ n r b, Moves [.plain, .parts] s (reply h n r b s) := fun n r b => (reply_moves h n r b s).widen
  refine .ite (fun _ => hreply _ _ _) fun hhere => ?_
  split
  · exact hreply _ _ _
  · exact hreply _ _ _
  next x got loader hpart =>
    have hinvalid := loading_notValid (Bool.eq_false_iff.mpr hhere) hpart
    unfold takeEvents
    refine .ite (fun _ => hreply _ _ _) fun _ => .ite (fun _ => Moves.reply (.single (.setPart t .empty s
      (.inl hinvalid) (Nat.zero_le _))) h _ _ _) fun _ => ?_
    split
    · exact hreply _ _ _
    · refine .ite (fun _ => hreply _ _ _) fun _ => Moves.reply (.single (.setPart t _ s (.inl hinvalid) ?_)) h _ _ _
      rw [hpart]
      exact Nat.le_add_left _ _

theorem endLoad_moves (h : Service) (t : Fin 32) (checksum : BitVec 16) (s : State) :
    Moves [.plain, .parts] s (endLoad h t checksum s) := by
  have hreply : ∀ n r b, Moves [.plain, .parts] s (reply h n r b s) := fun n r b => (reply_moves h n r b s).widen
  refine .ite (fun _ => hreply _ _ _) fun hhere => ?_
  split
  · exact hreply _ _ _
  · exact hreply _ _ _
  next x got loader hpart =>
    have hinvalid := loading_notValid (Bool.eq_false_iff.mpr hhere) hpart
    refine .ite (fun _ => hreply _ _ _) fun _ => .ite (fun _ => Moves.reply (.single (.setPart t _ s (.inl hinvalid) ?_))
      h _ _ _) fun _ => Moves.reply (.single (.setPart t .empty s (.inl hinvalid) (Nat.zero_le _))) h _ _ _
    rw [hpart]
    exact Nat.le_add_left _ _

theorem deletePart_moves (h : Service) (t : Fin 32) (s : State) : Moves [.plain, .parts] s (deletePart h t s) :=
  .ite (fun _ => (reply_moves h _ _ _ s).widen) fun _ => .ite (fun _ => (reply_moves h _ _ _ s).widen) fun hlock =>
    Moves.reply (.single (.setPart t .empty s (.inr (Bool.eq_false_iff.mpr hlock)) (Nat.zero_le _))) h _ _ _

theorem serveOverlay_moves (h : Service) (on : Bool) (s : State) : Moves [.plain, .overlay] s (serveOverlay h on s) :=
  .ite (fun _ => (reply_moves h _ _ _ s).widen) fun hheld =>
    Moves.reply (.single (.setOverlay on s (Bool.eq_false_iff.mpr hheld))) h _ _ _

/-! ### Store, replies -/

theorem beginStore_moves (tag : BitVec 6) (s : State) : Moves [.plain, .store] s (beginStore tag s) :=
  .single (.setStore _ none s (fun _ hy => by cases hy) fun y tag' hy => by cases hy; rfl)

theorem storeReply_moves (tag : BitVec 6) (r : Result) (s : State) : Moves [.plain] s (storeReply tag r s) :=
  hand_moves s trivial rfl

theorem completeStore_moves (s : State) : Moves [.plain, .store] s (completeStore s) := by
  unfold completeStore
  split
  next x tag hstoring =>
    have hset : Moves [.plain, .store] s (setStore .valid (some x) s) :=
      .single (.setStore .valid (some x) s (fun y hy => by cases hy; simp only [storedNow, hstoring])
        fun _ _ hy => by cases hy)
    exact (hset.move (.raise .settingsWrites _)).andThen (storeReply_moves _ _ _)
  · exact .refl s
  · exact .refl s

theorem failStore_moves (s : State) : Moves [.plain, .store] s (failStore s) := by
  unfold failStore
  split
  · have hset : Moves [.plain, .store] s (setStore .lost none s) :=
      .single (.setStore .lost none s (fun _ hy => by cases hy) fun _ _ hy => by cases hy)
    exact hset.andThen (storeReply_moves _ _ _)
  · exact .refl s
  · exact .refl s

theorem unlessReplying_moves (h : Service) (n : Nat) {f : State → State} {s : State} (hf : Moves [.plain] s (f s)) :
    Moves [.plain] s (unlessReplying h n f s) :=
  .ite (fun _ => reply_moves h n .busy .none s) fun _ => hf

theorem startStatus_moves (tag : BitVec 6) (s : State) : Moves [.plain] s (startStatus tag s) :=
  ((Moves.one (.bumpFree s)).move (.setReply _ _)).andThen (handPart_moves _ _ _ _ _ _)

theorem startTrace_moves (tag : BitVec 6) (s : State) : Moves [.plain] s (startTrace tag s) :=
  (Moves.one (.setReply _ s)).andThen (handPart_moves _ _ _ _ _ _)

theorem sendPart_moves (s : State) : Moves [.plain] s (sendPart s) := by
  unfold sendPart
  split
  · exact .refl s
  · exact (Moves.one (.setReply _ s)).andThen (handPart_moves _ _ _ _ _ _)

/-! ### Every command -/

theorem exec_moves {i : Instr} {s t : State} (he : exec i s = .next t) : Moves (kindsOf i) s t := by
  cases i with
  | powerOn straps pins =>
    injection he with he
    subst he
    exact .single (.powerOn straps pins s) (List.mem_singleton.mpr rfl)
  | listenEnd => exact act_moves [.plain] he (.ite (fun _ => endListen_moves s) fun _ => .refl s)
  | localTick b => exact act_moves [.tick] he (.single (.localTick b s) (List.mem_singleton.mpr rfl))
  | frameOffer => exact act_moves [.plain] he (.one (.offerFrame s))
  | arbitrationLoss c => exact act_moves [.plain] he (.one (.loseArbitration c s))
  | txCompleted a => exact act_moves [.plain, .enqueue] he (completeFrame_moves a s)
  | txAbandoned => exact act_moves [.plain] he (abandonFrame_moves s)
  | lineFaultEnd => exact act_moves [.plain] he (.ite (fun _ => .one (.endFault s)) fun _ => .refl s)
  | receiveError => exact act_moves [.plain] he (.one (.receiveFailure s))
  | checkErrorsClear =>
    refine act_moves [.plain] he (.ite (fun h => ?_) fun _ => .refl s)
    simp only [errorsFew, Bool.and_eq_true, decide_eq_true_eq] at h
    exact .one (.clearErrors s h.2)
  | unknownFrame ident payload => exact act_moves [.plain] he (hearUnknown_moves ident payload s)
  | presenceBuild => exact act_moves [.plain] he (.ite (fun _ => buildDuePresence_moves s) fun _ => .refl s)
  | presence rx body => exact act_moves [.plain, .peers, .tower, .validity] he (hearPresence_moves rx body s)
  | stationClashEnd => exact act_moves [.plain] he (.ite (fun _ => .one (.endClash s)) fun _ => .refl s)
  | peerLapse p => exact act_moves [.plain, .peers] he (lapsePeer_moves p s)
  | peerAbsence p =>
    exact act_moves [.plain, .peers] he (.ite (fun _ => (Moves.single (ks := [.plain, .peers]) (.setPeer p .absent s)).andThen
      (peerChanged_moves _)) fun _ => .refl s)
  | order rx seq base items => exact act_moves [.plain, .enqueue] he (hearOrder_moves rx seq base items s)
  | launchEvent => exact act_moves [.plain] he (launchFirst_moves s)
  | pulseEnd k =>
    exact act_moves [.plain] he (.ite (fun _ => .one (.stroke k (fun c => { c with gate := none }) s fun _ => ⟨rfl, rfl, rfl, rfl⟩))
      fun _ => .refl s)
  | flightEnd k => exact act_moves [.plain] he (endFlight_moves k s)
  | returnEnd k => exact act_moves [.plain] he (.ite (fun _ => hammerRests_moves k s) fun _ => .refl s)
  | lift k => exact act_moves [.plain] he (.one (.tryLift k s))
  | drop k =>
    simp only [exec, execDrop] at he
    exact act_moves [.plain] he (.ite (fun _ => execDrop_moves k s) fun _ => .refl s)
  | drainStart => exact act_moves [.plain] he (.ite (fun hdue => .one (.startDrain s (Bool.and_elim_left hdue))) fun _ => .refl s)
  | accessActive =>
    simp only [exec, execAccessActive] at he
    exact act_moves [.plain] he (.ite (fun _ => .refl s) fun _ => .one (.openChamber s))
  | accessRelease => exact act_moves [.plain] he (.ite (fun _ => .one (.closeChamber s)) fun _ => .refl s)
  | chargerFaultActive =>
    simp only [exec, execChargerFaultActive] at he
    exact act_moves [.plain] he (.ite (fun _ => .refl s) fun _ => .one (.chargerFails s))
  | chargerFaultClear => exact act_moves [.plain] he (.ite (fun _ => .one (.chargerWorks s)) fun _ => .refl s)
  | coilHotAssert =>
    simp only [exec, execCoilHotAssert] at he
    exact act_moves [.plain] he (.ite (fun _ => .refl s) fun _ => .one (.coilHeats s))
  | coilHotClear => exact act_moves [.plain] he (.ite (fun _ => .one (.coilCools s)) fun _ => .refl s)
  | minuteMark stamp => exact act_moves [.plain, .tower] he (takeMark_moves stamp s)
  | sourcedExit => exact act_moves [.plain] he (.ite (fun _ => leaveSourced_moves s) fun _ => .refl s)
  | timeStepEnd => exact act_moves [.plain] he (.ite (fun _ => .one (.endTimeStep s)) fun _ => .refl s)
  | holdExpiry =>
    refine act_moves [.plain] he (.ite (fun h => ?_) fun _ => .refl s)
    exact .one (.goVoiced s (.inr (of_decide_eq_true h).1))
  | claim rx pr body =>
    simp only [exec, execClaim] at he
    exact act_moves [.plain] he ((acknowledge_moves s).andThen (applyClaim_moves _ _))
  | floor rx pr body =>
    simp only [exec, execFloor] at he
    exact act_moves [.plain] he ((acknowledge_moves s).andThen (applyFloor_moves _ _))
  | release rx seq reason =>
    simp only [exec, execRelease] at he
    exact act_moves [.plain] he ((acknowledge_moves s).andThen (applyRelease_moves _ _))
  | lapse => exact act_moves [.plain] he (.ite (fun _ => applyLapse_moves s) fun _ => .refl s)
  | claimHandoff k => exact act_moves [.plain] he (handClaim_moves k s)
  | waitDeadline k => exact act_moves [.plain] he (endWait_moves k s)
  | ensembleGate k => exact act_moves [.plain] he (gateIfDue_moves k s)
  | orderBuild k => exact act_moves [.plain] he (buildIfDue_moves k s)
  | floorBeaconDue k => exact act_moves [.plain] he (handFloorBeacon_moves k s)
  | performanceEnd k => exact act_moves [.plain] he (endIfRungOut_moves k s)
  | prerollPoint => exact act_moves [.plain] he (decideDue_moves s)
  | contactPress c => exact act_moves [.plain] he (pressContact_moves c s)
  | storeComplete => exact act_moves [.plain, .store] he (completeStore_moves s)
  | storeFailure => exact act_moves [.plain, .store] he (failStore_moves s)
  | replyPart => exact act_moves [.plain] he (sendPart_moves s)
  | unknownCommand h n body =>
    simp only [exec, execUnknownCommand] at he
    exact act_moves [.plain] he (.ite (fun _ => .refl s) fun _ => onTarget_moves h fun t => reply_moves h _ _ _ t)
  | setTime h time => exact act_moves [.plain, .tower, .validity] he (serveSetTime_moves h time s)
  | cue h slot pr start => exact act_moves [.plain] he (onTarget_moves h fun t => serveCue_moves h slot pr start t)
  | stopPerformance h p =>
    simp only [exec, execStopPerformance] at he
    exact act_moves [.plain] he (((acknowledge_moves s).andThen (applyStopPerf_moves p _)).reply h _ _ _)
  | stopFloor h =>
    simp only [exec, execStopFloor] at he
    exact act_moves [.plain] he (((acknowledge_moves s).andThen (applyStopFloor_moves _)).reply h _ _ _)
  | resume h => exact act_moves [.plain] he (onTarget_moves h fun t => serveResume_moves h t)
  | wake h => exact act_moves [.plain] he (onTarget_moves h fun t => serveWake_moves h t)
  | channelSet h mask =>
    refine act_moves [.plain, .halted] he (onTarget_moves h (fun t => writeHalted_moves h mask _ t fun k hk => .inr ?_))
    rw [presentOf_getLsbD, Bool.and_eq_true] at hk
    exact hk.2
  | channelMerge h mask =>
    refine act_moves [.plain, .halted] he (onTarget_moves h (fun t => writeHalted_moves h mask _ t fun k hk => ?_))
    rw [BitVec.getLsbD_or, presentOf_getLsbD, Bool.or_eq_true, Bool.and_eq_true] at hk
    exact hk.imp id And.right
  | channelClear h mask =>
    refine act_moves [.plain, .halted] he (onTarget_moves h (fun t => writeHalted_moves h mask _ t fun k hk => .inl ?_))
    rw [BitVec.getLsbD_and, Bool.and_eq_true] at hk
    exact hk.1
  | channelPulse h mask v => exact act_moves [.plain, .enqueue] he (onTarget_moves h fun t => servePulse_moves h mask v t)
  | voiceSetPulseLow h k widths =>
    exact act_moves [.plain, .voicing] he (onTarget_moves h fun t => voiceWrite_moves h k
      ((setCurve_moves k t (curveLow_inRange widths)).reply h _ _ _))
  | voiceSetPulseHigh h k widths =>
    exact act_moves [.plain, .voicing] he (onTarget_moves h fun t => voiceWrite_moves h k
      ((setCurve_moves k t (curveHigh_inRange widths)).reply h _ _ _))
  | voiceSetTiming h k f =>
    exact act_moves [.plain, .voicing] he (onTarget_moves h fun t => voiceWrite_moves h k
      ((Moves.single (ks := [.plain, .voicing]) (.writeTiming k f t)).reply h _ _ _))
  | calSet h entry fields =>
    refine act_moves [.plain] he (onTarget_moves h fun t => unlessStoring_moves h _ ?_)
    unfold serveCalSet
    split
    · exact (updEntry_moves _ _ t).reply h _ _ _
    · exact reply_moves h _ _ _ t
  | calClear h entry =>
    refine act_moves [.plain] he (onTarget_moves h fun t => unlessStoring_moves h _ (.ite (fun _ =>
      (Moves.one (.writeCalendar { t.calendar with entries := Vector.replicate 24 clearedEntry } t rfl)).reply h _ _ _)
      fun _ => ?_))
    split
    · exact (updEntry_moves _ _ t).reply h _ _ _
    · exact reply_moves h _ _ _ t
  | quietSet h window fields =>
    refine act_moves [.plain, .windows] he (onTarget_moves h fun t => unlessStoring_moves h _ ?_)
    unfold serveQuietSet
    split
    · exact (Moves.single (.setWindow _ _ t)).reply h _ _ _
    · exact (reply_moves h _ _ _ t).widen
  | nodeSet h pairs =>
    exact act_moves [.plain, .settings] he (onTarget_moves h fun t => unlessStoring_moves h _ (.ite (fun _ => (reply_moves h _ _ _ t).widen)
      fun _ => (writePairs_moves _ t).reply h _ _ _))
  | maskSet h mask =>
    obtain ⟨hclash, haccess⟩ := fixedFlags_set mask
    exact act_moves [.plain, .mask] he (onTarget_moves h fun t => unlessStoring_moves h _
      ((Moves.single (ks := [.plain, .mask]) (.setMask _ t hclash haccess)).reply h _ _ _))
  | loadBegin h slot fields =>
    refine act_moves [.plain, .parts] he (onTarget_moves h fun t => unlessStoring_moves h _ ?_)
    unfold serveLoadBegin
    split
    · exact beginLoad_moves h _ _ t
    · exact (reply_moves h _ _ _ t).widen
  | loadData h slot index events =>
    refine act_moves [.plain, .parts] he (onTarget_moves h fun t => .ite (fun _ => (reply_moves h _ _ _ t).widen) fun _ =>
      unlessStoring_moves h _ ?_)
    unfold serveLoadData
    split
    · exact (reply_moves h _ _ _ t).widen
    · exact loadInto_moves h _ _ _ t
  | loadEnd h slot checksum =>
    refine act_moves [.plain, .parts] he (onTarget_moves h fun t => unlessStoring_moves h _ ?_)
    unfold serveLoadEnd
    split
    · exact (reply_moves h _ _ _ t).widen
    · exact endLoad_moves h _ _ t
  | delete h slot =>
    refine act_moves [.plain, .parts] he (onTarget_moves h fun t => unlessStoring_moves h _ ?_)
    unfold serveDelete
    split
    · exact (reply_moves h _ _ _ t).widen
    · exact deletePart_moves h _ t
  | overlay h on => exact act_moves [.plain, .overlay] he (onTarget_moves h fun t => unlessStoring_moves h _ (serveOverlay_moves h on t))
  | store h => exact act_moves [.plain, .store] he (onTarget_moves h fun t => unlessStoring_moves h _ (beginStore_moves h.tag t))
  | restart h =>
    exact act_moves [.plain, .restart] he (onTarget_moves h fun t => unlessStoring_moves h _
      ((Moves.single (ks := [.plain, .restart]) (.restart t)).reply h _ _ _))
  | status h => exact act_moves [.plain] he (onTarget_moves h fun t => unlessReplying_moves h _ (startStatus_moves h.tag t))
  | trace h => exact act_moves [.plain] he (onTarget_moves h fun t => unlessReplying_moves h _ (startTrace_moves h.tag t))
  | traceRelease h => exact act_moves [.plain] he (onTarget_moves h fun t => (Moves.one (.releaseTrace t)).reply h _ _ _)
  | countersClear h => exact act_moves [.plain] he (onTarget_moves h fun t => (Moves.one (.clearCounters t)).reply h _ _ _)
  | powerLost => exact act_moves [.plain] he (losePower_moves s)
  | playContactInactive c => exact act_moves [.plain] he (.one (.setContact c false s))

/-- A step is a command's chain of moves from the state with the rest of the queue, or nothing at all. -/
theorem step_moves {s t : State} (h : step s = .next t) :
    t = s ∨ ∃ i rest, s.pending = i :: rest ∧ Moves (kindsOf i) { s with pending := rest } t := by
  unfold step at h
  split at h
  · injection h with h
    exact .inl h.symm
  next i rest hpending => exact .inr ⟨i, rest, hpending, exec_moves h⟩

/-- What every move keeps, and the queue of commands does not matter to, every step keeps. -/
theorem step_keeps {P : State → Prop} {s t : State} (hpending : ∀ (u : State) (rest : List Instr),
    P u → P { u with pending := rest })
    (hmove : ∀ {k : Kind} {ps : List Part} {a b : State}, Move k ps a b → P a → P b) (hs : P s)
    (h : step s = .next t) : P t := by
  obtain rfl | ⟨i, rest, -, hm⟩ := step_moves h
  · exact hs
  · exact hm.keeps (fun _ => hmove) (hpending s rest hs)

end Sys2Proof.Machine
end

