-- ==== Sys2Proof/Proofs/PartsKept.lean ====
section
/-! What the shared operations leave of a channel record, of the Silence Controller and of the Service Responder: the fields
that only a command of their own writes. -/

namespace Sys2Proof.Machine

-- One proof after another: many at once would ask for more threads than the memory limit allows.
set_option Elab.async false

/-! ### Channel records -/

/-- Voicing and conflict flag of every channel are the same. -/
def VoicingKept (s t : State) : Prop :=
  ∀ k : Fin 8, t.channels[k].voicing = s.channels[k].voicing ∧ t.channels[k].conflict = s.channels[k].conflict

theorem VoicingKept.refl (s : State) : VoicingKept s s := fun _ => ⟨rfl, rfl⟩

theorem VoicingKept.trans {s t u : State} (h1 : VoicingKept s t) (h2 : VoicingKept t u) : VoicingKept s u :=
  fun k => ⟨(h2 k).1.trans (h1 k).1, (h2 k).2.trans (h1 k).2⟩

theorem VoicingKept.of_eq {s t : State} (h : t.channels = s.channels) : VoicingKept s t :=
  fun k => by rw [h]; exact ⟨rfl, rfl⟩

theorem VoicingKept.of_unchanged {ps : List Part} {s t : State} (h : Unchanged ps s t)
    (hp : Part.channels ∉ ps := by decide) : VoicingKept s t := .of_eq (h .channels hp)

theorem updChannel_channel (k : Fin 8) (f : Channel → Channel) (s : State) (j : Fin 8) :
    (updChannel k f s).channels[j] = if j = k then f s.channels[j] else s.channels[j] := by
  by_cases h : j = k
  · subst h; simp
  · have hne : k.val ≠ j.val := fun heq => h (Fin.ext heq.symm)
    simp [h, hne]

theorem updChannel_voicingKept {f : Channel → Channel} (k : Fin 8) (s : State)
    (hf : ∀ c, (f c).voicing = c.voicing ∧ (f c).conflict = c.conflict) : VoicingKept s (updChannel k f s) := by
  intro j
  rw [updChannel_channel]
  split
  · exact hf _
  · exact ⟨rfl, rfl⟩

theorem mapChannels_channel (f : Channel → Channel) (s : State) (j : Fin 8) :
    (mapChannels f s).channels[j] = f s.channels[j] := by
  simp [mapChannels]

theorem mapChannels_voicingKept {f : Channel → Channel} (s : State)
    (hf : ∀ c, (f c).voicing = c.voicing ∧ (f c).conflict = c.conflict) : VoicingKept s (mapChannels f s) := by
  intro j
  rw [mapChannels_channel]
  exact hf _

theorem tryLift_voicingKept (k : Fin 8) (s : State) : VoicingKept s (tryLift k s) := by
  unfold tryLift
  split
  · exact updChannel_voicingKept k s fun _ => ⟨rfl, rfl⟩
  · exact .refl s

theorem idleDrop_voicingKept (k : Fin 8) (s : State) : VoicingKept s (idleDrop k s) := by
  unfold idleDrop
  dsimp only
  split
  · have hdown : VoicingKept s (updChannel k (fun c => { c with damperUp := false }) s) :=
      updChannel_voicingKept k s fun _ => ⟨rfl, rfl⟩
    exact hdown.trans (.of_unchanged (drainCheck_unchanged _))
  · exact .refl s

theorem dropDamper_voicingKept (k : Fin 8) (s : State) : VoicingKept s (dropDamper k s) := by
  unfold dropDamper
  split
  · exact .refl s
  · split
    · exact updChannel_voicingKept k s fun _ => ⟨rfl, rfl⟩
    · have hdown : VoicingKept s (updChannel k (fun c => { c with drop := none, damperUp := false }) s) :=
        updChannel_voicingKept k s fun _ => ⟨rfl, rfl⟩
      exact (hdown.trans (tryLift_voicingKept k _)).trans (.of_unchanged (drainCheck_unchanged _))

theorem afterRemoval_voicingKept (e : Entry) (s : State) : VoicingKept s (afterRemoval e s) := by
  have hkeep : ∀ t : State, VoicingKept t (fadeOut (idleDrop e.channel t)) := fun t =>
    (idleDrop_voicingKept e.channel t).trans (.of_unchanged (fadeOut_unchanged _))
  unfold afterRemoval
  dsimp only
  split
  · exact (VoicingKept.of_unchanged (checkFading_unchanged s)).trans (hkeep _)
  · exact hkeep s

theorem dequeue_record_voicingKept (r : StrikeRecord) (e : Entry) (s : State) :
    VoicingKept s (writeRecord r (dequeue e s)) :=
  (VoicingKept.of_unchanged (dequeue_unchanged e s)).trans (.of_unchanged (writeRecord_unchanged r _))

theorem removeEntry_voicingKept (o : StrikeOutcome) (e : Entry) (s : State) : VoicingKept s (removeEntry o e s) :=
  ((dequeue_record_voicingKept _ e s).trans (.of_unchanged (raise_unchanged _ _))).trans (afterRemoval_voicingKept e _)

theorem closeLaunch_voicingKept (e : Entry) (o : StrikeOutcome) (s : State) : VoicingKept s (closeLaunch e o s) :=
  (((VoicingKept.of_unchanged (raise_unchanged _ s)).trans (.of_unchanged (preemptStep_unchanged e _))).trans
    (.of_unchanged (fadeStepSilence_unchanged _))).trans (afterRemoval_voicingKept e _)

theorem fireEntry_voicingKept (e : Entry) (v : Nat) (s : State) : VoicingKept s (fireEntry e v s) := by
  refine VoicingKept.trans (t := updChannel e.channel (fireChannel s.time.count e v)
    { s with drive := { s.drive with level := s.drive.level - strikeCost s.channels[e.channel].voicing v } }) ?_
    (.of_unchanged (bankSync_unchanged _))
  exact (VoicingKept.of_eq rfl).trans (updChannel_voicingKept e.channel _ fun _ => ⟨rfl, rfl⟩)

theorem launchEntry_voicingKept (e : Entry) (s : State) : VoicingKept s (launchEntry e s) := by
  unfold launchEntry
  dsimp only
  split
  · exact (dequeue_record_voicingKept _ e s).trans (closeLaunch_voicingKept _ _ _)
  · exact (((VoicingKept.of_unchanged (dequeue_unchanged e s)).trans (fireEntry_voicingKept _ _ _)).trans
      (.of_unchanged (writeRecord_unchanged _ _))).trans (closeLaunch_voicingKept _ _ _)

theorem shutBank_voicingKept (s : State) : VoicingKept s (shutBank s) :=
  (VoicingKept.of_eq rfl).trans (mapChannels_voicingKept _ fun _ => ⟨rfl, rfl⟩)

theorem dropAll_voicingKept (s : State) : VoicingKept s (dropAll s) :=
  mapChannels_voicingKept s fun _ => ⟨rfl, rfl⟩

/-! ### The enable mask -/

theorem silentTrigger_silence (s : State) : (silentTrigger s).silence = s.silence :=
  silentTrigger_unchanged s .silence (by decide)

/-- The silence record of an entry to SILENT (R172). -/
theorem goSilent_silence (mark : Bool) (s : State) : (goSilent mark s).silence =
    { s.silence with state := .silent, level := 15, fadeCount := 0, resumable := mark, hold := 0 } := by
  unfold goSilent
  dsimp only
  split
  · rfl
  · rw [silentTrigger_silence]

theorem goHolding_silence (s : State) : (goHolding s).silence =
    if s.settings.holdTime = 0 then (goVoiced s).silence else
      { s.silence with state := .holding, level := 15, fadeCount := 0, resumable := false, hold := 0 } := by
  unfold goHolding
  split <;> rfl

theorem fadeOut_silence (s : State) : (fadeOut s).silence =
    if s.silence.state = .fading ∧ s.queue = [] then (goSilent false s).silence else s.silence := by
  unfold fadeOut
  split <;> rfl

/-- Conditions and enable mask are the same. -/
def CondsKept (s t : State) : Prop := t.silence.conds = s.silence.conds ∧ t.silence.mask = s.silence.mask

theorem CondsKept.refl (s : State) : CondsKept s s := ⟨rfl, rfl⟩

theorem CondsKept.trans {s t u : State} (h1 : CondsKept s t) (h2 : CondsKept t u) : CondsKept s u :=
  ⟨h2.1.trans h1.1, h2.2.trans h1.2⟩

theorem CondsKept.of_unchanged {ps : List Part} {s t : State} (h : Unchanged ps s t)
    (hp : Part.silence ∉ ps := by decide) : CondsKept s t := by
  have hsilence : t.silence = s.silence := h .silence hp
  exact ⟨by rw [hsilence], by rw [hsilence]⟩

theorem goSilent_condsKept (mark : Bool) (s : State) : CondsKept s (goSilent mark s) := by
  constructor <;> rw [goSilent_silence]

theorem goHolding_condsKept (s : State) : CondsKept s (goHolding s) := by
  constructor <;> (rw [goHolding_silence]; split <;> rfl)

theorem fadeOut_condsKept (s : State) : CondsKept s (fadeOut s) := by
  unfold fadeOut
  split
  · exact goSilent_condsKept false s
  · exact .refl s

theorem goFading_condsKept (s : State) : CondsKept s (goFading s) := fadeOut_condsKept _

theorem actOn_condsKept (c : Condition) (s : State) : CondsKept s (actOn c s) := by
  unfold actOn
  split
  · exact goSilent_condsKept false s
  · split
    · exact goFading_condsKept s
    · exact .refl s
    · exact .refl s
    · exact goSilent_condsKept false s

theorem allCleared_condsKept (s : State) : CondsKept s (allCleared s) := by
  unfold allCleared
  split
  · exact .refl s
  · exact .refl s
  all_goals
    split
    · exact goHolding_condsKept s
    · exact goSilent_condsKept true s

theorem assertCond_mask (c : Condition) (s : State) : (assertCond c s).silence.mask = s.silence.mask := by
  unfold assertCond
  split
  · rfl
  · dsimp only
    split
    · exact (actOn_condsKept c _).2
    · rfl

theorem clearCond_mask (c : Condition) (s : State) : (clearCond c s).silence.mask = s.silence.mask := by
  unfold clearCond
  split
  · dsimp only
    split
    · exact (allCleared_condsKept _).2
    · rfl
  · rfl

theorem fadeStepSilence_condsKept (s : State) : CondsKept s (fadeStepSilence s) := by
  unfold fadeStepSilence
  split
  · dsimp only
    split
    · split
      · exact goSilent_condsKept false s
      · exact .refl s
    · exact .refl s
  · exact .refl s

theorem afterRemoval_condsKept (e : Entry) (s : State) : CondsKept s (afterRemoval e s) := by
  have hkeep : ∀ t : State, CondsKept t (fadeOut (idleDrop e.channel t)) := fun t =>
    (CondsKept.of_unchanged (idleDrop_unchanged e.channel t)).trans (fadeOut_condsKept _)
  unfold afterRemoval
  dsimp only
  split
  · exact (CondsKept.of_unchanged (checkFading_unchanged s)).trans (hkeep _)
  · exact hkeep s

theorem removeEntry_condsKept (o : StrikeOutcome) (e : Entry) (s : State) : CondsKept s (removeEntry o e s) :=
  (((CondsKept.of_unchanged (dequeue_unchanged e s)).trans (.of_unchanged (writeRecord_unchanged _ _))).trans
    (.of_unchanged (raise_unchanged _ _))).trans (afterRemoval_condsKept e _)

theorem closeLaunch_condsKept (e : Entry) (o : StrikeOutcome) (s : State) : CondsKept s (closeLaunch e o s) :=
  (((CondsKept.of_unchanged (raise_unchanged _ s)).trans (.of_unchanged (preemptStep_unchanged e _))).trans
    (fadeStepSilence_condsKept _)).trans (afterRemoval_condsKept e _)

theorem launchEntry_condsKept (e : Entry) (s : State) : CondsKept s (launchEntry e s) := by
  unfold launchEntry
  dsimp only
  split
  · exact ((CondsKept.of_unchanged (dequeue_unchanged e s)).trans (.of_unchanged (writeRecord_unchanged _ _))).trans
      (closeLaunch_condsKept _ _ _)
  · exact (((CondsKept.of_unchanged (dequeue_unchanged e s)).trans (.of_unchanged (fireEntry_unchanged _ _ _))).trans
      (.of_unchanged (writeRecord_unchanged _ _))).trans (closeLaunch_condsKept _ _ _)

theorem holdTick_condsKept (s : State) : CondsKept s (holdTick s) := by
  unfold holdTick
  split <;> exact .refl s

theorem sampleConds_mask (s : State) : (sampleConds s).silence.mask = s.silence.mask := by
  have hsample : ∀ (c : Condition) (b : Bool) (t : State), (sampleCond c b t).silence.mask = t.silence.mask := by
    intro c b t
    unfold sampleCond
    split
    · exact assertCond_mask c t
    · rfl
  simp only [sampleConds, hsample]

/-! ### The settings memory -/

/-- The settings state and the settings memory are the same. -/
def StoreKept (s t : State) : Prop :=
  t.service.memory = s.service.memory ∧ t.service.settingsState = s.service.settingsState

theorem StoreKept.refl (s : State) : StoreKept s s := ⟨rfl, rfl⟩

theorem StoreKept.trans {s t u : State} (h1 : StoreKept s t) (h2 : StoreKept t u) : StoreKept s u :=
  ⟨h2.1.trans h1.1, h2.2.trans h1.2⟩

theorem StoreKept.of_unchanged {ps : List Part} {s t : State} (h : Unchanged ps s t)
    (hp : Part.service ∉ ps := by decide) : StoreKept s t := by
  have hservice : t.service = s.service := h .service hp
  exact ⟨by rw [hservice], by rw [hservice]⟩

theorem partOut_storeKept (s : State) : StoreKept s (partOut s) := by
  unfold partOut
  split
  · exact .refl s
  · split <;> exact .refl s

theorem frameGone_storeKept (o : Origin) (s : State) : StoreKept s (frameGone o s) := by
  unfold frameGone
  dsimp only
  split
  · exact partOut_storeKept _
  · exact .refl s

theorem evictTx_storeKept (x : TxFrame) (s : State) : StoreKept s (evictTx x s) :=
  (StoreKept.of_unchanged (frameLost_unchanged x (raise .txDropped
    { s with line := { s.line with queue := s.line.queue.dropLast } }))).trans (frameGone_storeKept _ _)

theorem refuseTx_storeKept (x : TxFrame) (s : State) : StoreKept s (refuseTx x s) := by
  have hcount : StoreKept s (if countsRefusal x.frame then raise .txDropped s else s) := by
    split <;> exact .refl s
  unfold refuseTx
  dsimp only
  split
  · exact hcount.trans (partOut_storeKept _)
  · exact hcount

theorem handFrame_storeKept (x : TxFrame) (s : State) : StoreKept s (handFrame x s).1 := by
  unfold handFrame
  split
  · exact .refl s
  · split
    · exact refuseTx_storeKept x s
    · split
      · exact evictTx_storeKept _ s
      · exact refuseTx_storeKept x s

theorem handBeacon_storeKept (b : NodeBeacon) (s : State) : StoreKept s (handBeacon b s) := by
  unfold handBeacon
  dsimp only
  split
  · exact .refl s
  · split
    · exact .refl s
    · exact handFrame_storeKept _ s

end Sys2Proof.Machine
end

