-- ==== Sys2Proof/Proofs/Writers.lean ====
section
/-! Which commands write a part of the state (O3), and the ranges of settings and voicings (O53). -/

namespace Sys2Proof.Machine

-- One proof after another: many at once would ask for more threads than the memory limit allows.
set_option Elab.async false

/-! ### Details of the state -/

/-- The details of the state that have writers of their own. -/
inductive Detail where
  | pending
  | straps
  | settings
  | halted
  | voicing
  | peers
  | conflict
  | count
  | tower
  | validity
  | mask
  | windows
  | overlay
  | parts
  | memory
  | settingsState
  deriving DecidableEq

/-- A detail is the same in two states. -/
def Detail.same (s t : State) : Detail → Prop
  | .pending => t.pending = s.pending
  | .straps => t.straps = s.straps
  | .settings => t.settings = s.settings
  | .halted => t.halted = s.halted
  | .voicing => ∀ k : Fin 8, t.channels[k].voicing = s.channels[k].voicing
  | .peers => t.peers = s.peers
  | .conflict => ∀ k : Fin 8, t.channels[k].conflict = s.channels[k].conflict
  | .count => t.time.count = s.time.count
  | .tower => t.time.tower = s.time.tower
  | .validity => t.time.validity = s.time.validity
  | .mask => t.silence.mask = s.silence.mask
  | .windows => t.calendar.windows = s.calendar.windows
  | .overlay => t.library.overlay = s.library.overlay
  | .parts => t.library.parts = s.library.parts
  | .memory => t.service.memory = s.service.memory
  | .settingsState => t.service.settingsState = s.service.settingsState

/-- The part of the state that a detail belongs to. -/
def Detail.part : Detail → Part
  | .pending => .pending
  | .straps => .straps
  | .settings => .settings
  | .halted => .halted
  | .voicing => .channels
  | .peers => .peers
  | .conflict => .channels
  | .count => .time
  | .tower => .time
  | .validity => .time
  | .mask => .silence
  | .windows => .calendar
  | .overlay => .library
  | .parts => .library
  | .memory => .service
  | .settingsState => .service

/-- The kinds of the moves that may write a detail. -/
def Detail.writers : Detail → List Kind
  | .pending => []
  | .straps => [.powerOn]
  | .settings => [.powerOn, .settings]
  | .halted => [.powerOn, .restart, .halted]
  | .voicing => [.powerOn, .voicing]
  | .peers => [.powerOn, .restart, .peers]
  | .conflict => [.powerOn, .restart, .peers]
  | .count => [.powerOn, .tick]
  | .tower => [.powerOn, .tick, .tower]
  | .validity => [.powerOn, .validity]
  | .mask => [.powerOn, .mask]
  | .windows => [.powerOn, .windows]
  | .overlay => [.powerOn, .overlay]
  | .parts => [.powerOn, .restart, .parts]
  | .memory => [.store]
  | .settingsState => [.powerOn, .store]

theorem Detail.same_of_part {d : Detail} {s t : State} (h : d.part.same s t) : d.same s t := by
  cases d <;> simp only [Detail.part, Part.same] at h <;> simp only [Detail.same, h, implies_true]

theorem Detail.same_refl (d : Detail) (s : State) : d.same s s := Detail.same_of_part (Unchanged.refl [] s _ (by simp))

theorem Detail.same_trans (d : Detail) {s t u : State} (h1 : d.same s t) (h2 : d.same t u) : d.same s u := by
  cases d <;> simp only [Detail.same] at * <;> simp_all

section
variable {k : Kind} {ps : List Part} {s t : State}

theorem move_detail_of_part (h : Move k ps s t) {d : Detail} (hd : d.part ∉ ps) : d.same s t :=
  Detail.same_of_part (h.unchanged _ hd)

/-- The moves that write channel records, but for those of their own kind, keep voicings and conflict flags. -/
theorem move_voicingKept (h : Move k ps s t) (hk : k ∉ [.powerOn, .restart, .voicing, .peers]) : VoicingKept s t := by
  by_cases hd : Part.channels ∈ ps
  case neg => exact .of_eq (h.unchanged _ hd)
  cases h with
  | remove o e => exact removeEntry_voicingKept o e s
  | launch e => exact launchEntry_voicingKept e s
  | exchange x e => exact (removeEntry_voicingKept .purged x s).trans (.of_unchanged (enqueue_unchanged _ e))
  | stroke k f _ hf => exact updChannel_voicingKept k s fun c => ⟨(hf c).1, (hf c).2.1⟩
  | idleDrop k => exact idleDrop_voicingKept k s
  | dropDamper k => exact dropDamper_voicingKept k s
  | tryLift k => exact tryLift_voicingKept k s
  | openChamber =>
    have hshut : VoicingKept s (shutBank (setAccess true s)) := shutBank_voicingKept (setAccess true s)
    exact (hshut.trans (dropAll_voicingKept _)).trans (.of_unchanged (assertCond_unchanged .access _))
  | closeChamber =>
    have hlift : ∀ (l : List (Fin 8)) (t : State), VoicingKept t (l.foldl (fun t k => Machine.tryLift k t) t) := by
      intro l
      induction l with
      | nil => exact .refl
      | cons k l ih => exact fun t => (tryLift_voicingKept k t).trans (ih _)
    have hwake : VoicingKept s (wakeAtRelease (setAccess false s)) :=
      .of_unchanged ((writePins_unchanged s _).widen.andThen (wakeAtRelease_unchanged (setAccess false s)) :
        Unchanged [.pins, .drive] s _)
    exact (hwake.trans (hlift allChannels _)).trans (.of_unchanged (clearCond_unchanged .access _))
  | losePower =>
    have hshut : VoicingKept s (shutBank { s with
        powered := false
        line := { s.line with sending := none, setAside := none, ackDriven := false } }) := shutBank_voicingKept _
    exact hshut.trans (dropAll_voicingKept _)
  | evalConflicts => exact absurd (by decide) hk
  | setVoicing => exact absurd (by decide) hk
  | writeTiming => exact absurd (by decide) hk
  | powerOn => exact absurd (by decide) hk
  | restart => exact absurd (by decide) hk
  | _ => exact absurd hd (by decide)

theorem evalConflicts_voicing (s : State) (j : Fin 8) :
    (evalConflicts s).channels[j] = { s.channels[j] with conflict := conflictOf s j } := by
  simp [evalConflicts]

theorem writeTiming_conflict (c : Fin 8) (f : TimingFields) (s : State) (j : Fin 8) :
    (writeTiming c f s).channels[j].conflict = s.channels[j].conflict := by
  have hset : (setVoicing c (timedVoicing s.channels[c].voicing f) s).channels[j].conflict = s.channels[j].conflict := by
    rw [setVoicing, updChannel_channel]
    split <;> rfl
  have hundamp : ∀ u : State, (undamp c u).channels[j].conflict = u.channels[j].conflict := by
    intro u
    rw [undamp, drainCheck_unchanged _ .channels (by decide), updChannel_channel]
    split <;> rfl
  unfold writeTiming
  dsimp only
  by_cases hdrop : s.channels[c].voicing.damped ∧ !f.damped
  · rw [if_pos hdrop, hundamp, hset]
  · rw [if_neg hdrop, hset]

theorem restart_channel (s : State) (j : Fin 8) : (restart s).channels[j] = s.channels[j].restarted := by
  rw [restart, sampleConds_unchanged _ .channels (by decide)]
  simp [restartBlocks]

theorem move_voicing_same (h : Move k ps s t) (hk : k ∉ Detail.writers .voicing) : Detail.same s t .voicing := by
  by_cases hkind : k ∈ [Kind.powerOn, .restart, .voicing, .peers]
  case neg => exact fun j => (move_voicingKept h hkind j).1
  cases h with
  | evalConflicts => exact fun j => by rw [evalConflicts_voicing]
  | setPeer => exact fun _ => rfl
  | restart => exact fun j => by rw [restart_channel]; rfl
  | setVoicing => exact absurd (by decide) hk
  | writeTiming => exact absurd (by decide) hk
  | powerOn => exact absurd (by decide) hk
  | _ => exact absurd hkind (by decide)

theorem move_conflict_same (h : Move k ps s t) (hk : k ∉ Detail.writers .conflict) : Detail.same s t .conflict := by
  by_cases hkind : k ∈ [Kind.powerOn, .restart, .voicing, .peers]
  case neg => exact fun j => (move_voicingKept h hkind j).2
  cases h with
  | setVoicing c v =>
    intro j
    rw [setVoicing, updChannel_channel]
    split <;> rfl
  | writeTiming c f => exact writeTiming_conflict c f s
  | evalConflicts => exact absurd (by decide) hk
  | setPeer => exact absurd (by decide) hk
  | restart => exact absurd (by decide) hk
  | powerOn => exact absurd (by decide) hk
  | _ => exact absurd hkind (by decide)

/-- Only a tick and power-on change the local count; only they and a step change tower time. -/
theorem move_clock_same (h : Move k ps s t) (hk : k ∉ [.powerOn, .tick]) : t.time.count = s.time.count ∧
    (k ≠ .tower → t.time.tower = s.time.tower) ∧ (k ≠ .validity → t.time.validity = s.time.validity) := by
  by_cases hd : Part.time ∈ ps
  case neg =>
    have htime : t.time = s.time := h.unchanged .time hd
    exact ⟨by rw [htime], fun _ => by rw [htime], fun _ => by rw [htime]⟩
  have hassert : ∀ (c : Condition) (u : State), (assertCond c u).time = u.time := fun c u =>
    assertCond_unchanged c u .time (by decide)
  have hclear : ∀ (c : Condition) (u : State), (clearCond c u).time = u.time := fun c u =>
    clearCond_unchanged c u .time (by decide)
  cases h with
  | writeTime x _ hlock htower hvalid => exact ⟨hlock.1, fun _ => htower, fun _ => hvalid⟩
  | writeTower x _ hlock hvalid => exact ⟨hlock.1, fun hne => absurd rfl hne, fun _ => hvalid⟩
  | setValid => exact ⟨rfl, fun _ => rfl, fun hne => absurd rfl hne⟩
  | setLock l =>
    unfold setLock
    dsimp only
    split
    · rw [hassert]; exact ⟨rfl, fun _ => rfl, fun _ => rfl⟩
    · rw [hclear]; exact ⟨rfl, fun _ => rfl, fun _ => rfl⟩
  | startTimeStep => rw [startTimeStep, hassert]; exact ⟨rfl, fun _ => rfl, fun _ => rfl⟩
  | endTimeStep => rw [endTimeStep, hclear]; exact ⟨rfl, fun _ => rfl, fun _ => rfl⟩
  | restart =>
    rw [restart, sampleConds_unchanged _ .time (by decide)]
    exact ⟨rfl, fun _ => rfl, fun _ => rfl⟩
  | localTick => exact absurd (by decide) hk
  | powerOn => exact absurd (by decide) hk
  | _ => exact absurd hd (by decide)

theorem localTick_validity (b : Bool) (s : State) : (localTick b s).time.validity = s.time.validity := by
  unfold localTick
  dsimp only
  rw [forgetErrors_unchanged _ .time (by decide), markHeld_unchanged _ .time (by decide),
    tickBeacon_unchanged _ .time (by decide), tickSlots_unchanged _ .time (by decide),
    holdTick_unchanged _ .time (by decide), idleTick_unchanged _ .time (by decide),
    chargeTick_unchanged _ .time (by decide)]
  rfl

theorem move_mask_same (h : Move k ps s t) (hk : k ∉ Detail.writers .mask) : Detail.same s t .mask := by
  by_cases hd : Part.silence ∈ ps
  case neg => exact move_detail_of_part h hd
  cases h with
  | remove o e => exact (removeEntry_condsKept o e s).2
  | launch e => exact (launchEntry_condsKept e s).2
  | exchange x e => exact (removeEntry_condsKept .purged x s).2
  | openChamber => exact assertCond_mask _ _
  | closeChamber =>
    refine (clearCond_mask _ _).trans ?_
    exact congrArg Silence.mask ((Unchanged.foldl _ (fun t k => tryLift_unchanged k t) allChannels _ .silence
      (by decide)).trans (wakeAtRelease_unchanged _ .silence (by decide)))
  | chargerFails => exact assertCond_mask _ _
  | chargerWorks => exact clearCond_mask _ _
  | coilHeats => exact assertCond_mask _ _
  | coilCools => exact clearCond_mask _ _
  | goVoiced => rfl
  | setLock l =>
    show (setLock l s).silence.mask = _
    unfold setLock
    dsimp only
    split
    · exact assertCond_mask _ _
    · exact clearCond_mask _ _
  | startTimeStep => exact assertCond_mask _ _
  | endTimeStep => exact clearCond_mask _ _
  | localTick b =>
    show (forgetErrors _).silence.mask = _
    rw [forgetErrors_unchanged _ .silence (by decide), markHeld_unchanged _ .silence (by decide),
      tickBeacon_unchanged _ .silence (by decide), tickSlots_unchanged _ .silence (by decide), (holdTick_condsKept _).2,
      idleTick_unchanged _ .silence (by decide), chargeTick_unchanged _ .silence (by decide)]
    rfl
  | receiveFailure =>
    show (receiveFailure s).silence.mask = _
    unfold receiveFailure
    dsimp only
    split
    · exact assertCond_mask _ _
    · rfl
  | clearErrors => exact clearCond_mask _ _
  | beginFault => exact assertCond_mask _ _
  | endFault => exact clearCond_mask _ _
  | heardClash => exact assertCond_mask _ _
  | endClash => exact clearCond_mask _ _
  | writeSetting n v _ hn =>
    show (writeSetting n _ s).silence.mask = _
    unfold writeSetting
    split
    case h_2 => rfl
    case h_4 => rw [setIdleTime_unchanged s _ .silence (by decide)]
    case h_15 => exact absurd rfl hn
    case h_18 =>
      unfold setAuto setManual
      dsimp only
      repeat' split
      · exact (goHolding_condsKept _).2
      · rfl
      · exact (goSilent_condsKept true _).2
      · rfl
    case h_19 =>
      unfold setHoldTime
      dsimp only
      split <;> rfl
    all_goals rfl
  | restart => exact sampleConds_mask _
  | setMask => exact absurd (by decide) hk
  | powerOn => exact absurd (by decide) hk
  | _ => exact absurd hd (by decide)

theorem reachPoint_windows (m : Nat) (c : Calendar) : (reachPoint m c).windows = c.windows := by
  unfold reachPoint
  split <;> rfl

theorem tickTime_windows (s : State) : (tickTime s).calendar.windows = s.calendar.windows := by
  show (List.foldl _ s.calendar _).windows = _
  generalize pointsReached s s.time.tower (advance s.time (s.time.count + 1)) = l
  suffices h : ∀ c : Calendar, (l.foldl (fun c m => reachPoint m c) c).windows = c.windows from h _
  induction l with
  | nil => exact fun _ => rfl
  | cons m l ih => exact fun c => (ih _).trans (reachPoint_windows m c)

theorem move_windows_same (h : Move k ps s t) (hk : k ∉ Detail.writers .windows) : Detail.same s t .windows := by
  by_cases hd : Part.calendar ∈ ps
  case neg => exact move_detail_of_part h hd
  cases h with
  | localTick b =>
    show (forgetErrors _).calendar.windows = _
    rw [forgetErrors_unchanged _ .calendar (by decide), markHeld_unchanged _ .calendar (by decide),
      tickBeacon_unchanged _ .calendar (by decide), tickSlots_unchanged _ .calendar (by decide),
      holdTick_unchanged _ .calendar (by decide), idleTick_unchanged _ .calendar (by decide),
      chargeTick_unchanged _ .calendar (by decide)]
    exact tickTime_windows _
  | writeCalendar c _ hw => exact hw
  | restart =>
    show (sampleConds _).calendar.windows = _
    rw [sampleConds_unchanged _ .calendar (by decide)]
    rfl
  | setWindow => exact absurd (by decide) hk
  | powerOn => exact absurd (by decide) hk
  | _ => exact absurd hd (by decide)

theorem restart_library (s : State) : (restart s).library = s.library.restarted :=
  sampleConds_unchanged (restartBlocks s) .library (by decide)

theorem move_library_same (h : Move k ps s t) (hk : k ≠ .powerOn) :
    (k ≠ .overlay → t.library.overlay = s.library.overlay) ∧
    (k ∉ [.restart, .parts] → t.library.parts = s.library.parts) := by
  by_cases hd : Part.library ∈ ps
  case neg =>
    have hlibrary : t.library = s.library := h.unchanged .library hd
    exact ⟨fun _ => by rw [hlibrary], fun _ => by rw [hlibrary]⟩
  cases h with
  | beginPerf => exact ⟨fun _ => by simp, fun _ => by simp⟩
  | endPerf => exact ⟨fun _ => by simp, fun _ => by simp⟩
  | setPart => exact ⟨fun _ => by simp, fun hne => absurd (by decide) hne⟩
  | setOverlay => exact ⟨fun hne => absurd rfl hne, fun _ => by rw [setOverlay]⟩
  | restart => exact ⟨fun _ => by rw [restart_library, Library.restarted], fun hne => absurd (by decide) hne⟩
  | powerOn => exact absurd rfl hk
  | _ => exact absurd hd (by decide)

theorem move_store_same (h : Move k ps s t) (hk : k ≠ .store) : t.service.memory = s.service.memory ∧
    (k ≠ .powerOn → t.service.settingsState = s.service.settingsState) := by
  suffices hkept : k ≠ .powerOn → StoreKept s t by
    by_cases hpower : k = .powerOn
    · subst hpower
      refine ⟨?_, fun hne => absurd rfl hne⟩
      cases h
      rw [powerOn, sampleConds_unchanged _ .service (by decide)]
      rfl
    · exact ⟨(hkept hpower).1, fun hne => (hkept hne).2⟩
  intro hpower
  by_cases hd : Part.service ∈ ps
  case neg =>
    have hservice : t.service = s.service := h.unchanged .service hd
    exact ⟨by rw [hservice], by rw [hservice]⟩
  cases h with
  | handFrame x => exact handFrame_storeKept x s
  | handBeacon b => exact handBeacon_storeKept b s
  | frameGone o => exact frameGone_storeKept o s
  | setReply => exact .refl s
  | restart =>
    have hservice : (restart s).service = (restartBlocks s).service := sampleConds_unchanged _ .service (by decide)
    exact ⟨by rw [hservice]; rfl, by rw [hservice]; rfl⟩
  | setStore => exact absurd rfl hk
  | powerOn => exact absurd rfl hpower
  | _ => exact absurd hd (by decide)

/-- A move whose kind does not write a detail keeps it. -/
theorem move_detail (h : Move k ps s t) (d : Detail) (hk : k ∉ d.writers) : d.same s t := by
  have hwhole : d.part ∉ ps → d.same s t := move_detail_of_part h
  cases d with
  | pending => cases h <;> exact hwhole (by decide)
  | straps => cases h <;> first | exact hwhole (by decide) | exact absurd (by decide) hk
  | settings => cases h <;> first | exact hwhole (by decide) | exact absurd (by decide) hk
  | halted => cases h <;> first | exact hwhole (by decide) | exact absurd (by decide) hk
  | peers => cases h <;> first | exact hwhole (by decide) | exact absurd (by decide) hk
  | voicing => exact move_voicing_same h hk
  | conflict => exact move_conflict_same h hk
  | count => exact (move_clock_same h (by simpa [Detail.writers] using hk)).1
  | tower =>
    simp only [Detail.writers, List.mem_cons, List.not_mem_nil, or_false, not_or] at hk
    exact (move_clock_same h (by simp [hk])).2.1 hk.2.2
  | validity =>
    simp only [Detail.writers, List.mem_cons, List.not_mem_nil, or_false, not_or] at hk
    by_cases htick : k = .tick
    · subst htick
      cases h
      exact localTick_validity _ s
    · exact (move_clock_same h (by simp [hk, htick])).2.2 hk.2
  | mask => exact move_mask_same h hk
  | windows => exact move_windows_same h hk
  | overlay =>
    simp only [Detail.writers, List.mem_cons, List.not_mem_nil, or_false, not_or] at hk
    exact (move_library_same h hk.1).1 hk.2
  | parts =>
    simp only [Detail.writers, List.mem_cons, List.not_mem_nil, or_false, not_or] at hk
    exact (move_library_same h hk.1).2 (by simp [hk])
  | memory =>
    simp only [Detail.writers, List.mem_singleton] at hk
    exact (move_store_same h hk).1
  | settingsState =>
    simp only [Detail.writers, List.mem_cons, List.not_mem_nil, or_false, not_or] at hk
    exact (move_store_same h hk.2).2 hk.1

end

/-- A chain of moves none of whose kinds writes a detail keeps it. -/
theorem Moves.detail {ks : List Kind} {s t : State} (h : Moves ks s t) (d : Detail)
    (hk : (ks.all fun k => decide (k ∉ d.writers)) = true) : d.same s t := by
  induction h with
  | refl => exact d.same_refl _
  | step _ hmove hmem ih =>
    exact d.same_trans ih (move_detail hmove d (of_decide_eq_true (List.all_eq_true.mp hk _ hmem)))

/-- Settles O3: a command is a chain of moves of its kinds, and each part named here is written by moves of other kinds. -/
theorem partsHaveTheirWriters : Obligations.PartsHaveTheirWriters := by
  intro i s t h
  have hm := exec_moves h
  refine ⟨?_, ?_, ?_, ?_, ?_, ?_, ?_, ?_, ?_, ?_, ?_, ?_, ?_, ?_⟩
  · cases i <;> exact hm.detail .pending rfl
  · cases i <;> first | trivial | exact hm.detail .straps rfl
  · cases i <;> first | trivial | exact hm.detail .settings rfl
  · cases i <;> first | trivial | exact hm.detail .halted rfl
  · cases i <;> first | trivial | exact hm.detail .voicing rfl
  · cases i <;> first | trivial | exact ⟨hm.detail .peers rfl, hm.detail .conflict rfl⟩
  · cases i <;> first | trivial | exact hm.detail .count rfl
  · cases i <;> first | trivial | exact hm.detail .tower rfl
  · cases i <;> first | trivial | exact hm.detail .validity rfl
  · cases i <;> first | trivial | exact hm.detail .mask rfl
  · cases i <;> first | trivial | exact hm.detail .windows rfl
  · cases i <;> first | trivial | exact hm.detail .overlay rfl
  · cases i <;> first | trivial | exact hm.detail .parts rfl
  · cases i <;> first | trivial | exact hm.detail .memory rfl

end Sys2Proof.Machine
end

