-- ==== Sys2Proof/Proofs/Ranges.lean ====
section
/-! Settings and voicings stay within their ranges, those of the settings memory included, and the halted set holds
present channels only (O53). -/

namespace Sys2Proof.Machine

-- One proof after another: many at once would ask for more threads than the memory limit allows.
set_option Elab.async false

section
variable {k : Kind} {ps : List Part} {s t : State}

/-- What `RangesKept` speaks of, in terms of the details. -/
theorem RangesKept.of_same (h : RangesKept s) (hsettings : t.settings = s.settings)
    (hvoicing : ∀ j : Fin 8, t.channels[j].voicing = s.channels[j].voicing)
    (hmemory : t.service.memory = s.service.memory) (hstate : t.service.settingsState = s.service.settingsState) :
    RangesKept t := by
  obtain ⟨hs, hv, hm, hn⟩ := h
  refine ⟨hsettings ▸ hs, fun j => hvoicing j ▸ hv j, fun x hx => hm x (hmemory ▸ hx), fun x hx => hn x ?_⟩
  unfold storedNow at *
  rw [hstate] at hx
  exact hx

/-- A written voicing record that keeps its ranges keeps those of the node. -/
theorem RangesKept.of_voicing {c : Fin 8} (h : RangesKept s) (hsettings : t.settings = s.settings)
    (hservice : t.service = s.service) (hothers : ∀ j : Fin 8, j ≠ c → t.channels[j].voicing = s.channels[j].voicing)
    (hwritten : VoicingInRange t.channels[c].voicing) : RangesKept t := by
  obtain ⟨hs, hv, hm, hn⟩ := h
  refine ⟨hsettings ▸ hs, fun j => ?_, fun x hx => hm x (hservice ▸ hx), fun x hx => hn x ?_⟩
  · by_cases hj : j = c
    · exact hj ▸ hwritten
    · exact hothers j hj ▸ hv j
  · unfold storedNow at *
    rw [hservice] at hx
    exact hx

theorem timedVoicing_inRange {v : Voicing} (f : TimingFields) (h : VoicingInRange v) :
    VoicingInRange (timedVoicing v f) := by
  obtain ⟨hcurve, -⟩ := h
  refine ⟨hcurve, ?_⟩
  simp only [timedVoicing, clamp]
  omega

theorem setVoicing_voicing (c : Fin 8) (v : Voicing) (s : State) (j : Fin 8) :
    (setVoicing c v s).channels[j].voicing = if j = c then v else s.channels[j].voicing := by
  rw [setVoicing, updChannel_channel]
  split <;> rfl

theorem undamp_voicing (c : Fin 8) (s : State) (j : Fin 8) :
    (undamp c s).channels[j].voicing = s.channels[j].voicing := by
  rw [undamp, drainCheck_unchanged _ .channels (by decide), updChannel_channel]
  split <;> rfl

theorem writeTiming_voicing (c : Fin 8) (f : TimingFields) (s : State) (j : Fin 8) :
    (writeTiming c f s).channels[j].voicing =
      if j = c then timedVoicing s.channels[c].voicing f else s.channels[j].voicing := by
  unfold writeTiming
  dsimp only
  by_cases hdrop : s.channels[c].voicing.damped ∧ !f.damped
  · rw [if_pos hdrop, undamp_voicing, setVoicing_voicing]
  · rw [if_neg hdrop, setVoicing_voicing]

theorem nearestWait_mem (v : Nat) : nearestWait v ∈ [64000, 128000, 192000, 256000] := by
  unfold nearestWait
  repeat' split
  all_goals decide

theorem nearestHold_mem (v : Nat) : nearestHold v ∈ [0, 8000, 16000, 32000] := by
  unfold nearestHold
  repeat' split
  all_goals decide

theorem idleValue_inRange (v : Nat) : idleValue v = 0 ∨ (4000 ≤ idleValue v ∧ idleValue v ≤ 14400000) := by
  unfold idleValue
  split
  · exact .inl rfl
  · exact .inr (clamp_bounds (by decide) v)

theorem drive_settings {u v : State} (h : Unchanged [.drive] u v) : v.settings = u.settings := h .settings (by decide)

/-- The settings after a setting is written: the resume mode, hold time and idle time act on silence and bank only. -/
theorem setIdleTime_settings (v : Nat) (s : State) :
    (setIdleTime v s).settings = { s.settings with idleTime := v } := by
  unfold setIdleTime
  dsimp only
  split
  · exact startDrain_unchanged _ .settings (by decide)
  · rfl

theorem setAuto_settings (s : State) : (setAuto s).settings = { s.settings with resume := .auto } := by
  unfold setAuto
  dsimp only
  split
  · exact goHolding_unchanged _ .settings (by decide)
  · rfl

theorem setManual_settings (s : State) : (setManual s).settings = { s.settings with resume := .manual } := by
  unfold setManual
  dsimp only
  split
  · exact goSilent_unchanged true _ .settings (by decide)
  · rfl

theorem setHoldTime_settings (v : Nat) (s : State) :
    (setHoldTime v s).settings = { s.settings with holdTime := v } := by
  unfold setHoldTime
  dsimp only
  split <;> rfl

/-- A setting is written with a value of its range (R182). -/
theorem writeSetting_inRange {n : Nat} (v : Nat) (hn : n ≠ 14) (h : SettingsInRange s.settings) :
    SettingsInRange (writeSetting n (settingValue n v) s).settings := by
  unfold SettingsInRange at h
  obtain ⟨hrecharge, hready, hreserve, hidle, hlate, hfade, hlook, hwait, hbell, hinterval, hq1, hq2, hq3, hq4, hpre,
    hhold, hpost⟩ := h
  unfold writeSetting
  split
  case h_1 => exact ⟨clamp_bounds (by decide) v, hready, hreserve, hidle, hlate, hfade, hlook, hwait, hbell, hinterval, hq1,
    hq2, hq3, hq4, hpre, hhold, hpost⟩
  case h_2 => exact ⟨hrecharge, clamp_bounds (by decide) v, hreserve, hidle, hlate, hfade, hlook, hwait, hbell, hinterval,
    hq1, hq2, hq3, hq4, hpre, hhold, hpost⟩
  case h_3 => exact ⟨hrecharge, hready, (clamp_bounds (by decide) v).2, hidle, hlate, hfade, hlook, hwait, hbell,
    hinterval, hq1, hq2, hq3, hq4, hpre, hhold, hpost⟩
  case h_4 =>
    rw [setIdleTime_settings]
    exact ⟨hrecharge, hready, hreserve, idleValue_inRange v, hlate, hfade, hlook, hwait, hbell, hinterval, hq1, hq2, hq3,
      hq4, hpre, hhold, hpost⟩
  case h_5 => exact ⟨hrecharge, hready, hreserve, hidle, (clamp_bounds (by decide) v).2, hfade, hlook, hwait, hbell,
    hinterval, hq1, hq2, hq3, hq4, hpre, hhold, hpost⟩
  case h_6 => exact ⟨hrecharge, hready, hreserve, hidle, hlate, clamp_bounds (by decide) v, hlook, hwait, hbell, hinterval,
    hq1, hq2, hq3, hq4, hpre, hhold, hpost⟩
  case h_7 => exact ⟨hrecharge, hready, hreserve, hidle, hlate, hfade, clamp_bounds (by decide) v, hwait, hbell, hinterval,
    hq1, hq2, hq3, hq4, hpre, hhold, hpost⟩
  case h_8 => exact ⟨hrecharge, hready, hreserve, hidle, hlate, hfade, hlook, nearestWait_mem v, hbell, hinterval, hq1, hq2,
    hq3, hq4, hpre, hhold, hpost⟩
  case h_9 => exact ⟨hrecharge, hready, hreserve, hidle, hlate, hfade, hlook, hwait, clamp_bounds (by decide) v, hinterval,
    hq1, hq2, hq3, hq4, hpre, hhold, hpost⟩
  case h_10 => exact ⟨hrecharge, hready, hreserve, hidle, hlate, hfade, hlook, hwait, hbell, clamp_bounds (by decide) v,
    hq1, hq2, hq3, hq4, hpre, hhold, hpost⟩
  case h_11 => exact ⟨hrecharge, hready, hreserve, hidle, hlate, hfade, hlook, hwait, hbell, hinterval,
    clamp_bounds (by decide) v, hq2, hq3, hq4, hpre, hhold, hpost⟩
  case h_12 => exact ⟨hrecharge, hready, hreserve, hidle, hlate, hfade, hlook, hwait, hbell, hinterval, hq1,
    clamp_bounds (by decide) v, hq3, hq4, hpre, hhold, hpost⟩
  case h_13 => exact ⟨hrecharge, hready, hreserve, hidle, hlate, hfade, hlook, hwait, hbell, hinterval, hq1, hq2,
    clamp_bounds (by decide) v, hq4, hpre, hhold, hpost⟩
  case h_14 => exact ⟨hrecharge, hready, hreserve, hidle, hlate, hfade, hlook, hwait, hbell, hinterval, hq1, hq2, hq3,
    clamp_bounds (by decide) v, hpre, hhold, hpost⟩
  case h_15 => exact absurd rfl hn
  case h_18 =>
    split
    · rw [setAuto_settings]
      exact ⟨hrecharge, hready, hreserve, hidle, hlate, hfade, hlook, hwait, hbell, hinterval, hq1, hq2, hq3, hq4, hpre,
        hhold, hpost⟩
    · rw [setManual_settings]
      exact ⟨hrecharge, hready, hreserve, hidle, hlate, hfade, hlook, hwait, hbell, hinterval, hq1, hq2, hq3, hq4, hpre,
        hhold, hpost⟩
  case h_19 =>
    rw [setHoldTime_settings]
    exact ⟨hrecharge, hready, hreserve, hidle, hlate, hfade, hlook, hwait, hbell, hinterval, hq1, hq2, hq3, hq4, hpre,
      nearestHold_mem v, hpost⟩
  case h_21 => exact ⟨hrecharge, hready, hreserve, hidle, hlate, hfade, hlook, hwait, hbell, hinterval, hq1, hq2, hq3, hq4,
    hpre, hhold, (clamp_bounds (by decide) v).2⟩
  all_goals exact ⟨hrecharge, hready, hreserve, hidle, hlate, hfade, hlook, hwait, hbell, hinterval, hq1, hq2, hq3, hq4,
    hpre, hhold, hpost⟩

/-- Other settings take their place; voicings and memory stay. -/
theorem RangesKept.of_settings (h : RangesKept s) (hu : Unchanged [.settings, .drive, .silence, .trace] s t)
    (hrange : SettingsInRange t.settings) : RangesKept t := by
  obtain ⟨-, hv, hm, hn⟩ := h
  have hchannels : t.channels = s.channels := hu .channels (by decide)
  have hservice : t.service = s.service := hu .service (by decide)
  refine ⟨hrange, fun j => ?_, fun x hx => hm x (hservice ▸ hx), fun x hx => hn x ?_⟩
  · rw [hchannels]; exact hv j
  · unfold storedNow at *
    rw [hservice] at hx
    exact hx

theorem defaultImage_inRange : ImageInRange defaultImage := by
  refine ⟨by simp [SettingsInRange, defaultImage, defaultSettings], fun j => ?_⟩
  simp only [defaultImage, Fin.getElem_fin, Vector.getElem_replicate]
  exact ⟨by decide, by decide⟩

theorem storeImage_inRange (h : RangesKept s) : ImageInRange (storeImage s) := by
  refine ⟨h.1, fun j => ?_⟩
  simp only [storeImage, Fin.getElem_fin, Vector.getElem_ofFn]
  exact h.2.1 j

theorem powerOn_rangesKept (straps : Straps) (pins : Pins) (h : RangesKept s) : RangesKept (powerOn straps pins s) := by
  have himage : ImageInRange (s.service.memory.getD defaultImage) := by
    cases hm : s.service.memory with
    | none => exact defaultImage_inRange
    | some x => exact h.2.2.1 x hm
  refine RangesKept.of_same (s := powerOnBlocks straps pins s.service.memory s) ⟨himage.1, fun j => ?_, h.2.2.1,
    fun x hx => ?_⟩ (sampleConds_unchanged _ .settings (by decide))
    (fun j => by rw [powerOn, sampleConds_unchanged _ .channels (by decide)])
    (by rw [powerOn, sampleConds_unchanged _ .service (by decide)])
    (by rw [powerOn, sampleConds_unchanged _ .service (by decide)])
  · simp only [powerOnBlocks, Fin.getElem_fin, Vector.getElem_ofFn, freshChannel]
    exact himage.2 j
  · simp only [storedNow, powerOnBlocks] at hx
    split at hx
    next hstoring => split at hstoring <;> cases hstoring
    all_goals cases hx

theorem move_rangesKept (h : Move k ps s t) (hs : RangesKept s) : RangesKept t := by
  by_cases hkind : k ∈ [Kind.powerOn, .voicing, .settings, .store]
  case neg =>
    simp only [List.mem_cons, List.not_mem_nil, or_false, not_or] at hkind
    obtain ⟨hpower, hvoicing, hsettings, hstore⟩ := hkind
    exact hs.of_same (move_detail h .settings (by simp [Detail.writers, hpower, hsettings]))
      (move_detail h .voicing (by simp [Detail.writers, hpower, hvoicing]))
      (move_detail h .memory (by simp [Detail.writers, hstore]))
      (move_detail h .settingsState (by simp [Detail.writers, hpower, hstore]))
  cases h with
  | setVoicing c v _ _ hrange =>
    refine hs.of_voicing (c := c) rfl rfl (fun j hj => ?_) ?_
    · rw [setVoicing_voicing, if_neg hj]
    · rw [setVoicing_voicing, if_pos rfl]
      exact hrange (hs.2.1 c)
  | writeTiming c f =>
    refine hs.of_voicing (c := c) (writeTiming_unchanged s c f .settings (by decide))
      (writeTiming_unchanged s c f .service (by decide)) (fun j hj => ?_) ?_
    · rw [writeTiming_voicing, if_neg hj]
    · rw [writeTiming_voicing, if_pos rfl]
      exact timedVoicing_inRange f (hs.2.1 c)
  | setStore x m _ hmemory himage =>
    refine ⟨hs.1, hs.2.1, fun y hy => hs.2.2.2 y (hmemory y hy), fun y hy => ?_⟩
    simp only [storedNow, setStore_service] at hy
    cases x with
    | storing z tag =>
      cases hy
      rw [himage _ tag rfl]
      exact storeImage_inRange hs
    | _ => cases hy
  | writeSetting n v _ hn => exact hs.of_settings (writeSetting_unchanged s _ hn) (writeSetting_inRange v hn hs.1)
  | writePreroll v _ hv =>
    refine hs.of_settings (writeSettings_unchanged s _).widen ?_
    obtain ⟨hrecharge, hready, hreserve, hidle, hlate, hfade, hlook, hwait, hbell, hinterval, hq1, hq2, hq3, hq4, -, hhold,
      hpost⟩ := hs.1
    exact ⟨hrecharge, hready, hreserve, hidle, hlate, hfade, hlook, hwait, hbell, hinterval, hq1, hq2, hq3, hq4, hv, hhold,
      hpost⟩
  | powerOn straps pins => exact powerOn_rangesKept straps pins hs
  | _ => exact absurd hkind (by decide)

theorem isPresent_congr (h : t.straps = s.straps) (j : Fin 8) : isPresent t j = isPresent s j :=
  isPresent_of_straps h j

theorem haltedSound_of_zero (h : t.halted = 0) : HaltedSound t := by
  intro j hj
  rw [h] at hj
  simp at hj

theorem move_haltedSound (h : Move k ps s t) (hs : HaltedSound s) : HaltedSound t := by
  by_cases hkind : k ∈ [Kind.powerOn, .restart, .halted]
  case neg =>
    simp only [List.mem_cons, List.not_mem_nil, or_false, not_or] at hkind
    have hstraps : t.straps = s.straps := move_detail h .straps (by simp [Detail.writers, hkind])
    have hhalted : t.halted = s.halted := move_detail h .halted (by simp [Detail.writers, hkind])
    exact fun j hj => (isPresent_of_straps hstraps j).trans (hs j (hhalted ▸ hj))
  cases h with
  | setHalted m _ hm => exact fun j hj => (hm j hj).elim (hs j) id
  | powerOn straps pins =>
    exact haltedSound_of_zero (sampleConds_unchanged (powerOnBlocks straps pins s.service.memory s) .halted (by decide))
  | restart => exact haltedSound_of_zero (sampleConds_unchanged (restartBlocks s) .halted (by decide))
  | _ => exact absurd hkind (by decide)

end

/-- Settles O53, by the moves of a step: the writers of settings, voicings, memory and halted set keep the ranges. -/
theorem stepsKeepRanges : Obligations.StepsKeepRanges :=
  ⟨fun _ _ hs h => step_keeps (P := RangesKept) (fun _ _ hu => hu) move_rangesKept hs h,
    fun _ _ hs h => step_keeps (P := HaltedSound) (fun _ _ hu => hu) move_haltedSound hs h⟩

end Sys2Proof.Machine
end

