-- ==== Sys2Proof/Proofs/QueueMoves.lean ====
section
/-! What a move that inserts no entry does to the strike queue: entries leave it or change their mark, their lift time and
their duration. -/

namespace Sys2Proof.Machine

-- One proof after another: many at once would ask for more threads than the memory limit allows.
set_option Elab.async false

/-- One strike in two states: its mark, its lift time and its duration aside, the entry is the same. -/
def SameStrike (x y : Entry) : Prop :=
  y.channel = x.channel ∧ y.owner = x.owner ∧ y.launch = x.launch ∧ y.velocity = x.velocity ∧ y.admission = x.admission

/-- A strike queue that comes from another one: entries went, none came. -/
def QueueFrom (before after : List Entry) : Prop :=
  ∃ f : Entry → Entry, (∀ x, SameStrike x (f x)) ∧ after.Sublist (before.map f)

theorem QueueFrom.of_sublist {q r : List Entry} (h : r.Sublist q) : QueueFrom q r :=
  ⟨id, fun _ => ⟨rfl, rfl, rfl, rfl, rfl⟩, by rwa [List.map_id]⟩

theorem QueueFrom.of_map {q : List Entry} {f : Entry → Entry} (h : ∀ x, SameStrike x (f x)) : QueueFrom q (q.map f) :=
  ⟨f, h, .refl _⟩

theorem QueueFrom.of_eq {q r : List Entry} (h : r = q) : QueueFrom q r := .of_sublist (h ▸ .refl _)

theorem SameStrike.trans {x y z : Entry} (h1 : SameStrike x y) (h2 : SameStrike y z) : SameStrike x z := by
  obtain ⟨hc1, ho1, hl1, hv1, ha1⟩ := h1
  obtain ⟨hc2, ho2, hl2, hv2, ha2⟩ := h2
  exact ⟨hc2.trans hc1, ho2.trans ho1, hl2.trans hl1, hv2.trans hv1, ha2.trans ha1⟩

theorem QueueFrom.trans {q r p : List Entry} (h1 : QueueFrom q r) (h2 : QueueFrom r p) : QueueFrom q p := by
  obtain ⟨f, hf, hfsub⟩ := h1
  obtain ⟨g, hg, hgsub⟩ := h2
  refine ⟨g ∘ f, fun x => (hf x).trans (hg (f x)), ?_⟩
  rw [← List.map_map]
  exact hgsub.trans (hfsub.map g)

theorem QueueFrom.mem {q r : List Entry} (h : QueueFrom q r) {e : Entry} (he : e ∈ r) :
    ∃ x ∈ q, SameStrike x e := by
  obtain ⟨f, hf, hsub⟩ := h
  obtain ⟨x, hx, rfl⟩ := List.mem_map.mp (hsub.subset he)
  exact ⟨x, hx, hf x⟩

theorem QueueBelongs.of_queueFrom {s t : State} (h : QueueBelongs s) (hfloor : t.floor = s.floor)
    (hq : QueueFrom s.queue t.queue) : QueueBelongs t := by
  intro e he
  obtain ⟨x, hx, -, howner, -⟩ := hq.mem he
  have hbelongs := h x hx
  unfold EntryBelongs at *
  rw [howner, hfloor]
  exact hbelongs

section
variable {k : Kind} {ps : List Part} {s t : State}

theorem holdEntry_queueFrom (e : Entry) (s : State) : QueueFrom s.queue (holdEntry e s).queue :=
  .of_map fun x => by split <;> exact ⟨rfl, rfl, rfl, rfl, rfl⟩

theorem releaseEntry_queueFrom (e : Entry) (s : State) : QueueFrom s.queue (releaseEntry e s).queue :=
  .of_map fun x => by split <;> exact ⟨rfl, rfl, rfl, rfl, rfl⟩

theorem markHeld_queueFrom (s : State) : QueueFrom s.queue (markHeld s).queue :=
  .of_map fun x => by split <;> exact ⟨rfl, rfl, rfl, rfl, rfl⟩

theorem undampEntry_same (c : Fin 8) (e : Entry) : SameStrike e (undampEntry c e) := by
  unfold undampEntry
  split <;> exact ⟨rfl, rfl, rfl, rfl, rfl⟩

theorem writeTiming_queueFrom (c : Fin 8) (f : TimingFields) (s : State) :
    QueueFrom s.queue (writeTiming c f s).queue := by
  simp only [writeTiming]
  split
  · rw [undamp, drainCheck_unchanged _ .queue (by decide), updChannel_queue, setVoicing, updChannel_queue]
    exact .of_map (undampEntry_same c)
  · exact .of_eq (by rw [setVoicing, updChannel_queue])

theorem localTick_queueFrom (b : Bool) (s : State) : QueueFrom s.queue (localTick b s).queue := by
  simp only [localTick]
  rw [forgetErrors_unchanged _ .queue (by decide)]
  refine QueueFrom.trans (.of_eq ?_) (markHeld_queueFrom _)
  rw [tickBeacon_unchanged _ .queue (by decide), tickSlots_unchanged _ .queue (by decide),
    holdTick_unchanged _ .queue (by decide), idleTick_unchanged _ .queue (by decide),
    chargeTick_unchanged _ .queue (by decide), tickTime_unchanged _ .queue (by decide)]

theorem powerOn_queue (straps : Straps) (pins : Pins) (s : State) : (powerOn straps pins s).queue = [] :=
  sampleConds_unchanged (powerOnBlocks straps pins s.service.memory s) .queue (by decide)

theorem restart_queue (s : State) : (restart s).queue = [] :=
  sampleConds_unchanged (restartBlocks s) .queue (by decide)

/-- A move that inserts no entry leaves a queue that comes from the one before. -/
theorem move_queueFrom (h : Move k ps s t) (hk : k ≠ .enqueue) : QueueFrom s.queue t.queue := by
  by_cases hd : Part.queue ∈ ps
  case neg => exact .of_eq (h.unchanged .queue hd)
  cases h with
  | remove o e => exact .of_sublist (by rw [removeEntry_queue]; exact List.erase_sublist)
  | launch e => exact .of_sublist (by rw [launchEntry_queue]; exact List.erase_sublist)
  | hold e => exact holdEntry_queueFrom e s
  | release e => exact releaseEntry_queueFrom e s
  | enqueue => exact absurd rfl hk
  | exchange => exact absurd rfl hk
  | writeTiming c f => exact writeTiming_queueFrom c f s
  | localTick b => exact localTick_queueFrom b s
  | powerOn straps pins => exact .of_sublist (by rw [powerOn_queue]; exact List.nil_sublist _)
  | restart => exact .of_sublist (by rw [restart_queue]; exact List.nil_sublist _)
  | _ => exact absurd hd (by decide)

end

theorem mem_insertEntry {e x : Entry} {l : List Entry} : x ∈ insertEntry e l ↔ x = e ∨ x ∈ l := by
  induction l with
  | nil => simp [insertEntry]
  | cons y l ih =>
    rw [insertEntry]
    split
    · simp
    · simp only [List.mem_cons, ih]
      tauto

end Sys2Proof.Machine
end

