-- ==== Sys2Proof/Proofs/FloorKept.lean ====
section
/-! Every move keeps the floor record sound and the queued entries of its performances (R42, R103). -/

namespace Sys2Proof.Machine

-- One proof after another: many at once would ask for more threads than the memory limit allows.
set_option Elab.async false

/-- The floor record and the entries that belong to it. -/
def FloorAndQueueSound (s : State) : Prop := FloorSound s ∧ QueueBelongs s

theorem FloorSound.of_kept {s t : State} (h : FloorSound s) (hkept : FloorKept s.floor t.floor) : FloorSound t := by
  obtain ⟨hholder, hfading⟩ := hkept
  intro x g hx hg
  obtain ⟨f, hf, hperf, hpriority, -⟩ := hfading g hg
  rw [hperf, hpriority]
  exact h x f (hholder ▸ hx) hf

theorem enqueue_belongs {e : Entry} {s : State} (h : QueueBelongs s) (he : EntryBelongs s.floor e) :
    QueueBelongs (enqueue e s) := by
  intro x hx
  obtain rfl | hx := mem_insertEntry.mp hx
  · exact he
  · exact h x hx

section
variable {k : Kind} {ps : List Part} {s t : State}

theorem FloorAndQueueSound.of_queueFrom (h : FloorAndQueueSound s) (hfloor : t.floor = s.floor)
    (hq : QueueFrom s.queue t.queue) : FloorAndQueueSound t :=
  ⟨h.1.of_kept (.of_eq hfloor), h.2.of_queueFrom hfloor hq⟩

theorem floorAndQueueSound_of_empty (hholder : t.floor = FloorRecord.initial) (hqueue : t.queue = []) :
    FloorAndQueueSound t :=
  ⟨floorSound_of_no_holder (by rw [hholder]; rfl), by rw [QueueBelongs, hqueue]; exact fun _ h => absurd h (by simp)⟩

theorem move_floorAndQueueSound (h : Move k ps s t) (hs : FloorAndQueueSound s) : FloorAndQueueSound t := by
  by_cases hfloor : Part.floor ∈ ps
  case neg =>
    have hsame : t.floor = s.floor := h.unchanged .floor hfloor
    by_cases hk : k = .enqueue
    case neg => exact hs.of_queueFrom hsame (move_queueFrom h hk)
    subst hk
    cases h with
    | enqueue e _ _ _ hbelongs => exact ⟨hs.1, enqueue_belongs hs.2 hbelongs⟩
    | exchange => exact absurd (by decide) hfloor
  cases h with
  | remove o e => exact ⟨hs.1.of_kept (removeEntry_kept o e s), removeEntry_belongs hs.2⟩
  | launch e => exact ⟨hs.1.of_kept (launchEntry_kept e s), launchEntry_belongs hs.2⟩
  | exchange x e _ _ _ hbelongs =>
    exact ⟨hs.1.of_kept (removeEntry_kept .purged x s), enqueue_belongs (removeEntry_belongs hs.2) hbelongs⟩
  | writeFloor r _ hr => exact hr hs.1 hs.2
  | powerOn straps pins =>
    exact floorAndQueueSound_of_empty
      (sampleConds_unchanged (powerOnBlocks straps pins s.service.memory s) .floor (by decide)) (powerOn_queue _ _ s)
  | restart =>
    exact floorAndQueueSound_of_empty (sampleConds_unchanged (restartBlocks s) .floor (by decide)) (restart_queue s)
  | _ => exact absurd hfloor (by decide)

end

/-- Settles O58, by the moves of a step. -/
theorem stepsKeepFloor : Obligations.StepsKeepFloor :=
  fun _ _ hfloor hqueue h =>
    step_keeps (P := FloorAndQueueSound) (fun _ _ hu => hu) move_floorAndQueueSound ⟨hfloor, hqueue⟩ h

end Sys2Proof.Machine
end

