-- ==== Sys2Proof/Proofs/LocksKept.lean ====
section
/-! Every move keeps the locks of the tune slots and the pool of events (R144, R149, R155). -/

namespace Sys2Proof.Machine

-- One proof after another: many at once would ask for more threads than the memory limit allows.
set_option Elab.async false

/-! ### Sums over slots and parts -/

theorem toList_eq_ofFn {α : Type} {n : Nat} (v : Vector α n) : v.toList = List.ofFn fun k : Fin n => v[k] := by
  rw [← Vector.toList_ofFn]
  congr 1
  ext i hi
  simp

theorem countP_eq_sum {α : Type} (p : α → Bool) (l : List α) : l.countP p = (l.map fun x => if p x then 1 else 0).sum := by
  induction l with
  | nil => rfl
  | cons x l ih => rw [List.countP_cons, List.map_cons, List.sum_cons, ih, Nat.add_comm]

/-- A sum in which one summand changes. -/
theorem sum_of_changed {n : Nat} {f g : Fin n → Nat} {k : Fin n} (h : ∀ j, j ≠ k → g j = f j) :
    (∑ j, g j) + f k = (∑ j, f j) + g k := by
  have hf := Finset.add_sum_erase Finset.univ f (Finset.mem_univ k)
  have hg := Finset.add_sum_erase Finset.univ g (Finset.mem_univ k)
  have hrest : ∑ j ∈ Finset.univ.erase k, g j = ∑ j ∈ Finset.univ.erase k, f j :=
    Finset.sum_congr rfl fun j hj => h j (Finset.ne_of_mem_erase hj)
  omega

/-- The tune slot a performance slot plays from. -/
def Slot.tune (x : Slot) : Option (Fin 32) := x.perf?.map Perf.slot

theorem playersOf_eq (s : State) (t : Fin 32) :
    playersOf s t = ∑ k : Fin 4, if s.conductor.slots[k].tune = some t then 1 else 0 := by
  have hplays : playersOf s t = s.conductor.slots.toList.countP fun x => decide (x.tune = some t) := by
    rw [playersOf]
    congr 1
    funext x
    cases x <;> simp [Slot.perf?, Slot.tune]
  rw [hplays, countP_eq_sum, toList_eq_ofFn, List.map_ofFn, List.sum_ofFn]
  exact Finset.sum_congr rfl fun k _ => by simp

theorem poolUsed_eq (s : State) : poolUsed s = ∑ t : Fin 32, s.library.parts[t].poolEvents := by
  rw [poolUsed, toList_eq_ofFn, List.map_ofFn, List.sum_ofFn]
  rfl

theorem imageEvents_eq (x : StoreImage) : imageEvents x = ∑ t : Fin 32, (takenPart x.tunes[t]).poolEvents := by
  rw [imageEvents, toList_eq_ofFn, List.map_ofFn, List.sum_ofFn]
  refine Finset.sum_congr rfl fun t _ => ?_
  simp only [Function.comp_apply]
  cases x.tunes[t] <;> rfl

/-! ### Locks -/

section
variable {k : Kind} {ps : List Part} {s t : State}

theorem playersOf_congr (h : ∀ k : Fin 4, t.conductor.slots[k].tune = s.conductor.slots[k].tune) (n : Fin 32) :
    playersOf t n = playersOf s n := by
  rw [playersOf_eq, playersOf_eq]
  exact Finset.sum_congr rfl fun k _ => by rw [h k]

theorem playersOf_changed {c : Fin 4} (h : ∀ j : Fin 4, j ≠ c → t.conductor.slots[j] = s.conductor.slots[j]) (n : Fin 32) :
    playersOf t n + (if s.conductor.slots[c].tune = some n then 1 else 0) =
      playersOf s n + (if t.conductor.slots[c].tune = some n then 1 else 0) := by
  rw [playersOf_eq, playersOf_eq]
  exact sum_of_changed (f := fun j => if s.conductor.slots[j].tune = some n then 1 else 0)
    (g := fun j => if t.conductor.slots[j].tune = some n then 1 else 0) fun j hj => by rw [h j hj]

theorem playersOf_idle (h : t.conductor.slots = Vector.replicate 4 .idle) (n : Fin 32) : playersOf t n = 0 := by
  rw [playersOf_eq, h]
  simp [Slot.tune, Slot.perf?]

theorem playersOf_pos {c : Fin 4} {p : Perf} (h : s.conductor.slots[c] = .active p) : 0 < playersOf s p.slot := by
  rw [playersOf_eq]
  refine Finset.sum_pos' (fun _ _ => Nat.zero_le _) ⟨c, Finset.mem_univ c, ?_⟩
  simp [h, Slot.tune, Slot.perf?]

theorem SlotKept.tune {x y : Slot} (h : SlotKept x y) : y.tune = x.tune := by
  cases x with
  | active p =>
    obtain ⟨q, rfl, hq⟩ := h
    simp [Slot.tune, Slot.perf?, hq.slot]
  | idle => cases h; rfl
  | ended => cases h; rfl

theorem Slot.change_tune {f : Perf → Perf} (hf : ∀ p, (f p).slot = p.slot) (x : Slot) : (x.change f).tune = x.tune := by
  cases x with
  | active p => simp [Slot.change, Slot.tune, Slot.perf?, hf p]
  | idle => rfl
  | ended => rfl

theorem Slot.tune_of_free {x : Slot} (h : x.isFree = true) : x.tune = none := by
  rw [Slot.isFree, Option.isNone_iff_eq_none] at h
  rw [Slot.tune, h]
  rfl

theorem resolvesValid_congr (hoverlay : t.library.overlay = s.library.overlay)
    (hparts : t.library.parts = s.library.parts) (n : Fin 32) : resolvesValid t n = resolvesValid s n := by
  rw [resolvesValid, resolvesValid, resolveSlot, resolveSlot, hoverlay, hparts]

theorem LocksSound.of_slots (h : LocksSound s) (hlibrary : t.library = s.library)
    (hslots : ∀ k : Fin 4, t.conductor.slots[k].tune = s.conductor.slots[k].tune) : LocksSound t := by
  intro n
  have hvalid : resolvesValid t n = resolvesValid s n := resolvesValid_congr (by rw [hlibrary]) (by rw [hlibrary]) n
  rw [playersOf_congr hslots, hlibrary, hvalid]
  exact h n

theorem LocksSound.of_library (h : LocksSound s) (hconductor : t.conductor = s.conductor)
    (hlocks : t.library.locks = s.library.locks)
    (hvalid : ∀ n : Fin 32, 0 < s.library.locks[n] → resolvesValid t n = resolvesValid s n) : LocksSound t := by
  intro n
  have hplayers : playersOf t n = playersOf s n := playersOf_congr (fun k => by rw [hconductor]) n
  rw [hplayers, hlocks]
  exact ⟨(h n).1, fun hn => (hvalid n hn).trans ((h n).2 hn)⟩

theorem locksSound_of_unlocked (hlocks : t.library.locks = Vector.replicate 32 0)
    (hslots : t.conductor.slots = Vector.replicate 4 .idle) : LocksSound t := by
  intro n
  rw [playersOf_idle hslots, hlocks]
  simp

theorem setSlot_slots (c : Fin 4) (x : Slot) (s : State) (j : Fin 4) :
    (setSlot c x s).conductor.slots[j] = if c = j then x else s.conductor.slots[j] := by
  by_cases h : c = j
  · subst h; simp
  · simp [h, Fin.val_ne_of_ne h]

theorem tickPerf_slot (p : Perf) : (tickPerf p).slot = p.slot := by
  rw [tickPerf]
  split <;> rfl

theorem localTick_slots (b : Bool) (s : State) (j : Fin 4) :
    (localTick b s).conductor.slots[j] = s.conductor.slots[j].change tickPerf := by
  have hafter (u : State) : (forgetErrors (markHeld (tickBeacon (tickSlots u)))).conductor = (tickSlots u).conductor :=
    (((tickBeacon_unchanged (tickSlots u)).widen.andThen (markHeld_unchanged _)).andThen
      (forgetErrors_unchanged _) : Unchanged [.line, .queue] _ _) .conductor (by decide)
  have hbefore (u : State) : (holdTick (idleTick (chargeTick (tickTime u)))).conductor = u.conductor := by
    rw [holdTick_unchanged _ .conductor (by decide), idleTick_unchanged _ .conductor (by decide),
      chargeTick_unchanged _ .conductor (by decide), tickTime_unchanged _ .conductor (by decide)]
  have hconductor : (localTick b s).conductor = (tickSlots s).conductor :=
    (hafter _).trans (by rw [tickSlots, hbefore]; rfl)
  simp only [hconductor, tickSlots, Fin.getElem_fin, Vector.getElem_ofFn]

theorem lockTune_locks (n : Fin 32) (s : State) (j : Fin 32) :
    (lockTune n s).library.locks[j] = s.library.locks[j] + (if n = j then 1 else 0) := by
  by_cases h : n = j
  · subst h; simp
  · simp [h, Fin.val_ne_of_ne h]

theorem unlockTune_locks (n : Fin 32) (s : State) (j : Fin 32) :
    (unlockTune n s).library.locks[j] = s.library.locks[j] - (if n = j then 1 else 0) := by
  by_cases h : n = j
  · subst h; simp
  · simp [h, Fin.val_ne_of_ne h]

theorem beginPerf_locksSound {c : Fin 4} {p : Perf} (h : LocksSound s) (hfree : s.conductor.slots[c].isFree = true)
    (hvalid : resolvesValid s p.slot = true) : LocksSound (lockTune p.slot (setSlot c (.active p) s)) := by
  intro n
  have hplayers := playersOf_changed (s := s) (t := lockTune p.slot (setSlot c (.active p) s)) (c := c)
    (fun j hj => by rw [lockTune_conductor, setSlot_slots, if_neg (Ne.symm hj)]) n
  rw [Slot.tune_of_free hfree, lockTune_conductor, setSlot_slots, if_pos rfl] at hplayers
  simp only [Slot.tune, Slot.perf?, Option.map_some, Option.some.injEq, reduceCtorEq, if_false] at hplayers
  obtain ⟨hlocks, hresolves⟩ := h n
  have hsame : resolvesValid (lockTune p.slot (setSlot c (.active p) s)) n = resolvesValid s n :=
    resolvesValid_congr rfl rfl n
  rw [lockTune_locks, hsame]
  refine ⟨?_, fun _ => ?_⟩
  · rw [setSlot_library]
    omega
  · by_cases hn : p.slot = n
    · exact hn ▸ hvalid
    · refine hresolves ?_
      simp_all

theorem endPerf_locksSound {c : Fin 4} {p : Perf} (seq : BitVec 8) (o : PerfOutcome) (h : LocksSound s)
    (hslot : s.conductor.slots[c] = .active p) : LocksSound (setSlot c (.ended seq o) (unlockTune p.slot s)) := by
  intro n
  have hplayers := playersOf_changed (s := s) (t := setSlot c (.ended seq o) (unlockTune p.slot s)) (c := c)
    (fun j hj => by rw [setSlot_slots, if_neg (Ne.symm hj), unlockTune_conductor]) n
  rw [hslot, setSlot_slots, if_pos rfl] at hplayers
  simp only [Slot.tune, Slot.perf?, Option.map_some, Option.some.injEq, Option.map_none, reduceCtorEq, if_false]
    at hplayers
  obtain ⟨hlocks, hresolves⟩ := h n
  have hsame : resolvesValid (setSlot c (.ended seq o) (unlockTune p.slot s)) n = resolvesValid s n :=
    resolvesValid_congr rfl rfl n
  rw [setSlot_library, unlockTune_locks, hsame]
  exact ⟨by omega, fun hn => hresolves (by omega)⟩

theorem setPart_locksSound {n : Fin 32} {x : LoadedPart} (h : LocksSound s)
    (hfree : resolvesValid s n = false ∨ isLocked s n = false) : LocksSound (setPart n x s) := by
  have hunlocked : s.library.locks[n] = 0 := by
    rcases hfree with hinvalid | hfree
    · refine Nat.eq_zero_of_not_pos fun hpos => ?_
      rw [(h n).2 hpos] at hinvalid
      cases hinvalid
    · exact Nat.eq_zero_of_not_pos (of_decide_eq_false hfree)
  refine h.of_library (setPart_conductor n x s) rfl fun j hj => ?_
  have hne : n ≠ j := by
    rintro rfl
    omega
  rw [resolvesValid, resolvesValid, resolveSlot, resolveSlot]
  simp [Fin.val_ne_of_ne hne]

theorem unlocked_of_overlay {n : Fin 32} (h : overlayHeld s = false) (hn : n.val < 8) : s.library.locks[n] = 0 := by
  simp only [overlayHeld, List.any_eq_false] at h
  have hmem : n.val ∈ [0, 1, 2, 3, 4, 5, 6, 7] := by
    have : n.val ∈ List.range 8 := List.mem_range.mpr hn
    exact this
  have hfree := h n.val hmem
  simp only [Bool.or_eq_true, not_or] at hfree
  have hlocked := hfree.1
  rw [isLocked, decide_eq_true_eq, Nat.not_lt, Nat.le_zero] at hlocked
  have hval : Fin.ofNat 32 n.val = n := Fin.ext (Nat.mod_eq_of_lt n.isLt)
  rwa [hval] at hlocked

theorem setOverlay_locksSound {on : Bool} (h : LocksSound s) (hheld : overlayHeld s = false) :
    LocksSound (setOverlay on s) := by
  refine h.of_library rfl rfl fun n hn => ?_
  have hsmall : 8 ≤ n.val := by
    by_contra hsmall
    have := unlocked_of_overlay hheld (Nat.lt_of_not_le hsmall)
    omega
  rw [resolvesValid, resolvesValid, resolveSlot, resolveSlot]
  simp [hsmall, setOverlay]

/-- A move that writes no lock leaves the tune slots its performances play from. -/
theorem move_locksSound (h : Move k ps s t) (hs : LocksSound s) : LocksSound t := by
  by_cases hd : Part.conductor ∈ ps ∨ Part.library ∈ ps
  case neg =>
    have hconductor : t.conductor = s.conductor := h.unchanged .conductor fun hp => hd (.inl hp)
    exact hs.of_slots (h.unchanged .library fun hp => hd (.inr hp)) fun j => by rw [hconductor]
  cases h with
  | localTick b =>
    exact hs.of_slots (localTick_unchanged s b .library (by decide)) fun j => by
      rw [localTick_slots, Slot.change_tune tickPerf_slot]
  | handFrame x => exact hs.of_slots (handFrame_unchanged x s .library (by decide)) fun j => (handFrame_kept x s j).tune
  | handBeacon b =>
    exact hs.of_slots (handBeacon_unchanged b s .library (by decide)) fun j => (handBeacon_kept b s j).tune
  | frameGone o => exact hs.of_slots (frameGone_unchanged o s .library (by decide)) fun j => (frameGone_kept o s j).tune
  | frameLost x => exact hs.of_slots (frameLost_unchanged x s .library (by decide)) fun j => (frameLost_kept x s j).tune
  | updPerf c f _ hf =>
    exact hs.of_slots rfl fun j => by
      rw [updPerf_slots]
      split
      · exact Slot.change_tune hf _
      · rfl
  | bumpSequence seq => exact hs.of_slots rfl fun j => rfl
  | endFree c seq o _ hfree =>
    exact hs.of_slots rfl fun j => by
      rw [setSlot_slots]
      split
      next hj => rw [← hj, Slot.tune_of_free hfree]; rfl
      · rfl
  | beginPerf c p _ hfree hvalid => exact beginPerf_locksSound hs hfree hvalid
  | endPerf c p seq o _ hslot => exact endPerf_locksSound seq o hs hslot
  | replacePerf c p q _ hslot hsame =>
    exact hs.of_slots rfl fun j => by
      rw [setSlot_slots]
      split
      next hj => rw [← hj, hslot]; simp [Slot.tune, Slot.perf?, hsame]
      · rfl
  | setPart n x _ hfree => exact setPart_locksSound hs hfree
  | setOverlay on _ hheld => exact setOverlay_locksSound hs hheld
  | powerOn straps pins =>
    refine locksSound_of_unlocked ?_ ?_
    · rw [powerOn, sampleConds_unchanged _ .library (by decide)]
      rfl
    · rw [powerOn, sampleConds_unchanged _ .conductor (by decide)]
      rfl
  | restart =>
    refine locksSound_of_unlocked ?_ ?_
    · rw [restart_library, Library.restarted]
    · rw [restart, sampleConds_unchanged _ .conductor (by decide)]
      rfl
  | _ => exact absurd hd (by decide)

/-! ### The event pool -/

theorem PoolSound.of_parts (h : PoolSound s) (hused : poolUsed t ≤ poolUsed s) (hmemory : t.service.memory = s.service.memory)
    (hstate : t.service.settingsState = s.service.settingsState) : PoolSound t := by
  obtain ⟨hpool, hm, hn⟩ := h
  refine ⟨hused.trans hpool, fun x hx => hm x (hmemory ▸ hx), fun x hx => hn x ?_⟩
  unfold storedNow at *
  rw [hstate] at hx
  exact hx

theorem setPart_poolUsed (n : Fin 32) (x : LoadedPart) (s : State) :
    poolUsed (setPart n x s) + s.library.parts[n].poolEvents = poolUsed s + x.poolEvents := by
  have hsum := sum_of_changed (f := fun j : Fin 32 => s.library.parts[j].poolEvents)
    (g := fun j : Fin 32 => (setPart n x s).library.parts[j].poolEvents) (k := n) fun j hj => by
      simp [Fin.val_ne_of_ne (Ne.symm hj)]
  rw [poolUsed_eq, poolUsed_eq, hsum]
  simp

theorem storeImage_events (s : State) : imageEvents (storeImage s) ≤ poolUsed s := by
  rw [imageEvents_eq, poolUsed_eq]
  refine Finset.sum_le_sum fun n _ => ?_
  simp only [storeImage, Fin.getElem_fin, Vector.getElem_ofFn]
  cases s.library.parts[n.val] <;> simp [LoadedPart.stored, takenPart, LoadedPart.poolEvents]

theorem restart_poolUsed (s : State) : poolUsed (restart s) ≤ poolUsed s := by
  rw [poolUsed_eq, poolUsed_eq, restart_library]
  refine Finset.sum_le_sum fun n _ => ?_
  simp only [Library.restarted, Fin.getElem_fin, Vector.getElem_ofFn]
  cases s.library.parts[n.val] <;> simp [LoadedPart.restarted, LoadedPart.poolEvents]

theorem defaultImage_events : imageEvents defaultImage = 0 := by
  rw [imageEvents_eq]
  simp [defaultImage, takenPart, LoadedPart.poolEvents]

theorem powerOn_poolUsed (straps : Straps) (pins : Pins) (s : State) :
    poolUsed (powerOn straps pins s) = imageEvents (s.service.memory.getD defaultImage) := by
  rw [poolUsed_eq, imageEvents_eq, powerOn, sampleConds_unchanged _ .library (by decide)]
  refine Finset.sum_congr rfl fun n _ => ?_
  simp only [powerOnBlocks, libraryFrom, Fin.getElem_fin, Vector.getElem_ofFn]

theorem powerOn_storedNow (straps : Straps) (pins : Pins) (s : State) : storedNow (powerOn straps pins s) = none := by
  rw [storedNow, powerOn, sampleConds_unchanged _ .service (by decide)]
  simp only [powerOnBlocks]
  cases s.service.memory <;> rfl

theorem powerOn_poolSound (straps : Straps) (pins : Pins) (h : PoolSound s) : PoolSound (powerOn straps pins s) := by
  refine ⟨?_, fun x hx => h.2.1 x ?_, fun x hx => ?_⟩
  · rw [powerOn_poolUsed]
    cases hm : s.service.memory with
    | none => simp [defaultImage_events]
    | some x => exact h.2.1 x hm
  · rw [← hx, powerOn, sampleConds_unchanged _ .service (by decide)]
    rfl
  · rw [powerOn_storedNow] at hx
    cases hx

theorem setStore_poolSound {x : SettingsState} {m : Option StoreImage} (h : PoolSound s)
    (hmemory : ∀ y, m = some y → storedNow s = some y) (himage : ∀ y tag, x = .storing y tag → y = storeImage s) :
    PoolSound (setStore x m s) := by
  refine ⟨h.1, fun y hy => h.2.2 y (hmemory y hy), fun y hy => ?_⟩
  simp only [storedNow, setStore_service] at hy
  cases x with
  | storing z tag =>
    cases hy
    rw [himage _ tag rfl]
    exact (storeImage_events s).trans h.1
  | _ => cases hy

theorem move_poolSound (h : Move k ps s t) (hs : PoolSound s) : PoolSound t := by
  by_cases hkind : k ∈ [Kind.powerOn, .restart, .parts, .store]
  case neg =>
    simp only [List.mem_cons, List.not_mem_nil, or_false, not_or] at hkind
    have hparts : t.library.parts = s.library.parts := move_detail h .parts (by simp [Detail.writers, hkind])
    exact hs.of_parts (by rw [poolUsed, poolUsed, hparts]) (move_detail h .memory (by simp [Detail.writers, hkind]))
      (move_detail h .settingsState (by simp [Detail.writers, hkind]))
  cases h with
  | setStore x m _ hmemory himage => exact setStore_poolSound hs hmemory himage
  | setPart n x _ _ hpool =>
    refine ⟨?_, hs.2⟩
    have hsum := setPart_poolUsed n x s
    have hbound := hs.1
    simp only [poolFree, Config.poolSize] at hpool
    omega
  | powerOn straps pins => exact powerOn_poolSound straps pins hs
  | restart =>
    exact hs.of_parts (restart_poolUsed s) (move_detail (.restart s) .memory (by decide))
      (move_detail (.restart s) .settingsState (by decide))
  | _ => exact absurd hkind (by decide)

end

/-- Settles O59, by the moves of a step: a performance takes its lock when it takes its slot and gives it back with it, and
a part takes no more events than the pool has free. -/
theorem stepsKeepLocks : Obligations.StepsKeepLocks :=
  ⟨fun _ _ hs h => step_keeps (P := LocksSound) (fun _ _ hu => hu) move_locksSound hs h,
    fun _ _ hs h => step_keeps (P := PoolSound) (fun _ _ hu => hu) move_poolSound hs h⟩

end Sys2Proof.Machine
end

