-- ==== Sys2Proof/Proofs/BankAndClock.lean ====
section
/-! Every move keeps the drive bank and the clock sound (R23, R28, R34, R63, R66). -/

namespace Sys2Proof.Machine

-- One proof after another: many at once would ask for more threads than the memory limit allows.
set_option Elab.async false

section
variable {k : Kind} {ps : List Part} {s t : State}

/-! ### The bank -/

theorem BankSound.of_same (h : BankSound s) (hmode : t.drive.mode = s.drive.mode) (hlevel : t.drive.level = s.drive.level)
    (hready : t.settings.readyLevel = s.settings.readyLevel) (haccess : t.pins.access = s.pins.access) : BankSound t := by
  unfold BankSound
  rw [hmode, hlevel, hready, haccess]
  exact h

theorem BankSound.of_unchanged (h : BankSound s) (hu : Unchanged ps s t) (hdrive : Part.drive ∉ ps := by decide)
    (hsettings : Part.settings ∉ ps := by decide) (hpins : Part.pins ∉ ps := by decide) : BankSound t :=
  h.of_same (by rw [hu .drive hdrive]) (by rw [hu .drive hdrive]) (by rw [hu .settings hsettings])
    (by rw [hu .pins hpins])

theorem bankSound_off (hmode : t.drive = Drive.initial) : BankSound t := by
  unfold BankSound
  rw [hmode]
  simp [Drive.initial]

theorem BankSound.noAccess (h : BankSound s) (hmode : s.drive.mode ≠ .off) : s.pins.access = false :=
  Bool.eq_false_iff.mpr fun haccess => hmode (h.2.2.2.2 haccess)

theorem bankUp_iff {d : DriveState} : bankUp d = true ↔ d = .charging ∨ d = .ready := by
  cases d <;> simp [bankUp]

/-- CHARGING and READY, re-derived, stand on their sides of the ready level (R28). -/
theorem bankSync_bankSound (hlevel : s.drive.level ≤ 60000) (hup : bankUp s.drive.mode = true)
    (haccess : s.pins.access = false) : BankSound (bankSync s) := by
  have hmode : driveFor s s.drive.mode s.drive.level =
      if s.settings.readyLevel ≤ s.drive.level then .ready else .charging := by
    rcases bankUp_iff.mp hup with hmode | hmode <;> rw [hmode, driveFor]
  unfold BankSound
  simp only [bankSync_drive, bankSync_settings, bankSync_pins, hmode]
  split <;> simp_all

theorem drainCheck_bankSound (h : BankSound s) : BankSound (drainCheck s) := by
  unfold drainCheck
  split
  next hdrain =>
    have haccess := h.noAccess (by simp [hdrain.1])
    simp [BankSound]
  · exact h

theorem wakeBank_bankSound (h : BankSound s) (hrange : 1 ≤ s.settings.readyLevel) : BankSound (wakeBank s) := by
  by_cases haccess : s.pins.access
  · exact h.of_same (by simp [wakeBank, haccess]) rfl rfl rfl
  · obtain ⟨hfull, hoff, hcharging, hready, -⟩ := h
    unfold BankSound
    simp only [wakeBank, haccess]
    cases hmode : s.drive.mode <;> grind

theorem startDrain_bankSound (h : BankSound s) (hup : bankUp s.drive.mode = true) : BankSound (startDrain s) := by
  have haccess := h.noAccess fun hoff => by simp [hoff, bankUp] at hup
  exact drainCheck_bankSound (by simp [BankSound, haccess, h.1])

theorem idleDrop_bankSound (c : Fin 8) (h : BankSound s) : BankSound (idleDrop c s) := by
  simp only [idleDrop]
  split
  · exact drainCheck_bankSound (h.of_unchanged (updChannel_unchanged c _ s))
  · exact h

theorem dropDamper_bankSound (c : Fin 8) (h : BankSound s) : BankSound (dropDamper c s) := by
  unfold dropDamper
  split
  · exact h
  split
  · exact h.of_unchanged (updChannel_unchanged c _ s)
  · exact drainCheck_bankSound (h.of_unchanged ((updChannel_unchanged c _ s).andThen (tryLift_unchanged c _)))

theorem afterRemoval_bankSound (e : Entry) (h : BankSound s) : BankSound (afterRemoval e s) := by
  have hchecked : BankSound (if (fadingOf s e).isSome then checkFading s else s) :=
    h.of_unchanged (.ite (checkFading_unchanged s) (.refl _ s))
  exact (idleDrop_bankSound _ hchecked).of_unchanged (fadeOut_unchanged _)

theorem removeEntry_bankSound (o : StrikeOutcome) (e : Entry) (h : BankSound s) : BankSound (removeEntry o e s) :=
  afterRemoval_bankSound e (h.of_unchanged (ps := [.queue, .trace, .counters])
    (((writeQueue_unchanged s _).widen.andThen (writeRecord_unchanged _ _)).andThen (raise_unchanged _ _)))

theorem closeLaunch_bankSound (e : Entry) (o : StrikeOutcome) (h : BankSound s) : BankSound (closeLaunch e o s) :=
  afterRemoval_bankSound e (h.of_unchanged (ps := [.counters, .floor, .silence, .trace])
    (((raise_unchanged _ s).widen.andThen (preemptStep_unchanged e _)).andThen (fadeStepSilence_unchanged _)))

/-- Only CHARGING and READY fire a strike (R51). -/
theorem bankUp_of_fired {e : Entry} {u : Nat} {o : StrikeOutcome} (h : serve s e = .fired u o) :
    bankUp s.drive.mode = true := by
  unfold serve at h
  by_contra hdown
  rw [Bool.not_eq_true] at hdown
  split at h
  · cases h
  split at h
  · cases h
  split at h
  · cases h
  rw [hdown] at h
  cases h

theorem fireEntry_bankSound (e : Entry) (u : Nat) (h : BankSound s) (hup : bankUp s.drive.mode = true) :
    BankSound (fireEntry e u s) :=
  bankSync_bankSound ((Nat.sub_le _ _).trans h.1) hup (h.noAccess fun hoff => by simp [hoff, bankUp] at hup)

theorem launchEntry_bankSound (e : Entry) (h : BankSound s) : BankSound (launchEntry e s) := by
  have hgone : BankSound (dequeue e s) := h.of_unchanged (ps := [.queue]) (writeQueue_unchanged s _)
  simp only [launchEntry]
  split
  · exact closeLaunch_bankSound _ _ (hgone.of_unchanged (writeRecord_unchanged _ _))
  next u o hfired =>
    exact closeLaunch_bankSound _ _
      ((fireEntry_bankSound _ u hgone (bankUp_of_fired hfired)).of_unchanged (writeRecord_unchanged _ _))

theorem writeTiming_bankSound (c : Fin 8) (f : TimingFields) (h : BankSound s) : BankSound (writeTiming c f s) := by
  have hwritten : BankSound (setVoicing c (timedVoicing s.channels[c].voicing f) s) :=
    h.of_unchanged (updChannel_unchanged c _ s)
  simp only [writeTiming]
  split
  · exact drainCheck_bankSound (hwritten.of_unchanged (ps := [.queue, .channels])
      ((writeQueue_unchanged _ _).widen.andThen (updChannel_unchanged c _ _)))
  · exact hwritten

theorem shutBank_drive (s : State) : (shutBank s).drive = Drive.initial := rfl

theorem openChamber_bankSound (s : State) : BankSound (openChamber s) := by
  refine bankSound_off ?_
  rw [openChamber, assertCond_unchanged .access _ .drive (by decide), dropAll_unchanged _ .drive (by decide)]
  rfl

theorem closeChamber_bankSound (h : BankSound s) (hrange : 1 ≤ s.settings.readyLevel) : BankSound (closeChamber s) := by
  have hclosed : BankSound { s with pins := { s.pins with access := false } } := by
    obtain ⟨hfull, hoff, hcharging, hready, -⟩ := h
    exact ⟨hfull, hoff, hcharging, hready, fun haccess => by cases haccess⟩
  have hwoken : BankSound (wakeAtRelease { s with pins := { s.pins with access := false } }) := by
    unfold wakeAtRelease
    split
    · exact wakeBank_bankSound hclosed hrange
    · exact hclosed
  exact hwoken.of_unchanged (ps := [.channels, .silence, .trace])
    ((Unchanged.foldl _ (fun t k => tryLift_unchanged k t) allChannels _).widen.andThen (clearCond_unchanged .access _))

theorem chargeTick_bankSound (h : BankSound s) : BankSound (chargeTick s) := by
  unfold chargeTick
  split
  next hcharge =>
    have hup : bankUp s.drive.mode = true := Bool.and_elim_left hcharge.1
    exact bankSync_bankSound (Nat.min_le_left _ _) hup (h.noAccess fun hoff => by simp [hoff, bankUp] at hup)
  · exact h

theorem idleTick_bankSound (h : BankSound s) : BankSound (idleTick s) := h.of_same rfl rfl rfl rfl

theorem localTick_bankSound (b : Bool) (h : BankSound s) : BankSound (localTick b s) := by
  have hsampled : BankSound { s with pins := { s.pins with feedback := b } } := h.of_same rfl rfl rfl rfl
  have hticked := idleTick_bankSound (chargeTick_bankSound (hsampled.of_unchanged (tickTime_unchanged _)))
  exact hticked.of_unchanged (ps := [.silence, .conductor, .line, .queue])
    (((((holdTick_unchanged _).widen.andThen (tickSlots_unchanged _)).andThen (tickBeacon_unchanged _)).andThen
      (markHeld_unchanged _)).andThen (forgetErrors_unchanged _))

theorem setIdleTime_bankSound (v : Nat) (h : BankSound s) : BankSound (setIdleTime v s) := by
  have hwritten : BankSound (updSettings (fun x => { x with idleTime := v }) s) := h.of_same rfl rfl rfl rfl
  simp only [setIdleTime]
  split
  next hdrain => exact startDrain_bankSound hwritten hdrain.1
  · exact hwritten

theorem bankSync_ready_bankSound (v : Nat) (h : BankSound s) :
    BankSound (bankSync (updSettings (fun x => { x with readyLevel := v }) s)) := by
  by_cases hup : bankUp s.drive.mode = true
  · exact bankSync_bankSound h.1 hup (h.noAccess fun hoff => by simp [hoff, bankUp] at hup)
  · obtain ⟨hfull, hoff, -, -, haccess⟩ := h
    unfold BankSound
    cases hmode : s.drive.mode <;> simp_all [bankUp, updSettings, driveFor]

theorem setAuto_bankSound (h : BankSound s) : BankSound (setAuto s) := by
  have hwritten : BankSound (updSettings (fun x => { x with resume := .auto }) s) := h.of_same rfl rfl rfl rfl
  exact hwritten.of_unchanged (.ite (goHolding_unchanged _) (.refl _ _))

theorem setManual_bankSound (h : BankSound s) : BankSound (setManual s) := by
  have hwritten : BankSound (updSettings (fun x => { x with resume := .manual }) s) := h.of_same rfl rfl rfl rfl
  exact hwritten.of_unchanged (.ite (goSilent_unchanged true _) (.refl _ _))

theorem setHoldTime_bankSound (v : Nat) (h : BankSound s) : BankSound (setHoldTime v s) := by
  have hwritten : BankSound (updSettings (fun x => { x with holdTime := v }) s) := h.of_same rfl rfl rfl rfl
  exact hwritten.of_unchanged (.ite (goVoiced_unchanged _) (.refl _ _))

theorem writeSetting_bankSound {n : Nat} (v : Nat) (hn : n ≠ 14) (h : BankSound s) : BankSound (writeSetting n v s) := by
  unfold writeSetting
  split
  case h_2 => exact bankSync_ready_bankSound v h
  case h_4 => exact setIdleTime_bankSound v h
  case h_15 => exact absurd rfl hn
  case h_18 =>
    split
    · exact setAuto_bankSound h
    · exact setManual_bankSound h
  case h_19 => exact setHoldTime_bankSound v h
  case h_22 => exact h
  all_goals exact h.of_same rfl rfl rfl rfl

theorem setContact_bankSound (c : Fin 2) (level : Bool) (h : BankSound s) : BankSound (setContact c level s) := by
  have hu := setContact_unchanged c level s
  refine h.of_same (by rw [hu .drive (by decide)]) (by rw [hu .drive (by decide)]) (by rw [hu .settings (by decide)]) ?_
  simp only [setContact]
  split <;> rfl

theorem move_bankSound (h : Move k ps s t) (hrange : 1 ≤ s.settings.readyLevel) (hs : BankSound s) : BankSound t := by
  by_cases hd : Part.drive ∈ ps ∨ Part.settings ∈ ps ∨ Part.pins ∈ ps
  case neg =>
    simp only [not_or] at hd
    exact hs.of_unchanged h.unchanged hd.1 hd.2.1 hd.2.2
  cases h with
  | remove o e => exact removeEntry_bankSound o e hs
  | launch e => exact launchEntry_bankSound e hs
  | exchange x e => exact (removeEntry_bankSound .purged x hs).of_unchanged (enqueue_unchanged _ e)
  | wake => exact wakeBank_bankSound hs hrange
  | startDrain _ hup => exact startDrain_bankSound hs hup
  | drainCheck => exact drainCheck_bankSound hs
  | idleDrop c => exact idleDrop_bankSound c hs
  | dropDamper c => exact dropDamper_bankSound c hs
  | writeTiming c f => exact writeTiming_bankSound c f hs
  | openChamber => exact openChamber_bankSound s
  | closeChamber => exact closeChamber_bankSound hs hrange
  | chargerFails => exact BankSound.of_unchanged (s := setChargerFault true s) hs (assertCond_unchanged _ _)
  | chargerWorks => exact BankSound.of_unchanged (s := setChargerFault false s) hs (clearCond_unchanged _ _)
  | coilHeats => exact BankSound.of_unchanged (s := setCoilHot true s) hs (assertCond_unchanged _ _)
  | coilCools => exact BankSound.of_unchanged (s := setCoilHot false s) hs (clearCond_unchanged _ _)
  | setContact c level => exact setContact_bankSound c level hs
  | localTick b => exact localTick_bankSound b hs
  | writeSetting n v _ hn => exact writeSetting_bankSound _ hn hs
  | writePreroll v => exact hs.of_same rfl rfl rfl rfl
  | powerOn straps pins =>
    exact bankSound_off (sampleConds_unchanged (powerOnBlocks straps pins s.service.memory s) .drive (by decide))
  | losePower => exact bankSound_off (dropAll_unchanged _ .drive (by decide))
  | restart => exact bankSound_off (sampleConds_unchanged (restartBlocks s) .drive (by decide))
  | _ => exact absurd hd (by decide)

theorem RangesKept.readyLevel_pos (h : RangesKept s) : 1 ≤ s.settings.readyLevel := by
  obtain ⟨⟨-, ⟨hready, -⟩, -⟩, -⟩ := h
  exact hready

/-! ### The clock -/

theorem slewPart_bounds (slew trim : Int) (n : LocalCount) :
    (0 ≤ slew → 0 ≤ slewPart slew trim n ∧ slewPart slew trim n ≤ slew) ∧
    (slew ≤ 0 → slew ≤ slewPart slew trim n ∧ slewPart slew trim n ≤ 0) := by
  unfold slewPart
  split
  · omega
  split
  · omega
  split <;> omega

theorem plus_lt (x n : Nat) : plus x n < Config.week := Nat.mod_lt _ (by decide)

theorem localTick_time (b : Bool) (s : State) : (localTick b s).time = { s.time with
    count := s.time.count + 1
    tower := plus s.time.tower (advance s.time (s.time.count + 1))
    slew := s.time.slew - slewPart s.time.slew s.time.trim (s.time.count + 1) } := by
  simp only [localTick]
  rw [forgetErrors_unchanged _ .time (by decide), markHeld_unchanged _ .time (by decide),
    tickBeacon_unchanged _ .time (by decide), tickSlots_unchanged _ .time (by decide),
    holdTick_unchanged _ .time (by decide), idleTick_unchanged _ .time (by decide),
    chargeTick_unchanged _ .time (by decide)]
  rfl

theorem localTick_clockSound (b : Bool) (h : ClockSound s) : ClockSound (localTick b s) := by
  obtain ⟨-, htrim, hslew, hclose⟩ := h
  have hpart := slewPart_bounds s.time.slew s.time.trim (s.time.count + 1)
  unfold ClockSound
  rw [localTick_time]
  exact ⟨plus_lt _ _, htrim, by simp only; omega, hclose⟩

theorem ClockSound.of_unchanged (h : ClockSound s) (hu : Unchanged ps s t) (htime : Part.time ∉ ps := by decide) :
    ClockSound t := by
  unfold ClockSound
  rw [hu .time htime]
  exact h

theorem restarted_clockBounds {x : Timebase} (h : ClockBounds x) : ClockBounds x.restarted := by
  obtain ⟨htower, htrim, -, -⟩ := h
  exact ⟨htower, htrim, by simp [Timebase.restarted], by simp [Timebase.restarted]⟩

theorem move_clockSound (h : Move k ps s t) (hs : ClockSound s) : ClockSound t := by
  by_cases hd : Part.time ∈ ps
  case neg => exact hs.of_unchanged h.unchanged hd
  cases h with
  | writeTime x _ _ _ _ hbounds => exact hbounds hs
  | writeTower x _ _ _ hbounds => exact hbounds hs
  | setValid => exact hs
  | setLock l =>
    exact ClockSound.of_unchanged (s := { s with time := { s.time with lock := l } }) hs
      (Unchanged.ite (assertCond_unchanged _ _) (clearCond_unchanged _ _))
  | startTimeStep =>
    exact ClockSound.of_unchanged (s := { s with time := { s.time with stepAt := some s.time.count } }) hs
      (assertCond_unchanged _ _)
  | endTimeStep =>
    exact ClockSound.of_unchanged (s := { s with time := { s.time with stepAt := none } }) hs (clearCond_unchanged _ _)
  | localTick b => exact localTick_clockSound b hs
  | powerOn straps pins =>
    exact ClockSound.of_unchanged (s := powerOnBlocks straps pins s.service.memory s)
      (by simp [ClockSound, powerOnBlocks, Timebase.initial, Config.week]) (sampleConds_unchanged _)
  | restart =>
    exact ClockSound.of_unchanged (s := restartBlocks s) (restarted_clockBounds hs) (sampleConds_unchanged _)
  | _ => exact absurd hd (by decide)

end

/-- Settles O54, by the moves of a step; the ready level is above 0, so a bank that is woken at 0 is CHARGING. -/
theorem stepsKeepBankAndClock : Obligations.StepsKeepBankAndClock := by
  intro s t hranges hbank hclock h
  have hkept := step_keeps (P := fun u => RangesKept u ∧ BankSound u) (fun _ _ hu => hu)
    (fun hm hu => ⟨move_rangesKept hm hu.1, move_bankSound hm hu.1.readyLevel_pos hu.2⟩) ⟨hranges, hbank⟩ h
  exact ⟨hkept.2, step_keeps (P := ClockSound) (fun _ _ hu => hu) move_clockSound hclock h⟩

end Sys2Proof.Machine
end

