-- ==== Sys2Proof/Proofs/TxFrames.lean ====
section
/-! What the operations of the transmit queue do to its frames: their order, the PRESENCE among them, their orders (R91,
R92, R133). -/

namespace Sys2Proof.Machine

-- One proof after another: many at once would ask for more threads than the memory limit allows.
set_option Elab.async false

section
variable {s t : State}

theorem txIdent_congr (h : t.straps = s.straps) (f : Frame) : txIdent t f = txIdent s f := by
  rw [txIdent, txIdent, h]

theorem insertTx_congr (h : t.straps = s.straps) (x : TxFrame) (l : List TxFrame) : insertTx t x l = insertTx s x l := by
  induction l with
  | nil => rfl
  | cons y l ih => rw [insertTx, insertTx, ih, txIdent_congr h, txIdent_congr h]

theorem insertTx_perm (s : State) (x : TxFrame) (l : List TxFrame) : (insertTx s x l).Perm (x :: l) := by
  induction l with
  | nil => exact .refl _
  | cons y l ih =>
    rw [insertTx]
    split
    · exact .refl _
    · exact (ih.cons y).trans (.swap x y l)

theorem reinstateTx_perm (s : State) (x : TxFrame) (l : List TxFrame) : (reinstateTx s x l).Perm (x :: l) := by
  induction l with
  | nil => exact .refl _
  | cons y l ih =>
    rw [reinstateTx]
    split
    · exact .refl _
    · exact (ih.cons y).trans (.swap x y l)

/-- The frames stand in the order of their identifiers (R91). -/
def TxOrdered (s : State) (l : List TxFrame) : Prop := l.Pairwise fun x y => txIdent s x.frame ≤ txIdent s y.frame

theorem insertTx_ordered {x : TxFrame} {l : List TxFrame} (h : TxOrdered s l) : TxOrdered s (insertTx s x l) := by
  induction l with
  | nil => exact List.pairwise_singleton _ _
  | cons y l ih =>
    obtain ⟨hy, hl⟩ := List.pairwise_cons.mp h
    rw [insertTx]
    split
    next hlt =>
      refine List.pairwise_cons.mpr ⟨fun z hz => ?_, h⟩
      obtain rfl | hz := List.mem_cons.mp hz
      · exact hlt.le
      · exact hlt.le.trans (hy z hz)
    next hle =>
      refine List.pairwise_cons.mpr ⟨fun z hz => ?_, ih hl⟩
      obtain rfl | hz := List.mem_cons.mp ((insertTx_perm s x l).mem_iff.mp hz)
      · exact Nat.le_of_not_lt hle
      · exact hy z hz

theorem reinstateTx_ordered {x : TxFrame} {l : List TxFrame} (h : TxOrdered s l) : TxOrdered s (reinstateTx s x l) := by
  induction l with
  | nil => exact List.pairwise_singleton _ _
  | cons y l ih =>
    obtain ⟨hy, hl⟩ := List.pairwise_cons.mp h
    rw [reinstateTx]
    split
    next hle =>
      refine List.pairwise_cons.mpr ⟨fun z hz => ?_, h⟩
      obtain rfl | hz := List.mem_cons.mp hz
      · exact hle
      · exact hle.trans (hy z hz)
    next hlt =>
      refine List.pairwise_cons.mpr ⟨fun z hz => ?_, ih hl⟩
      obtain rfl | hz := List.mem_cons.mp ((reinstateTx_perm s x l).mem_iff.mp hz)
      · exact Nat.le_of_not_le hlt
      · exact hy z hz

/-! ### The line after a frame is handed -/

theorem frameGone_line (o : Origin) (s : State) : (frameGone o s).line = s.line := frameGone_unchanged o s .line (by decide)

theorem frameLost_line (x : TxFrame) (s : State) : (frameLost x s).line = s.line := frameLost_unchanged x s .line (by decide)

theorem partOut_line (s : State) : (partOut s).line = s.line := partOut_unchanged s .line (by decide)

theorem refuseTx_line (x : TxFrame) (s : State) : (refuseTx x s).line = s.line := by
  simp only [refuseTx]
  split <;> split <;> simp [partOut_line]

theorem evictTx_line (x : TxFrame) (s : State) :
    (evictTx x s).line = { s.line with queue := s.line.queue.dropLast } := by
  rw [evictTx, frameGone_line, frameLost_line]
  rfl

theorem evictTx_straps (x : TxFrame) (s : State) : (evictTx x s).straps = s.straps :=
  (((writeLine_unchanged s _).widen.andThen (raise_unchanged _ _)).andThen (frameLost_unchanged _ _)).andThen
    (frameGone_unchanged _ _) |> fun (h : Unchanged handed s (evictTx x s)) => h .straps (by decide)

/-- The queue a frame joins (R92): the whole queue while there is room, and otherwise the queue without its highest
frame. -/
def JoinsQueue (s : State) (x : TxFrame) (q : List TxFrame) : Prop :=
  (txCount s < 8 ∧ q = s.line.queue) ∨
    (s.line.queue ≠ [] ∧ q = s.line.queue.dropLast ∧ ∃ h, s.line.queue.getLast? = some h ∧
      txIdent s x.frame < txIdent s h.frame)

/-- A frame handed to the queue is refused, or joins it (R92). -/
theorem handFrame_line (x : TxFrame) (s : State) : (handFrame x s).1.line = s.line ∨
    ∃ q, JoinsQueue s x q ∧ (handFrame x s).1.line = { s.line with queue := insertTx s x q } := by
  unfold handFrame
  split
  next hroom => exact .inr ⟨s.line.queue, .inl ⟨hroom, rfl⟩, rfl⟩
  split
  · exact .inl (refuseTx_line x s)
  next h hlast =>
    split
    next hlt =>
      refine .inr ⟨_, .inr ⟨?_, rfl, h, hlast, hlt⟩, ?_⟩
      · rintro hnil
        rw [txHighest, hnil] at hlast
        cases hlast
      · simp only [joinTx_line, evictTx_line, insertTx_congr (evictTx_straps h s)]
    · exact .inl (refuseTx_line x s)

/-! ### One PRESENCE at most -/

/-- The PRESENCE frames of a queue. -/
def presences (l : List TxFrame) : Nat := l.countP fun x => x.frame.isPresence

theorem presences_perm {l r : List TxFrame} (h : l.Perm r) : presences l = presences r := h.countP_eq _

theorem presences_cons (x : TxFrame) (l : List TxFrame) :
    presences (x :: l) = presences l + if x.frame.isPresence then 1 else 0 := List.countP_cons

theorem presences_sublist {l r : List TxFrame} (h : l.Sublist r) : presences l ≤ presences r := h.countP_le

theorem joinsQueue_sublist {x : TxFrame} {q : List TxFrame} (h : JoinsQueue s x q) : q.Sublist s.line.queue := by
  rcases h with ⟨-, rfl⟩ | ⟨-, rfl, -⟩
  · exact .refl _
  · exact List.dropLast_sublist _

theorem stampFrame_isPresence (s : State) (f : Frame) : (stampFrame s f).isPresence = f.isPresence := by
  cases f <;> rfl

theorem stampFrame_packed {f : Frame} (h : FramePacked f) : FramePacked (stampFrame s f) := by
  cases f <;> exact h

theorem offerable_mem {x : TxFrame} (h : offerable s = some x) : x ∈ s.line.queue ∧ s.line.sending = none := by
  unfold offerable at h
  split at h
  · cases h
  next hidle =>
    simp only [not_or, Option.not_isSome_iff_eq_none] at hidle
    refine ⟨?_, hidle.2.2⟩
    split at h
    · exact List.mem_of_find?_eq_some h
    · exact List.mem_of_mem_head? h

end

end Sys2Proof.Machine
end

