-- ==== Sys2Proof/Proofs/Capacities.lean ====
section
/-! Every move keeps the capacities, the order of the transmit queue and its ORDER frames (R39, R57, R91, R133, R188). -/

namespace Sys2Proof.Machine

-- One proof after another: many at once would ask for more threads than the memory limit allows.
set_option Elab.async false

section
variable {k : Kind} {ps : List Part} {s t : State}

/-! ### The strike queue -/

theorem QueueFrom.length_le {q r : List Entry} (h : QueueFrom q r) : r.length ≤ q.length := by
  obtain ⟨f, -, hsub⟩ := h
  exact hsub.length_le.trans (by rw [List.length_map])

theorem length_insertEntry (e : Entry) (l : List Entry) : (insertEntry e l).length = l.length + 1 := by
  induction l with
  | nil => rfl
  | cons y l ih =>
    rw [insertEntry]
    split
    · rfl
    · rw [List.length_cons, ih, List.length_cons]

theorem move_queueLength (h : Move k ps s t) (hs : s.queue.length ≤ 96) : t.queue.length ≤ 96 := by
  by_cases hk : k = .enqueue
  case neg => exact (move_queueFrom h hk).length_le.trans hs
  subst hk
  cases h with
  | enqueue e _ hroom =>
    simp only [enqueue, length_insertEntry]
    exact hroom
  | exchange x e _ hqueued =>
    simp only [enqueue, length_insertEntry, removeEntry_queue, List.length_erase_of_mem hqueued]
    have := List.length_pos_of_mem hqueued
    omega

/-! ### Counters -/

/-- Every counter within its bound (R57). -/
def CountersBounded (s : State) : Prop := ∀ c : Fin 36, s.counters[c] ≤ 65535

theorem CountersBounded.of_unchanged (h : CountersBounded s) (hu : Unchanged ps s t)
    (hp : Part.counters ∉ ps := by decide) : CountersBounded t := by
  have hcounters : t.counters = s.counters := hu .counters hp
  intro c
  rw [hcounters]
  exact h c

theorem raise_countersBounded (c : Counter) (h : CountersBounded s) : CountersBounded (raise c s) := by
  intro d
  by_cases hd : c.index = d
  · subst hd
    simp [Config.counterMax]
  · simpa [Fin.val_ne_of_ne hd] using h d

theorem countersBounded_of_zero (h : t.counters = zeroCounters) : CountersBounded t := by
  intro c
  rw [h]
  simp [zeroCounters]

theorem frameLost_countersBounded (x : TxFrame) (h : CountersBounded s) : CountersBounded (frameLost x s) := by
  unfold frameLost
  split
  · split
    · exact h.of_unchanged (updPerf_unchanged _ _ s)
    · exact raise_countersBounded _ (h.of_unchanged (updPerf_unchanged _ _ s))
    all_goals exact h
  all_goals exact h

theorem handFrame_countersBounded (x : TxFrame) (h : CountersBounded s) : CountersBounded (handFrame x s).1 := by
  have hrefused : CountersBounded (refuseTx x s) := by
    have hcounted : CountersBounded (if countsRefusal x.frame then raise .txDropped s else s) := by
      split
      · exact raise_countersBounded _ h
      · exact h
    exact hcounted.of_unchanged (.ite (partOut_unchanged _) (.refl [.service] _))
  have hevicted (y : TxFrame) : CountersBounded (evictTx y s) :=
    (frameLost_countersBounded y (raise_countersBounded .txDropped
      (h.of_unchanged (writeLine_unchanged s { s.line with queue := s.line.queue.dropLast })))).of_unchanged
      (frameGone_unchanged _ _)
  unfold handFrame
  split
  · exact h.of_unchanged (joinTx_unchanged x s)
  split
  · exact hrefused
  split
  · exact (hevicted _).of_unchanged (joinTx_unchanged x _)
  · exact hrefused

theorem handBeacon_countersBounded (b : NodeBeacon) (h : CountersBounded s) : CountersBounded (handBeacon b s) := by
  simp only [handBeacon]
  split
  · exact h
  split
  · exact h
  · exact handFrame_countersBounded _ h

theorem removeEntry_countersBounded (o : StrikeOutcome) (e : Entry) (h : CountersBounded s) :
    CountersBounded (removeEntry o e s) :=
  (raise_countersBounded _ (h.of_unchanged ((dequeue_unchanged e s).widen.andThen (writeRecord_unchanged _ _) :
    Unchanged [.queue, .trace] s _))).of_unchanged (afterRemoval_unchanged e _)

theorem closeLaunch_countersBounded (e : Entry) (o : StrikeOutcome) (h : CountersBounded s) :
    CountersBounded (closeLaunch e o s) :=
  (((raise_countersBounded _ h).of_unchanged (preemptStep_unchanged e _)).of_unchanged
    (fadeStepSilence_unchanged _)).of_unchanged (afterRemoval_unchanged e _)

theorem launchEntry_countersBounded (e : Entry) (h : CountersBounded s) : CountersBounded (launchEntry e s) := by
  have hgone : CountersBounded (dequeue e s) := h.of_unchanged (dequeue_unchanged e s)
  simp only [launchEntry]
  split
  · exact closeLaunch_countersBounded _ _ (hgone.of_unchanged (writeRecord_unchanged _ _))
  · exact closeLaunch_countersBounded _ _
      ((hgone.of_unchanged (fireEntry_unchanged _ _ _)).of_unchanged (writeRecord_unchanged _ _))

theorem receiveFailure_countersBounded (h : CountersBounded s) : CountersBounded (receiveFailure s) := by
  simp only [receiveFailure]
  have hraised := raise_countersBounded .rxError (h.of_unchanged (writeLine_unchanged s
    { s.line with errors := recentErrors s ++ [s.time.count], ackDriven := false }))
  exact hraised.of_unchanged (.ite (assertCond_unchanged _ _) (.refl _ _))

theorem move_countersBounded (h : Move k ps s t) (hs : CountersBounded s) : CountersBounded t := by
  by_cases hd : Part.counters ∈ ps
  case neg => exact hs.of_unchanged h.unchanged hd
  cases h with
  | raise c => exact raise_countersBounded c hs
  | clearCounters => exact countersBounded_of_zero rfl
  | remove o e => exact removeEntry_countersBounded o e hs
  | launch e => exact launchEntry_countersBounded e hs
  | exchange x e => exact (removeEntry_countersBounded .purged x hs).of_unchanged (enqueue_unchanged _ e)
  | handFrame x => exact handFrame_countersBounded x hs
  | handBeacon b => exact handBeacon_countersBounded b hs
  | frameLost x => exact frameLost_countersBounded x hs
  | receiveFailure => exact receiveFailure_countersBounded hs
  | powerOn straps pins =>
    exact countersBounded_of_zero
      (sampleConds_unchanged (powerOnBlocks straps pins s.service.memory s) .counters (by decide))
  | restart => exact countersBounded_of_zero (sampleConds_unchanged (restartBlocks s) .counters (by decide))
  | _ => exact absurd hd (by decide)

/-! ### Trace records -/

/-- The trace holds the same records. -/
def RecordsKept (s t : State) : Prop := t.trace.records = s.trace.records

theorem RecordsKept.refl (s : State) : RecordsKept s s := rfl

theorem RecordsKept.trans {u : State} (h1 : RecordsKept s t) (h2 : RecordsKept t u) : RecordsKept s u := Eq.trans h2 h1

theorem RecordsKept.of_unchanged (h : Unchanged ps s t) (hp : Part.trace ∉ ps := by decide) : RecordsKept s t := by
  have htrace : t.trace = s.trace := h .trace hp
  rw [RecordsKept, htrace]

theorem silentTrigger_recordsKept (s : State) : RecordsKept s (silentTrigger s) := by
  unfold silentTrigger
  split <;> rfl

theorem goSilent_recordsKept (mark : Bool) (s : State) : RecordsKept s (goSilent mark s) := by
  simp only [goSilent]
  split
  · rfl
  · exact silentTrigger_recordsKept _

theorem fadeOut_recordsKept (s : State) : RecordsKept s (fadeOut s) := by
  unfold fadeOut
  split
  · exact goSilent_recordsKept false s
  · rfl

theorem actOn_recordsKept (c : Condition) (s : State) : RecordsKept s (actOn c s) := by
  unfold actOn
  split
  · exact goSilent_recordsKept false s
  split
  · exact fadeOut_recordsKept _
  · rfl
  · rfl
  · exact goSilent_recordsKept false s

theorem allCleared_recordsKept (s : State) : RecordsKept s (allCleared s) := by
  unfold allCleared
  split
  · rfl
  · rfl
  all_goals
    split
    · exact .of_unchanged (goHolding_unchanged s)
    · exact goSilent_recordsKept true s

theorem assertCond_recordsKept (c : Condition) (s : State) : RecordsKept s (assertCond c s) := by
  simp only [assertCond]
  split
  · rfl
  split
  · exact actOn_recordsKept c _
  · rfl

theorem clearCond_recordsKept (c : Condition) (s : State) : RecordsKept s (clearCond c s) := by
  simp only [clearCond]
  split
  · split
    · exact allCleared_recordsKept _
    · rfl
  · rfl

theorem actNewlyEnabled_recordsKept (before : BitVec 8) (s : State) : RecordsKept s (actNewlyEnabled before s) := by
  suffices h : ∀ (l : List Condition) (t : State), RecordsKept t (l.foldl (fun t c =>
      if hasCondition (enabledActive s.silence) c ∧ !hasCondition before c then actOn c t else t) t) from h _ s
  intro l
  induction l with
  | nil => exact .refl
  | cons c l ih =>
    intro t
    have hstep : RecordsKept t (if hasCondition (enabledActive s.silence) c ∧ !hasCondition before c then actOn c t
        else t) := by
      split
      · exact actOn_recordsKept c t
      · rfl
    exact hstep.trans (ih _)

theorem setMask_recordsKept (m : BitVec 8) (s : State) : RecordsKept s (setMask m s) := by
  simp only [setMask]
  have hacted := actNewlyEnabled_recordsKept (enabledActive s.silence) { s with silence := { s.silence with mask := m } }
  split
  · exact hacted.trans (allCleared_recordsKept _)
  · exact hacted

theorem sampleConds_recordsKept (s : State) : RecordsKept s (sampleConds s) := by
  have hsample (c : Condition) (b : Bool) (u : State) : RecordsKept u (sampleCond c b u) := by
    unfold sampleCond
    split
    · exact assertCond_recordsKept c u
    · rfl
  exact (((hsample _ _ _).trans (hsample _ _ _)).trans (hsample _ _ _)).trans (hsample _ _ _)

theorem fadeStepSilence_recordsKept (s : State) : RecordsKept s (fadeStepSilence s) := by
  simp only [fadeStepSilence]
  split
  · split
    · split
      · exact goSilent_recordsKept false s
      · rfl
    · rfl
  · rfl

theorem afterRemoval_recordsKept (e : Entry) (s : State) : RecordsKept s (afterRemoval e s) := by
  have hchecked : RecordsKept s (if (fadingOf s e).isSome then checkFading s else s) :=
    .of_unchanged (.ite (checkFading_unchanged s) (.refl _ s))
  exact (hchecked.trans (.of_unchanged (idleDrop_unchanged _ _))).trans (fadeOut_recordsKept _)

/-- The trace holds 64 records at most (R188). -/
def RecordsBounded (s : State) : Prop := s.trace.records.length ≤ 64

theorem RecordsBounded.of_kept (h : RecordsBounded s) (hkept : RecordsKept s t) : RecordsBounded t := by
  rw [RecordsBounded, hkept]
  exact h

theorem pushRecord_length (r : StrikeRecord) (l : List StrikeRecord) : (pushRecord r l).length ≤ 64 := by
  simp only [pushRecord, List.length_append, List.length_drop, List.length_singleton, Config.traceSize]
  omega

theorem writeRecord_recordsBounded (r : StrikeRecord) (h : RecordsBounded s) : RecordsBounded (writeRecord r s) := by
  simp only [writeRecord]
  split
  · exact h
  · exact pushRecord_length r _
  · split <;> exact pushRecord_length r _

theorem removeEntry_recordsBounded (o : StrikeOutcome) (e : Entry) (h : RecordsBounded s) :
    RecordsBounded (removeEntry o e s) := by
  have hgone : RecordsBounded (dequeue e s) := h
  have hwritten := writeRecord_recordsBounded (unfiredRecord s e o) hgone
  exact (hwritten.of_kept (.of_unchanged (raise_unchanged _ _))).of_kept (afterRemoval_recordsKept e _)

theorem closeLaunch_recordsKept (e : Entry) (o : StrikeOutcome) (s : State) : RecordsKept s (closeLaunch e o s) :=
  (((RecordsKept.of_unchanged (raise_unchanged _ s)).trans (.of_unchanged (preemptStep_unchanged e _))).trans
    (fadeStepSilence_recordsKept _)).trans (afterRemoval_recordsKept e _)

theorem launchEntry_recordsBounded (e : Entry) (h : RecordsBounded s) : RecordsBounded (launchEntry e s) := by
  simp only [launchEntry]
  split
  · exact (writeRecord_recordsBounded (s := dequeue e s) _ h).of_kept (closeLaunch_recordsKept _ _ _)
  · exact (writeRecord_recordsBounded (s := fireEntry _ _ (dequeue e s)) _ h).of_kept (closeLaunch_recordsKept _ _ _)

theorem setLock_recordsKept (l : LockState) (s : State) : RecordsKept s (setLock l s) := by
  simp only [setLock]
  split
  · exact assertCond_recordsKept _ _
  · exact clearCond_recordsKept _ _

theorem openChamber_recordsKept (s : State) : RecordsKept s (openChamber s) :=
  (RecordsKept.of_unchanged (ps := [.pins, .drive, .channels]) (((writePins_unchanged s _).widen.andThen
    (shutBank_unchanged _)).andThen (dropAll_unchanged _))).trans (assertCond_recordsKept .access _)

theorem closeChamber_recordsKept (s : State) : RecordsKept s (closeChamber s) :=
  (RecordsKept.of_unchanged (ps := [.pins, .drive, .channels]) (((writePins_unchanged s _).widen.andThen
    (wakeAtRelease_unchanged _)).andThen (.foldl _ (fun t k => tryLift_unchanged k t) allChannels _))).trans
    (clearCond_recordsKept .access _)

theorem receiveFailure_recordsKept (s : State) : RecordsKept s (receiveFailure s) := by
  simp only [receiveFailure]
  split
  · exact assertCond_recordsKept _ _
  · rfl

theorem setManual_recordsKept (s : State) : RecordsKept s (setManual s) := by
  simp only [setManual]
  split
  · exact goSilent_recordsKept true _
  · rfl

theorem writeSetting_recordsKept {n : Nat} (v : Nat) (hn : n ≠ 14) (s : State) : RecordsKept s (writeSetting n v s) := by
  unfold writeSetting
  split
  case h_4 => exact .of_unchanged (setIdleTime_unchanged s v)
  case h_15 => exact absurd rfl hn
  case h_18 =>
    split
    · exact .of_unchanged (setAuto_unchanged s)
    · exact setManual_recordsKept s
  case h_19 => exact .of_unchanged (setHoldTime_unchanged s v)
  all_goals rfl

theorem move_recordsBounded (h : Move k ps s t) (hs : RecordsBounded s) : RecordsBounded t := by
  by_cases hd : Part.trace ∈ ps
  case neg => exact hs.of_kept (.of_unchanged h.unchanged hd)
  cases h with
  | releaseTrace => exact Nat.zero_le _
  | remove o e => exact removeEntry_recordsBounded o e hs
  | launch e => exact launchEntry_recordsBounded e hs
  | exchange x e => exact removeEntry_recordsBounded .purged x hs
  | openChamber => exact hs.of_kept (openChamber_recordsKept s)
  | closeChamber => exact hs.of_kept (closeChamber_recordsKept s)
  | chargerFails => exact hs.of_kept (assertCond_recordsKept .driveFault (setChargerFault true s))
  | chargerWorks => exact hs.of_kept (clearCond_recordsKept .driveFault (setChargerFault false s))
  | coilHeats => exact hs.of_kept (assertCond_recordsKept .coilHot (setCoilHot true s))
  | coilCools => exact hs.of_kept (clearCond_recordsKept .coilHot (setCoilHot false s))
  | setMask m => exact hs.of_kept (setMask_recordsKept m s)
  | setLock l => exact hs.of_kept (setLock_recordsKept l s)
  | startTimeStep => exact RecordsBounded.of_kept hs (assertCond_recordsKept .timeStep _)
  | endTimeStep => exact RecordsBounded.of_kept hs (clearCond_recordsKept .timeStep _)
  | receiveFailure => exact hs.of_kept (receiveFailure_recordsKept s)
  | clearErrors => exact hs.of_kept (clearCond_recordsKept .checkErrors (forgetErrors s))
  | beginFault => exact RecordsBounded.of_kept hs (assertCond_recordsKept .lineFault _)
  | endFault => exact RecordsBounded.of_kept hs (clearCond_recordsKept .lineFault _)
  | heardClash => exact RecordsBounded.of_kept hs (assertCond_recordsKept .stationClash _)
  | endClash => exact RecordsBounded.of_kept hs (clearCond_recordsKept .stationClash _)
  | writeSetting n v _ hn => exact hs.of_kept (writeSetting_recordsKept _ hn s)
  | powerOn straps pins =>
    exact RecordsBounded.of_kept (s := powerOnBlocks straps pins s.service.memory s) (Nat.zero_le _)
      (sampleConds_recordsKept _)
  | restart => exact RecordsBounded.of_kept (s := restartBlocks s) hs (sampleConds_recordsKept _)
  | _ => exact absurd hd (by decide)

/-! ### The transmit queue -/

/-- The line holds the same frames, under the same station number. -/
def SameTx (s t : State) : Prop :=
  t.straps = s.straps ∧ t.line.queue = s.line.queue ∧ t.line.sending = s.line.sending ∧
    t.line.setAside = s.line.setAside

theorem SameTx.of_unchanged (h : Unchanged ps s t) (hline : Part.line ∉ ps := by decide)
    (hstraps : Part.straps ∉ ps := by decide) : SameTx s t := by
  have hl : t.line = s.line := h .line hline
  exact ⟨h .straps hstraps, by rw [hl], by rw [hl], by rw [hl]⟩

theorem SameTx.trans {u : State} (h1 : SameTx s t) (h2 : SameTx t u) : SameTx s u := by
  obtain ⟨hs1, hq1, hx1, ha1⟩ := h1
  obtain ⟨hs2, hq2, hx2, ha2⟩ := h2
  exact ⟨hs2.trans hs1, hq2.trans hq1, hx2.trans hx1, ha2.trans ha1⟩

/-- What the transmit queue keeps (R91, R92, R133): its capacity, its order, one PRESENCE at most. -/
def TxSound (s : State) : Prop := txCount s ≤ 8 ∧ TxQueueSound s

theorem TxSound.of_same (h : TxSound s) (hsame : SameTx s t) : TxSound t := by
  obtain ⟨hstraps, hqueue, hsending, haside⟩ := hsame
  have hident : ∀ f, txIdent t f = txIdent s f := txIdent_congr hstraps
  unfold TxSound txCount TxQueueSound sendingPresence
  simp only [hqueue, hsending, haside, hident]
  exact h

/-- No frame is in transmission any longer, and none stands aside. -/
theorem TxSound.of_quiet (h : TxSound s) (hstraps : t.straps = s.straps) (hqueue : t.line.queue = s.line.queue)
    (hsending : t.line.sending = none) (haside : t.line.setAside = none) : TxSound t := by
  obtain ⟨hcount, hordered, hone, -, -⟩ := h
  have hident : ∀ f, txIdent t f = txIdent s f := txIdent_congr hstraps
  unfold txCount at hcount
  unfold TxSound txCount TxQueueSound sendingPresence
  simp only [hqueue, hsending, haside, hident]
  exact ⟨by omega, hordered, hone, nofun, nofun⟩

theorem OrdersPacked.of_same (h : OrdersPacked s) (hsame : SameTx s t) : OrdersPacked t := by
  obtain ⟨-, hqueue, hsending, -⟩ := hsame
  unfold OrdersPacked
  rw [hqueue, hsending]
  exact h

/-- The frame joins a queue that has room, with no PRESENCE when it is one itself. -/
theorem joined_txSound {x : TxFrame} {q : List TxFrame} (h : TxSound s) (hjoins : JoinsQueue s x q)
    (hpresence : x.frame.isPresence = true → sendingPresence s = false ∧ presences s.line.queue = 0)
    (hstraps : t.straps = s.straps) (hline : t.line = { s.line with queue := insertTx s x q }) : TxSound t := by
  obtain ⟨hcount, hordered, hone, hsent, haside⟩ := h
  have hsub := joinsQueue_sublist hjoins
  have hident : ∀ f, txIdent t f = txIdent s f := txIdent_congr hstraps
  have hsend : sendingPresence t = sendingPresence s := by rw [sendingPresence, sendingPresence, hline]
  have hnew : presences t.line.queue = presences q + if x.frame.isPresence then 1 else 0 := by
    rw [hline, ← presences_cons]
    exact presences_perm (insertTx_perm s x q)
  have hold : presences q ≤ presences s.line.queue := presences_sublist hsub
  refine ⟨?_, ?_, ?_, fun hp => ?_, fun ha => ?_⟩
  · have hlength : (insertTx s x q).length = q.length + 1 := (insertTx_perm s x q).length_eq
    unfold txCount at *
    rw [hline]
    simp only [hlength]
    rcases hjoins with ⟨hroom, rfl⟩ | ⟨hne, rfl, -⟩
    · unfold txCount at hroom
      omega
    · have := List.length_pos_iff.mpr hne
      rw [List.length_dropLast]
      omega
  · simp only [hident, hline]
    exact insertTx_ordered (hordered.sublist hsub)
  · change presences t.line.queue ≤ 1
    change presences s.line.queue ≤ 1 at hone
    split at hnew
    next hp => have := (hpresence hp).2; omega
    · omega
  · change presences t.line.queue = 0
    rw [hsend] at hp
    have hnone : presences s.line.queue = 0 := hsent hp
    split at hnew
    next hx => rw [(hpresence hx).1] at hp; cases hp
    · omega
  · rw [hsend]
    refine haside ?_
    rw [hline] at ha
    exact ha

theorem handFrame_txSound {x : TxFrame} (h : TxSound s)
    (hpresence : x.frame.isPresence = true → sendingPresence s = false ∧ presences s.line.queue = 0) :
    TxSound (handFrame x s).1 := by
  have hstraps := handFrame_unchanged x s .straps (by decide)
  rcases handFrame_line x s with hline | ⟨q, hjoins, hline⟩
  · exact h.of_same ⟨hstraps, by rw [hline], by rw [hline], by rw [hline]⟩
  · exact joined_txSound h hjoins hpresence hstraps hline

theorem handFrame_ordersPacked {x : TxFrame} (h : OrdersPacked s) (hx : FramePacked x.frame) :
    OrdersPacked (handFrame x s).1 := by
  obtain ⟨hqueue, hsending⟩ := h
  rcases handFrame_line x s with hline | ⟨q, hjoins, hline⟩
  · unfold OrdersPacked
    rw [hline]
    exact ⟨hqueue, hsending⟩
  · unfold OrdersPacked
    rw [hline]
    refine ⟨fun y hy => ?_, hsending⟩
    obtain rfl | hy := List.mem_cons.mp ((insertTx_perm s x q).mem_iff.mp hy)
    · exact hx
    · exact hqueue y ((joinsQueue_sublist hjoins).subset hy)

theorem presences_eq_zero {l : List TxFrame} : presences l = 0 ↔ (l.any fun x => x.frame.isPresence) = false := by
  rw [presences, List.countP_eq_zero, List.any_eq_false]

/-- Any PRESENCE of the node has the identifier of another. -/
theorem txIdent_presence {f g : Frame} (hf : f.isPresence = true) (hg : g.isPresence = true) :
    txIdent s f = txIdent s g := by
  cases f <;> cases hf
  cases g <;> cases hg
  rfl

/-- The pending PRESENCE gives its place to a new one (R92). -/
def replacePresence (x y : TxFrame) : TxFrame := if y.frame.isPresence then x else y

theorem replacePresence_isPresence {x : TxFrame} (hx : x.frame.isPresence = true) (y : TxFrame) :
    (replacePresence x y).frame.isPresence = y.frame.isPresence := by
  unfold replacePresence
  split
  next hy => rw [hx, hy]
  · rfl

theorem replacePresence_ident {x : TxFrame} (hx : x.frame.isPresence = true) (y : TxFrame) :
    txIdent s (replacePresence x y).frame = txIdent s y.frame := by
  unfold replacePresence
  split
  next hy => exact txIdent_presence hx hy
  · rfl

theorem handBeacon_txSound (b : NodeBeacon) (h : TxSound s) : TxSound (handBeacon b s) := by
  simp only [handBeacon]
  split
  next hsending =>
    obtain ⟨hcount, hordered, hone, hsent, -⟩ := h
    exact ⟨hcount, hordered, hone, hsent, fun _ => hsending⟩
  next hsending =>
    split
    · obtain ⟨hcount, hordered, hone, hsent, haside⟩ := h
      have hx : (⟨.presence b, .beacon⟩ : TxFrame).frame.isPresence = true := rfl
      have hcountP : presences (s.line.queue.map (replacePresence ⟨.presence b, .beacon⟩)) = presences s.line.queue := by
        rw [presences, List.countP_map]
        exact List.countP_congr fun y _ => by rw [Function.comp_apply, replacePresence_isPresence hx]
      refine ⟨?_, ?_, hcountP.le.trans hone, fun hp => hcountP.trans (hsent hp), haside⟩
      · simpa [txCount] using hcount
      · refine List.pairwise_map.mpr (hordered.imp fun {y z} hyz => ?_)
        exact (replacePresence_ident hx y).le.trans (hyz.trans (replacePresence_ident hx z).ge)
    next hnone =>
      exact handFrame_txSound h fun _ => ⟨Bool.eq_false_iff.mpr hsending,
        presences_eq_zero.mpr (Bool.eq_false_iff.mpr hnone)⟩

theorem handBeacon_ordersPacked (b : NodeBeacon) (h : OrdersPacked s) : OrdersPacked (handBeacon b s) := by
  simp only [handBeacon]
  split
  · exact h
  split
  · refine ⟨fun y hy => ?_, h.2⟩
    obtain ⟨z, hz, rfl⟩ := List.mem_map.mp hy
    split
    · trivial
    · exact h.1 z hz
  · exact handFrame_ordersPacked h trivial

theorem offerFrame_txSound (h : TxSound s) : TxSound (offerFrame s) := by
  unfold offerFrame
  split
  · exact h
  next x hx =>
    obtain ⟨hmem, hidle⟩ := offerable_mem hx
    obtain ⟨hcount, hordered, hone, -, haside⟩ := h
    have hlength : (s.line.queue.erase x).length + 1 = s.line.queue.length := by
      rw [List.length_erase_of_mem hmem]
      have := List.length_pos_of_mem hmem
      omega
    have hsub : (s.line.queue.erase x).Sublist s.line.queue := List.erase_sublist
    have hnoAside : s.line.setAside.isSome = true → False := fun ha => by
      have := haside ha
      rw [sendingPresence, hidle] at this
      cases this
    refine ⟨?_, hordered.sublist hsub, (hsub.countP_le).trans hone, fun hp => ?_, fun ha => (hnoAside ha).elim⟩
    · simp only [txCount, hidle] at hcount
      simp only [txCount]
      omega
    · simp only [sendingPresence, stampFrame_isPresence] at hp
      have hcountP := presences_perm (List.perm_cons_erase hmem)
      rw [presences_cons, if_pos hp] at hcountP
      change presences s.line.queue ≤ 1 at hone
      change presences (s.line.queue.erase x) = 0
      omega

theorem offerFrame_ordersPacked (h : OrdersPacked s) : OrdersPacked (offerFrame s) := by
  unfold offerFrame
  split
  · exact h
  next x hx =>
    refine ⟨fun y hy => h.1 y (List.mem_of_mem_erase hy), fun y hy => ?_⟩
    cases hy
    exact stampFrame_packed (h.1 x (offerable_mem hx).1)

/-- The frame that goes back when a frame loses the arbitration (R87, R92). -/
def returned (x : Sending) (aside : Option NodeBeacon) : TxFrame :=
  match aside with
  | some b => { frame := .presence b, origin := .beacon }
  | none => x.tx

/-- A frame that loses arbitration goes back to its place, or the PRESENCE set aside takes it (R87, R92). -/
theorem loseArbitration_cases (c : Fin 11) (s : State) : loseArbitration c s = s ∨ ∃ x, s.line.sending = some x ∧
    loseArbitration c s = { s with line := { s.line with
      queue := reinstateTx s (returned x s.line.setAside) s.line.queue, sending := none, setAside := none } } := by
  unfold loseArbitration
  split
  · exact .inl rfl
  next x hx =>
    split
    · exact .inr ⟨x, hx, rfl⟩
    · exact .inl rfl

theorem loseArbitration_txSound (c : Fin 11) (h : TxSound s) : TxSound (loseArbitration c s) := by
  rcases loseArbitration_cases c s with heq | ⟨x, hx, heq⟩ <;> rw [heq]
  · exact h
  obtain ⟨hcount, hordered, hone, hsent, haside⟩ := h
  have hperm := reinstateTx_perm s (returned x s.line.setAside) s.line.queue
  refine ⟨?_, reinstateTx_ordered hordered, ?_, fun hp => ?_, fun ha => ?_⟩
  · simp only [txCount, hx] at hcount
    simp only [txCount, hperm.length_eq, List.length_cons]
    omega
  · change presences (reinstateTx s (returned x s.line.setAside) s.line.queue) ≤ 1
    rw [presences_perm hperm, presences_cons]
    change presences s.line.queue ≤ 1 at hone
    split
    next hp =>
      have hsending : sendingPresence s = true := by
        cases ha : s.line.setAside with
        | some b => exact haside (by rw [ha]; rfl)
        | none =>
          simp only [returned, ha] at hp
          rw [sendingPresence, hx]
          exact hp
      have : presences s.line.queue = 0 := hsent hsending
      omega
    · omega
  · cases hp
  · cases ha

theorem loseArbitration_ordersPacked (c : Fin 11) (h : OrdersPacked s) : OrdersPacked (loseArbitration c s) := by
  rcases loseArbitration_cases c s with heq | ⟨x, hx, heq⟩ <;> rw [heq]
  · exact h
  refine ⟨fun y hy => ?_, fun y hy => by cases hy⟩
  obtain rfl | hy := List.mem_cons.mp ((reinstateTx_perm _ _ _).mem_iff.mp hy)
  · cases ha : s.line.setAside with
    | some b => trivial
    | none => exact h.2 x hx
  · exact h.1 y hy

theorem txSound_of_empty (hqueue : t.line = Line.initial) : TxSound t := by
  unfold TxSound TxQueueSound txCount sendingPresence
  rw [hqueue]
  simp [Line.initial]

theorem ordersPacked_of_empty (hqueue : t.line = Line.initial) : OrdersPacked t := by
  unfold OrdersPacked
  rw [hqueue]
  simp [Line.initial]

theorem receiveFailure_sameTx (s : State) : SameTx s (receiveFailure s) := by
  simp only [receiveFailure]
  split
  · exact SameTx.trans (t := raise .rxError { s with line := { s.line with
      errors := recentErrors s ++ [s.time.count], ackDriven := false } }) ⟨rfl, rfl, rfl, rfl⟩
      (.of_unchanged (assertCond_unchanged _ _))
  · exact ⟨rfl, rfl, rfl, rfl⟩

theorem localTick_sameTx (b : Bool) (s : State) : SameTx s (localTick b s) := by
  have hbeacon (u : State) : SameTx u (tickBeacon u) := by
    unfold tickBeacon
    split <;> exact ⟨rfl, rfl, rfl, rfl⟩
  have hforget (u : State) : SameTx u (forgetErrors u) := ⟨rfl, rfl, rfl, rfl⟩
  simp only [localTick]
  exact ((((((((SameTx.of_unchanged (writePins_unchanged s _)).trans (.of_unchanged (tickTime_unchanged _))).trans
    (.of_unchanged (chargeTick_unchanged _))).trans (.of_unchanged (idleTick_unchanged _))).trans
    (.of_unchanged (holdTick_unchanged _))).trans (.of_unchanged (tickSlots_unchanged _))).trans (hbeacon _)).trans
    (.of_unchanged (markHeld_unchanged _))).trans (hforget _)

/-- The moves that put a frame into the queue or into transmission, or take one out. -/
theorem move_tx (h : Move k ps s t) : SameTx s t ∨ ((TxSound s → TxSound t) ∧ (OrdersPacked s → OrdersPacked t)) := by
  by_cases hd : Part.line ∈ ps ∨ Part.straps ∈ ps
  case neg =>
    simp only [not_or] at hd
    exact .inl (.of_unchanged h.unchanged hd.1 hd.2)
  cases h with
  | localTick b => exact .inl (localTick_sameTx b s)
  | handFrame x _ hpacked hkind =>
    exact .inr ⟨fun hs => handFrame_txSound hs fun hp => absurd hp (by simp [hkind]),
      fun hs => handFrame_ordersPacked hs hpacked⟩
  | handBeacon b => exact .inr ⟨handBeacon_txSound b, handBeacon_ordersPacked b⟩
  | offerFrame => exact .inr ⟨offerFrame_txSound, offerFrame_ordersPacked⟩
  | loseArbitration c => exact .inr ⟨loseArbitration_txSound c, loseArbitration_ordersPacked c⟩
  | stopSending =>
    exact .inr ⟨fun hs => hs.of_quiet rfl rfl rfl rfl, fun hs => ⟨hs.1, fun y hy => by cases hy⟩⟩
  | writeLine x _ hsame =>
    obtain ⟨hqueue, hsending, haside, -⟩ := hsame
    exact .inl ⟨rfl, hqueue, hsending, haside⟩
  | receiveFailure => exact .inl (receiveFailure_sameTx s)
  | clearErrors => exact .inl (SameTx.trans (t := forgetErrors s) ⟨rfl, rfl, rfl, rfl⟩
      (.of_unchanged (clearCond_unchanged _ _)))
  | beginFault => exact .inl (.trans (t := { s with line := { s.line with faultAt := some s.time.count } })
      ⟨rfl, rfl, rfl, rfl⟩ (.of_unchanged (assertCond_unchanged _ _)))
  | endFault => exact .inl (.trans (t := { s with line := { s.line with faultAt := none, txErrors := 0 } })
      ⟨rfl, rfl, rfl, rfl⟩ (.of_unchanged (clearCond_unchanged _ _)))
  | heardClash => exact .inl (.trans (t := { s with line := { s.line with clashAt := some s.time.count } })
      ⟨rfl, rfl, rfl, rfl⟩ (.of_unchanged (assertCond_unchanged _ _)))
  | endClash => exact .inl (.trans (t := { s with line := { s.line with clashAt := none } })
      ⟨rfl, rfl, rfl, rfl⟩ (.of_unchanged (clearCond_unchanged _ _)))
  | powerOn straps pins =>
    have hline : (powerOn straps pins s).line = Line.initial :=
      sampleConds_unchanged (powerOnBlocks straps pins s.service.memory s) .line (by decide)
    exact .inr ⟨fun _ => txSound_of_empty hline, fun _ => ordersPacked_of_empty hline⟩
  | losePower =>
    have hline : (losePower s).line = { s.line with sending := none, setAside := none, ackDriven := false } :=
      dropAll_unchanged _ .line (by decide)
    have hstraps : (losePower s).straps = s.straps := dropAll_unchanged _ .straps (by decide)
    refine .inr ⟨fun hs => hs.of_quiet hstraps (by rw [hline]) (by rw [hline]) (by rw [hline]), fun hs => ?_⟩
    unfold OrdersPacked
    rw [hline]
    exact ⟨hs.1, fun y hy => by cases hy⟩
  | restart =>
    have hline : (restart s).line = Line.initial := sampleConds_unchanged (restartBlocks s) .line (by decide)
    exact .inr ⟨fun _ => txSound_of_empty hline, fun _ => ordersPacked_of_empty hline⟩
  | _ => exact absurd hd (by decide)

theorem move_txSound (h : Move k ps s t) (hs : TxSound s) : TxSound t :=
  (move_tx h).elim hs.of_same fun hkept => hkept.1 hs

theorem move_ordersPacked (h : Move k ps s t) (hs : OrdersPacked s) : OrdersPacked t :=
  (move_tx h).elim hs.of_same fun hkept => hkept.2 hs

end

/-- Settles O55, by the moves of a step. -/
theorem stepsKeepCapacities : Obligations.StepsKeepCapacities := by
  refine ⟨fun s t hcapacity htx h => ?_, fun s t hs h => step_keeps (fun _ _ hu => hu) move_ordersPacked hs h⟩
  obtain ⟨hqueue, hframes, hrecords, hcounters⟩ := hcapacity
  have hsound := step_keeps (P := TxSound) (fun _ _ hu => hu) move_txSound ⟨hframes, htx⟩ h
  exact ⟨⟨step_keeps (P := fun u => u.queue.length ≤ 96) (fun _ _ hu => hu) move_queueLength hqueue h, hsound.1,
    step_keeps (P := RecordsBounded) (fun _ _ hu => hu) move_recordsBounded hrecords h,
    step_keeps (P := CountersBounded) (fun _ _ hu => hu) move_countersBounded hcounters h⟩, hsound.2⟩

end Sys2Proof.Machine
end

