-- ==== Sys2Proof/Proofs/ConditionFlags.lean ====
section
/-! The flags of the silence conditions, and the condition set after a condition is asserted or cleared (R169). -/

namespace Sys2Proof.Machine

-- One proof after another: many at once would ask for more threads than the memory limit allows.
set_option Elab.async false

theorem place_lt (c : Condition) : c.place < 8 := by cases c <;> decide

theorem place_inj {c d : Condition} (h : c.place = d.place) : c = d := by
  cases c <;> cases d <;> first | rfl | cases h

theorem hasCondition_flag (c d : Condition) : hasCondition c.flag d = decide (d = c) := by
  rw [hasCondition, Condition.flag, BitVec.getLsbD_twoPow]
  by_cases h : d = c
  · subst h; simp [place_lt]
  · have hplace : c.place ≠ d.place := fun he => h (place_inj he).symm
    simp [h, hplace]

theorem hasCondition_or (m n : BitVec 8) (c : Condition) :
    hasCondition (m ||| n) c = (hasCondition m c || hasCondition n c) := BitVec.getLsbD_or

theorem hasCondition_and (m n : BitVec 8) (c : Condition) :
    hasCondition (m &&& n) c = (hasCondition m c && hasCondition n c) := BitVec.getLsbD_and

theorem hasCondition_not (m : BitVec 8) (c : Condition) : hasCondition (~~~m) c = !hasCondition m c := by
  rw [hasCondition, BitVec.getLsbD_not]
  simp [place_lt, hasCondition]

theorem hasCondition_zero (c : Condition) : hasCondition 0 c = false := BitVec.getLsbD_zero

/-- The condition at a place (R169). -/
theorem exists_place {i : Nat} (h : i < 8) : ∃ c : Condition, c.place = i := by
  match i, h with
  | 0, _ => exact ⟨.timeUnlocked, rfl⟩
  | 1, _ => exact ⟨.timeStep, rfl⟩
  | 2, _ => exact ⟨.lineFault, rfl⟩
  | 3, _ => exact ⟨.checkErrors, rfl⟩
  | 4, _ => exact ⟨.driveFault, rfl⟩
  | 5, _ => exact ⟨.coilHot, rfl⟩
  | 6, _ => exact ⟨.stationClash, rfl⟩
  | 7, _ => exact ⟨.access, rfl⟩

theorem flags_ext {m n : BitVec 8} (h : ∀ c, hasCondition m c = hasCondition n c) : m = n := by
  refine BitVec.eq_of_getLsbD_eq fun i hi => ?_
  obtain ⟨c, rfl⟩ := exists_place hi
  exact h c

theorem flags_eq_zero {m : BitVec 8} : m = 0 ↔ ∀ c, hasCondition m c = false :=
  ⟨fun h c => h ▸ hasCondition_zero c, fun h => flags_ext fun c => (h c).trans (hasCondition_zero c).symm⟩

theorem flags_ne_zero {m : BitVec 8} {c : Condition} (h : hasCondition m c = true) : m ≠ 0 := by
  rintro rfl
  rw [hasCondition_zero] at h
  cases h

section
variable (c : Condition) (s : State)

theorem assertCond_conds : (assertCond c s).silence.conds = s.silence.conds ||| c.flag := by
  simp only [assertCond]
  split
  next hset =>
    refine flags_ext fun d => ?_
    rw [hasCondition_or, hasCondition_flag]
    by_cases hd : d = c
    · subst hd; simp [hset]
    · simp [hd]
  split
  · exact (actOn_condsKept c _).1
  · rfl

theorem clearCond_conds : (clearCond c s).silence.conds = s.silence.conds &&& ~~~c.flag := by
  simp only [clearCond]
  split
  · split
    · exact (allCleared_condsKept _).1
    · rfl
  next hclear =>
    refine flags_ext fun d => ?_
    rw [hasCondition_and, hasCondition_not, hasCondition_flag]
    by_cases hd : d = c
    · subst hd; simpa using hclear
    · simp [hd]

theorem assertCond_has (d : Condition) :
    hasCondition (assertCond c s).silence.conds d = (decide (d = c) || hasCondition s.silence.conds d) := by
  rw [assertCond_conds, hasCondition_or, hasCondition_flag, Bool.or_comm]

theorem clearCond_has (d : Condition) :
    hasCondition (clearCond c s).silence.conds d = (decide (d ≠ c) && hasCondition s.silence.conds d) := by
  rw [clearCond_conds, hasCondition_and, hasCondition_not, hasCondition_flag, Bool.and_comm, decide_not]

end

end Sys2Proof.Machine
end

