-- ==== Sys2Proof/Proofs/SilenceKept.lean ====
section
/-! Every move keeps silence state, reduction and mark together with the enabled active conditions (R170 to R178). -/

namespace Sys2Proof.Machine

-- One proof after another: many at once would ask for more threads than the memory limit allows.
set_option Elab.async false

section
variable {k : Kind} {ps : List Part} {s t : State}

/-- The silence states in which no condition is enabled and active: VOICED, HOLDING, and a resumable SILENT (R174). -/
def Restful (x : Silence) : Prop :=
  match x.state with
  | .voiced => True
  | .fading => False
  | .silent => x.resumable = true
  | .holding => True

/-- Silence state, reduction and mark go together, the conditions aside; FADING may have lost its last entry. -/
def SilenceBase (s : State) : Prop :=
  hasCondition s.silence.mask .stationClash = true ∧ hasCondition s.silence.mask .access = true ∧
  match s.silence.state with
  | .voiced => s.silence.level = 0 ∧ s.silence.resumable = false
  | .fading => (1 ≤ s.silence.level ∧ s.silence.level ≤ 14) ∧ s.silence.resumable = false
  | .silent => s.silence.level = 15 ∧ (s.silence.resumable = true → s.settings.resume = .manual)
  | .holding => s.silence.level = 15 ∧ s.silence.resumable = false ∧ s.settings.resume = .auto

/-- FADING has an entry to fade (R173). -/
def FadesOn (s : State) : Prop := s.silence.state = .fading → s.queue ≠ []

/-- Exactly a restful state has no enabled active condition. -/
def ActiveMatches (s : State) : Prop := enabledActive s.silence = 0 ↔ Restful s.silence

theorem silenceSound_iff : SilenceSound s ↔ SilenceBase s ∧ FadesOn s ∧ ActiveMatches s := by
  unfold SilenceSound SilenceBase FadesOn ActiveMatches Restful
  cases s.silence.state
  case silent => cases s.silence.resumable <;> simp <;> tauto
  all_goals (simp; tauto)

theorem activeMatches_of_restful (h : Restful s.silence) (hactive : enabledActive s.silence = 0) : ActiveMatches s :=
  ⟨fun _ => h, fun _ => hactive⟩

theorem activeMatches_of_not_restful (h : ¬Restful s.silence) (hactive : enabledActive s.silence ≠ 0) :
    ActiveMatches s := ⟨fun h0 => absurd h0 hactive, fun hr => absurd hr h⟩

theorem CondsKept.active (h : CondsKept s t) : enabledActive t.silence = enabledActive s.silence := by
  rw [enabledActive, enabledActive, h.1, h.2]

/-! ### The moves of the silence state -/

theorem SilenceBase.mask (h : SilenceBase s) : hasCondition s.silence.mask .stationClash = true ∧
    hasCondition s.silence.mask .access = true := ⟨h.1, h.2.1⟩

theorem goSilent_base (mark : Bool) (h : SilenceBase s) (hmark : mark = true → s.settings.resume = .manual) :
    SilenceBase (goSilent mark s) ∧ FadesOn (goSilent mark s) := by
  unfold SilenceBase FadesOn
  rw [goSilent_silence, goSilent_unchanged mark s .settings (by decide)]
  exact ⟨⟨h.1, h.2.1, rfl, hmark⟩, nofun⟩

theorem goSilent_restful (mark : Bool) (s : State) : Restful (goSilent mark s).silence ↔ mark = true := by
  rw [goSilent_silence]
  rfl

theorem goVoiced_base (h : SilenceBase s) : SilenceBase (goVoiced s) ∧ FadesOn (goVoiced s) :=
  ⟨⟨h.1, h.2.1, rfl, rfl⟩, nofun⟩

theorem goHolding_base (h : SilenceBase s) (hauto : s.settings.resume = .auto) :
    SilenceBase (goHolding s) ∧ FadesOn (goHolding s) ∧ Restful (goHolding s).silence := by
  unfold goHolding
  split
  · obtain ⟨hbase, hfade⟩ := goVoiced_base h
    exact ⟨hbase, hfade, trivial⟩
  · exact ⟨⟨h.1, h.2.1, rfl, rfl, hauto⟩, nofun, trivial⟩

theorem fadeOut_base (h : SilenceBase s) : SilenceBase (fadeOut s) ∧ FadesOn (fadeOut s) := by
  unfold fadeOut
  split
  · exact goSilent_base false h nofun
  next hnot => exact ⟨h, fun hfading hqueue => hnot ⟨hfading, hqueue⟩⟩

theorem fadeOut_restful (s : State) : Restful (fadeOut s).silence ↔ Restful s.silence := by
  unfold fadeOut
  split
  next h =>
    rw [goSilent_restful, Restful, h.1]
    simp
  · rfl

theorem actOn_base (c : Condition) (h : SilenceBase s) (hfades : FadesOn s) :
    SilenceBase (actOn c s) ∧ FadesOn (actOn c s) ∧ ¬Restful (actOn c s).silence := by
  have hsilent : SilenceBase (goSilent false s) ∧ FadesOn (goSilent false s) ∧ ¬Restful (goSilent false s).silence := by
    obtain ⟨hbase, hfade⟩ := goSilent_base false h nofun
    exact ⟨hbase, hfade, by simp [goSilent_restful]⟩
  unfold actOn
  split
  · exact hsilent
  split
  · have hbase : SilenceBase { s with silence := { s.silence with
        state := .fading, level := 1, fadeCount := 0, resumable := false, hold := 0 } } :=
      ⟨h.1, h.2.1, by simp⟩
    obtain ⟨hfaded, hentry⟩ := fadeOut_base hbase
    exact ⟨hfaded, hentry, (fadeOut_restful _).not.mpr (by simp [Restful])⟩
  next hfading => exact ⟨h, hfades, by simp [Restful, hfading]⟩
  next hstate =>
    have hlevel : s.silence.level = 15 := by
      have hlevel := h.2.2
      rw [hstate] at hlevel
      exact hlevel.1
    refine ⟨⟨h.1, h.2.1, ?_⟩, fun hfading => ?_, ?_⟩
    · simp [hstate, hlevel]
    · simp [hstate] at hfading
    · simp [Restful, hstate]
  · exact hsilent

theorem allCleared_base (h : SilenceBase s) :
    SilenceBase (allCleared s) ∧ FadesOn (allCleared s) ∧ Restful (allCleared s).silence := by
  have hresumed : SilenceBase (match s.settings.resume with
      | .auto => goHolding s
      | .manual => goSilent true s) ∧ FadesOn (match s.settings.resume with
      | .auto => goHolding s
      | .manual => goSilent true s) ∧ Restful (match s.settings.resume with
      | .auto => goHolding s
      | .manual => goSilent true s).silence := by
    split
    next hauto => exact goHolding_base h hauto
    next hmanual =>
      obtain ⟨hbase, hfade⟩ := goSilent_base true h fun _ => hmanual
      exact ⟨hbase, hfade, (goSilent_restful true s).mpr rfl⟩
  unfold allCleared
  split
  next hstate => exact ⟨h, fun hfading => by simp [hstate] at hfading, by simp [Restful, hstate]⟩
  next hstate => exact ⟨h, fun hfading => by simp [hstate] at hfading, by simp [Restful, hstate]⟩
  · exact hresumed
  · exact hresumed

/-! ### Conditions asserted and cleared -/

theorem assertCond_sound (c : Condition) (h : SilenceSound s) : SilenceSound (assertCond c s) := by
  obtain ⟨hbase, hfades, hmatch⟩ := silenceSound_iff.mp h
  simp only [assertCond]
  split
  · exact h
  split
  next hmask =>
    obtain ⟨hb, hf, hrest⟩ := actOn_base (s := { s with silence := { s.silence with
      conds := s.silence.conds ||| c.flag } }) c hbase hfades
    refine silenceSound_iff.mpr ⟨hb, hf, activeMatches_of_not_restful hrest ?_⟩
    rw [(actOn_condsKept c _).active]
    refine flags_ne_zero (c := c) ?_
    rw [enabledActive, hasCondition_and, hasCondition_or, hasCondition_flag, hmask]
    simp
  next hmask =>
    refine silenceSound_iff.mpr ⟨hbase, hfades, ?_⟩
    have hsame : (s.silence.conds ||| c.flag) &&& s.silence.mask = s.silence.conds &&& s.silence.mask := by
      refine flags_ext fun d => ?_
      simp only [hasCondition_and, hasCondition_or, hasCondition_flag]
      by_cases hd : d = c
      · subst hd; simp [hmask]
      · simp [hd]
    unfold ActiveMatches enabledActive at *
    rw [hsame]
    exact hmatch

theorem clearCond_sound (c : Condition) (h : SilenceSound s) : SilenceSound (clearCond c s) := by
  obtain ⟨hbase, hfades, hmatch⟩ := silenceSound_iff.mp h
  simp only [clearCond]
  split
  next hset =>
    split
    next hlast =>
      obtain ⟨hb, hf, hrest⟩ := allCleared_base (s := { s with silence := { s.silence with
        conds := s.silence.conds &&& ~~~c.flag } }) hbase
      refine silenceSound_iff.mpr ⟨hb, hf, activeMatches_of_restful hrest ?_⟩
      rw [(allCleared_condsKept _).active]
      exact hlast.2
    next hlast =>
      refine silenceSound_iff.mpr ⟨hbase, hfades, ?_⟩
      by_cases hmask : hasCondition s.silence.mask c = true
      · have hleft : (s.silence.conds &&& ~~~c.flag) &&& s.silence.mask ≠ 0 := fun h0 => hlast ⟨hmask, h0⟩
        have hbefore : enabledActive s.silence ≠ 0 := by
          refine flags_ne_zero (c := c) ?_
          rw [enabledActive, hasCondition_and, hset, hmask]
          rfl
        exact activeMatches_of_not_restful (fun hr => hbefore (hmatch.mpr hr)) hleft
      · have hsame : (s.silence.conds &&& ~~~c.flag) &&& s.silence.mask = s.silence.conds &&& s.silence.mask := by
          refine flags_ext fun d => ?_
          simp only [hasCondition_and, hasCondition_not, hasCondition_flag]
          by_cases hd : d = c
          · subst hd; simp [hmask]
          · simp [hd]
        unfold ActiveMatches enabledActive at *
        rw [hsame]
        exact hmatch
  · exact h

/-! ### A new mask -/

/-- The conditions act in turn: when one of them acts, the state is restful no longer. -/
theorem actOn_fold {p : Condition → Bool} (l : List Condition) (h : SilenceBase s) (hfades : FadesOn s) :
    let t := l.foldl (fun u c => if p c then actOn c u else u) s
    SilenceBase t ∧ FadesOn t ∧ CondsKept s t ∧ ((∃ c ∈ l, p c = true) → ¬Restful t.silence) ∧
      ((∀ c ∈ l, p c = false) → t = s) := by
  induction l generalizing s with
  | nil => exact ⟨h, hfades, .refl s, by simp, fun _ => rfl⟩
  | cons c l ih =>
    simp only [List.foldl_cons]
    by_cases hc : p c = true
    · obtain ⟨hb, hf, hrest⟩ := actOn_base c h hfades
      obtain ⟨hb2, hf2, hkept, hacts, hnone⟩ := ih hb hf
      simp only [if_pos hc]
      refine ⟨hb2, hf2, (actOn_condsKept c s).trans hkept, fun _ => ?_, fun hall => ?_⟩
      · by_cases hlater : ∃ d ∈ l, p d = true
        · exact hacts hlater
        · have hsame := hnone fun d hd => Bool.eq_false_iff.mpr fun hp => hlater ⟨d, hd, hp⟩
          rwa [hsame]
      · rw [hall c List.mem_cons_self] at hc
        cases hc
    · obtain ⟨hb2, hf2, hkept, hacts, hnone⟩ := ih h hfades
      simp only [if_neg hc]
      refine ⟨hb2, hf2, hkept, fun ⟨d, hd, hp⟩ => hacts ⟨d, ?_, hp⟩,
        fun hall => hnone fun d hd => hall d (List.mem_cons_of_mem c hd)⟩
      exact (List.mem_cons.mp hd).resolve_left fun he => hc (he ▸ hp)

theorem mem_allConditions (c : Condition) : c ∈ allConditions := by cases c <;> decide

/-- A condition is enabled and active, and was not before (R178). -/
def newlyEnabled (before : BitVec 8) (s : State) (c : Condition) : Bool :=
  hasCondition (enabledActive s.silence) c && !hasCondition before c

theorem actNewlyEnabled_eq (before : BitVec 8) (s : State) : actNewlyEnabled before s =
    allConditions.foldl (fun u c => if newlyEnabled before s c then actOn c u else u) s := by
  simp only [actNewlyEnabled, newlyEnabled, Bool.and_eq_true]

theorem actNewlyEnabled_base (before : BitVec 8) (h : SilenceBase s) (hfades : FadesOn s) :
    SilenceBase (actNewlyEnabled before s) ∧ FadesOn (actNewlyEnabled before s) ∧
    CondsKept s (actNewlyEnabled before s) ∧
    ((∃ c, newlyEnabled before s c = true) → ¬Restful (actNewlyEnabled before s).silence) ∧
    ((∀ c, newlyEnabled before s c = false) → actNewlyEnabled before s = s) := by
  rw [actNewlyEnabled_eq]
  obtain ⟨hb, hf, hkept, hacts, hnone⟩ := actOn_fold (p := newlyEnabled before s) allConditions h hfades
  exact ⟨hb, hf, hkept, fun ⟨c, hc⟩ => hacts ⟨c, mem_allConditions c, hc⟩, fun hall => hnone fun c _ => hall c⟩

/-- A new mask, before its conditions act. -/
def withMask (m : BitVec 8) (s : State) : State := { s with silence := { s.silence with mask := m } }

theorem setMask_sound (m : BitVec 8) (h : SilenceSound s) (hclash : hasCondition m .stationClash = true)
    (haccess : hasCondition m .access = true) : SilenceSound (setMask m s) := by
  obtain ⟨hbase, hfades, hmatch⟩ := silenceSound_iff.mp h
  have hbase1 : SilenceBase (withMask m s) := ⟨hclash, haccess, hbase.2.2⟩
  obtain ⟨hb, hf, hkept, hacts, hnone⟩ := actNewlyEnabled_base (enabledActive s.silence) hbase1 hfades
  have hset : setMask m s = if enabledActive s.silence ≠ 0 ∧
      enabledActive (actNewlyEnabled (enabledActive s.silence) (withMask m s)).silence = 0 then
      allCleared (actNewlyEnabled (enabledActive s.silence) (withMask m s))
      else actNewlyEnabled (enabledActive s.silence) (withMask m s) := rfl
  rw [hset]
  split
  next hlast =>
    obtain ⟨hb2, hf2, hrest⟩ := allCleared_base hb
    exact silenceSound_iff.mpr ⟨hb2, hf2, activeMatches_of_restful hrest
      ((allCleared_condsKept _).active.trans hlast.2)⟩
  next hlast =>
    refine silenceSound_iff.mpr ⟨hb, hf, ?_⟩
    by_cases hnew : ∃ c, newlyEnabled (enabledActive s.silence) (withMask m s) c = true
    · refine activeMatches_of_not_restful (hacts hnew) ?_
      obtain ⟨c, hc⟩ := hnew
      rw [hkept.active]
      exact flags_ne_zero (Bool.and_elim_left hc)
    · have hall : ∀ c, newlyEnabled (enabledActive s.silence) (withMask m s) c = false := fun c =>
        Bool.eq_false_iff.mpr fun hc => hnew ⟨c, hc⟩
      rw [hnone hall] at hlast ⊢
      by_cases hbefore : enabledActive s.silence = 0
      · refine activeMatches_of_restful (hmatch.mp hbefore) (flags_eq_zero.mpr fun c => ?_)
        have hc := hall c
        rw [newlyEnabled, hbefore, hasCondition_zero, Bool.not_false, Bool.and_true] at hc
        exact hc
      · exact activeMatches_of_not_restful (fun hr => hbefore (hmatch.mpr hr)) fun h0 => hlast ⟨hbefore, h0⟩

/-! ### The removal of an entry -/

/-- Silence as it stands while an entry is on its way out: FADING may have lost its last one. -/
def SilenceLeaving (s : State) : Prop := SilenceBase s ∧ ActiveMatches s

theorem SilenceSound.leaving (h : SilenceSound s) : SilenceLeaving s := by
  obtain ⟨hbase, -, hmatch⟩ := silenceSound_iff.mp h
  exact ⟨hbase, hmatch⟩

theorem SilenceLeaving.of_same (h : SilenceLeaving s) (hsilence : t.silence = s.silence)
    (hsettings : t.settings = s.settings) : SilenceLeaving t := by
  unfold SilenceLeaving SilenceBase ActiveMatches
  rw [hsilence, hsettings]
  exact h

theorem SilenceLeaving.of_unchanged (h : SilenceLeaving s) (hu : Unchanged ps s t)
    (hsilence : Part.silence ∉ ps := by decide) (hsettings : Part.settings ∉ ps := by decide) : SilenceLeaving t :=
  h.of_same (hu .silence hsilence) (hu .settings hsettings)

theorem fadeOut_sound (h : SilenceLeaving s) : SilenceSound (fadeOut s) := by
  obtain ⟨hbase, hmatch⟩ := h
  obtain ⟨hb, hf⟩ := fadeOut_base hbase
  refine silenceSound_iff.mpr ⟨hb, hf, ?_⟩
  rw [ActiveMatches, (fadeOut_condsKept s).active, fadeOut_restful]
  exact hmatch

theorem afterRemoval_sound (e : Entry) (h : SilenceLeaving s) : SilenceSound (afterRemoval e s) := by
  have hchecked : SilenceLeaving (if (fadingOf s e).isSome then checkFading s else s) :=
    h.of_unchanged (.ite (checkFading_unchanged s) (.refl _ s))
  exact fadeOut_sound (hchecked.of_unchanged (idleDrop_unchanged _ _))

theorem removeEntry_sound (o : StrikeOutcome) (e : Entry) (h : SilenceLeaving s) : SilenceSound (removeEntry o e s) :=
  afterRemoval_sound e (h.of_unchanged (ps := [.queue, .trace, .counters])
    (((dequeue_unchanged e s).widen.andThen (writeRecord_unchanged _ _)).andThen (raise_unchanged _ _)))

theorem fadeStepSilence_leaving (h : SilenceLeaving s) : SilenceLeaving (fadeStepSilence s) := by
  obtain ⟨hbase, hmatch⟩ := h
  simp only [fadeStepSilence]
  split
  next hfading =>
    have hrest : ¬Restful s.silence := by simp [Restful, hfading]
    have hactive : enabledActive s.silence ≠ 0 := fun h0 => hrest (hmatch.mp h0)
    have hlevel := hbase.2.2
    rw [hfading] at hlevel
    split
    · split
      · refine ⟨(goSilent_base false hbase nofun).1, activeMatches_of_not_restful ?_ ?_⟩
        · simp [goSilent_restful]
        · rw [(goSilent_condsKept false s).active]
          exact hactive
      · refine ⟨⟨hbase.1, hbase.2.1, ?_⟩, activeMatches_of_not_restful (by simp [Restful, hfading]) hactive⟩
        simp only [hfading]
        exact ⟨⟨by omega, by omega⟩, hlevel.2⟩
    · refine ⟨⟨hbase.1, hbase.2.1, ?_⟩, activeMatches_of_not_restful (by simp [Restful, hfading]) hactive⟩
      simp only [hfading]
      exact hlevel
  · exact ⟨hbase, hmatch⟩

theorem closeLaunch_sound (e : Entry) (o : StrikeOutcome) (h : SilenceLeaving s) : SilenceSound (closeLaunch e o s) :=
  afterRemoval_sound e (fadeStepSilence_leaving (h.of_unchanged (ps := [.counters, .floor])
    ((raise_unchanged _ s).widen.andThen (preemptStep_unchanged e _))))

theorem launchEntry_sound (e : Entry) (h : SilenceLeaving s) : SilenceSound (launchEntry e s) := by
  have hgone : SilenceLeaving (dequeue e s) := h.of_unchanged (dequeue_unchanged e s)
  simp only [launchEntry]
  split
  · exact closeLaunch_sound _ _ (hgone.of_unchanged (writeRecord_unchanged _ _))
  · exact closeLaunch_sound _ _
      ((hgone.of_unchanged (fireEntry_unchanged _ _ _)).of_unchanged (writeRecord_unchanged _ _))

theorem SilenceSound.of_kept (h : SilenceSound s) (hsilence : t.silence = s.silence)
    (hresume : t.settings.resume = s.settings.resume) (hqueue : t.queue = [] → s.queue = []) : SilenceSound t := by
  obtain ⟨hbase, hfades, hmatch⟩ := silenceSound_iff.mp h
  refine silenceSound_iff.mpr ?_
  unfold SilenceBase FadesOn ActiveMatches at *
  rw [hsilence, hresume]
  exact ⟨hbase, fun hfading hnil => hfades hfading (hqueue hnil), hmatch⟩

theorem SilenceSound.of_unchanged (h : SilenceSound s) (hu : Unchanged ps s t)
    (hsilence : Part.silence ∉ ps := by decide) (hsettings : Part.settings ∉ ps := by decide)
    (hqueue : Part.queue ∉ ps := by decide) : SilenceSound t :=
  h.of_kept (hu .silence hsilence) (by rw [hu .settings hsettings]) (by rw [hu .queue hqueue]; exact id)

/-! ### Settings -/

theorem goVoiced_sound (h : SilenceSound s) (hactive : enabledActive s.silence = 0) : SilenceSound (goVoiced s) := by
  obtain ⟨hbase, hfades⟩ := goVoiced_base (silenceSound_iff.mp h).1
  exact silenceSound_iff.mpr ⟨hbase, hfades, activeMatches_of_restful trivial hactive⟩

theorem SilenceSound.active_of_holding (h : SilenceSound s) (hstate : s.silence.state = .holding) :
    enabledActive s.silence = 0 := by
  obtain ⟨-, -, hmatch⟩ := silenceSound_iff.mp h
  exact hmatch.mpr (by simp [Restful, hstate])

theorem setAuto_sound (h : SilenceSound s) : SilenceSound (setAuto s) := by
  obtain ⟨hbase, hfades, hmatch⟩ := silenceSound_iff.mp h
  simp only [setAuto]
  split
  next hresumes =>
    obtain ⟨-, hsilent, hmark⟩ := hresumes
    have hrest : Restful s.silence := by simp [Restful, hsilent, hmark]
    unfold goHolding
    split
    · exact silenceSound_iff.mpr ⟨⟨hbase.1, hbase.2.1, rfl, rfl⟩, nofun,
        activeMatches_of_restful trivial (hmatch.mpr hrest)⟩
    · exact silenceSound_iff.mpr ⟨⟨hbase.1, hbase.2.1, rfl, rfl, rfl⟩, nofun,
        activeMatches_of_restful trivial (hmatch.mpr hrest)⟩
  next hnot =>
    refine silenceSound_iff.mpr ⟨⟨hbase.1, hbase.2.1, ?_⟩, hfades, hmatch⟩
    have hrest := hbase.2.2
    change (match s.silence.state with
      | .voiced => s.silence.level = 0 ∧ s.silence.resumable = false
      | .fading => (1 ≤ s.silence.level ∧ s.silence.level ≤ 14) ∧ s.silence.resumable = false
      | .silent => s.silence.level = 15 ∧ (s.silence.resumable = true → ResumeMode.auto = .manual)
      | .holding => s.silence.level = 15 ∧ s.silence.resumable = false ∧ ResumeMode.auto = .auto)
    cases hstate : s.silence.state <;> simp only [hstate] at hrest ⊢
    · exact hrest
    · exact hrest
    · exact ⟨hrest.1, fun hmark => absurd ⟨hrest.2 hmark, hstate, hmark⟩ hnot⟩
    · exact ⟨hrest.1, hrest.2.1, trivial⟩

theorem setManual_sound (h : SilenceSound s) : SilenceSound (setManual s) := by
  obtain ⟨hbase, hfades, hmatch⟩ := silenceSound_iff.mp h
  simp only [setManual]
  split
  next hholds =>
    have hrest : Restful s.silence := by simp [Restful, hholds.2]
    refine silenceSound_iff.mpr ⟨?_, ?_, ?_⟩
    · unfold SilenceBase
      rw [goSilent_silence, goSilent_unchanged true _ .settings (by decide)]
      exact ⟨hbase.1, hbase.2.1, rfl, fun _ => rfl⟩
    · rw [FadesOn, goSilent_silence]
      nofun
    · refine activeMatches_of_restful ((goSilent_restful true _).mpr rfl) ?_
      rw [(goSilent_condsKept true _).active]
      exact hmatch.mpr hrest
  next hnot =>
    refine silenceSound_iff.mpr ⟨⟨hbase.1, hbase.2.1, ?_⟩, hfades, hmatch⟩
    have hrest := hbase.2.2
    change (match s.silence.state with
      | .voiced => s.silence.level = 0 ∧ s.silence.resumable = false
      | .fading => (1 ≤ s.silence.level ∧ s.silence.level ≤ 14) ∧ s.silence.resumable = false
      | .silent => s.silence.level = 15 ∧ (s.silence.resumable = true → ResumeMode.manual = .manual)
      | .holding => s.silence.level = 15 ∧ s.silence.resumable = false ∧ ResumeMode.manual = .auto)
    cases hstate : s.silence.state <;> simp only [hstate] at hrest ⊢
    · exact hrest
    · exact hrest
    · exact ⟨hrest.1, fun _ => trivial⟩
    · exact absurd ⟨hrest.2.2, hstate⟩ hnot

theorem setHoldTime_sound (v : Nat) (h : SilenceSound s) : SilenceSound (setHoldTime v s) := by
  have hwritten : SilenceSound (updSettings (fun x => { x with holdTime := v }) s) := h.of_kept rfl rfl id
  simp only [setHoldTime]
  split
  next hover =>
    simp only [holdReached, decide_eq_true_eq] at hover
    exact goVoiced_sound hwritten (hwritten.active_of_holding hover.1)
  · exact hwritten

theorem writeSetting_sound {n : Nat} (v : Nat) (hn : n ≠ 14) (h : SilenceSound s) : SilenceSound (writeSetting n v s) := by
  unfold writeSetting
  split
  case h_4 =>
    simp only [setIdleTime]
    have hwritten : SilenceSound (updSettings (fun x => { x with idleTime := v }) s) := h.of_kept rfl rfl id
    exact hwritten.of_unchanged (.ite (startDrain_unchanged _) (.refl _ _))
  case h_15 => exact absurd rfl hn
  case h_18 =>
    split
    · exact setAuto_sound h
    · exact setManual_sound h
  case h_19 => exact setHoldTime_sound v h
  all_goals exact h.of_kept rfl rfl id

/-! ### The other moves -/

theorem QueueFrom.map_nil {q r : List Entry} {f : Entry → Entry} (h : r = q.map f) (hr : r = []) : q = [] := by
  rw [h] at hr
  exact List.map_eq_nil_iff.mp hr

theorem writeTiming_queue (c : Fin 8) (f : TimingFields) (s : State) : ∃ g, (writeTiming c f s).queue = s.queue.map g := by
  simp only [writeTiming]
  split
  · refine ⟨undampEntry c, ?_⟩
    rw [undamp, drainCheck_unchanged _ .queue (by decide), updChannel_queue, setVoicing, updChannel_queue]
  · exact ⟨id, by rw [setVoicing, updChannel_queue, List.map_id]⟩

theorem localTick_queue (b : Bool) (s : State) : ∃ g, (localTick b s).queue = s.queue.map g := by
  have hbefore (u : State) : (tickBeacon (tickSlots (holdTick (idleTick (chargeTick (tickTime u)))))).queue = u.queue := by
    rw [tickBeacon_unchanged _ .queue (by decide), tickSlots_unchanged _ .queue (by decide),
      holdTick_unchanged _ .queue (by decide), idleTick_unchanged _ .queue (by decide),
      chargeTick_unchanged _ .queue (by decide), tickTime_unchanged _ .queue (by decide)]
  refine ⟨fun e => if becomesHeld (tickBeacon (tickSlots (holdTick (idleTick (chargeTick (tickTime
    { s with pins := { s.pins with feedback := b } })))))) e then { e with held := true } else e, ?_⟩
  simp only [localTick]
  rw [forgetErrors_unchanged _ .queue (by decide), markHeld, hbefore]

theorem holdTick_silence (s : State) : ∃ n, (holdTick s).silence = { s.silence with hold := n } := by
  unfold holdTick
  split
  · exact ⟨_, rfl⟩
  · exact ⟨s.silence.hold, rfl⟩

theorem localTick_silence (b : Bool) (s : State) : ∃ n, (localTick b s).silence = { s.silence with hold := n } := by
  have hafter (u : State) : (forgetErrors (markHeld (tickBeacon (tickSlots u)))).silence = u.silence := by
    rw [forgetErrors_unchanged _ .silence (by decide), markHeld_unchanged _ .silence (by decide),
      tickBeacon_unchanged _ .silence (by decide), tickSlots_unchanged _ .silence (by decide)]
  have hbefore (u : State) : (idleTick (chargeTick (tickTime u))).silence = u.silence := by
    rw [idleTick_unchanged _ .silence (by decide), chargeTick_unchanged _ .silence (by decide),
      tickTime_unchanged _ .silence (by decide)]
  obtain ⟨n, hn⟩ := holdTick_silence (idleTick (chargeTick (tickTime { s with pins := { s.pins with feedback := b } })))
  refine ⟨n, ?_⟩
  simp only [localTick, hafter, hn, hbefore]

theorem localTick_sound (b : Bool) (h : SilenceSound s) : SilenceSound (localTick b s) := by
  obtain ⟨hbase, hfades, hmatch⟩ := silenceSound_iff.mp h
  obtain ⟨g, hqueue⟩ := localTick_queue b s
  obtain ⟨n, hsilence⟩ := localTick_silence b s
  refine silenceSound_iff.mpr ⟨?_, ?_, ?_⟩
  · unfold SilenceBase at *
    rw [hsilence, localTick_unchanged s b .settings (by decide)]
    exact hbase
  · unfold FadesOn at *
    rw [hsilence, hqueue]
    exact fun hfading hnil => hfades hfading (List.map_eq_nil_iff.mp hnil)
  · unfold ActiveMatches at *
    rw [hsilence]
    exact hmatch

theorem sampleCond_sound (c : Condition) (b : Bool) (h : SilenceSound s) : SilenceSound (sampleCond c b s) := by
  unfold sampleCond
  split
  · exact assertCond_sound c h
  · exact h

theorem sampleConds_sound (h : SilenceSound s) : SilenceSound (sampleConds s) :=
  sampleCond_sound _ _ (sampleCond_sound _ _ (sampleCond_sound _ _ (sampleCond_sound _ _ h)))

theorem initial_sound {m : BitVec 8} (hsilence : s.silence = Silence.initial m)
    (hclash : hasCondition m .stationClash = true) (haccess : hasCondition m .access = true) : SilenceSound s := by
  refine silenceSound_iff.mpr ?_
  unfold SilenceBase FadesOn ActiveMatches
  rw [hsilence]
  exact ⟨⟨hclash, haccess, rfl, rfl⟩, nofun, fun _ => trivial, fun _ => BitVec.zero_and⟩

theorem openChamber_sound (h : SilenceSound s) : SilenceSound (openChamber s) :=
  assertCond_sound .access (h.of_unchanged (ps := [.pins, .drive, .channels]) (((writePins_unchanged s _).widen.andThen
    (shutBank_unchanged _)).andThen (dropAll_unchanged _)))

theorem closeChamber_sound (h : SilenceSound s) : SilenceSound (closeChamber s) :=
  clearCond_sound .access (h.of_unchanged (ps := [.pins, .drive, .channels]) (((writePins_unchanged s _).widen.andThen
    (wakeAtRelease_unchanged _)).andThen (.foldl _ (fun t k => tryLift_unchanged k t) allChannels _)))

theorem setLock_sound (l : LockState) (h : SilenceSound s) : SilenceSound (setLock l s) := by
  have hwritten : SilenceSound { s with time := { s.time with lock := l } } := h.of_kept rfl rfl id
  simp only [setLock]
  split
  · exact assertCond_sound _ hwritten
  · exact clearCond_sound _ hwritten

theorem receiveFailure_sound (h : SilenceSound s) : SilenceSound (receiveFailure s) := by
  simp only [receiveFailure]
  split
  · exact assertCond_sound _ (h.of_kept rfl rfl id)
  · exact h.of_kept rfl rfl id

theorem insertEntry_ne_nil (e : Entry) (l : List Entry) : insertEntry e l ≠ [] := by
  refine List.ne_nil_of_length_pos ?_
  rw [length_insertEntry]
  exact Nat.succ_pos _

theorem move_silenceSound (h : Move k ps s t) (hs : SilenceSound s) : SilenceSound t := by
  by_cases hd : Part.silence ∈ ps ∨ Part.settings ∈ ps ∨ Part.queue ∈ ps
  case neg =>
    simp only [not_or] at hd
    exact hs.of_unchanged h.unchanged hd.1 hd.2.1 hd.2.2
  cases h with
  | remove o e => exact removeEntry_sound o e hs.leaving
  | launch e => exact launchEntry_sound e hs.leaving
  | hold e => exact hs.of_kept rfl rfl List.map_eq_nil_iff.mp
  | release e => exact hs.of_kept rfl rfl List.map_eq_nil_iff.mp
  | enqueue e => exact hs.of_kept rfl rfl fun hnil => absurd hnil (insertEntry_ne_nil _ _)
  | exchange x e =>
    exact (removeEntry_sound .purged x hs.leaving).of_kept rfl rfl fun hnil => absurd hnil (insertEntry_ne_nil _ _)
  | writeTiming c f =>
    obtain ⟨g, hqueue⟩ := writeTiming_queue c f s
    exact hs.of_kept (writeTiming_unchanged s c f .silence (by decide))
      (by rw [writeTiming_unchanged s c f .settings (by decide)]) (by rw [hqueue]; exact List.map_eq_nil_iff.mp)
  | openChamber => exact openChamber_sound hs
  | closeChamber => exact closeChamber_sound hs
  | chargerFails => exact assertCond_sound _ (hs.of_kept rfl rfl id)
  | chargerWorks => exact clearCond_sound _ (hs.of_kept rfl rfl id)
  | coilHeats => exact assertCond_sound _ (hs.of_kept rfl rfl id)
  | coilCools => exact clearCond_sound _ (hs.of_kept rfl rfl id)
  | goVoiced _ hrest => exact goVoiced_sound hs (hrest.elim id hs.active_of_holding)
  | setMask m _ hclash haccess => exact setMask_sound m hs hclash haccess
  | setLock l => exact setLock_sound l hs
  | startTimeStep => exact assertCond_sound _ (hs.of_kept rfl rfl id)
  | endTimeStep => exact clearCond_sound _ (hs.of_kept rfl rfl id)
  | localTick b => exact localTick_sound b hs
  | receiveFailure => exact receiveFailure_sound hs
  | clearErrors => exact clearCond_sound _ (hs.of_kept rfl rfl id)
  | beginFault => exact assertCond_sound _ (hs.of_kept rfl rfl id)
  | endFault => exact clearCond_sound _ (hs.of_kept rfl rfl id)
  | heardClash => exact assertCond_sound _ (hs.of_kept rfl rfl id)
  | endClash => exact clearCond_sound _ (hs.of_kept rfl rfl id)
  | writeSetting n v _ hn => exact writeSetting_sound _ hn hs
  | writePreroll => exact hs.of_kept rfl rfl id
  | powerOn straps pins =>
    exact sampleConds_sound (initial_sound rfl (fixedFlags_set _).1 (fixedFlags_set _).2)
  | restart =>
    obtain ⟨hclash, haccess, -⟩ := hs
    exact sampleConds_sound (initial_sound rfl hclash haccess)
  | _ => exact absurd hd (by decide)

end

end Sys2Proof.Machine
end

