-- ==== Sys2Proof/Proofs/ConditionsKept.lean ====
section
/-! Every move keeps each condition asserted exactly while its cause stands (R67, R80, R89, R94, R95, R169). -/

namespace Sys2Proof.Machine

-- One proof after another: many at once would ask for more threads than the memory limit allows.
set_option Elab.async false

section
variable {k : Kind} {ps : List Part} {s t : State}

/-- What a condition stands for; CHECK_ERRORS, which an event of its own clears, is left out. -/
def cause (s : State) : Condition → Bool
  | .timeUnlocked => decide (s.time.lock = .acquiring)
  | .timeStep => s.time.stepAt.isSome
  | .lineFault => s.line.faultAt.isSome
  | .checkErrors => false
  | .driveFault => s.pins.chargerFault
  | .coilHot => s.pins.coilHot
  | .stationClash => s.line.clashAt.isSome
  | .access => s.pins.access

/-- Each condition but CHECK_ERRORS is asserted while its cause stands. -/
def CausesMet (s : State) : Prop := ∀ c, c ≠ .checkErrors → hasCondition s.silence.conds c = cause s c

/-- The errors held are not older than the window, and more than 8 of them assert CHECK_ERRORS (R89). -/
def ErrorsMet (s : State) : Prop :=
  (∀ c ∈ s.line.errors, ticksSince s.time.count c ≤ 4000) ∧
  (8 < s.line.errors.length → hasCondition s.silence.conds .checkErrors = true)

theorem conditionsSound_iff : ConditionsSound s ↔ CausesMet s ∧ ErrorsMet s := by
  constructor
  · rintro ⟨hlock, hstep, hfault, hdrive, hcoil, hclash, haccess, herrors⟩
    refine ⟨fun c hc => ?_, herrors⟩
    cases c with
    | checkErrors => exact absurd rfl hc
    | _ => assumption
  · rintro ⟨hmet, herrors⟩
    exact ⟨hmet .timeUnlocked nofun, hmet .timeStep nofun, hmet .lineFault nofun, hmet .driveFault nofun,
      hmet .coilHot nofun, hmet .stationClash nofun, hmet .access nofun, herrors⟩

theorem CausesMet.of_same (h : CausesMet s) (hconds : t.silence.conds = s.silence.conds)
    (hcause : ∀ c, cause t c = cause s c) : CausesMet t := fun c hc => by
  rw [hconds, hcause]
  exact h c hc

/-- One condition takes the state of its cause; the others stay with theirs. -/
theorem causesMet_of_set {d : Condition} {b : Bool} (h : CausesMet s)
    (hconds : ∀ c, hasCondition t.silence.conds c = if c = d then b else hasCondition s.silence.conds c)
    (hcause : ∀ c, cause t c = if c = d ∧ d ≠ .checkErrors then b else cause s c) : CausesMet t := by
  intro c hc
  rw [hconds, hcause]
  by_cases hd : c = d
  · rw [if_pos hd, if_pos ⟨hd, hd ▸ hc⟩]
  · rw [if_neg hd, if_neg fun he => hd he.1]
    exact h c hc

theorem assertCond_set (d c : Condition) (s : State) : hasCondition (assertCond d s).silence.conds c =
    if c = d then true else hasCondition s.silence.conds c := by
  rw [assertCond_has]
  split <;> simp_all

theorem clearCond_set (d c : Condition) (s : State) : hasCondition (clearCond d s).silence.conds c =
    if c = d then false else hasCondition s.silence.conds c := by
  rw [clearCond_has]
  split <;> simp_all

theorem cause_congr (htime : t.time = s.time) (hline : t.line = s.line) (hpins : t.pins = s.pins) (c : Condition) :
    cause t c = cause s c := by
  cases c <;> simp only [cause, htime, hline, hpins]

theorem cause_silence (h : Unchanged [.silence, .trace] s t) (c : Condition) : cause t c = cause s c :=
  cause_congr (h .time (by decide)) (h .line (by decide)) (h .pins (by decide)) c

/-- The cause of a condition comes to stand, and the condition is asserted. -/
theorem assertCond_met {u : State} (d : Condition) (h : CausesMet s) (hconds : u.silence = s.silence)
    (hcause : ∀ c, cause u c = if c = d ∧ d ≠ .checkErrors then true else cause s c) : CausesMet (assertCond d u) :=
  causesMet_of_set h (fun c => by rw [assertCond_set, hconds])
    fun c => (cause_silence (assertCond_unchanged d u) c).trans (hcause c)

/-- The cause of a condition goes, and the condition is cleared. -/
theorem clearCond_met {u : State} (d : Condition) (h : CausesMet s) (hconds : u.silence = s.silence)
    (hcause : ∀ c, cause u c = if c = d ∧ d ≠ .checkErrors then false else cause s c) : CausesMet (clearCond d u) :=
  causesMet_of_set h (fun c => by rw [clearCond_set, hconds])
    fun c => (cause_silence (clearCond_unchanged d u) c).trans (hcause c)

theorem ErrorsMet.of_same (h : ErrorsMet s) (herrors : t.line.errors = s.line.errors) (hcount : t.time.count = s.time.count)
    (hconds : hasCondition s.silence.conds .checkErrors = true → hasCondition t.silence.conds .checkErrors = true) :
    ErrorsMet t := by
  obtain ⟨hfresh, hmany⟩ := h
  refine ⟨?_, ?_⟩
  · rw [herrors, hcount]
    exact hfresh
  · rw [herrors]
    exact fun hlength => hconds (hmany hlength)

theorem recentErrors_fresh (s : State) : ∀ c ∈ recentErrors s, ticksSince s.time.count c ≤ 4000 := fun _ hc =>
  of_decide_eq_true (List.mem_filter.mp hc).2

theorem recentErrors_length (s : State) : (recentErrors s).length ≤ s.line.errors.length := List.length_filter_le _ _

/-- Causes and errors as `Condition` moves keep them. -/
def ConditionsMet (s : State) : Prop := CausesMet s ∧ ErrorsMet s

theorem ConditionsMet.of_kept (h : ConditionsMet s) (hconds : t.silence.conds = s.silence.conds)
    (hcause : ∀ c, cause t c = cause s c) (herrors : t.line.errors = s.line.errors)
    (hcount : t.time.count = s.time.count) : ConditionsMet t :=
  ⟨h.1.of_same hconds hcause, h.2.of_same herrors hcount fun hset => by rw [hconds]; exact hset⟩

theorem ConditionsMet.of_condsKept (h : ConditionsMet s) (hkept : CondsKept s t) (hu : Unchanged ps s t)
    (htime : Part.time ∉ ps := by decide) (hline : Part.line ∉ ps := by decide) (hpins : Part.pins ∉ ps := by decide) :
    ConditionsMet t :=
  h.of_kept hkept.1 (cause_congr (hu .time htime) (hu .line hline) (hu .pins hpins)) (by rw [hu .line hline])
    (by rw [hu .time htime])

theorem ConditionsMet.of_line (h : ConditionsMet s) (hsilence : t.silence = s.silence) (htime : t.time = s.time)
    (hpins : t.pins = s.pins) (herrors : t.line.errors = s.line.errors) (hfault : t.line.faultAt = s.line.faultAt)
    (hclash : t.line.clashAt = s.line.clashAt) : ConditionsMet t :=
  h.of_kept (by rw [hsilence]) (fun c => by cases c <;> simp only [cause, htime, hpins, hfault, hclash]) herrors
    (by rw [htime])

theorem handBeacon_line (b : NodeBeacon) (s : State) : (handBeacon b s).line.errors = s.line.errors ∧
    (handBeacon b s).line.faultAt = s.line.faultAt ∧ (handBeacon b s).line.clashAt = s.line.clashAt := by
  simp only [handBeacon]
  split
  · exact ⟨rfl, rfl, rfl⟩
  split
  · exact ⟨rfl, rfl, rfl⟩
  · rcases handFrame_line { frame := .presence b, origin := .beacon } s with hline | ⟨q, -, hline⟩ <;>
      exact ⟨by rw [hline], by rw [hline], by rw [hline]⟩

theorem setMask_conds (m : BitVec 8) (s : State) : (setMask m s).silence.conds = s.silence.conds := by
  have hacted (u : State) (before : BitVec 8) : (actNewlyEnabled before u).silence.conds = u.silence.conds := by
    rw [actNewlyEnabled_eq]
    suffices hfold : ∀ (l : List Condition) (v : State), CondsKept v
        (l.foldl (fun w c => if newlyEnabled before u c then actOn c w else w) v) from (hfold _ u).1
    intro l
    induction l with
    | nil => exact .refl
    | cons c l ih =>
      intro v
      rw [List.foldl_cons]
      refine CondsKept.trans ?_ (ih _)
      split
      · exact actOn_condsKept c v
      · exact .refl v
  simp only [setMask]
  split
  · exact (allCleared_condsKept _).1.trans (hacted _ _)
  · exact hacted _ _

theorem writeSetting_condsKept {n : Nat} (v : Nat) (hn : n ≠ 14) (s : State) : CondsKept s (writeSetting n v s) := by
  unfold writeSetting
  split
  case h_4 => exact .of_unchanged (setIdleTime_unchanged s v)
  case h_15 => exact absurd rfl hn
  case h_18 =>
    split
    · simp only [setAuto]
      split
      · exact goHolding_condsKept _
      · exact .refl _
    · simp only [setManual]
      split
      · exact goSilent_condsKept true _
      · exact .refl _
  case h_19 =>
    simp only [setHoldTime]
    split <;> exact .refl _
  all_goals exact ⟨rfl, rfl⟩

/-- A condition asserted with its cause, which is none of the errors. -/
theorem assertCond_conditionsMet {u : State} (d : Condition) (h : ConditionsMet s) (hsilence : u.silence = s.silence)
    (hcause : ∀ c, cause u c = if c = d ∧ d ≠ .checkErrors then true else cause s c)
    (herrors : u.line.errors = s.line.errors) (hcount : u.time.count = s.time.count) :
    ConditionsMet (assertCond d u) := by
  refine ⟨assertCond_met d h.1 hsilence hcause, h.2.of_same ?_ ?_ fun hset => ?_⟩
  · rw [assertCond_unchanged d u .line (by decide), herrors]
  · rw [assertCond_unchanged d u .time (by decide), hcount]
  · rw [assertCond_set, hsilence]
    split
    · rfl
    · exact hset

/-- A condition cleared with its cause, which is none of the errors. -/
theorem clearCond_conditionsMet {u : State} (d : Condition) (hd : d ≠ .checkErrors) (h : ConditionsMet s)
    (hsilence : u.silence = s.silence) (hcause : ∀ c, cause u c = if c = d ∧ d ≠ .checkErrors then false else cause s c)
    (herrors : u.line.errors = s.line.errors) (hcount : u.time.count = s.time.count) :
    ConditionsMet (clearCond d u) := by
  refine ⟨clearCond_met d h.1 hsilence hcause, h.2.of_same ?_ ?_ fun hset => ?_⟩
  · rw [clearCond_unchanged d u .line (by decide), herrors]
  · rw [clearCond_unchanged d u .time (by decide), hcount]
  · rw [clearCond_set, if_neg hd.symm, hsilence]
    exact hset

theorem setLock_conditionsMet (l : LockState) (h : ConditionsMet s) : ConditionsMet (setLock l s) := by
  simp only [setLock]
  split
  next hl =>
    subst hl
    exact assertCond_conditionsMet .timeUnlocked h rfl (fun c => by cases c <;> rfl) rfl rfl
  next hl =>
    refine clearCond_conditionsMet .timeUnlocked nofun h rfl (fun c => ?_) rfl rfl
    cases c <;> simp [cause, hl]

theorem openChamber_conditionsMet (h : ConditionsMet s) : ConditionsMet (openChamber s) :=
  assertCond_conditionsMet .access h rfl (fun c => by cases c <;> rfl) rfl rfl

theorem closeChamber_conditionsMet (h : ConditionsMet s) : ConditionsMet (closeChamber s) := by
  have hu : Unchanged [.drive, .channels] { s with pins := { s.pins with access := false } }
      (allChannels.foldl (fun t k => tryLift k t) (wakeAtRelease { s with pins := { s.pins with access := false } })) :=
    (wakeAtRelease_unchanged _).widen.andThen (.foldl _ (fun t k => tryLift_unchanged k t) allChannels _)
  refine clearCond_conditionsMet .access nofun h (hu .silence (by decide)) (fun c => ?_)
    (congrArg Line.errors (hu .line (by decide))) (congrArg Timebase.count (hu .time (by decide)))
  refine (cause_congr (hu .time (by decide)) (hu .line (by decide)) (hu .pins (by decide)) c).trans ?_
  cases c <;> rfl

theorem receiveFailure_conditionsMet (h : ConditionsMet s) : ConditionsMet (receiveFailure s) := by
  have hfresh : ∀ c ∈ recentErrors s ++ [s.time.count], ticksSince s.time.count c ≤ 4000 := fun c hc => by
    rcases List.mem_append.mp hc with hc | hc
    · exact recentErrors_fresh s c hc
    · rw [List.mem_singleton.mp hc]
      simp [ticksSince]
  simp only [receiveFailure]
  split
  · refine ⟨assertCond_met .checkErrors h.1 rfl (fun c => by cases c <;> rfl), ?_, fun _ => ?_⟩
    · rw [assertCond_unchanged _ _ .line (by decide), assertCond_unchanged _ _ .time (by decide)]
      exact hfresh
    · rw [assertCond_set, if_pos rfl]
  next hfew =>
    refine ⟨h.1.of_same rfl fun c => by cases c <;> rfl, hfresh, fun hmany => ?_⟩
    exact absurd hmany hfew

theorem clearErrors_conditionsMet (h : ConditionsMet s) (hfew : (recentErrors s).length ≤ 8) :
    ConditionsMet (clearCond .checkErrors (forgetErrors s)) := by
  refine ⟨clearCond_met .checkErrors h.1 rfl (fun c => by cases c <;> rfl), ?_, fun hmany => ?_⟩
  · rw [clearCond_unchanged _ _ .line (by decide), clearCond_unchanged _ _ .time (by decide)]
    exact recentErrors_fresh s
  · rw [clearCond_unchanged _ _ .line (by decide)] at hmany
    exact absurd hmany (Nat.not_lt.mpr hfew)

theorem tickBeacon_causes (s : State) : (∀ c, cause (tickBeacon s) c = cause s c) ∧
    (tickBeacon s).line.errors = s.line.errors ∧ (tickBeacon s).time = s.time := by
  unfold tickBeacon
  split
  · exact ⟨fun _ => rfl, rfl, rfl⟩
  · exact ⟨fun c => by cases c <;> rfl, rfl, rfl⟩

/-- A local tick touches no cause, and forgets the errors that grow too old with it. -/
theorem localTick_causes (b : Bool) (s : State) : (∀ c, cause (localTick b s) c = cause s c) ∧
    (localTick b s).line.errors = s.line.errors.filter fun x => decide (ticksSince (s.time.count + 1) x ≤ 4000) := by
  have htick : ∃ u : State, (∀ c, cause u c = cause s c) ∧ u.line = s.line ∧ u.time.count = s.time.count + 1 ∧
      localTick b s = forgetErrors (markHeld (tickBeacon u)) := by
    refine ⟨tickSlots (holdTick (idleTick (chargeTick (tickTime { s with pins := { s.pins with feedback := b } })))),
      ?_, ?_, ?_, rfl⟩
    · have hu := ((((chargeTick_unchanged (tickTime { s with pins := { s.pins with feedback := b } })).widen.andThen
        (idleTick_unchanged _)).andThen (holdTick_unchanged _)).andThen (tickSlots_unchanged _) :
        Unchanged [.drive, .silence, .conductor] _ _)
      intro c
      refine (cause_congr (hu .time (by decide)) (hu .line (by decide)) (hu .pins (by decide)) c).trans ?_
      cases c <;> rfl
    · rw [tickSlots_unchanged _ .line (by decide), holdTick_unchanged _ .line (by decide),
        idleTick_unchanged _ .line (by decide), chargeTick_unchanged _ .line (by decide)]
      rfl
    · rw [tickSlots_unchanged _ .time (by decide), holdTick_unchanged _ .time (by decide),
        idleTick_unchanged _ .time (by decide), chargeTick_unchanged _ .time (by decide)]
      rfl
  obtain ⟨u, hcause, hline, hcount, heq⟩ := htick
  obtain ⟨hbeacon, herrors, htime⟩ := tickBeacon_causes u
  rw [heq]
  refine ⟨fun c => ?_, ?_⟩
  · rw [← hcause c, ← hbeacon c]
    cases c <;> rfl
  · simp only [forgetErrors, recentErrors, markHeld_line, markHeld_time, herrors, htime, hline, hcount,
      Config.errorWindow]

theorem localTick_conditionsMet (b : Bool) (h : ConditionsMet s) : ConditionsMet (localTick b s) := by
  obtain ⟨n, hsilence⟩ := localTick_silence b s
  obtain ⟨hcause, herrors⟩ := localTick_causes b s
  obtain ⟨hmet, -, hmany⟩ := h
  refine ⟨hmet.of_same (by rw [hsilence]) hcause, fun c hc => ?_, fun hlength => ?_⟩
  · rw [herrors] at hc
    rw [localTick_time]
    exact of_decide_eq_true (List.mem_filter.mp hc).2
  · rw [herrors] at hlength
    rw [hsilence]
    exact hmany (hlength.trans_le (List.length_filter_le _ _))

/-- Right after a reset: no condition is asserted, and no cause stands but the inputs' and that of the lock state. -/
theorem sampleConds_conditionsMet {m : BitVec 8} (hsilence : s.silence = Silence.initial m) (hline : s.line = Line.initial)
    (hstep : s.time.stepAt = none) : ConditionsMet (sampleConds s) := by
  have hsample (c d : Condition) (b : Bool) (u : State) : hasCondition (sampleCond d b u).silence.conds c =
      ((decide (c = d) && b) || hasCondition u.silence.conds c) := by
    unfold sampleCond
    split
    · rw [assertCond_has]
      simp_all
    · simp_all
  have hu := sampleConds_unchanged s
  have hnone : hasCondition s.silence.conds = fun _ => false := by
    funext c
    rw [hsilence]
    exact hasCondition_zero c
  have hpins (u : State) (d : Condition) (b : Bool) : (sampleCond d b u).pins = u.pins :=
    sampleCond_unchanged u d b .pins (by decide)
  refine ⟨fun c hc => ?_, ?_, fun hmany => ?_⟩
  · rw [cause_silence hu]
    simp only [sampleConds, hsample, hnone]
    cases c <;> simp [cause, hline, Line.initial, hstep] at hc ⊢
  · rw [hu .line (by decide), hline]
    nofun
  · rw [hu .line (by decide), hline] at hmany
    cases hmany

theorem move_conditionsMet (h : Move k ps s t) (hs : ConditionsMet s) : ConditionsMet t := by
  by_cases hd : Part.silence ∈ ps ∨ Part.time ∈ ps ∨ Part.line ∈ ps ∨ Part.pins ∈ ps
  case neg =>
    simp only [not_or] at hd
    exact hs.of_condsKept (.of_unchanged h.unchanged hd.1) h.unchanged hd.2.1 hd.2.2.1 hd.2.2.2
  cases h with
  | remove o e => exact hs.of_condsKept (removeEntry_condsKept o e s) (removeEntry_unchanged o e s)
  | launch e => exact hs.of_condsKept (launchEntry_condsKept e s) (launchEntry_unchanged e s)
  | exchange x e =>
    exact hs.of_condsKept ((removeEntry_condsKept .purged x s).trans (.of_unchanged (enqueue_unchanged _ e)))
      ((removeEntry_unchanged .purged x s).widen.andThen (enqueue_unchanged _ e) : Unchanged admission s _)
  | openChamber => exact openChamber_conditionsMet hs
  | closeChamber => exact closeChamber_conditionsMet hs
  | chargerFails => exact assertCond_conditionsMet .driveFault hs rfl (fun c => by cases c <;> rfl) rfl rfl
  | chargerWorks => exact clearCond_conditionsMet .driveFault nofun hs rfl (fun c => by cases c <;> rfl) rfl rfl
  | coilHeats => exact assertCond_conditionsMet .coilHot hs rfl (fun c => by cases c <;> rfl) rfl rfl
  | coilCools => exact clearCond_conditionsMet .coilHot nofun hs rfl (fun c => by cases c <;> rfl) rfl rfl
  | setContact c level =>
    have hu := setContact_unchanged c level s
    refine hs.of_kept (by rw [hu .silence (by decide)]) (fun d => ?_) (by rw [hu .line (by decide)])
      (by rw [hu .time (by decide)])
    simp only [setContact]
    split <;> cases d <;> rfl
  | goVoiced => exact hs.of_condsKept (ps := [.silence]) ⟨rfl, rfl⟩ (goVoiced_unchanged s)
  | setMask m =>
    exact hs.of_kept (setMask_conds m s) (cause_silence (setMask_unchanged m s))
      (congrArg Line.errors (setMask_unchanged m s .line (by decide)))
      (congrArg Timebase.count (setMask_unchanged m s .time (by decide)))
  | writeTime x _ hlock =>
    obtain ⟨hcount, hstate, hstep⟩ := hlock
    exact hs.of_kept rfl (fun c => by cases c <;> simp only [cause, hstate, hstep]) rfl hcount
  | writeTower x _ hlock =>
    obtain ⟨hcount, hstate, hstep⟩ := hlock
    exact hs.of_kept rfl (fun c => by cases c <;> simp only [cause, hstate, hstep]) rfl hcount
  | setValid => exact hs.of_kept rfl (fun c => by cases c <;> rfl) rfl rfl
  | setLock l => exact setLock_conditionsMet l hs
  | startTimeStep => exact assertCond_conditionsMet .timeStep hs rfl (fun c => by cases c <;> rfl) rfl rfl
  | endTimeStep => exact clearCond_conditionsMet .timeStep nofun hs rfl (fun c => by cases c <;> rfl) rfl rfl
  | localTick b => exact localTick_conditionsMet b hs
  | handFrame x =>
    have hu := handFrame_unchanged x s
    have hline : (handFrame x s).1.line = { s.line with queue := (handFrame x s).1.line.queue } := by
      rcases handFrame_line x s with hline | ⟨q, -, hline⟩ <;> rw [hline]
    exact hs.of_line (hu .silence (by decide)) (hu .time (by decide)) (hu .pins (by decide)) (by rw [hline])
      (by rw [hline]) (by rw [hline])
  | handBeacon b =>
    have hu := handBeacon_unchanged b s
    obtain ⟨herrors, hfault, hclash⟩ := handBeacon_line b s
    exact hs.of_line (hu .silence (by decide)) (hu .time (by decide)) (hu .pins (by decide)) herrors hfault hclash
  | offerFrame =>
    have hu := offerFrame_unchanged s
    have hline : (offerFrame s).line = { s.line with
        queue := (offerFrame s).line.queue, sending := (offerFrame s).line.sending } := by
      unfold offerFrame
      split <;> rfl
    exact hs.of_line (hu .silence (by decide)) (hu .time (by decide)) (hu .pins (by decide)) (by rw [hline])
      (by rw [hline]) (by rw [hline])
  | loseArbitration c =>
    rcases loseArbitration_cases c s with heq | ⟨x, -, heq⟩ <;> rw [heq]
    · exact hs
    · exact hs.of_line rfl rfl rfl rfl rfl rfl
  | stopSending => exact hs.of_line rfl rfl rfl rfl rfl rfl
  | writeLine x _ hsame =>
    obtain ⟨-, -, -, herrors, hfault, hclash⟩ := hsame
    exact hs.of_line rfl rfl rfl herrors hfault hclash
  | receiveFailure => exact receiveFailure_conditionsMet hs
  | clearErrors _ hfew => exact clearErrors_conditionsMet hs hfew
  | beginFault => exact assertCond_conditionsMet .lineFault hs rfl (fun c => by cases c <;> rfl) rfl rfl
  | endFault => exact clearCond_conditionsMet .lineFault nofun hs rfl (fun c => by cases c <;> rfl) rfl rfl
  | heardClash => exact assertCond_conditionsMet .stationClash hs rfl (fun c => by cases c <;> rfl) rfl rfl
  | endClash => exact clearCond_conditionsMet .stationClash nofun hs rfl (fun c => by cases c <;> rfl) rfl rfl
  | writeSetting n v _ hn =>
    exact hs.of_condsKept (writeSetting_condsKept _ hn s) (writeSetting_unchanged s _ hn)
  | powerOn straps pins => exact sampleConds_conditionsMet rfl rfl rfl
  | losePower =>
    have hline : (losePower s).line = { s.line with sending := none, setAside := none, ackDriven := false } :=
      dropAll_unchanged _ .line (by decide)
    exact hs.of_line (dropAll_unchanged _ .silence (by decide)) (dropAll_unchanged _ .time (by decide))
      (dropAll_unchanged _ .pins (by decide)) (by rw [hline]) (by rw [hline]) (by rw [hline])
  | restart => exact sampleConds_conditionsMet rfl rfl rfl
  | _ => exact absurd hd (by decide)

end

/-- Settles O56, by the moves of a step. -/
theorem stepsKeepSilence : Obligations.StepsKeepSilence := by
  intro s t hsilence hconditions h
  exact ⟨step_keeps (P := SilenceSound) (fun _ _ hu => hu) move_silenceSound hsilence h,
    conditionsSound_iff.mpr (step_keeps (P := ConditionsMet) (fun _ _ hu => hu) move_conditionsMet
      (conditionsSound_iff.mp hconditions) h)⟩

end Sys2Proof.Machine
end

