-- ==== Sys2Proof/Proofs/EntriesKept.lean ====
section
/-! Every move keeps the queued entries and the dampers sound (R14, R19, R38). -/

namespace Sys2Proof.Machine

-- One proof after another: many at once would ask for more threads than the memory limit allows.
set_option Elab.async false

section
variable {k : Kind} {ps : List Part} {s t : State}

/-! ### Entries -/

/-- What an entry's soundness rests on besides the entry: the channels present and the damped ones. -/
def SameDamping (s t : State) : Prop :=
  t.straps = s.straps ∧ ∀ j : Fin 8, t.channels[j].voicing.damped = s.channels[j].voicing.damped

theorem SameDamping.of_voicing (hstraps : t.straps = s.straps) (h : VoicingKept s t) : SameDamping s t :=
  ⟨hstraps, fun j => by rw [(h j).1]⟩

theorem EntrySound.of_marked {e x : Entry} (h : EntrySound s x) (hsame : SameDamping s t)
    (he : e = { x with held := e.held }) : EntrySound t e := by
  obtain ⟨hpresent, hvelocity, hlift, hdamped⟩ := h
  obtain ⟨hstraps, hdamping⟩ := hsame
  rw [he]
  refine ⟨(isPresent_of_straps hstraps _).trans hpresent, hvelocity, hlift, fun hd => ?_⟩
  exact (hdamping x.channel).trans (hdamped hd)

theorem QueueSound.of_marked (h : QueueSound s) (hsame : SameDamping s t)
    (hqueue : ∀ e ∈ t.queue, ∃ x ∈ s.queue, e = { x with held := e.held }) : QueueSound t := by
  intro e he
  obtain ⟨x, hx, hmark⟩ := hqueue e he
  exact (h x hx).of_marked hsame hmark

theorem QueueSound.of_subset (h : QueueSound s) (hsame : SameDamping s t) (hqueue : ∀ e ∈ t.queue, e ∈ s.queue) :
    QueueSound t := h.of_marked hsame fun e he => ⟨e, hqueue e he, rfl⟩

theorem QueueSound.of_map {f : Entry → Entry} (h : QueueSound s) (hsame : SameDamping s t)
    (hf : ∀ x, f x = { x with held := (f x).held }) (hqueue : t.queue = s.queue.map f) : QueueSound t := by
  refine h.of_marked hsame fun e he => ?_
  rw [hqueue] at he
  obtain ⟨x, hx, rfl⟩ := List.mem_map.mp he
  exact ⟨x, hx, hf x⟩

theorem enqueue_queueSound {e : Entry} (h : QueueSound s) (he : EntrySound s e) : QueueSound (enqueue e s) := by
  intro x hx
  obtain rfl | hx := mem_insertEntry.mp hx
  · exact he
  · exact h x hx

theorem timedVoicing_damped (v : Voicing) (f : TimingFields) : (timedVoicing v f).damped = f.damped := rfl

theorem writeTiming_damped (c : Fin 8) (f : TimingFields) (s : State) (j : Fin 8) :
    (writeTiming c f s).channels[j].voicing.damped = if j = c then f.damped else s.channels[j].voicing.damped := by
  rw [writeTiming_voicing]
  split <;> rfl

theorem undampEntry_eq (c : Fin 8) (e : Entry) :
    undampEntry c e = if e.channel = c then { e with lift := none, duration := none } else e := rfl

theorem writeTiming_queueSound (c : Fin 8) (f : TimingFields) (h : QueueSound s) : QueueSound (writeTiming c f s) := by
  have hpresent (j : Fin 8) : isPresent (writeTiming c f s) j = isPresent s j :=
    isPresent_of_straps (writeTiming_unchanged s c f .straps (by decide)) j
  intro e he
  by_cases hundamp : s.channels[c].voicing.damped = true ∧ (!f.damped) = true
  · have hqueue : (writeTiming c f s).queue = s.queue.map (undampEntry c) := by
      simp only [writeTiming, if_pos hundamp]
      rw [undamp, drainCheck_unchanged _ .queue (by decide), updChannel_queue, setVoicing, updChannel_queue]
    rw [hqueue] at he
    obtain ⟨x, hx, rfl⟩ := List.mem_map.mp he
    obtain ⟨hx1, hx2, hx3, hx4⟩ := h x hx
    unfold EntrySound
    rw [undampEntry_eq]
    split
    · exact ⟨(hpresent _).trans hx1, hx2, rfl, nofun⟩
    next hne =>
      refine ⟨(hpresent _).trans hx1, hx2, hx3, fun hd => ?_⟩
      rw [writeTiming_damped, if_neg hne]
      exact hx4 hd
  · have hqueue : (writeTiming c f s).queue = s.queue := by
      simp only [writeTiming, if_neg hundamp]
      rw [setVoicing, updChannel_queue]
    rw [hqueue] at he
    obtain ⟨hx1, hx2, hx3, hx4⟩ := h e he
    refine ⟨(hpresent _).trans hx1, hx2, hx3, fun hd => ?_⟩
    rw [writeTiming_damped]
    split
    next hc =>
      subst hc
      have hdamped := hx4 hd
      cases hf : f.damped with
      | true => rfl
      | false => exact absurd ⟨hdamped, by rw [hf]; rfl⟩ hundamp
    · exact hx4 hd

theorem localTick_queueSound (b : Bool) (h : QueueSound s) : QueueSound (localTick b s) := by
  have hbefore (u : State) : (tickBeacon (tickSlots (holdTick (idleTick (chargeTick (tickTime u)))))).queue = u.queue := by
    rw [tickBeacon_unchanged _ .queue (by decide), tickSlots_unchanged _ .queue (by decide),
      holdTick_unchanged _ .queue (by decide), idleTick_unchanged _ .queue (by decide),
      chargeTick_unchanged _ .queue (by decide), tickTime_unchanged _ .queue (by decide)]
  have hu := localTick_unchanged s b
  refine h.of_map (f := fun e => if becomesHeld (tickBeacon (tickSlots (holdTick (idleTick (chargeTick (tickTime
    { s with pins := { s.pins with feedback := b } })))))) e then { e with held := true } else e)
    (.of_voicing (hu .straps (by decide)) (.of_unchanged hu)) (fun x => ?_) ?_
  · split <;> rfl
  · simp only [localTick]
    rw [forgetErrors_unchanged _ .queue (by decide), markHeld, hbefore]

theorem evalConflicts_voicingOnly (s : State) (j : Fin 8) : (evalConflicts s).channels[j].voicing = s.channels[j].voicing := by
  rw [evalConflicts_voicing]

/-- The moves that change a voicing record's damped flag are VOICE_SET TIMING and power-on. -/
theorem move_sameDamping (h : Move k ps s t) (hk : k ≠ .powerOn) (hk2 : k ≠ .voicing) : SameDamping s t :=
  ⟨move_detail h .straps (by simp [Detail.writers, hk]), fun j => by
    rw [move_detail h .voicing (by simp [Detail.writers, hk, hk2]) j]⟩

theorem move_queueSound (h : Move k ps s t) (hs : QueueSound s) : QueueSound t := by
  by_cases hv : k = .powerOn ∨ k = .voicing
  · cases h with
    | powerOn straps pins =>
      intro e he
      rw [powerOn_queue] at he
      cases he
    | setVoicing c v _ hdamped =>
      refine hs.of_subset ⟨rfl, fun j => ?_⟩ fun e he => he
      rw [setVoicing_voicing]
      split
      next hj => rw [hdamped, hj]
      · rfl
    | writeTiming c f => exact writeTiming_queueSound c f hs
    | _ => simp at hv
  rw [not_or] at hv
  have hsame := move_sameDamping h hv.1 hv.2
  by_cases hd : Part.queue ∈ ps
  case neg => exact hs.of_subset hsame fun e he => h.unchanged .queue hd ▸ he
  cases h with
  | remove o e => exact hs.of_subset hsame fun x hx => List.mem_of_mem_erase (by rwa [removeEntry_queue] at hx)
  | launch e => exact hs.of_subset hsame fun x hx => List.mem_of_mem_erase (by rwa [launchEntry_queue] at hx)
  | hold e =>
    refine hs.of_map (f := fun x => if x = e then { x with held := true } else x) hsame (fun x => ?_) rfl
    split <;> rfl
  | release e =>
    refine hs.of_map (f := fun x => if x = e then { x with held := false } else x) hsame (fun x => ?_) rfl
    split <;> rfl
  | enqueue e _ _ hsound => exact enqueue_queueSound hs hsound
  | exchange x e _ _ hsound =>
    refine enqueue_queueSound (hs.of_subset hsame fun y hy => ?_) (hsound.of_marked hsame rfl)
    exact List.mem_of_mem_erase (by rwa [removeEntry_queue] at hy)
  | localTick b => exact localTick_queueSound b hs
  | restart =>
    intro e he
    rw [restart_queue] at he
    cases he
  | _ => first | exact absurd hd (by decide) | exact absurd rfl hv.1 | exact absurd rfl hv.2

/-! ### Dampers -/

/-- What `DampersSound` states of one channel. -/
def DamperSound (access : Bool) (c : Channel) : Prop :=
  (c.voicing.damped = false → c.damperUp = false ∧ c.drop = none) ∧ (access = true → c.damperUp = false)

theorem dampersSound_iff : DampersSound s ↔ ∀ j : Fin 8, DamperSound s.pins.access s.channels[j] := Iff.rfl

theorem DampersSound.of_channels (h : DampersSound s) (haccess : t.pins.access = s.pins.access)
    (hchannels : ∀ j : Fin 8, DamperSound s.pins.access s.channels[j] → DamperSound s.pins.access t.channels[j]) :
    DampersSound t := fun j => by
  rw [haccess]
  exact hchannels j (h j)

theorem DampersSound.of_unchanged (h : DampersSound s) (hu : Unchanged ps s t) (hpins : Part.pins ∉ ps := by decide)
    (hchannels : Part.channels ∉ ps := by decide) : DampersSound t := by
  have hc : t.channels = s.channels := hu .channels hchannels
  exact h.of_channels (by rw [hu .pins hpins]) fun j hj => by rw [hc]; exact hj

/-- One channel changes, soundly. -/
theorem updChannel_dampersSound {f : Channel → Channel} {c : Fin 8} (h : DampersSound s)
    (hf : DamperSound s.pins.access s.channels[c] → DamperSound s.pins.access (f s.channels[c])) :
    DampersSound (updChannel c f s) := by
  refine h.of_channels rfl fun j hj => ?_
  rw [updChannel_channel]
  split
  next hc => subst hc; exact hf hj
  · exact hj

theorem drainCheck_dampersSound (h : DampersSound s) : DampersSound (drainCheck s) :=
  h.of_unchanged (drainCheck_unchanged s)

/-- A damper that falls is sound, whatever its drop time was. -/
theorem DamperSound.fallen {access : Bool} {c : Channel} {x : Option Nat} (h : DamperSound access c)
    (hx : x = none ∨ x = c.drop) : DamperSound access { c with damperUp := false, drop := x } := by
  refine ⟨fun hd => ⟨rfl, ?_⟩, fun _ => rfl⟩
  rcases hx with rfl | rfl
  · rfl
  · exact (h.1 hd).2

theorem idleDrop_dampersSound (c : Fin 8) (h : DampersSound s) : DampersSound (idleDrop c s) := by
  simp only [idleDrop]
  split
  · exact drainCheck_dampersSound (updChannel_dampersSound h fun hc => hc.fallen (.inr rfl))
  · exact h

theorem tryLift_dampersSound (c : Fin 8) (h : DampersSound s) : DampersSound (tryLift c s) := by
  unfold tryLift
  split
  next hlift =>
    obtain ⟨-, hdamped, -, haccess, -⟩ := hlift
    refine updChannel_dampersSound h fun _ => ⟨fun hd => ?_, fun ha => ?_⟩
    · rw [hdamped] at hd
      cases hd
    · rw [ha] at haccess
      cases haccess
  · exact h

theorem dropDamper_dampersSound (c : Fin 8) (h : DampersSound s) : DampersSound (dropDamper c s) := by
  unfold dropDamper
  split
  · exact h
  split
  · exact updChannel_dampersSound h fun hc => ⟨fun hd => ⟨(hc.1 hd).1, rfl⟩, hc.2⟩
  · exact drainCheck_dampersSound (tryLift_dampersSound c
      (updChannel_dampersSound h fun hc => hc.fallen (.inl rfl)))

theorem afterRemoval_dampersSound (e : Entry) (h : DampersSound s) : DampersSound (afterRemoval e s) := by
  have hchecked : DampersSound (if (fadingOf s e).isSome then checkFading s else s) :=
    h.of_unchanged (.ite (checkFading_unchanged s) (.refl _ s))
  exact (idleDrop_dampersSound _ hchecked).of_unchanged (fadeOut_unchanged _)

theorem removeEntry_dampersSound (o : StrikeOutcome) (e : Entry) (h : DampersSound s) :
    DampersSound (removeEntry o e s) :=
  afterRemoval_dampersSound e (h.of_unchanged (ps := [.queue, .trace, .counters])
    (((dequeue_unchanged e s).widen.andThen (writeRecord_unchanged _ _)).andThen (raise_unchanged _ _)))

theorem closeLaunch_dampersSound (e : Entry) (o : StrikeOutcome) (h : DampersSound s) :
    DampersSound (closeLaunch e o s) :=
  afterRemoval_dampersSound e (h.of_unchanged (ps := [.counters, .floor, .silence, .trace])
    (((raise_unchanged _ s).widen.andThen (preemptStep_unchanged e _)).andThen (fadeStepSilence_unchanged _)))

theorem fireChannel_damperSound {access : Bool} {c : Channel} (now : LocalCount) (e : Entry) (v : Nat)
    (h : DamperSound access c) : DamperSound access (fireChannel now e v c) := by
  refine ⟨fun hd => ⟨(h.1 hd).1, ?_⟩, h.2⟩
  have hdamped : c.voicing.damped = false := hd
  simp only [fireChannel]
  split
  · rw [hdamped]
    exact (h.1 hd).2
  · exact (h.1 hd).2

theorem fireEntry_dampersSound (e : Entry) (v : Nat) (h : DampersSound s) : DampersSound (fireEntry e v s) := by
  have hpaid : DampersSound { s with drive := { s.drive with
      level := s.drive.level - strikeCost s.channels[e.channel].voicing v } } :=
    h.of_channels rfl fun _ => id
  have hfired := updChannel_dampersSound (c := e.channel) (f := fireChannel s.time.count e v) hpaid
    (fireChannel_damperSound _ e v)
  exact hfired.of_unchanged (bankSync_unchanged _)

theorem launchEntry_dampersSound (e : Entry) (h : DampersSound s) : DampersSound (launchEntry e s) := by
  have hgone : DampersSound (dequeue e s) := h.of_unchanged (dequeue_unchanged e s)
  simp only [launchEntry]
  split
  · exact closeLaunch_dampersSound _ _ (hgone.of_unchanged (writeRecord_unchanged _ _))
  · exact closeLaunch_dampersSound _ _ ((fireEntry_dampersSound _ _ hgone).of_unchanged (writeRecord_unchanged _ _))

theorem writeTiming_dampersSound (c : Fin 8) (f : TimingFields) (h : DampersSound s) : DampersSound (writeTiming c f s) := by
  simp only [writeTiming]
  split
  · refine drainCheck_dampersSound (DampersSound.of_channels (s := s) h rfl fun j hj => ?_)
    rw [updChannel_channel]
    split
    · exact ⟨fun _ => ⟨rfl, rfl⟩, fun _ => rfl⟩
    next hne =>
      change DamperSound s.pins.access (setVoicing c _ s).channels[j]
      rw [setVoicing, updChannel_channel, if_neg hne]
      exact hj
  next hkeep =>
    refine updChannel_dampersSound h fun hc => ⟨fun hd => hc.1 ?_, hc.2⟩
    have hoff : f.damped = false := hd
    rw [hoff] at hkeep
    simpa using hkeep

theorem dropAll_channel (s : State) (j : Fin 8) :
    (dropAll s).channels[j] = { s.channels[j] with damperUp := false, drop := none } := by
  rw [dropAll, mapChannels_channel]

theorem dropAll_dampersSound (s : State) : DampersSound (dropAll s) := fun j => by
  rw [dropAll_channel]
  exact ⟨fun _ => ⟨rfl, rfl⟩, fun _ => rfl⟩

theorem closeChamber_dampersSound (h : DampersSound s) : DampersSound (closeChamber s) := by
  have hclosed : DampersSound (setAccess false s) := fun j => ⟨(h j).1, nofun⟩
  have hfold (l : List (Fin 8)) : ∀ u, DampersSound u → DampersSound (l.foldl (fun t k => tryLift k t) u) := by
    induction l with
    | nil => exact fun u hu => hu
    | cons c l ih => exact fun u hu => ih _ (tryLift_dampersSound c hu)
  exact (hfold allChannels _ (hclosed.of_unchanged (wakeAtRelease_unchanged _))).of_unchanged (clearCond_unchanged _ _)

theorem localTick_access (b : Bool) (s : State) : (localTick b s).pins.access = s.pins.access := by
  simp only [localTick]
  rw [forgetErrors_unchanged _ .pins (by decide), markHeld_unchanged _ .pins (by decide),
    tickBeacon_unchanged _ .pins (by decide), tickSlots_unchanged _ .pins (by decide),
    holdTick_unchanged _ .pins (by decide), idleTick_unchanged _ .pins (by decide),
    chargeTick_unchanged _ .pins (by decide), tickTime_unchanged _ .pins (by decide)]

theorem move_dampersSound (h : Move k ps s t) (hs : DampersSound s) : DampersSound t := by
  by_cases hd : Part.channels ∈ ps ∨ Part.pins ∈ ps
  case neg =>
    rw [not_or] at hd
    exact hs.of_unchanged h.unchanged hd.2 hd.1
  cases h with
  | remove o e => exact removeEntry_dampersSound o e hs
  | launch e => exact launchEntry_dampersSound e hs
  | exchange x e => exact (removeEntry_dampersSound .purged x hs).of_unchanged (enqueue_unchanged _ e)
  | stroke c f _ hf =>
    refine updChannel_dampersSound hs fun hc => ?_
    obtain ⟨hvoicing, -, hup, hdrop⟩ := hf s.channels[c]
    unfold DamperSound
    rw [hvoicing, hup, hdrop]
    exact hc
  | idleDrop c => exact idleDrop_dampersSound c hs
  | dropDamper c => exact dropDamper_dampersSound c hs
  | tryLift c => exact tryLift_dampersSound c hs
  | evalConflicts =>
    refine hs.of_channels rfl fun j hj => ?_
    rw [evalConflicts_voicing]
    exact hj
  | setVoicing c v _ hdamped =>
    refine updChannel_dampersSound hs fun hc => ?_
    unfold DamperSound
    simp only [hdamped]
    exact hc
  | writeTiming c f => exact writeTiming_dampersSound c f hs
  | openChamber => exact (dropAll_dampersSound _).of_unchanged (assertCond_unchanged .access _)
  | closeChamber => exact closeChamber_dampersSound hs
  | chargerFails => exact DampersSound.of_unchanged (s := setChargerFault true s) hs (assertCond_unchanged _ _)
  | chargerWorks => exact DampersSound.of_unchanged (s := setChargerFault false s) hs (clearCond_unchanged _ _)
  | coilHeats => exact DampersSound.of_unchanged (s := setCoilHot true s) hs (assertCond_unchanged _ _)
  | coilCools => exact DampersSound.of_unchanged (s := setCoilHot false s) hs (clearCond_unchanged _ _)
  | setContact c level =>
    refine hs.of_channels ?_ fun j hj => ?_
    · simp only [setContact]
      split <;> rfl
    · rw [setContact_unchanged c level s .channels (by decide)]
      exact hj
  | localTick b =>
    have hu := localTick_unchanged s b
    refine hs.of_channels ?_ fun j hj => ?_
    · exact localTick_access b s
    · rw [hu .channels (by decide)]
      exact hj
  | powerOn straps pins =>
    refine DampersSound.of_unchanged (s := powerOnBlocks straps pins s.service.memory s) (fun j => ?_)
      (sampleConds_unchanged _)
    simp [powerOnBlocks, freshChannel]
  | losePower => exact dropAll_dampersSound _
  | restart =>
    refine DampersSound.of_unchanged (s := restartBlocks s) (fun j => ?_) (sampleConds_unchanged _)
    simp [restartBlocks, Channel.restarted]
  | _ => exact absurd hd (by decide)

end

end Sys2Proof.Machine
end

