-- ==== Sys2Proof/Proofs/QueueOrder.lean ====
section
/-! The order of the strike queue (R39): an entry takes its place among launch times that lie within a window, and entries
that leave disturb no order. -/

namespace Sys2Proof.Machine

-- One proof after another: many at once would ask for more threads than the memory limit allows.
set_option Elab.async false

section
variable {s t u : State}

/-- Within a window less than half a week wide, the signed difference is that of the ticks since its begin. -/
theorem dist_of_window {a b base : Nat} (ha : minus a base ≤ 1000000000) (hb : minus b base ≤ 1000000000) :
    dist a b = (minus a base : Int) - (minus b base : Int) := by
  unfold dist
  simp only [minus, Config.week, Config.halfWeek] at *
  split_ifs <;> omega

theorem isBefore_of_window {a b base : Nat} (ha : minus a base ≤ 1000000000) (hb : minus b base ≤ 1000000000) :
    isBefore a b = decide (minus a base < minus b base) := by
  rw [isBefore, dist_of_window ha hb]
  refine decide_eq_decide.mpr ?_
  omega

/-- The launch times of a queue lie within a window (R64). -/
def InWindow (base : Nat) (q : List Entry) : Prop := ∀ e ∈ q, minus e.launch base ≤ 1000000000

theorem InWindow.of_queueFrom {base : Nat} {q r : List Entry} (h : InWindow base q) (hq : QueueFrom q r) :
    InWindow base r := by
  intro e he
  obtain ⟨x, hx, -, -, hlaunch, -⟩ := hq.mem he
  rw [hlaunch]
  exact h x hx

theorem SameStrike.standsBefore {x y x' y' : Entry} (hx : SameStrike x x') (hy : SameStrike y y')
    (h : StandsBefore x y) : StandsBefore x' y' := by
  obtain ⟨-, -, hxl, -, hxa⟩ := hx
  obtain ⟨-, -, hyl, -, hya⟩ := hy
  unfold StandsBefore
  rw [hxl, hxa, hyl, hya]
  exact h

theorem QueueFrom.ordered {q r : List Entry} (h : QueueFrom q r) (hq : q.Pairwise StandsBefore) :
    r.Pairwise StandsBefore := by
  obtain ⟨f, hf, hsub⟩ := h
  refine List.Pairwise.sublist hsub (List.pairwise_map.mpr (hq.imp fun {x y} hxy => ?_))
  exact (hf x).standsBefore (hf y) hxy

/-- An entry admitted after all the queued ones takes its place among them (R39). -/
theorem insertEntry_ordered {e : Entry} {base : Nat} {q : List Entry} (hq : q.Pairwise StandsBefore)
    (hwindow : InWindow base (e :: q))
    (hnumber : ∀ x ∈ q, 1 ≤ (e.admission - x.admission).toNat ∧ (e.admission - x.admission).toNat < 2147483648) :
    (insertEntry e q).Pairwise StandsBefore := by
  induction q with
  | nil => exact List.pairwise_singleton _ _
  | cons y l ih =>
    obtain ⟨hy, hl⟩ := List.pairwise_cons.mp hq
    have hwe := hwindow e List.mem_cons_self
    have hwy := hwindow y (by simp)
    have hwl : ∀ z ∈ l, minus z.launch base ≤ 1000000000 := fun z hz => hwindow z (by simp [hz])
    rw [insertEntry]
    split
    next hbefore =>
      rw [isBefore_of_window hwe hwy, decide_eq_true_eq] at hbefore
      refine List.pairwise_cons.mpr ⟨fun z hz => ?_, hq⟩
      have hyz : minus y.launch base ≤ minus z.launch base ∧ minus z.launch base ≤ 1000000000 := by
        obtain rfl | hz := List.mem_cons.mp hz
        · exact ⟨le_rfl, hwy⟩
        · have hyz := (hy z hz).1
          rw [isBefore_of_window (hwl z hz) hwy, decide_eq_false_iff_not] at hyz
          exact ⟨by omega, hwl z hz⟩
      refine ⟨?_, fun heq => ?_⟩
      · rw [isBefore_of_window hyz.2 hwe, decide_eq_false_iff_not]
        omega
      · rw [heq] at hbefore
        omega
    next hafter =>
      refine List.pairwise_cons.mpr ⟨fun z hz => ?_, ih hl (fun z hz => ?_) fun x hx => hnumber x (by simp [hx])⟩
      · obtain rfl | hz := mem_insertEntry.mp hz
        · exact ⟨Bool.eq_false_iff.mpr hafter, fun _ => hnumber y List.mem_cons_self⟩
        · exact hy z hz
      · obtain rfl | hz := List.mem_cons.mp hz
        · exact hwe
        · exact hwl z hz

/-! ### One admission -/

/-- The strikes of an owner stay queued, their marks aside. -/
def OwnersStay (o : Owner) (q r : List Entry) : Prop := ∀ e ∈ q, e.owner = o → ∃ x ∈ r, SameStrike e x

theorem SameStrike.refl (e : Entry) : SameStrike e e := ⟨rfl, rfl, rfl, rfl, rfl⟩

theorem OwnersStay.refl (o : Owner) (q : List Entry) : OwnersStay o q q := fun e he _ => ⟨e, he, .refl e⟩

theorem OwnersStay.trans {o : Owner} {q r p : List Entry} (h1 : OwnersStay o q r) (h2 : OwnersStay o r p) :
    OwnersStay o q p := by
  intro e he ho
  obtain ⟨x, hx, hex⟩ := h1 e he ho
  obtain ⟨y, hy, hxy⟩ := h2 x hx (hex.2.1.trans ho)
  exact ⟨y, hy, hex.trans hxy⟩

theorem OwnersStay.of_map {o : Owner} {q : List Entry} {f : Entry → Entry} (h : ∀ x, SameStrike x (f x)) :
    OwnersStay o q (q.map f) := fun e he _ => ⟨f e, List.mem_map_of_mem he, h e⟩

/-- An order or a TEST request of this owner has passed the stages: no entry of it is left, or one stands at its place
with the next number; the owner's other strikes stay. -/
def Admits (o : Owner) (s t : State) : Prop :=
  ∃ q, QueueFrom s.queue q ∧ OwnersStay o s.queue q ∧
    ((t.queue = q ∧ (t.admission = s.admission ∨ t.admission = s.admission + 1)) ∨
      ∃ e f, e.owner = o ∧ e.admission = s.admission ∧ t.admission = s.admission + 1 ∧ (∀ x, SameStrike x (f x)) ∧
        t.queue = (insertEntry e q).map f)

theorem Admits.of_same {o : Owner} (hqueue : t.queue = s.queue) (hadmission : t.admission = s.admission) : Admits o s t :=
  ⟨s.queue, .of_eq rfl, .refl o _, .inl ⟨hqueue, .inl hadmission⟩⟩

theorem Admits.stay {o : Owner} (h : Admits o s t) : OwnersStay o s.queue t.queue := by
  obtain ⟨q, -, hstay, ⟨hqueue, -⟩ | ⟨e, f, -, -, -, hf, hqueue⟩⟩ := h
  · rw [hqueue]
    exact hstay
  · rw [hqueue]
    exact (hstay.trans fun x hx _ => ⟨x, mem_insertEntry.mpr (.inr hx), .refl x⟩).trans (.of_map hf)

theorem erase_insertEntry {e : Entry} {q : List Entry} (h : e ∉ q) : (insertEntry e q).erase e = q := by
  induction q with
  | nil => simp [insertEntry]
  | cons y l ih =>
    simp only [List.mem_cons, not_or] at h
    rw [insertEntry]
    split
    · simp
    · have hne : (y == e) = false := by simpa using Ne.symm h.1
      rw [List.erase_cons, hne]
      simp [ih h.2]

/-- The state in which an entry has been inserted, before its launch event (R48). -/
def inserted (e : Entry) (s : State) : State := tryLift e.channel (wakeBank (enqueue (numbered e s) s))

theorem insertStrike_eq (e : Entry) (s : State) : insertStrike e s =
    if launchDue (inserted e s) (numbered e s) then launchEntry (numbered e s) (inserted e s)
    else if launchReached (inserted e s) (numbered e s) then holdEntry (numbered e s) (inserted e s)
    else inserted e s := rfl

theorem inserted_unchanged (e : Entry) (s : State) : Unchanged [.drive, .channels] (enqueue (numbered e s) s) (inserted e s) :=
  (wakeBank_unchanged _).widen.andThen (tryLift_unchanged e.channel _)

theorem inserted_queue (e : Entry) (s : State) : (inserted e s).queue = insertEntry (numbered e s) s.queue :=
  inserted_unchanged e s .queue (by decide)

theorem inserted_admission (e : Entry) (s : State) : (inserted e s).admission = s.admission + 1 :=
  inserted_unchanged e s .admission (by decide)

/-- An inserted entry stands at its place, held or not, or has left by its launch event at once (R48, R50). -/
theorem insertStrike_admits {e : Entry} {u : State} (hadmission : u.admission = s.admission)
    (hq : QueueFrom s.queue u.queue) (hstay : OwnersStay e.owner s.queue u.queue)
    (hfresh : ∀ x ∈ u.queue, x.admission ≠ u.admission) : Admits e.owner s (insertStrike e u) := by
  have hnew : numbered e u ∉ u.queue := fun hmem => hfresh _ hmem rfl
  refine ⟨u.queue, hq, hstay, ?_⟩
  rw [insertStrike_eq]
  split
  · refine .inl ⟨?_, .inr ?_⟩
    · rw [launchEntry_queue, inserted_queue, erase_insertEntry hnew]
    · rw [launchEntry_unchanged _ _ .admission (by decide), inserted_admission, hadmission]
  split
  · refine .inr ⟨numbered e u, fun x => if x = numbered e u then { x with held := true } else x, rfl, hadmission, ?_,
      fun x => ?_, ?_⟩
    · rw [holdEntry_admission, inserted_admission, hadmission]
    · dsimp only
      split <;> exact ⟨rfl, rfl, rfl, rfl, rfl⟩
    · rw [holdEntry_queue, inserted_queue]
  · exact .inr ⟨numbered e u, id, rfl, hadmission, (inserted_admission e u).trans (by rw [hadmission]), fun x => .refl x,
      by rw [inserted_queue, List.map_id]⟩

theorem evictable_fading {x : Entry} (h : evictable s = some x) :
    ∃ f, s.floor.fading = some f ∧ x.owner = .perf f.perf := by
  have hx := (List.mem_filter.mp (List.mem_of_getLast? h)).2
  unfold fadingOf at hx
  split at hx
  next f hf =>
    split at hx
    next howned => exact ⟨f, hf, ownedBy_iff.mp howned⟩
    · cases hx
  · cases hx

/-- An order of the holder evicts an entry of the fading performance at most, so no strike of its own (R47, R103). -/
theorem admitRequest_admits {c : Fin 8} {owner : Owner} {priority impact velocity : Nat} {duration : Option Nat}
    {st : Standing} {now : Nat} (hfresh : ∀ x ∈ s.queue, x.admission ≠ s.admission)
    (hfading : st = .holder → ∀ f, s.floor.fading = some f → Owner.perf f.perf ≠ owner) :
    Admits owner s (admitRequest c owner priority impact velocity duration st now s).1 := by
  unfold admitRequest
  split
  · exact .of_same rfl rfl
  split
  · exact .of_same rfl rfl
  next u hroom =>
    have howner (n : Nat) : (newEntry s c owner priority impact velocity n duration).owner = owner := rfl
    obtain ⟨-, rfl⟩ | ⟨-, hst, x, hx, rfl⟩ := makeRoom_cases hroom
    · exact insertStrike_admits (e := newEntry u c owner priority impact velocity _ duration) rfl (.of_eq rfl)
        (.refl _ _) hfresh
    · obtain ⟨f, hf, hxowner⟩ := evictable_fading hx
      refine insertStrike_admits (e := newEntry s c owner priority impact velocity _ duration)
        (removeEntry_unchanged _ _ _ .admission (by decide)) ?_ ?_ fun y hy => ?_
      · rw [removeEntry_queue]
        exact .of_sublist List.erase_sublist
      · intro e he ho
        refine ⟨e, ?_, .refl e⟩
        rw [removeEntry_queue]
        refine (List.mem_erase_of_ne ?_).mpr he
        rintro rfl
        exact hfading hst f hf (hxowner.symm.trans ho)
      · rw [removeEntry_queue] at hy
        rw [removeEntry_unchanged _ _ _ .admission (by decide)]
        exact hfresh y (List.mem_of_mem_erase hy)

theorem insertStrike_floorKept (e : Entry) (s : State) : FloorKept s.floor (insertStrike e s).floor := by
  have hu : (inserted e s).floor = s.floor := inserted_unchanged e s .floor (by decide)
  rw [insertStrike_eq]
  split
  · exact (FloorKept.of_eq hu).trans (launchEntry_kept _ _)
  split
  · exact .of_eq (by rw [holdEntry_floor, hu])
  · exact .of_eq hu

theorem admitRequest_floorKept (c : Fin 8) (owner : Owner) (priority impact velocity : Nat) (duration : Option Nat)
    (st : Standing) (now : Nat) (s : State) :
    FloorKept s.floor (admitRequest c owner priority impact velocity duration st now s).1.floor := by
  unfold admitRequest
  split
  · exact .refl _
  split
  · exact .refl _
  next u hroom =>
    obtain ⟨-, rfl⟩ | ⟨-, -, x, -, rfl⟩ := makeRoom_cases hroom
    · exact insertStrike_floorKept _ _
    · exact (removeEntry_kept .purged x s).trans (insertStrike_floorKept _ _)

/-! ### A frame's admissions -/

/-- The queued entries are among the last admitted, with room for n more before the numbers wrap. -/
def NumberedBefore (n : Nat) (s : State) : Prop :=
  ∀ e ∈ s.queue, 1 ≤ (s.admission - e.admission).toNat ∧ (s.admission - e.admission).toNat + n ≤ 2147483648

theorem NumberedBefore.fresh {n : Nat} (h : NumberedBefore n s) : ∀ x ∈ s.queue, x.admission ≠ s.admission := by
  intro x hx heq
  have hpos := (h x hx).1
  rw [heq] at hpos
  simp at hpos

theorem succ_sub_toNat {a b : BitVec 32} (h : (a - b).toNat < 4294967295) : (a + 1 - b).toNat = (a - b).toNat + 1 := by
  bv_omega

theorem one_of_succ_sub (a : BitVec 32) : (a + 1 - a).toNat = 1 := by
  rw [add_sub_cancel_left]
  rfl

theorem Admits.numbered {o : Owner} {n : Nat} (h : Admits o s t) (hn : n < 2147483648) (hs : NumberedBefore (n + 1) s) :
    NumberedBefore n t := by
  have hstep : ∀ e : Entry, (∃ x ∈ s.queue, SameStrike x e) → ∀ m : BitVec 32, m = s.admission ∨ m = s.admission + 1 →
      1 ≤ (m - e.admission).toNat ∧ (m - e.admission).toNat + n ≤ 2147483648 := by
    rintro e ⟨x, hx, -, -, -, -, hadm⟩ m hm
    obtain ⟨hpos, hroom⟩ := hs x hx
    rw [hadm]
    rcases hm with rfl | rfl
    · omega
    · rw [succ_sub_toNat (by omega)]
      omega
  obtain ⟨q, hq, -, ⟨hqueue, hadm⟩ | ⟨e, f, -, he, hadm, hf, hqueue⟩⟩ := h
  · intro y hy
    rw [hqueue] at hy
    exact hstep y (hq.mem hy) _ hadm
  · intro y hy
    rw [hqueue] at hy
    obtain ⟨z, hz, rfl⟩ := List.mem_map.mp hy
    obtain ⟨-, -, -, -, hfa⟩ := hf z
    rw [hadm, hfa]
    obtain rfl | hz := mem_insertEntry.mp hz
    · rw [he, one_of_succ_sub]
      omega
    · exact hstep z (hq.mem hz) _ (.inr rfl)

/-- An admission keeps the queue in order, within the window that the queue before and after it lies in. -/
theorem Admits.ordered {o : Owner} {base : Nat} (h : Admits o s t) (hs : s.queue.Pairwise StandsBefore)
    (hnumber : NumberedBefore 1 s) (hbefore : InWindow base s.queue) (hafter : InWindow base t.queue) :
    t.queue.Pairwise StandsBefore := by
  obtain ⟨q, hq, -, ⟨hqueue, -⟩ | ⟨e, f, -, he, -, hf, hqueue⟩⟩ := h
  · rw [hqueue]
    exact hq.ordered hs
  · have hinserted : (insertEntry e q).Pairwise StandsBefore := by
      refine insertEntry_ordered (base := base) (hq.ordered hs) (fun z hz => ?_) fun x hx => ?_
      · obtain rfl | hz := List.mem_cons.mp hz
        · have hmem : f z ∈ t.queue := hqueue ▸ List.mem_map_of_mem (mem_insertEntry.mpr (.inl rfl))
          obtain ⟨-, -, hlaunch, -⟩ := hf z
          rw [← hlaunch]
          exact hafter _ hmem
        · exact hbefore.of_queueFrom hq z hz
      · obtain ⟨y, hy, -, -, -, -, hadm⟩ := hq.mem hx
        have := hnumber y hy
        rw [he, hadm]
        omega
    rw [hqueue]
    exact (QueueFrom.of_map hf).ordered hinserted

/-- The admissions of one owner, one after another. -/
inductive Admissions (o : Owner) : Nat → State → State → Prop
  | nil (s : State) : Admissions o 0 s s
  | cons {n : Nat} {s t u : State} (h : Admits o s t) (rest : Admissions o n t u) : Admissions o (n + 1) s u

theorem Admissions.stay {o : Owner} {n : Nat} (h : Admissions o n s t) : OwnersStay o s.queue t.queue := by
  induction h with
  | nil => exact .refl _ _
  | cons h _ ih => exact h.stay.trans ih

theorem Admits.window {o : Owner} {base : Nat} (h : Admits o s t) (hstay : OwnersStay o t.queue u.queue)
    (hbefore : InWindow base s.queue) (hafter : InWindow base u.queue) : InWindow base t.queue := by
  intro y hy
  by_cases hown : y.owner = o
  · obtain ⟨x, hx, -, -, hlaunch, -⟩ := hstay y hy hown
    rw [← hlaunch]
    exact hafter x hx
  obtain ⟨q, hq, -, ⟨hqueue, -⟩ | ⟨e, f, he, -, -, hf, hqueue⟩⟩ := h
  · rw [hqueue] at hy
    exact hbefore.of_queueFrom hq y hy
  · rw [hqueue] at hy
    obtain ⟨z, hz, rfl⟩ := List.mem_map.mp hy
    obtain ⟨-, howner, hlaunch, -⟩ := hf z
    obtain rfl | hz := mem_insertEntry.mp hz
    · exact absurd (howner.trans he) hown
    · rw [hlaunch]
      exact hbefore.of_queueFrom hq z hz

/-- What the owner's admissions insert and leave queued stays to the end, so the window of the last queue holds it. -/
theorem Admissions.ordered {o : Owner} {n base : Nat} (h : Admissions o n s t) (hs : s.queue.Pairwise StandsBefore)
    (hn : n < 2147483648) (hnumber : NumberedBefore n s) (hbefore : InWindow base s.queue)
    (hafter : InWindow base t.queue) : t.queue.Pairwise StandsBefore := by
  induction h with
  | nil => exact hs
  | cons h rest ih =>
    have hmiddle := h.window rest.stay hbefore hafter
    have hone : NumberedBefore 1 _ := fun e he => by
      have := hnumber e he
      omega
    exact ih (h.ordered hs hone hbefore hmiddle) (by omega) (h.numbered (by omega) hnumber) hmiddle hafter

/-! ### Orders and TEST requests -/

theorem takeOrder_admits (p : PerfId) (base now : Nat) (o : OrderItem) (hfloor : FloorSound s)
    (hfresh : ∀ x ∈ s.queue, x.admission ≠ s.admission) : Admits (.perf p) s (takeOrder p base now o s) := by
  unfold takeOrder
  split
  · exact .of_same rfl rfl
  split
  · exact .of_same rfl rfl
  split
  · exact .of_same rfl rfl
  dsimp only
  split
  · exact .of_same rfl rfl
  next st priority hst =>
    split
    · exact .of_same rfl rfl
    refine admitRequest_admits hfresh fun hholder f hf hsame => ?_
    obtain ⟨x, hx, hperf⟩ := (floorStanding_belongs hst).2 hholder
    obtain ⟨-, hne⟩ := hfloor x f hx hf
    exact hne (Owner.perf.inj (hsame.trans hperf))

theorem takeOrder_floorKept (p : PerfId) (base now : Nat) (o : OrderItem) (s : State) :
    FloorKept s.floor (takeOrder p base now o s).floor := by
  unfold takeOrder
  split
  · exact .refl _
  split
  · exact .refl _
  split
  · exact .refl _
  dsimp only
  split
  · exact .refl _
  split
  · exact .refl _
  · exact admitRequest_floorKept _ _ _ _ _ _ _ _ s

theorem takeOrders_admissions (p : PerfId) (base : Nat) (items : List OrderItem) (hfloor : FloorSound s)
    (hnumber : NumberedBefore items.length s) (hn : items.length < 2147483648) :
    Admissions (.perf p) items.length s (takeOrders p base items s) := by
  unfold takeOrders
  generalize s.time.tower = now
  induction items generalizing s with
  | nil => exact .nil s
  | cons o items ih =>
    have hfirst := takeOrder_admits p base now o hfloor hnumber.fresh
    exact .cons hfirst (ih (hfloor.of_kept (takeOrder_floorKept p base now o s))
      (hfirst.numbered (Nat.lt_of_succ_lt hn) hnumber) (Nat.lt_of_succ_lt hn))

theorem pulses_admissions (now velocity : Nat) (xs : List (Fin 8 × Nat)) (acc : State × ChannelMask)
    (hnumber : NumberedBefore xs.length acc.1) (hn : xs.length < 2147483648) :
    Admissions .test xs.length acc.1 (xs.foldl (pulseOne now velocity) acc).1 := by
  induction xs generalizing acc with
  | nil => exact .nil _
  | cons x xs ih =>
    have hfirst : Admits .test acc.1 (pulseOne now velocity acc x).1 := admitRequest_admits hnumber.fresh nofun
    exact .cons hfirst (ih _ (hfirst.numbered (Nat.lt_of_succ_lt hn) hnumber) (Nat.lt_of_succ_lt hn))

/-! ### The queue after a command -/

/-- What a command does to the strike queue: entries go, or the entries of one owner are admitted, 8 of them at most. -/
def QueueStep (s t : State) : Prop :=
  QueueFrom s.queue t.queue ∨ ∃ o n u v, n ≤ 8 ∧ u.queue = s.queue ∧ u.admission = s.admission ∧
    Admissions o n u v ∧ t.queue = v.queue

theorem Moves.queueFrom {ks : List Kind} (h : Moves ks s t) (hk : Kind.enqueue ∉ ks) : QueueFrom s.queue t.queue := by
  induction h with
  | refl => exact .of_eq rfl
  | step _ hm hmem ih => exact ih.trans (move_queueFrom hm fun he => hk (he ▸ hmem))

theorem NumberedBefore.weaken {n m : Nat} (h : NumberedBefore m s) (hnm : n ≤ m) (hqueue : t.queue = s.queue)
    (hadmission : t.admission = s.admission) : NumberedBefore n t := by
  intro e he
  rw [hqueue] at he
  rw [hadmission]
  have := h e he
  omega

theorem takeOrders_queueStep {u : State} {ps : List Part} (p : PerfId) (base : Nat) {items : List OrderItem}
    (hu : Unchanged ps s u) (hfloor : FloorSound s) (hnumber : NumberedBefore 8 s) (hfew : items.length ≤ 3)
    (hq : Part.queue ∉ ps := by decide) (ha : Part.admission ∉ ps := by decide) (hf : Part.floor ∉ ps := by decide) :
    QueueStep s (takeOrders p base items u) := by
  have hqueue : u.queue = s.queue := hu .queue hq
  have hadmission : u.admission = s.admission := hu .admission ha
  exact .inr ⟨.perf p, items.length, u, _, by omega, hqueue, hadmission,
    takeOrders_admissions p base items (hfloor.of_kept (.of_eq (hu .floor hf)))
      (hnumber.weaken (by omega) hqueue hadmission) (by omega), rfl⟩

theorem hearOrder_queueStep (rx : Heard) (seq : BitVec 8) (base : BitVec 32) (items : List OrderItem)
    (hfloor : FloorSound s) (hnumber : NumberedBefore 8 s) : QueueStep s (hearOrder rx seq base items s) := by
  unfold hearOrder
  split
  next hcount =>
    simp only [orderCountGood, decide_eq_true_eq] at hcount
    exact takeOrders_queueStep _ _ (acknowledge_unchanged s) hfloor hnumber hcount.2
  · exact .inl (.of_eq rfl)

theorem deliverOwn_queueStep {u : State} {ps : List Part} (x : Sending) (hu : Unchanged ps s u) (hfloor : FloorSound s)
    (hnumber : NumberedBefore 8 s) (hpacked : FramePacked x.tx.frame) (hq : Part.queue ∉ ps := by decide)
    (ha : Part.admission ∉ ps := by decide) (hf : Part.floor ∉ ps := by decide) : QueueStep s (deliverOwn x u) := by
  have hbefore : QueueFrom s.queue u.queue := .of_eq (hu .queue hq)
  unfold deliverOwn
  split
  · exact .inl (hbefore.trans ((applyClaim_moves _ u).queueFrom (by decide)))
  · exact .inl (hbefore.trans ((applyFloor_moves _ u).queueFrom (by decide)))
  · exact .inl (hbefore.trans ((applyRelease_moves _ u).queueFrom (by decide)))
  next seq base items hframe =>
    rw [hframe] at hpacked
    exact takeOrders_queueStep _ _ hu hfloor hnumber hpacked.2 hq ha hf
  · exact .inl hbefore
  · exact .inl hbefore

theorem completeFrame_queueStep (acked : Bool) (hfloor : FloorSound s) (hnumber : NumberedBefore 8 s)
    (hpacked : OrdersPacked s) : QueueStep s (completeFrame acked s) := by
  unfold completeFrame
  split
  · exact .inl (.of_eq rfl)
  next x hx =>
    have hcounted : Unchanged handed s
        (if acked then { s with line := { s.line with txErrors := 0 } }
          else raise .noAck { s with line := { s.line with txErrors := 0 } }) :=
      .ite (writeLine_unchanged s _).widen ((writeLine_unchanged s _).widen.andThen (raise_unchanged _ _))
    exact deliverOwn_queueStep x (hcounted.andThen (endSending_unchanged x.tx.origin _)) hfloor hnumber (hpacked.2 x hx)

theorem servePulse_queueStep {u : State} {ps : List Part} (h : Service) (mask : ChannelMask) (velocity : BitVec 8)
    (hu : Unchanged ps s u) (hnumber : NumberedBefore 8 s) (hq : Part.queue ∉ ps := by decide)
    (ha : Part.admission ∉ ps := by decide) : QueueStep s (servePulse h mask velocity u) := by
  have hqueue : u.queue = s.queue := hu .queue hq
  have hadmission : u.admission = s.admission := hu .admission ha
  unfold servePulse
  split
  · exact .inl (.of_eq (by rw [reply_unchanged _ _ _ _ _ .queue (by decide), hqueue]))
  split
  · exact .inl (.of_eq (by rw [reply_unchanged _ _ _ _ _ .queue (by decide), hqueue]))
  · have hlength : ((pulseChannels u mask).zipIdx).length ≤ 8 := by
      rw [List.length_zipIdx]
      exact List.length_filter_le _ allChannels
    refine .inr ⟨.test, _, wakeBank u, _, hlength, ?_, ?_, pulses_admissions u.time.tower velocity.toNat _ (wakeBank u, 0) ?_
      (by omega), ?_⟩
    · rw [wakeBank_unchanged u .queue (by decide), hqueue]
    · rw [wakeBank_unchanged u .admission (by decide), hadmission]
    · exact hnumber.weaken hlength (by rw [wakeBank_unchanged u .queue (by decide), hqueue])
        (by rw [wakeBank_unchanged u .admission (by decide), hadmission])
    · dsimp only
      rw [reply_unchanged _ _ _ _ _ .queue (by decide)]
      rfl

theorem act_queueStep {f : State → State} (ha : act f s = .next t) (h : QueueStep s (f s)) : QueueStep s t := by
  unfold act at ha
  injection ha with ha
  subst ha
  split
  · exact h
  · exact .inl (.of_eq rfl)

theorem exec_queueStep {i : Instr} (he : exec i s = .next t) (hfloor : FloorSound s) (hpacked : OrdersPacked s)
    (hnumber : NumberedBefore 8 s) : QueueStep s t := by
  by_cases hk : Kind.enqueue ∈ kindsOf i
  case neg => exact .inl ((exec_moves he).queueFrom hk)
  cases i with
  | txCompleted acked => exact act_queueStep he (completeFrame_queueStep acked hfloor hnumber hpacked)
  | order rx seq base items => exact act_queueStep he (hearOrder_queueStep rx seq base items hfloor hnumber)
  | channelPulse h mask velocity =>
    refine act_queueStep he ?_
    unfold onTarget
    dsimp only
    split
    · exact servePulse_queueStep h mask velocity (acknowledge_unchanged s) hnumber
    · exact .inl (.of_eq (acknowledge_unchanged s .queue (by decide)))
  | _ => simp [kindsOf] at hk

theorem QueueStep.ordered {base : Nat} (h : QueueStep s t) (hs : QueueOrdered s) (hnumber : NumberedBefore 8 s)
    (hwindow : ∀ e ∈ s.queue ++ t.queue, minus e.launch base ≤ 1000000000) : QueueOrdered t := by
  obtain hq | ⟨o, n, u, v, hn, hqueue, hadmission, hadmits, hlast⟩ := h
  · exact hq.ordered hs
  · rw [QueueOrdered, hlast]
    refine hadmits.ordered (base := base) (by rw [hqueue]; exact hs) (by omega)
      (hnumber.weaken hn hqueue hadmission) (fun e he => hwindow e ?_) fun e he => hwindow e ?_
    · exact List.mem_append_left _ (hqueue ▸ he)
    · exact List.mem_append_right _ (hlast ▸ he)

end

/-- Settles O57: entries and dampers by the moves of a step, the order by what a command does to the queue. -/
theorem stepsKeepQueueAndDampers : Obligations.StepsKeepQueueAndDampers := by
  refine ⟨fun s t hqueue hdampers h => ⟨step_keeps (fun _ _ hu => hu) move_queueSound hqueue h,
    step_keeps (fun _ _ hu => hu) move_dampersSound hdampers h⟩, ?_⟩
  intro s t base hordered hfloor hpacked h hwindow hnumber
  have hbefore : NumberedBefore 8 s := fun e he => by
    have := hnumber e he
    omega
  unfold step at h
  split at h
  · injection h with h
    exact h ▸ hordered
  · exact (exec_queueStep h hfloor hpacked hbefore).ordered (base := base) hordered hbefore hwindow

end Sys2Proof.Machine
end

