-- ==== Sys2Proof/Proofs/CommandLaws.lean ====
section
/-! How a command reaches its effect: a powered node acts, a targeted one serves, a store in progress refuses (R181, R185). -/

namespace Sys2Proof.Machine

-- One proof after another: many at once would ask for more threads than the memory limit allows.
set_option Elab.async false

section
variable {f : State → State} {s : State} {h : Service}

theorem act_of_unpowered (hoff : s.powered = false) : act f s = .next s := by
  rw [act, if_neg (by simp [hoff])]

/-- A command that finds nothing to do leaves the node as it is. -/
theorem act_same (heq : f s = s) : act f s = .next s := by
  rw [act, heq, ite_self]

theorem targeted_acknowledge (h : Service) (s : State) : targeted (acknowledge s) h = targeted s h := rfl

theorem storing_acknowledge (s : State) : storing (acknowledge s) = storing s := rfl

/-- A targeted node serves the command after the acknowledge. -/
theorem onTarget_of_targeted (f : State → State) (ht : targeted s h = true) : onTarget h f s = f (acknowledge s) :=
  if_pos ht

theorem onTarget_of_not_targeted (f : State → State) (ht : targeted s h = false) : onTarget h f s = acknowledge s :=
  if_neg (by rw [targeted_acknowledge, ht]; exact Bool.false_ne_true)

theorem unlessStoring_of_free (n : Nat) (f : State → State) (hs : storing s = false) : unlessStoring h n f s = f s :=
  if_neg (by rw [hs]; exact Bool.false_ne_true)

theorem unlessStoring_of_storing (n : Nat) (f : State → State) (hs : storing s = true) :
    unlessStoring h n f s = reply h n .busy .none s := if_pos hs

theorem act_onTarget (f : State → State) (hp : s.powered = true) (ht : targeted s h = true) :
    act (onTarget h f) s = .next (f (acknowledge s)) := by
  rw [act_of_powered _ hp, onTarget_of_targeted f ht]

theorem act_not_targeted (f : State → State) (hp : s.powered = true) (ht : targeted s h = false) :
    act (onTarget h f) s = .next (acknowledge s) := by
  rw [act_of_powered _ hp, onTarget_of_not_targeted f ht]

/-- A command that writes what is stored, while no store is in progress. -/
theorem act_writes (n : Nat) (f : State → State) (hp : s.powered = true) (ht : targeted s h = true)
    (hs : storing s = false) : act (onTarget h (unlessStoring h n f)) s = .next (f (acknowledge s)) := by
  rw [act_onTarget _ hp ht, unlessStoring_of_free n f (by rw [storing_acknowledge, hs])]

/-- A command that writes what is stored is refused while a store is in progress. -/
theorem act_refused (n : Nat) (f : State → State) (hp : s.powered = true) (ht : targeted s h = true)
    (hs : storing s = true) :
    act (onTarget h (unlessStoring h n f)) s = .next (reply h n .busy .none (acknowledge s)) := by
  rw [act_onTarget _ hp ht, unlessStoring_of_storing n f (by rw [storing_acknowledge, hs])]

end

theorem commandKnown_fill {command : BitVec 5} {body : Payload}
    (h : commandKnown command (List.replicate 16 false ++ body) = false) : commandKnown command (fill 16 ++ body) ≠ true :=
  Bool.eq_false_iff.mp h

end Sys2Proof.Machine
end

