-- ==== Sys2Proof/Proofs/StepsAndIdling.lean ====
section
/-! The step, the commands whose moment has not come, and the machine right after reset. -/

namespace Sys2Proof.Machine

-- One proof after another: many at once would ask for more threads than the memory limit allows.
set_option Elab.async false

/-- Settles O1. -/
theorem stepTakesFrontCommand : Obligations.StepTakesFrontCommand :=
  ⟨fun _ _ _ => rfl, fun s hs => by rw [step, hs]⟩

theorem exec_of_unpowered {i : Instr} {s : State} (hoff : s.powered = false) (hi : ∀ st p, i ≠ .powerOn st p) :
    exec i s = .next s := by
  cases i with
  | powerOn st p => exact absurd rfl (hi st p)
  | _ =>
    simp only [exec,
      execListenEnd, execLocalTick, execFrameOffer, execArbitrationLoss, execTxCompleted,
      execTxAbandoned, execLineFaultEnd, execReceiveError, execCheckErrorsClear, execUnknownFrame,
      execPresenceBuild, execPresence, execStationClashEnd, execPeerLapse, execPeerAbsence, execOrder,
      execLaunchEvent, execPulseEnd, execFlightEnd, execReturnEnd, execLift, execDrop, execDrainStart,
      execAccessActive, execAccessRelease, execChargerFaultActive, execChargerFaultClear,
      execCoilHotAssert, execCoilHotClear, execMinuteMark, execSourcedExit, execTimeStepEnd,
      execHoldExpiry, execClaim, execFloor, execRelease, execLapse, execClaimHandoff, execWaitDeadline,
      execEnsembleGate, execOrderBuild, execFloorBeaconDue, execPerformanceEnd, execPrerollPoint,
      execContactPress, execStoreComplete, execStoreFailure, execReplyPart, execUnknownCommand,
      execSetTime, execCue, execStopPerformance, execStopFloor, execResume, execWake, execChannelSet,
      execChannelMerge, execChannelClear, execChannelPulse, execVoiceSetPulseLow, execVoiceSetPulseHigh,
      execVoiceSetTiming, execCalSet, execCalClear, execQuietSet, execNodeSet, execMaskSet,
      execLoadBegin, execLoadData, execLoadEnd, execDelete, execOverlay, execStore, execRestart,
      execStatus, execTrace, execTraceRelease, execCountersClear, execPowerLost, execPlayContactInactive,
      act_of_unpowered hoff]

theorem perf?_of_free {s : State} {k : Fin 4} (h : s.conductor.slots[k].isFree = true) :
    s.conductor.slots[k].perf? = none := Option.isNone_iff_eq_none.mp h

/-- The commands of a free performance slot find no performance to act for. -/
theorem exec_of_freeSlot {s : State} {k : Fin 4} (h : s.conductor.slots[k].isFree = true) :
    exec (.claimHandoff k) s = .next s ∧ exec (.waitDeadline k) s = .next s ∧ exec (.ensembleGate k) s = .next s ∧
    exec (.orderBuild k) s = .next s ∧ exec (.floorBeaconDue k) s = .next s ∧ exec (.performanceEnd k) s = .next s := by
  have hp := perf?_of_free h
  exact ⟨act_same (by rw [handClaim, hp]), act_same (by rw [endWait, hp]), act_same (by rw [gateIfDue, hp]),
    act_same (by rw [buildIfDue, hp]), act_same (by rw [handFloorBeacon, hp]), act_same (by rw [endIfRungOut, hp])⟩

/-- Without a frame in transmission its end brings nothing. -/
theorem exec_of_notSending {s : State} (h : s.line.sending = none) : (∀ c, exec (.arbitrationLoss c) s = .next s) ∧
    (∀ a, exec (.txCompleted a) s = .next s) ∧ exec .txAbandoned s = .next s :=
  ⟨fun c => act_same (by rw [loseArbitration, h]), fun a => act_same (by rw [completeFrame, h]),
    act_same (by rw [abandonFrame, h])⟩

theorem exec_of_notStoring {s : State} (h : storing s = false) :
    exec .storeComplete s = .next s ∧ exec .storeFailure s = .next s := by
  unfold storing at h
  constructor
  · refine act_same ?_
    unfold completeStore
    split at h
    · cases h
    · simp_all
    · simp_all
  · refine act_same ?_
    unfold failStore
    split at h
    · cases h
    · simp_all
    · simp_all

theorem decideDue_of_none {s : State} (h : s.calendar.due = []) : decideDue s = s := by
  simp [decideDue, h]

/-- A timed command whose moment has not come does nothing. -/
theorem act_not_due {f : State → State} {b : State → Bool} {s : State} (hb : b s = false) :
    act (fun u => if b u then f u else u) s = .next s :=
  act_same (by rw [hb]; exact if_neg Bool.false_ne_true)

theorem lift_of_not_reached {s : State} {k : Fin 8} (h : liftReached s k = false) : exec (.lift k) s = .next s :=
  act_same (if_neg fun hl => absurd h (by simp [hl.2.2.2.2]))

/-- The commands of the line, of its conditions and of the peers that come before their moment. -/
theorem exec_line_of_not_due (s : State) :
    (listenOver s = false → exec .listenEnd s = .next s) ∧ (offerable s = none → exec .frameOffer s = .next s) ∧
    (faultOver s = false → exec .lineFaultEnd s = .next s) ∧ (errorsFew s = false → exec .checkErrorsClear s = .next s) ∧
    (beaconDue s = false → exec .presenceBuild s = .next s) ∧ (clashOver s = false → exec .stationClashEnd s = .next s) ∧
    (∀ p, lapsing s p = none → exec (.peerLapse p) s = .next s) ∧
    (∀ p, vanishing s p = false → exec (.peerAbsence p) s = .next s) := by
  refine ⟨fun h => ?_, fun h => ?_, fun h => ?_, fun h => ?_, fun h => ?_, fun h => ?_, fun p h => ?_, fun p h => ?_⟩
  · exact act_not_due h
  · exact act_same (by rw [offerFrame, h])
  · exact act_not_due h
  · exact act_not_due (f := fun u => clearCond .checkErrors (forgetErrors u)) h
  · exact act_not_due h
  · exact act_not_due h
  · exact act_same (by rw [lapsePeer, h])
  · exact act_not_due (f := fun u => peerChanged (setPeer p .absent u)) (b := fun u => vanishing u p) h

/-- The commands of hammers, dampers, bank, clock, silence and floor that come before their moment. -/
theorem exec_local_of_not_due (s : State) :
    (firstDue s = none → exec .launchEvent s = .next s) ∧ (∀ k, pulseOver s k = false → exec (.pulseEnd k) s = .next s) ∧
    (∀ k, returnOver s k = false → exec (.returnEnd k) s = .next s) ∧
    (∀ k : Fin 8, s.channels[k].hammer = .rest → exec (.flightEnd k) s = .next s) ∧
    (∀ k, dropDue s k = none → exec (.drop k) s = .next s) ∧ (drainDue s = false → exec .drainStart s = .next s) ∧
    (sourcedOver s = false → exec .sourcedExit s = .next s) ∧ (stepOver s = false → exec .timeStepEnd s = .next s) ∧
    (holdReached s = false → exec .holdExpiry s = .next s) ∧ (lapseDue s = false → exec .lapse s = .next s) := by
  refine ⟨fun h => ?_, fun k h => ?_, fun k h => ?_, fun k h => ?_, fun k h => ?_, fun h => ?_, fun h => ?_, fun h => ?_,
    fun h => ?_, fun h => ?_⟩
  · exact act_same (by rw [launchFirst, h])
  · exact act_not_due (f := updChannel k fun c => { c with gate := none }) (b := fun u => pulseOver u k) h
  · exact act_not_due (f := hammerRests k) (b := fun u => returnOver u k) h
  · exact act_same (by rw [endFlight, h])
  · exact act_not_due (f := fun u => drainCheck (idleDrop k (dropDamper k u))) (b := fun u => (dropDue u k).isSome)
      (by rw [h]; rfl)
  · exact act_not_due h
  · exact act_not_due h
  · exact act_not_due h
  · exact act_not_due h
  · exact act_not_due h

/-- Settles O2: every command but POWER_ON acts on a powered node alone, and tests its moment first. -/
theorem nothingDueNothingDone : Obligations.NothingDueNothingDone := by
  refine ⟨fun i s hoff hi => exec_of_unpowered hoff hi, fun s => ?_⟩
  obtain ⟨hlisten, hoffer, hfault, herrors, hbeacon, hclash, hlapsing, hvanishing⟩ := exec_line_of_not_due s
  obtain ⟨hlaunch, hpulse, hreturn, hflight, hdrop, hdrain, hsourced, hstep, hhold, hlapse⟩ := exec_local_of_not_due s
  exact ⟨hlisten, hoffer, exec_of_notSending, hfault, herrors, hbeacon, hclash, hlapsing, hvanishing, hlaunch, hpulse,
    hreturn, hflight, fun k => lift_of_not_reached, hdrop, hdrain, hsourced, hstep, hhold, hlapse,
    fun k => exec_of_freeSlot, fun h => act_same (decideDue_of_none h), fun c h => act_same (if_pos h),
    exec_of_notStoring, fun h => act_same (by rw [sendPart, h])⟩

/-- Settles O4. -/
theorem resetValues : Obligations.ResetValues := by
  refine ⟨rfl, rfl, fun k => ?_, rfl, rfl, rfl, rfl, rfl, rfl, rfl, rfl, rfl, rfl, rfl, fun st => ?_, rfl, fun k => ?_, rfl,
    fun t => ?_, rfl, fun i => ?_, rfl, rfl, rfl, rfl, rfl, rfl, fun c => ?_, rfl⟩
  all_goals simp [State.reset, freshChannel, clearedEntry]

section
variable {s : State}

/-- A timed command whose moment has come acts. -/
theorem act_due {f : State → State} {b : State → Bool} (hp : s.powered = true) (hb : b s = true) :
    act (fun u => if b u then f u else u) s = .next (f s) := by
  rw [act_of_powered _ hp, if_pos hb]

theorem faultOver_of {c : LocalCount} (hc : s.line.faultAt = some c) (h : 8000 ≤ ticksSince s.time.count c) :
    faultOver s = true := by
  simp only [faultOver, hc, Config.faultTicks]
  exact decide_eq_true h

theorem stepOver_of {c : LocalCount} (hc : s.time.stepAt = some c) (h : 8000 ≤ ticksSince s.time.count c) :
    stepOver s = true := by
  simp only [stepOver, hc, Config.stepTicks]
  exact decide_eq_true h

theorem clashOver_of {c : LocalCount} (hc : s.line.clashAt = some c) (h : 120000 ≤ ticksSince s.time.count c) :
    clashOver s = true := by
  simp only [clashOver, hc, Config.absenceTicks]
  exact decide_eq_true h

theorem errorsFew_of (hset : hasCondition s.silence.conds .checkErrors = true) (h : (recentErrors s).length ≤ 8) :
    errorsFew s = true := by
  rw [errorsFew, hset]
  exact decide_eq_true h

theorem clearCond_cleared (c : Condition) (s : State) : hasCondition (clearCond c s).silence.conds c = false := by
  rw [clearCond_set, if_pos rfl]

end

/-- Settles O17: each timed condition clears by the clearing of its own flag. -/
theorem timedConditionsClear : Obligations.TimedConditionsClear := by
  intro s hp
  exact ⟨fun c hc hover => ⟨_, act_due (f := endFault) hp (faultOver_of hc hover), rfl, clearCond_cleared _ _,
      clearCond_unchanged _ _⟩,
    fun c hc hover => ⟨_, act_due (f := endTimeStep) hp (stepOver_of hc hover), rfl, clearCond_cleared _ _,
      clearCond_unchanged _ _⟩,
    fun c hc hover => ⟨_, act_due (f := endClash) hp (clashOver_of hc hover), rfl, clearCond_cleared _ _,
      clearCond_unchanged _ _⟩,
    fun hset hfew => ⟨_, act_due (f := fun u => clearCond .checkErrors (forgetErrors u)) hp (errorsFew_of hset hfew), rfl,
      clearCond_cleared _ _, clearCond_unchanged _ _⟩⟩

/-- Settles O24. -/
theorem drainAndWake : Obligations.DrainAndWake := by
  refine ⟨fun s hp hup hidle hover => ?_, fun h s hp ht => ⟨fun haccess => ?_, fun haccess => ?_⟩⟩
  · have hdue : drainDue s = true := by
      rw [drainDue, bankUp_iff.mpr hup]
      exact decide_eq_true ⟨hidle, hover⟩
    refine (act_of_powered _ hp).trans ?_
    rw [if_pos hdue, startDrain, drainCheck]
    have hsettled : settled { s with drive := { s.drive with mode := .draining, idle := 0 } } = settled s := rfl
    rw [hsettled]
    cases settled s <;> rfl
  · refine (act_onTarget _ hp ht).trans ?_
    exact congrArg _ (if_pos haccess)
  · refine (act_onTarget _ hp ht).trans ?_
    rw [serveWake, acknowledge_pins, if_neg (by simp [haccess])]
    have hwoken : wakeBank (acknowledge s) = { acknowledge s with drive :=
        { mode := (match s.drive.mode with
            | .off => .charging
            | .draining => if s.settings.readyLevel ≤ s.drive.level then .ready else .charging
            | m => m)
          level := s.drive.level, idle := 0 } } := by
      simp only [wakeBank, acknowledge_pins, haccess, acknowledge_drive, acknowledge_settings]
      cases s.drive.mode <;> rfl
    exact congrArg (fun u => Host.Outcome.next (reply h 4 .done .none u)) hwoken

/-- Settles O40. -/
theorem channelHalts : Obligations.ChannelHalts := by
  intro h mask s hp ht
  have hflags (k : Fin 8) : (mask &&& presentMask s).getLsbD k.val = (mask.getLsbD k.val && isPresent s k) := by
    rw [BitVec.getLsbD_and, presentMask_getLsbD]
  have hresult : doneOr (decide (presentOf (acknowledge s) mask ≠ mask)) =
      if mask &&& presentMask s = mask then .done else .doneClamped := by
    have hsame : presentOf (acknowledge s) mask = mask &&& presentMask s := rfl
    rw [hsame]
    by_cases hkept : mask &&& presentMask s = mask <;> simp [doneOr, hkept]
  refine ⟨hflags, ?_, ?_, ?_⟩ <;>
    exact (act_onTarget _ hp ht).trans (by rw [writeHalted, hresult]; rfl)

end Sys2Proof.Machine
end

