-- ==== Sys2Proof/Proofs/SilenceMoves.lean ====
section
/-! What an asserted and a cleared condition do to silence and trace, the hold's expiry and RESUME (R172 to R176, R179). -/

namespace Sys2Proof.Machine

-- One proof after another: many at once would ask for more threads than the memory limit allows.
set_option Elab.async false

section
variable {c : Condition} {s t u : State}

/-! ### The trace hears of an entry to SILENT, and of nothing else -/

theorem silentTrigger_trace_congr (htrace : t.trace = s.trace) (hsettings : t.settings = s.settings) :
    (silentTrigger t).trace = (silentTrigger s).trace := by
  unfold silentTrigger fireTrigger
  rw [htrace, hsettings]
  split <;> simp only [htrace]

/-- The trace takes an entry to SILENT as a trigger, and stays as it is otherwise (R179, R188). -/
def TraceFollows (s t : State) : Prop :=
  t.trace = (if s.silence.state ≠ .silent ∧ t.silence.state = .silent then silentTrigger s else s).trace

theorem TraceFollows.of_same (htrace : t.trace = s.trace) (hstate : t.silence.state = .silent → s.silence.state = .silent) :
    TraceFollows s t := by
  unfold TraceFollows
  rw [if_neg fun h => h.1 (hstate h.2), htrace]

/-- The silence record of the state before matters only by whether it is SILENT. -/
theorem TraceFollows.congr (h : TraceFollows u t) (htrace : u.trace = s.trace) (hsettings : u.settings = s.settings)
    (hstate : u.silence.state = .silent ↔ s.silence.state = .silent) : TraceFollows s t := by
  unfold TraceFollows at h ⊢
  rw [h]
  simp only [ne_eq, hstate]
  split
  · exact silentTrigger_trace_congr htrace hsettings
  · exact htrace

theorem goSilent_follows (mark : Bool) (s : State) : TraceFollows s (goSilent mark s) := by
  by_cases hsilent : s.silence.state = .silent
  · refine .of_same ?_ fun _ => hsilent
    simp only [goSilent, if_pos hsilent]
  · unfold TraceFollows
    rw [if_pos ⟨hsilent, by rw [goSilent_silence]⟩, goSilent, if_neg hsilent]
    exact silentTrigger_trace_congr rfl rfl

theorem fadeOut_follows (s : State) : TraceFollows s (fadeOut s) := by
  unfold fadeOut
  split
  · exact goSilent_follows false s
  · exact .of_same rfl id

theorem goFading_follows (h : s.silence.state ≠ .silent) : TraceFollows s (goFading s) :=
  (fadeOut_follows _).congr rfl rfl (by simp [h])

theorem actOn_follows (c : Condition) (s : State) : TraceFollows s (actOn c s) := by
  unfold actOn
  split
  · exact goSilent_follows false s
  split
  next hvoiced => exact goFading_follows (by simp [hvoiced])
  · exact .of_same rfl id
  · exact .of_same rfl id
  · exact goSilent_follows false s

theorem goHolding_follows (s : State) : TraceFollows s (goHolding s) := by
  refine .of_same (goHolding_unchanged s .trace (by decide)) ?_
  rw [goHolding_silence]
  split <;> nofun

theorem allCleared_follows (s : State) : TraceFollows s (allCleared s) := by
  have hresumed : TraceFollows s (match s.settings.resume with
      | .auto => goHolding s
      | .manual => goSilent true s) := by
    split
    · exact goHolding_follows s
    · exact goSilent_follows true s
  unfold allCleared
  split
  · exact .of_same rfl id
  · exact .of_same rfl id
  · exact hresumed
  · exact hresumed

theorem assertCond_follows (c : Condition) (s : State) : TraceFollows s (assertCond c s) := by
  simp only [assertCond]
  split
  · exact .of_same rfl id
  split
  · exact (actOn_follows c _).congr rfl rfl Iff.rfl
  · exact .of_same rfl id

theorem clearCond_follows (c : Condition) (s : State) : TraceFollows s (clearCond c s) := by
  simp only [clearCond]
  split
  · split
    · exact (allCleared_follows _).congr rfl rfl Iff.rfl
    · exact .of_same rfl id
  · exact .of_same rfl id

/-! ### A condition asserted -/

/-- The condition's flag is set; the silence state has yet to answer. -/
def flagSet (c : Condition) (s : State) : State :=
  { s with silence := { s.silence with conds := s.silence.conds ||| c.flag } }

/-- The condition's flag is clear; the silence state has yet to answer. -/
def flagCleared (c : Condition) (s : State) : State :=
  { s with silence := { s.silence with conds := s.silence.conds &&& ~~~c.flag } }

theorem assertCond_of_set (hset : hasCondition s.silence.conds c = true) : assertCond c s = s := if_pos hset

theorem assertCond_of_masked (hclear : hasCondition s.silence.conds c = false)
    (hmask : hasCondition s.silence.mask c = false) : assertCond c s = flagSet c s := by
  rw [assertCond, if_neg (by simp [hclear]), if_neg (by simp [hmask])]
  rfl

theorem assertCond_of_enabled (hclear : hasCondition s.silence.conds c = false)
    (hmask : hasCondition s.silence.mask c = true) : assertCond c s = actOn c (flagSet c s) := by
  rw [assertCond, if_neg (by simp [hclear]), if_pos hmask]
  rfl

/-- A hard condition, any condition in a hold, and one that finds nothing to fade: SILENT without the mark (R172, R173). -/
theorem actOn_silent (h : c.hard = true ∨ s.silence.state = .holding ∨ (s.silence.state = .voiced ∧ s.queue = [])) :
    (actOn c s).silence = { s.silence with state := .silent, level := 15, fadeCount := 0, resumable := false, hold := 0 } := by
  rw [actOn]
  split
  · rw [goSilent_silence]
  next hsoft =>
    obtain hhard | hstate | ⟨hstate, hqueue⟩ := h
    · exact absurd hhard hsoft
    · simp only [hstate, goSilent_silence]
    · simp only [hstate, goFading, fadeOut_silence, hqueue, goSilent_silence, and_self, ↓reduceIte]

theorem actOn_fading (hsoft : c.hard = false) (hstate : s.silence.state = .voiced) (hqueue : s.queue ≠ []) :
    (actOn c s).silence = { s.silence with state := .fading, level := 1, fadeCount := 0, resumable := false, hold := 0 } := by
  simp [actOn, hsoft, hstate, goFading, fadeOut_silence, hqueue]

theorem actOn_of_fading (hsoft : c.hard = false) (hstate : s.silence.state = .fading) : actOn c s = s := by
  simp [actOn, hsoft, hstate]

theorem actOn_of_silent (hsoft : c.hard = false) (hstate : s.silence.state = .silent) :
    actOn c s = { s with silence := { s.silence with resumable := false } } := by
  simp [actOn, hsoft, hstate]

/-! ### A condition cleared -/

theorem clearCond_of_clear (hclear : hasCondition s.silence.conds c = false) : clearCond c s = s :=
  if_neg (by simp [hclear])

theorem clearCond_of_set (hset : hasCondition s.silence.conds c = true) : clearCond c s =
    if hasCondition s.silence.mask c ∧ enabledActive (flagCleared c s).silence = 0 then allCleared (flagCleared c s)
      else flagCleared c s := if_pos hset

theorem clearCond_active (c : Condition) (s : State) :
    enabledActive (clearCond c s).silence = enabledActive (flagCleared c s).silence := by
  rw [enabledActive, clearCond_conds, clearCond_mask]
  rfl

theorem allCleared_of_restful (h : s.silence.state = .voiced ∨ s.silence.state = .holding) : allCleared s = s := by
  obtain hstate | hstate := h <;> simp only [allCleared, hstate]

theorem goHolding_over (hhold : s.settings.holdTime = 0) : goHolding s = goVoiced s := if_pos hhold

theorem goHolding_held (hhold : s.settings.holdTime ≠ 0) : goHolding s = { s with silence := { s.silence with
    state := .holding, level := 15, fadeCount := 0, resumable := false, hold := 0 } } := if_neg hhold

theorem allCleared_auto (h : s.silence.state = .fading ∨ s.silence.state = .silent) (hauto : s.settings.resume = .auto) :
    allCleared s = goHolding s := by
  obtain hstate | hstate := h <;> simp only [allCleared, hstate, hauto]

theorem allCleared_manual (h : s.silence.state = .fading ∨ s.silence.state = .silent)
    (hmanual : s.settings.resume = .manual) : allCleared s = goSilent true s := by
  obtain hstate | hstate := h <;> simp only [allCleared, hstate, hmanual]

/-- A clearing that leaves the silence state alone. -/
theorem clearCond_kept (hset : hasCondition s.silence.conds c = true) (h : hasCondition s.silence.mask c = false ∨
    enabledActive (clearCond c s).silence ≠ 0 ∨ s.silence.state = .voiced ∨ s.silence.state = .holding) :
    clearCond c s = flagCleared c s := by
  rw [clearCond_active] at h
  rw [clearCond_of_set hset]
  split
  next hlast =>
    obtain hmask | hactive | hstate := h
    · simp [hmask] at hlast
    · exact absurd hlast.2 hactive
    · exact allCleared_of_restful hstate
  · rfl

/-- The last enabled active condition cleared in a fade or a silence (R174). -/
theorem clearCond_last (hset : hasCondition s.silence.conds c = true) (hmask : hasCondition s.silence.mask c = true)
    (hactive : enabledActive (clearCond c s).silence = 0) : clearCond c s = allCleared (flagCleared c s) := by
  rw [clearCond_active] at hactive
  rw [clearCond_of_set hset, if_pos ⟨hmask, hactive⟩]

end

theorem holdExpiry_goesVoiced {s : State} (hp : s.powered = true) (hstate : s.silence.state = .holding)
    (hover : s.settings.holdTime ≤ s.silence.hold) : exec .holdExpiry s = .next (goVoiced s) :=
  act_due (f := goVoiced) hp (decide_eq_true ⟨hstate, hover⟩)

/-- RESUME ends the silence states in which nothing is left to wait for (R176). -/
theorem resumes_iff (x : Silence) : resumes x = true ↔ x.state = .holding ∨ (x.state = .silent ∧ x.resumable = true) := by
  unfold resumes
  cases x.state <;> simp

theorem serveResume_of_free (h : Service) {s : State} (hfree : enabledActive s.silence = 0) : serveResume h s =
    reply h 3 .done .none (if resumes s.silence then goVoiced s else s) := if_neg (by simp [hfree])

/-- Settles O26. -/
theorem silenceMoves : Obligations.SilenceMoves := by
  refine ⟨fun c s hclear => ?_, fun c s hset => ?_, fun s hp hstate hover => holdExpiry_goesVoiced hp hstate hover,
    fun h s hp ht => ?_⟩
  · refine ⟨fun d => by rw [assertCond_has, Bool.or_comm], assertCond_mask c s, assertCond_unchanged c s,
      assertCond_follows c s, fun hmask => ?_, fun hmask => ?_⟩
    · rw [assertCond_of_masked hclear hmask]
      exact ⟨rfl, rfl, rfl⟩
    rw [assertCond_of_enabled hclear hmask]
    refine ⟨fun hcase => ?_, fun hsoft hstate hqueue => ?_, fun hsoft hstate => ?_, fun hsoft hstate => ?_⟩
    · rw [actOn_silent (s := flagSet c s) hcase]
      exact ⟨rfl, rfl, rfl⟩
    · rw [actOn_fading (s := flagSet c s) hsoft hstate hqueue]
      exact ⟨rfl, rfl, rfl⟩
    · rw [actOn_of_fading (s := flagSet c s) hsoft hstate]
      exact ⟨hstate, rfl⟩
    · rw [actOn_of_silent (s := flagSet c s) hsoft hstate]
      exact ⟨hstate, rfl⟩
  · refine ⟨fun d => by rw [clearCond_has, Bool.and_comm, decide_not], clearCond_mask c s, clearCond_unchanged c s,
      clearCond_follows c s, fun hkept => ?_, fun hmask hactive hstate => ?_⟩
    · rw [clearCond_kept hset hkept]
      exact ⟨rfl, rfl⟩
    rw [clearCond_last hset hmask hactive]
    refine ⟨fun hmanual => ?_, fun hauto hhold => ?_, fun hauto hhold => ?_⟩
    · rw [allCleared_manual (s := flagCleared c s) hstate hmanual, goSilent_silence]
      exact ⟨rfl, rfl, rfl⟩
    · rw [allCleared_auto (s := flagCleared c s) hstate hauto, goHolding_held (s := flagCleared c s) hhold]
      exact ⟨rfl, rfl, rfl⟩
    · rw [allCleared_auto (s := flagCleared c s) hstate hauto, goHolding_over (s := flagCleared c s) hhold]
      exact ⟨rfl, rfl⟩
  · refine ⟨fun hactive => ?_, fun hfree hstate => ?_, fun hfree hstate => ?_⟩
    · refine (act_onTarget _ hp ht).trans ?_
      exact congrArg _ (if_pos hactive)
    · have hresumes : resumes (acknowledge s).silence = true := (resumes_iff _).mpr hstate
      refine (act_onTarget _ hp ht).trans ?_
      rw [serveResume_of_free h (s := acknowledge s) hfree, if_pos hresumes]
      rfl
    · have hkept : ¬resumes (acknowledge s).silence = true := by simp [resumes, hstate]
      refine (act_onTarget _ hp ht).trans ?_
      rw [serveResume_of_free h (s := acknowledge s) hfree, if_neg hkept]

end Sys2Proof.Machine
end

