-- ==== Sys2Proof/Proofs/Resets.lean ====
section
/-! Power-on, the loss of power, RESTART, and the settings store (R180, R185 to R187). -/

namespace Sys2Proof.Machine

-- One proof after another: many at once would ask for more threads than the memory limit allows.
set_option Elab.async false

/-! ### Counters -/

section
variable {c d : Counter} {s t u : State}

theorem counterIndex_inj (h : c.index = d.index) : c = d := by
  cases c <;> cases d <;> first | rfl | exact absurd h (by decide)

theorem raise_raised (c : Counter) (s : State) : Raised c s (raise c s) := by
  simp [Raised, readCounter, raise, Config.counterMax]

theorem readCounter_raise_other (hcd : d ≠ c) : readCounter (raise c s) d = readCounter s d := by
  have hne : c.index.val ≠ d.index.val := fun h => hcd (counterIndex_inj (Fin.ext h)).symm
  simp [readCounter, raise, Vector.getElem_set_ne, hne]

theorem readCounter_of_same (h : t.counters = s.counters) (c : Counter) : readCounter t c = readCounter s c := by
  rw [readCounter, readCounter, h]

end

/-! ### The sampling of the conditions -/

section
variable {s : State}

/-- The silence record that a sampling leaves: SILENT exactly when an enabled condition stands (R180). -/
def Sampled (x : Silence) : Prop :=
  x.state = (if enabledActive x = 0 then .voiced else .silent) ∧ x.level = (if enabledActive x = 0 then 0 else 15) ∧
  x.resumable = false

theorem sampled_initial (m : BitVec 8) : Sampled (Silence.initial m) := by
  have hactive : enabledActive (Silence.initial m) = 0 := by simp [enabledActive, Silence.initial]
  exact ⟨by rw [hactive]; rfl, by rw [hactive]; rfl, rfl⟩

theorem enabledActive_flagSet (c : Condition) (s : State) (d : Condition) : hasCondition (enabledActive (flagSet c s).silence) d =
    ((hasCondition s.silence.conds d || decide (d = c)) && hasCondition s.silence.mask d) := by
  rw [enabledActive, hasCondition_and, flagSet, hasCondition_or, hasCondition_flag]

/-- With no entry queued nothing can fade: a condition asserted is silence at once. -/
theorem assertCond_sampled (c : Condition) (hqueue : s.queue = []) (h : Sampled s.silence) :
    Sampled (assertCond c s).silence := by
  cases hclear : hasCondition s.silence.conds c with
  | true => rwa [assertCond_of_set hclear]
  | false =>
  cases hmask : hasCondition s.silence.mask c with
  | false =>
    rw [assertCond_of_masked hclear hmask]
    have hsame : enabledActive (flagSet c s).silence = enabledActive s.silence := by
      refine flags_ext fun d => ?_
      rw [enabledActive_flagSet, enabledActive, hasCondition_and]
      by_cases hd : d = c
      · rw [hd, hmask, Bool.and_false, Bool.and_false]
      · simp [hd]
    unfold Sampled at h ⊢
    rw [hsame]
    exact h
  | true =>
    have hactive : enabledActive (assertCond c s).silence ≠ 0 := by
      refine flags_ne_zero (c := c) ?_
      rw [enabledActive, hasCondition_and, assertCond_has, assertCond_mask, hmask]
      simp
    obtain ⟨hstate, hlevel, hmark⟩ := h
    have hsilent : (assertCond c s).silence.state = .silent ∧ (assertCond c s).silence.level = 15 ∧
        (assertCond c s).silence.resumable = false := by
      rw [assertCond_of_enabled hclear hmask]
      by_cases hcase : c.hard = true ∨ s.silence.state = .voiced
      · rw [actOn_silent (s := flagSet c s) (by tauto)]
        exact ⟨rfl, rfl, rfl⟩
      · rw [not_or] at hcase
        have hne : enabledActive s.silence ≠ 0 := fun h0 => hcase.2 (by rw [hstate, if_pos h0])
        rw [if_neg hne] at hstate hlevel
        rw [actOn_of_silent (s := flagSet c s) (by simpa using hcase.1) hstate]
        exact ⟨hstate, hlevel, rfl⟩
    unfold Sampled
    rwa [if_neg hactive, if_neg hactive]

theorem silentTrigger_records (s : State) : (silentTrigger s).trace.records = s.trace.records := by
  unfold silentTrigger
  split <;> rfl

theorem assertCond_records (c : Condition) (s : State) : (assertCond c s).trace.records = s.trace.records := by
  rw [assertCond_follows c s]
  split
  · exact silentTrigger_records s
  · rfl

theorem sampleCond_has (c d : Condition) (b : Bool) (s : State) : hasCondition (sampleCond d b s).silence.conds c =
    (hasCondition s.silence.conds c || (decide (c = d) && b)) := by
  cases b with
  | true => simp [sampleCond, assertCond_has, Bool.or_comm]
  | false => simp [sampleCond]

theorem sampleCond_kept (d : Condition) (b : Bool) (s : State) : (sampleCond d b s).silence.mask = s.silence.mask ∧
    (sampleCond d b s).trace.records = s.trace.records ∧
    (s.queue = [] → Sampled s.silence → Sampled (sampleCond d b s).silence) := by
  cases b with
  | true => exact ⟨assertCond_mask d s, assertCond_records d s, assertCond_sampled d⟩
  | false => exact ⟨rfl, rfl, fun _ h => h⟩

/-- The conditions that stand after a sampling from none (R180). -/
def sampledConds (s : State) : Condition → Bool
  | .timeUnlocked => decide (s.time.lock = .acquiring)
  | .driveFault => s.pins.chargerFault
  | .coilHot => s.pins.coilHot
  | .access => s.pins.access
  | _ => false

/-- The sampling: mask and trace records stay, the conditions are those whose causes stand, the silence answers them. -/
theorem sampleConds_result (hqueue : s.queue = []) (hsilence : ∃ m, s.silence = Silence.initial m) :
    (sampleConds s).silence.mask = s.silence.mask ∧ (sampleConds s).trace.records = s.trace.records ∧
    Sampled (sampleConds s).silence ∧
    ∀ c, hasCondition (sampleConds s).silence.conds c = sampledConds s c := by
  obtain ⟨m, hm⟩ := hsilence
  have hkept (d : Condition) (b : Bool) (u : State) : (sampleCond d b u).queue = u.queue ∧ (sampleCond d b u).pins = u.pins :=
    ⟨sampleCond_unchanged u d b .queue (by decide), sampleCond_unchanged u d b .pins (by decide)⟩
  have hnone (c : Condition) : hasCondition s.silence.conds c = false := by
    rw [hm]
    exact hasCondition_zero c
  have h0 : Sampled s.silence := hm ▸ sampled_initial m
  simp only [sampleConds]
  refine ⟨by simp only [(sampleCond_kept _ _ _).1], by simp only [(sampleCond_kept _ _ _).2.1], ?_, fun c => ?_⟩
  · exact (sampleCond_kept _ _ _).2.2 (by simp only [hkept, hqueue]) ((sampleCond_kept _ _ _).2.2
      (by simp only [hkept, hqueue]) ((sampleCond_kept _ _ _).2.2 (by simp only [hkept, hqueue])
        ((sampleCond_kept _ _ _).2.2 hqueue h0)))
  · simp only [sampleCond_has, hnone]
    cases c <;> simp [sampledConds]

end

/-! ### Power -/

/-- Settles O5. -/
theorem powerOnAndPowerLost : Obligations.PowerOnAndPowerLost := by
  refine ⟨fun straps pins s => ⟨_, rfl, ?_⟩, fun s hp => ⟨_, act_of_powered losePower hp, ?_⟩⟩
  · obtain ⟨hmask, hrecords, ⟨hstate, hlevel, hmark⟩, hconds⟩ :=
      sampleConds_result (s := powerOnBlocks straps pins s.service.memory s) rfl ⟨_, rfl⟩
    have hu := sampleConds_unchanged (powerOnBlocks straps pins s.service.memory s)
    have hchannels : (powerOn straps pins s).channels = _ := hu .channels (by decide)
    have hpeers : (powerOn straps pins s).peers = _ := hu .peers (by decide)
    have hconductor : (powerOn straps pins s).conductor = _ := hu .conductor (by decide)
    have hlibrary : (powerOn straps pins s).library = _ := hu .library (by decide)
    have hcalendar : (powerOn straps pins s).calendar = _ := hu .calendar (by decide)
    have hservice : (powerOn straps pins s).service = _ := hu .service (by decide)
    have hcounters : (powerOn straps pins s).counters = _ := hu .counters (by decide)
    refine ⟨hu .powered (by decide), hu .straps (by decide), hu .pins (by decide), hu .listen (by decide),
      hu .halted (by decide), hu .settings (by decide), fun k => ?_, hu .drive (by decide), hu .queue (by decide),
      hu .time (by decide), hu .line (by decide), fun st => ?_, hu .floor (by decide), fun k => ?_, ?_, ?_, fun n => ?_,
      fun n => ?_, ?_, hmask, fun c => ?_, hstate, hlevel, hmark, hrecords, ?_, ?_, ?_, fun c => ?_, hu .pending (by decide)⟩
    · rw [hchannels]; simp [powerOnBlocks]
    · rw [hpeers]; simp [powerOnBlocks]
    · rw [hconductor]; simp [powerOnBlocks]
    · rw [hconductor]; rfl
    · rw [hlibrary]; rfl
    · rw [hlibrary]; simp [powerOnBlocks, libraryFrom]
    · rw [hcalendar]; simp [powerOnBlocks, calendarFrom]
    · rw [hcalendar]; rfl
    · refine (hconds c).trans ?_
      cases c <;> rfl
    · rw [hservice]; rfl
    · rw [hservice]; rfl
    · rw [hservice]; rfl
    · rw [hcounters]; simp [powerOnBlocks, zeroCounters]
  · refine ⟨rfl, rfl, fun k => ?_, rfl, ?_⟩
    · simp [losePower, dropAll, shutBank]
    · intro p hp
      cases p <;> first | rfl | simp at hp

/-! ### RESTART -/

/-- Settles O6. -/
theorem restartResult : Obligations.RestartResult := by
  intro h s hp ht
  refine ⟨fun hs => act_refused 18 _ hp ht hs, fun hs => ⟨_, act_writes 18 _ hp ht hs, ?_⟩⟩
  obtain ⟨hmask, hrecords, ⟨hstate, hlevel, hmark⟩, hconds⟩ :=
    sampleConds_result (s := restartBlocks (acknowledge s)) rfl ⟨_, rfl⟩
  have hu := sampleConds_unchanged (restartBlocks (acknowledge s))
  have hchannels : (restart (acknowledge s)).channels = _ := hu .channels (by decide)
  have hpeers : (restart (acknowledge s)).peers = _ := hu .peers (by decide)
  have hconductor : (restart (acknowledge s)).conductor = _ := hu .conductor (by decide)
  have hlibrary : (restart (acknowledge s)).library = _ := hu .library (by decide)
  have hcounters : (restart (acknowledge s)).counters = _ := hu .counters (by decide)
  have htime : (restart (acknowledge s)).time = _ := hu .time (by decide)
  refine ⟨hu .listen (by decide), hu .halted (by decide), fun k => ?_, hu .drive (by decide), hu .queue (by decide),
    htime, hu .line (by decide), fun st => ?_, hu .floor (by decide), fun k => ?_, ?_, ?_, fun n => ⟨?_, ?_⟩,
    hu .calendar (by decide), hmask, fun c => ?_, hstate, hlevel, hmark, hrecords, hu .service (by decide), fun c => ?_,
    hu .admission (by decide), ?_⟩
  · rw [hchannels]; simp [restartBlocks, Channel.restarted]
  · rw [hpeers]; simp [restartBlocks]
  · rw [hconductor]; simp [restartBlocks]
  · rw [hconductor]; rfl
  · rw [hlibrary]; simp only [restartBlocks, Library.restarted, acknowledge_library]
  · rw [hlibrary]; simp [restartBlocks, Library.restarted]
  · rw [hlibrary]
    simp only [restartBlocks, Library.restarted, acknowledge_library, Fin.getElem_fin, Vector.getElem_ofFn]
    cases s.library.parts[n.val] <;> rfl
  · refine (hconds c).trans ?_
    rw [htime]
    cases c <;> rfl
  · rw [hcounters]; simp [restartBlocks, zeroCounters]
  · exact ((acknowledge_unchanged s).widen.andThen (restartBlocks_unchanged _)).andThen hu

/-! ### The settings store -/

theorem storeImage_entries (s : State) (i : Fin 24) :
    (storeImage s).entries[i].taken = { s.calendar.entries[i] with lastFired := none } := by
  simp [storeImage, CalEntry.stored, StoredEntry.taken]

theorem storeImage_tunes (s : State) (t : Fin 32) : (storeImage s).tunes[t] = s.library.parts[t].stored := by
  simp [storeImage]

theorem completeStore_of_storing {s : State} {x : StoreImage} {tag : BitVec 6} (hs : s.service.settingsState = .storing x tag) :
    completeStore s = storeReply tag .done (raise .settingsWrites (setStore .valid (some x) s)) := by
  simp only [completeStore, hs]

theorem failStore_of_storing {s : State} {x : StoreImage} {tag : BitVec 6} (hs : s.service.settingsState = .storing x tag) :
    failStore s = storeReply tag .check (setStore .lost none s) := by
  simp only [failStore, hs]

/-- Settles O46. -/
theorem storeResult : Obligations.StoreResult := by
  refine ⟨fun h s hp ht hs => ⟨storeImage s, act_writes 17 _ hp ht hs, rfl, rfl, rfl, fun k => ?_, storeImage_entries s,
    fun t => ?_⟩, fun x tag s hp hs => ⟨⟨raise .settingsWrites (setStore .valid (some x) s), ?_, rfl, raise_raised _ _,
      fun c hc => readCounter_raise_other hc, ?_⟩, ?_⟩⟩
  · simp [storeImage]
  · rw [storeImage_tunes]
    cases s.library.parts[t] <;> rfl
  · exact (act_of_powered completeStore hp).trans (congrArg _ (completeStore_of_storing hs))
  · intro p hp
    cases p <;> first | rfl | simp at hp
  · exact (act_of_powered failStore hp).trans (congrArg _ (failStore_of_storing hs))

end Sys2Proof.Machine
end

