-- ==== Sys2Proof/Proofs/ServiceReplies.lean ====
section
/-! The service commands' common behaviour (R181, R185), the calendar's writes (R164), VOICE_SET (R7, R8). -/

namespace Sys2Proof.Machine

-- One proof after another: many at once would ask for more threads than the memory limit allows.
set_option Elab.async false

/-- UNKNOWN_COMMAND for a command the node has none for: RANGE to a node that is targeted. -/
theorem exec_unknownCommand {h : Service} {command : BitVec 5} {body : Payload} {s : State}
    (hk : commandKnown command (List.replicate 16 false ++ body) = false) : exec (.unknownCommand h command body) s =
    act (onTarget h (reply h command.toNat .range .none)) s := by
  have hserved : (fun u : State => if commandKnown command (fill 16 ++ body) then u
      else onTarget h (reply h command.toNat .range .none) u) = onTarget h (reply h command.toNat .range .none) :=
    funext fun u => if_neg (commandKnown_fill hk)
  exact congrArg (fun f => act f s) hserved

/-- A LOAD_DATA with an event is one of the commands that write what is stored. -/
theorem exec_loadData {h : Service} {n : BitVec 8} {i : BitVec 16} {es : List LoadEvent} {s : State} (hes : es ≠ []) :
    exec (.loadData h n i es) s = act (onTarget h (unlessStoring h 13 (serveLoadData h n i (es.take 2)))) s := by
  have hne : es.isEmpty = false := by simpa using hes
  refine congrFun (congrArg act ?_) s
  refine congrArg (onTarget h) (funext fun u => ?_)
  exact if_neg (by simp [hne])

/-- Settles O48. -/
theorem releaseClearAndUnknown : Obligations.ReleaseClearAndUnknown := by
  refine fun h s hp ht => ⟨act_onTarget _ hp ht, ⟨clearCounters (acknowledge s), act_onTarget _ hp ht, fun c => ?_, ?_⟩,
    fun command body hk => (exec_unknownCommand hk).trans (act_onTarget _ hp ht)⟩
  · simp [readCounter, clearCounters, zeroCounters]
  · intro p hp
    cases p <;> first | rfl | simp at hp

/-- Settles O49: every service command but SET_TIME and STOP is acted on by the nodes it targets alone. -/
theorem serviceAcknowledgedAndRefused : Obligations.ServiceAcknowledgedAndRefused := by
  refine ⟨fun s => rfl, fun h s hp ht => ?_, fun h s hp ht hs => ?_⟩
  · refine ⟨?_, ?_, ?_, ?_, ?_, ?_, ?_, ?_, ?_, ?_, ?_, ?_, ?_, ?_, ?_, ?_, ?_, ?_, ?_, ?_, ?_, ?_, ?_, ?_, ?_, ?_,
      fun c b hk => (exec_unknownCommand hk).trans (act_not_targeted _ hp ht)⟩ <;>
    intros <;> exact act_not_targeted _ hp ht
  · refine ⟨fun k w => ?_, fun k w => ?_, fun k f => ?_, fun n f => ?_, fun n => ?_, fun n f => ?_, fun ps => ?_,
      fun m => ?_, fun n f => ?_, fun n i e es => ?_, fun n c => ?_, fun n => ?_, fun on => ?_, ?_⟩
    case refine_10 => exact (exec_loadData (List.cons_ne_nil e es)).trans (act_refused _ _ hp ht hs)
    all_goals exact act_refused _ _ hp ht hs

/-! ### Calendar commands -/

theorem entryNumber_of_val {n : Nat} {i : Fin 24} (h : n = i.val) : entryNumber n = some i := by
  subst h
  exact dif_pos i.isLt

theorem entryNumber_of_large {n : Nat} (h : 23 < n) : entryNumber n = none := dif_neg (by omega)

theorem slotNumber_of_val {n : BitVec 8} {t : Fin 32} (h : n.toNat = t.val) : slotNumber n = some t := by
  rw [slotNumber, dif_pos (h ▸ t.isLt)]
  exact congrArg some (Fin.ext h)

theorem slotNumber_of_large {n : BitVec 8} (h : 31 < n.toNat) : slotNumber n = none := dif_neg (by omega)

theorem priorityOf_eq_some_iff {c : BitVec 2} {pr : Priority} : priorityOf c = some pr ↔ c.toNat = pr.level := by
  revert c pr
  intro c pr
  cases pr <;> revert c <;> decide

theorem priorityOf_zero {c : BitVec 2} (h : c.toNat = 0) : priorityOf c = none := by
  revert c
  decide

theorem windowNumber_of_val {n : BitVec 8} {i : Fin 4} (h : n.toNat = i.val) : windowNumber n = some i := by
  rw [windowNumber, dif_pos (h ▸ i.isLt)]
  exact congrArg some (Fin.ext h)

theorem windowNumber_of_large {n : BitVec 8} (h : 3 < n.toNat) : windowNumber n = none := dif_neg (by omega)

theorem readEntry_of_range {f : CalFields} {t : Fin 32} {pr : Priority} (hslot : f.slot.toNat = t.val)
    (hpr : f.priority.toNat = pr.level) (hminute : f.minute.toNat ≤ 59) : readEntry f =
    some { enabled := f.enabled, days := f.days, hours := f.hours, minute := f.minute.toNat, slot := t
           priority := pr, lastFired := none } := by
  rw [readEntry, priorityOf_eq_some_iff.mpr hpr, slotNumber_of_val hslot]
  exact if_pos hminute

theorem readEntry_none {f : CalFields} (h : 31 < f.slot.toNat ∨ f.priority.toNat = 0 ∨ 59 < f.minute.toNat) :
    readEntry f = none := by
  unfold readEntry
  split
  next hpr hslot =>
    obtain hlarge | hzero | hminute := h
    · rw [slotNumber_of_large hlarge] at hslot
      cases hslot
    · rw [priorityOf_zero hzero] at hpr
      cases hpr
    · exact if_neg (by omega)
  · rfl

theorem serveCalSet_refused {h : Service} {n : BitVec 8} {f : CalFields} {s : State}
    (hbad : entryNumber n.toNat = none ∨ readEntry f = none) : serveCalSet h n f s = reply h 7 .range .none s := by
  unfold serveCalSet
  split
  next hn hf => obtain hbad | hbad := hbad <;> simp_all
  · rfl

theorem serveQuietSet_refused {h : Service} {n : BitVec 8} {f : QuietFields} {s : State}
    (hbad : windowNumber n = none ∨ readWindow f = none) : serveQuietSet h n f s = reply h 9 .range .none s := by
  unfold serveQuietSet
  split
  next hn hf => obtain hbad | hbad := hbad <;> simp_all
  · rfl

/-- Settles O43. -/
theorem calendarWrites : Obligations.CalendarWrites := by
  refine fun h s hp ht hs => ⟨fun n f i t pr hn hslot hpr hminute => ?_, fun n f hbad => ?_, fun n i hn => ?_, ?_,
    fun n hlarge hless => ?_, fun n f i hn hstart hstop hlevel => ?_, fun n f hbad => ?_⟩
  all_goals refine (act_writes _ _ hp ht hs).trans (congrArg _ ?_)
  · rw [serveCalSet, entryNumber_of_val hn, readEntry_of_range hslot hpr hminute]
    rfl
  · refine serveCalSet_refused ?_
    obtain hn | hf := hbad
    · exact .inl (entryNumber_of_large hn)
    · exact .inr (readEntry_none hf)
  · rw [serveCalClear, if_neg (by omega), entryNumber_of_val hn]
    rfl
  · rfl
  · rw [serveCalClear, if_neg (by omega), entryNumber_of_large hlarge]
  · rw [serveQuietSet, windowNumber_of_val hn, readWindow, if_pos ⟨hstart, hstop, hlevel⟩]
    rfl
  · refine serveQuietSet_refused ?_
    obtain hn | hf := hbad
    · exact .inl (windowNumber_of_large hn)
    · exact .inr (if_neg (by omega))

/-! ### VOICE_SET -/

section
variable {h : Service} {k : Fin 8} {s : State}

theorem voiceWrite_absent (f : State → State) (hk : isPresent s k = false) :
    (if isPresent (acknowledge s) k then f (acknowledge s) else reply h 6 .notHere .none (acknowledge s)) =
      reply h 6 .notHere .none (acknowledge s) := if_neg (by rw [show isPresent (acknowledge s) k = isPresent s k from rfl, hk]; simp)

theorem act_voiceWrite_absent (f : State → State) (hp : s.powered = true) (ht : targeted s h = true)
    (hs : storing s = false) (hk : isPresent s k = false) :
    act (onTarget h (voiceWrite h k f)) s = .next (reply h 6 .notHere .none (acknowledge s)) :=
  (act_writes 6 _ hp ht hs).trans (congrArg _ (voiceWrite_absent f hk))

theorem act_voiceWrite_present (f : State → State) (hp : s.powered = true) (ht : targeted s h = true)
    (hs : storing s = false) (hk : isPresent s k = true) :
    act (onTarget h (voiceWrite h k f)) s = .next (f (acknowledge s)) :=
  (act_writes 6 _ hp ht hs).trans (congrArg _ (if_pos hk))

end

/-- A width is replaced exactly when it lies outside 1 to 250. -/
theorem any_widthReplaced {n : Nat} (w : Vector (BitVec 8) n) : doneOr (w.toList.any widthReplaced) =
    if ∀ i : Fin n, 1 ≤ w[i].toNat ∧ w[i].toNat ≤ 250 then .done else .doneClamped := by
  have hwidth (x : BitVec 8) : widthReplaced x = false ↔ 1 ≤ x.toNat ∧ x.toNat ≤ 250 := by
    rw [widthReplaced, decide_eq_false_iff_not, clamp, not_not]
    omega
  have hall : w.toList.any widthReplaced = false ↔ ∀ i : Fin n, 1 ≤ w[i].toNat ∧ w[i].toNat ≤ 250 := by
    rw [toList_eq_ofFn, List.any_eq_false]
    simp only [List.mem_ofFn, forall_exists_index, forall_apply_eq_imp_iff, Bool.not_eq_true, hwidth]
  split
  next hin => rw [hall.mpr hin]; rfl
  next hout => rw [Bool.not_eq_false _ |>.mp (mt hall.mp hout)]; rfl

theorem curveLow_written (old : Vector Nat 15) (w : Vector (BitVec 8) 8) :
    (∀ (i : Fin 15) (j : Fin 8), i.val = j.val → (curveLow old w)[i] = max 1 (min 250 w[j].toNat)) ∧
    ∀ i : Fin 15, 8 ≤ i.val → (curveLow old w)[i] = old[i] := by
  constructor
  · intro i j hij
    simp [curveLow, clamp, hij]
  · intro i hi
    simp [curveLow, Nat.not_lt.mpr hi]

theorem curveHigh_written (old : Vector Nat 15) (w : Vector (BitVec 8) 7) :
    (∀ (i : Fin 15) (j : Fin 7), i.val = j.val + 8 → (curveHigh old w)[i] = max 1 (min 250 w[j].toNat)) ∧
    ∀ i : Fin 15, i.val < 8 → (curveHigh old w)[i] = old[i] := by
  constructor
  · intro i j hij
    have hlt : 8 ≤ i.val ∧ i.val - 8 < 7 := by omega
    simp [curveHigh, clamp, hij]
  · intro i hi
    have hnot : ¬(8 ≤ i.val ∧ i.val - 8 < 7) := by omega
    simp [curveHigh, Nat.not_le.mpr hi]

theorem timingReplaced_iff (v : Voicing) (f : TimingFields) : doneOr (timingReplaced v f) =
    if v.f1 = f.f1.toNat ∧ v.f15 = f.f15.toNat ∧ v.back = f.back.toNat ∧ v.lead = f.lead.toNat ∧ v.coil = f.coil.toNat
      then .done else .doneClamped := by
  unfold timingReplaced
  split
  next hsame =>
    rw [decide_eq_false (by omega)]
    rfl
  next hdiff =>
    rw [decide_eq_true (by omega)]
    rfl

/-- A channel that stays damped, or was not: its voicing alone changes (R8). -/
theorem writeTiming_kept {k : Fin 8} {f : TimingFields} {s : State} (hc : s.channels[k].voicing.damped = false ∨ f.damped = true) :
    writeTiming k f s = setVoicing k (timedVoicing s.channels[k].voicing f) s := by
  refine if_neg fun hboth => ?_
  obtain ⟨hold, hnew⟩ := hboth
  obtain hc | hc := hc
  · rw [hc] at hold
    cases hold
  · rw [hc] at hnew
    cases hnew

/-- A channel that is no longer damped (R8). -/
theorem writeTiming_undamped {k : Fin 8} {f : TimingFields} {s : State} (hold : s.channels[k].voicing.damped = true)
    (hnew : f.damped = false) :
    writeTiming k f s = undamp k (setVoicing k (timedVoicing s.channels[k].voicing f) s) :=
  if_pos ⟨hold, by rw [hnew]; rfl⟩

theorem settled_of_same {s t : State} (hstraps : t.straps = s.straps) (hchannels : t.channels = s.channels) :
    settled t = settled s := by
  unfold settled isPresent presentCount bellBase
  rw [hstraps, hchannels]

theorem drainCheck_drive (s : State) : (drainCheck s).drive = if s.drive.mode = .draining ∧ settled (drainCheck s) = true
    then { mode := .off, level := 0, idle := s.drive.idle } else s.drive := by
  have hsame : settled (drainCheck s) = settled s := by
    unfold drainCheck
    split
    · exact settled_of_same rfl rfl
    · rfl
  rw [hsame]
  unfold drainCheck
  split <;> rfl

theorem undamp_unchanged_drive (k : Fin 8) (s : State) : Unchanged [.channels, .queue, .drive] s (undamp k s) :=
  (Unchanged.andThen (ps := [.channels, .queue, .drive]) (t := { s with queue := s.queue.map (undampEntry k) })
    (fun p hp => by cases p <;> first | rfl | simp at hp) (updChannel_unchanged k _ _)).andThen (drainCheck_unchanged _)

/-- Settles O42. -/
theorem voiceSetResult : Obligations.VoiceSetResult := by
  refine fun h k s hp ht hs => ⟨fun hk => ⟨fun w => act_voiceWrite_absent _ hp ht hs hk,
    fun w => act_voiceWrite_absent _ hp ht hs hk, fun f => act_voiceWrite_absent _ hp ht hs hk⟩, fun hk w => ?_,
    fun hk w => ?_, fun hk f => ?_⟩
  · obtain ⟨hlow, hhigh⟩ := curveLow_written s.channels[k].voicing.curve w
    refine ⟨setVoicing k { s.channels[k].voicing with curve := curveLow s.channels[k].voicing.curve w } (acknowledge s), _,
      (act_voiceWrite_present _ hp ht hs hk).trans (congrArg _ ?_), rfl, hlow, hhigh, updChannel_unchanged k _ _⟩
    rw [any_widthReplaced]
    rfl
  · obtain ⟨hhigh, hlow⟩ := curveHigh_written s.channels[k].voicing.curve w
    refine ⟨setVoicing k { s.channels[k].voicing with curve := curveHigh s.channels[k].voicing.curve w } (acknowledge s), _,
      (act_voiceWrite_present _ hp ht hs hk).trans (congrArg _ ?_), rfl, hhigh, hlow, updChannel_unchanged k _ _⟩
    rw [any_widthReplaced]
    rfl
  · refine ⟨_, timedVoicing s.channels[k].voicing f, _, act_voiceWrite_present _ hp ht hs hk, rfl, rfl, rfl, rfl, rfl, rfl,
      rfl, timingReplaced_iff _ f, ?_⟩
    by_cases hc : s.channels[k].voicing.damped = false ∨ f.damped = true
    · rw [writeTiming_kept (s := acknowledge s) hc]
      refine ⟨fun j hj => ?_, fun _ => ⟨?_, updChannel_unchanged k _ _⟩, fun hold hnew => ?_⟩
      · exact Vector.getElem_set_ne k.isLt j.isLt (fun he => hj (Fin.ext he).symm)
      · exact Vector.getElem_set_self k.isLt
      · obtain hc | hc := hc
        · exact absurd (hold.symm.trans hc) (by decide)
        · exact absurd (hnew.symm.trans hc) (by decide)
    · obtain ⟨hold, hnew⟩ : s.channels[k].voicing.damped = true ∧ f.damped = false := by simpa using hc
      rw [writeTiming_undamped (s := acknowledge s) hold hnew]
      have hu := undamp_unchanged_drive k (setVoicing k (timedVoicing s.channels[k].voicing f) (acknowledge s))
      refine ⟨fun j hj => ?_, fun hkept => absurd hkept hc, fun _ _ => ⟨?_, ?_, ?_, ?_⟩⟩
      · rw [undamp, drainCheck_unchanged _ .channels (by decide)]
        simp [setVoicing, Vector.getElem_set_ne, Fin.val_ne_of_ne hj.symm]
      · rw [undamp, drainCheck_unchanged _ .channels (by decide)]
        simp [setVoicing]
      · exact drainCheck_unchanged _ .queue (by decide)
      · exact drainCheck_drive _
      · exact Unchanged.andThen (t := setVoicing k (timedVoicing s.channels[k].voicing f) (acknowledge s))
          (updChannel_unchanged k _ _).widen hu

end Sys2Proof.Machine
end

