-- ==== Sys2Proof/Proofs/SettingWrites.lean ====
section
/-! NODE_SET writes one setting at a time, each within its range and taken at once (R24, R141, R160, R177, R182). -/

namespace Sys2Proof.Machine

-- One proof after another: many at once would ask for more threads than the memory limit allows.
set_option Elab.async false

/-! ### The settings record -/

/-- The settings record with one setting written (R182). -/
def settingsWith (n v : Nat) (x : Settings) : Settings :=
  match n with
  | 0 => { x with recharge := v }
  | 1 => { x with readyLevel := v }
  | 2 => { x with reserve := v }
  | 3 => { x with idleTime := v }
  | 4 => { x with lateLimit := v }
  | 5 => { x with fadeStep := v }
  | 6 => { x with lookahead := v }
  | 7 => { x with claimWait := v }
  | 8 => { x with hourBell := v }
  | 9 => { x with hourInterval := v }
  | 10 => { x with quarter1 := v }
  | 11 => { x with quarter2 := v }
  | 12 => { x with quarter3 := v }
  | 13 => { x with quarter4 := v }
  | 14 => { x with preroll := v }
  | 15 => { x with map1 := mapOf v }
  | 16 => { x with map2 := mapOf v }
  | 17 => { x with resume := if v = 0 then .auto else .manual }
  | 18 => { x with holdTime := v }
  | 19 => { x with trigger := triggerOf v }
  | 20 => { x with postCount := v }
  | _ => x

section
variable {s : State}

theorem startDrain_drive (s : State) : (startDrain s).drive =
    if settled s = true then { mode := .off, level := 0, idle := 0 }
      else { mode := .draining, level := s.drive.level, idle := 0 } := by
  have hsame : settled { s with drive := { s.drive with mode := .draining, idle := 0 } } = settled s :=
    settled_of_same rfl rfl
  rw [startDrain, drainCheck, hsame]
  split <;> simp_all

theorem setPreroll_settings (v : Nat) (s : State) : (setPreroll v s).settings = { s.settings with preroll := v } := by
  unfold setPreroll
  dsimp only
  split
  · rfl
  · unfold bringDue
    dsimp only
    split
    · rfl
    · exact decideMinute_unchanged _ _ .settings (by decide)

theorem writeSetting_unchanged_all (n v : Nat) (s : State) :
    Unchanged [.settings, .drive, .silence, .trace, .conductor, .counters, .calendar, .library] s (writeSetting n v s) := by
  by_cases hn : n = 14
  · rw [hn]
    exact (setPreroll_unchanged v s).widen
  · exact (writeSetting_unchanged s v hn).widen

/-! ### What a write does at once -/

theorem writeSetting_plain {n : Nat} (v : Nat) (s : State)
    (hn : n ∈ [0, 2, 4, 5, 6, 7, 8, 9, 10, 11, 12, 13, 15, 16, 19, 20]) : Unchanged [.settings] s (writeSetting n v s) := by
  simp only [List.mem_cons, List.not_mem_nil, or_false] at hn
  rcases hn with rfl | rfl | rfl | rfl | rfl | rfl | rfl | rfl | rfl | rfl | rfl | rfl | rfl | rfl | rfl | rfl <;>
    exact writeSettings_unchanged s _

theorem writeSetting_readyLevel (v : Nat) (s : State) : writeSetting 1 v s = { s with
    settings := { s.settings with readyLevel := v }
    drive := { s.drive with mode := if s.drive.mode = .charging ∨ s.drive.mode = .ready
      then (if v ≤ s.drive.level then .ready else .charging) else s.drive.mode } } := by
  have hmode : driveFor (updSettings (fun x => { x with readyLevel := v }) s) s.drive.mode s.drive.level =
      if s.drive.mode = .charging ∨ s.drive.mode = .ready then (if v ≤ s.drive.level then .ready else .charging)
        else s.drive.mode := by
    cases s.drive.mode <;> simp [driveFor, updSettings] <;> rfl
  rw [← hmode]
  rfl

theorem writeSetting_idleTime (v : Nat) (s : State) : writeSetting 3 v s = { s with
    settings := { s.settings with idleTime := v }
    drive := if (s.drive.mode = .charging ∨ s.drive.mode = .ready) ∧ v ≠ 0 ∧ v ≤ s.drive.idle
      then (if settled s = true then { mode := .off, level := 0, idle := 0 }
        else { mode := .draining, level := s.drive.level, idle := 0 })
      else s.drive } := by
  have hdrained (u : State) : startDrain u = { u with drive := (startDrain u).drive } := by
    simp only [startDrain, drainCheck]
    split <;> rfl
  have hwritten : writeSetting 3 v s = setIdleTime v s := rfl
  have hup : bankUp s.drive.mode = true ↔ s.drive.mode = .charging ∨ s.drive.mode = .ready := bankUp_iff
  simp only [hwritten, setIdleTime, updSettings, hup]
  split
  · rw [hdrained, startDrain_drive]
    rfl
  · rfl

theorem writeSetting_auto (s : State) : writeSetting 17 0 s = { s with
    settings := { s.settings with resume := .auto }
    silence := if s.settings.resume = .manual ∧ s.silence.state = .silent ∧ s.silence.resumable = true
      then (if s.settings.holdTime = 0
        then { s.silence with state := .voiced, level := 0, fadeCount := 0, resumable := false, hold := 0 }
        else { s.silence with state := .holding, level := 15, fadeCount := 0, resumable := false, hold := 0 })
      else s.silence } := by
  have hwritten : writeSetting 17 0 s = setAuto s := rfl
  simp only [hwritten, setAuto, updSettings]
  split
  · rw [goHolding]
    by_cases hhold : s.settings.holdTime = 0
    · rw [if_pos hhold, if_pos hhold]
      rfl
    · rw [if_neg hhold, if_neg hhold]
  · rfl

/-- The record of SILENT, and the trace that hears of it. -/
theorem goSilent_eq (mark : Bool) (s : State) : goSilent mark s = { s with
    silence := { s.silence with state := .silent, level := 15, fadeCount := 0, resumable := mark, hold := 0 }
    trace := if s.silence.state = .silent then s.trace else (silentTrigger s).trace } := by
  simp only [goSilent, silentTrigger, fireTrigger]
  split
  · rfl
  · split <;> rfl

theorem writeSetting_manual (s : State) : writeSetting 17 1 s = { s with
    settings := { s.settings with resume := .manual }
    silence := if s.settings.resume = .auto ∧ s.silence.state = .holding
      then { s.silence with state := .silent, level := 15, fadeCount := 0, resumable := true, hold := 0 }
      else s.silence
    trace := if s.settings.resume = .auto ∧ s.silence.state = .holding then (silentTrigger s).trace else s.trace } := by
  have hwritten : writeSetting 17 1 s = setManual s := rfl
  have htrace : (silentTrigger { s with settings := { s.settings with resume := .manual } }).trace = (silentTrigger s).trace := by
    simp only [silentTrigger, fireTrigger]
    split <;> rfl
  simp only [hwritten, setManual, updSettings]
  split
  next hheld =>
    rw [goSilent_eq, if_neg (by simp [hheld.2]), htrace]
  · rfl

theorem writeSetting_holdTime (v : Nat) (s : State) : writeSetting 18 v s = { s with
    settings := { s.settings with holdTime := v }
    silence := if s.silence.state = .holding ∧ v ≤ s.silence.hold
      then { s.silence with state := .voiced, level := 0, fadeCount := 0, resumable := false, hold := 0 }
      else s.silence } := by
  have hwritten : writeSetting 18 v s = setHoldTime v s := rfl
  rw [hwritten, setHoldTime]
  by_cases hover : s.silence.state = .holding ∧ v ≤ s.silence.hold
  · have hreached : holdReached (updSettings (fun x => { x with holdTime := v }) s) = true := decide_eq_true hover
    rw [if_pos hreached, if_pos hover]
    rfl
  · have hwaits : ¬holdReached (updSettings (fun x => { x with holdTime := v }) s) = true := fun h =>
      hover (of_decide_eq_true h)
    rw [if_neg hwaits, if_neg hover]
    rfl

theorem writeSetting_settings : ∀ (n v : Nat) (s : State), (writeSetting n v s).settings = settingsWith n v s.settings
  | 0, _, _ | 1, _, _ | 2, _, _ | 4, _, _ | 5, _, _ | 6, _, _ | 7, _, _ | 8, _, _ | 9, _, _ | 10, _, _ | 11, _, _
  | 12, _, _ | 13, _, _ | 15, _, _ | 16, _, _ | 19, _, _ | 20, _, _ | _ + 21, _, _ => rfl
  | 3, v, s => by rw [writeSetting_idleTime]; rfl
  | 14, v, s => setPreroll_settings v s
  | 17, 0, s => by rw [writeSetting_auto]; rfl
  | 17, v + 1, s => by
    have hwritten : writeSetting 17 (v + 1) s = writeSetting 17 1 s := rfl
    rw [hwritten, writeSetting_manual]
    rfl
  | 18, v, s => by rw [writeSetting_holdTime]; rfl

theorem readSetting_other (x : Settings) (v : Nat) {m n : Fin 21} (hmn : m ≠ n) :
    readSetting (settingsWith n.val v x) m = readSetting x m := by
  fin_cases n <;> fin_cases m <;> first | exact absurd rfl hmn | rfl

/-- A contact cue map is written as it is read. -/
theorem mapOf_mapValue (v : Nat) :
    (mapOf (mapValue v)).slot.val + (if (mapOf (mapValue v)).enabled then 256 else 0) = mapValue v := by
  have hslot : mapValue v % 256 = min 31 (v % 256) := by unfold mapValue; omega
  have henabled : mapValue v / 256 % 2 = v / 256 % 2 := by unfold mapValue; omega
  simp only [mapOf, hslot, henabled, Fin.val_ofNat, decide_eq_true_eq]
  unfold mapValue
  split <;> omega

theorem readSetting_written (x : Settings) (v : Nat) : ∀ n : Fin 21,
    readSetting (settingsWith n.val (settingValue n.val v) x) n = settingValue n.val v
  | 15 | 16 => mapOf_mapValue v
  | 17 => by
    have hv : settingValue 17 v = 0 ∨ settingValue 17 v = 1 := by simp only [settingValue, clamp]; omega
    obtain hv | hv := hv <;> simp [readSetting, settingsWith, hv]
  | 19 => by
    have hv : settingValue 19 v = 0 ∨ settingValue 19 v = 1 ∨ settingValue 19 v = 2 ∨ settingValue 19 v = 3 := by
      simp only [settingValue, clamp]; omega
    obtain hv | hv | hv | hv := hv <;> simp [readSetting, settingsWith, hv, triggerOf]
  | 0 | 1 | 2 | 3 | 4 | 5 | 6 | 7 | 8 | 9 | 10 | 11 | 12 | 13 | 14 | 18 | 20 => rfl
  | ⟨n + 21, hn⟩ => absurd hn (by omega)

end

/-! ### The values written -/

theorem settingValue_clamped {n lo hi : Nat} (v : Nat) (hn : (n, lo, hi) ∈ [(0, 1, 32), (1, 1, 60000), (2, 0, 60000),
    (4, 0, 160), (5, 1, 8), (6, 2000, 16000), (8, 1, 64), (9, 4000, 16000), (10, 1, 64), (11, 1, 64), (12, 1, 64), (13, 1, 64),
    (14, 8000, 120000), (17, 0, 1), (19, 0, 3), (20, 0, 63)]) : settingValue n v = clamp lo hi v ∧ lo ≤ hi := by
  simp only [List.mem_cons, Prod.mk.injEq, List.not_mem_nil, or_false] at hn
  rcases hn with h | h | h | h | h | h | h | h | h | h | h | h | h | h | h | h <;> obtain ⟨rfl, rfl, rfl⟩ := h <;>
    exact ⟨rfl, by omega⟩

theorem settingValue_wait (v : Nat) : settingValue 7 v = nearestWait v := rfl

theorem settingValue_hold (v : Nat) : settingValue 18 v = nearestHold v := rfl

/-- The claim wait limit written is the nearest one, the larger of two equally near (R141). -/
theorem nearestWait_nearest (v : Nat) : nearestWait v ∈ [64000, 128000, 192000, 256000] ∧
    ∀ w : Nat, w ∈ [64000, 128000, 192000, 256000] → ((v : Int) - nearestWait v).natAbs ≤ ((v : Int) - w).natAbs ∧
      (((v : Int) - nearestWait v).natAbs = ((v : Int) - w).natAbs → w ≤ nearestWait v) := by
  unfold nearestWait
  simp only [List.mem_cons, List.not_mem_nil, or_false]
  split
  · exact ⟨by omega, fun w hw => by omega⟩
  split
  · exact ⟨by omega, fun w hw => by omega⟩
  split <;> exact ⟨by omega, fun w hw => by omega⟩

/-- The hold time written is the nearest one, the larger of two equally near (R177). -/
theorem nearestHold_nearest (v : Nat) : nearestHold v ∈ [0, 8000, 16000, 32000] ∧
    ∀ w : Nat, w ∈ [0, 8000, 16000, 32000] → ((v : Int) - nearestHold v).natAbs ≤ ((v : Int) - w).natAbs ∧
      (((v : Int) - nearestHold v).natAbs = ((v : Int) - w).natAbs → w ≤ nearestHold v) := by
  unfold nearestHold
  simp only [List.mem_cons, List.not_mem_nil, or_false]
  split
  · exact ⟨by omega, fun w hw => by omega⟩
  split
  · exact ⟨by omega, fun w hw => by omega⟩
  split <;> exact ⟨by omega, fun w hw => by omega⟩

theorem mapValue_parts (v : Nat) : mapValue v % 256 = min 31 (v % 256) ∧ mapValue v / 256 = v / 256 % 2 := by
  unfold mapValue
  omega

theorem settingReplaced_map {n : Nat} (v : Nat) (hn : n ∈ [15, 16]) :
    settingValue n v = mapValue v ∧ settingReplaced n v = decide (31 < v % 256) := by
  simp only [List.mem_cons, List.not_mem_nil, or_false] at hn
  obtain rfl | rfl := hn <;> exact ⟨rfl, rfl⟩

/-! ### A new enable mask -/

section
variable {s t : State} {p : Condition → Bool}

/-- The conditions that p names act in turn. -/
def actEach (p : Condition → Bool) (l : List Condition) (s : State) : State :=
  l.foldl (fun u c => if p c then actOn c u else u) s

theorem actEach_cons (c : Condition) (l : List Condition) : actEach p (c :: l) s =
    actEach p l (if p c then actOn c s else s) := rfl

theorem actEach_none {l : List Condition} (h : ∀ c ∈ l, p c = false) : actEach p l s = s := by
  induction l generalizing s with
  | nil => rfl
  | cons c l ih =>
    rw [actEach_cons, if_neg (by simp [h c]), ih fun d hd => h d (List.mem_cons_of_mem c hd)]

theorem actEach_unchanged (p : Condition → Bool) (l : List Condition) (s : State) :
    Unchanged [.silence, .trace] s (actEach p l s) :=
  .foldl _ (fun t c => .ite (actOn_unchanged c t) (.refl _ t)) l s

theorem actEach_first {l : List Condition} (h : ∃ c ∈ l, p c = true) :
    ∃ c ∈ l, p c = true ∧ ∃ l2, (∀ d ∈ l2, d ∈ l) ∧ actEach p l s = actEach p l2 (actOn c s) := by
  induction l with
  | nil =>
    obtain ⟨c, hc, -⟩ := h
    cases hc
  | cons c l ih =>
    rw [actEach_cons]
    by_cases hpc : p c = true
    · exact ⟨c, List.mem_cons_self, hpc, l, fun d hd => List.mem_cons_of_mem c hd, by rw [if_pos hpc]⟩
    · have hlater : ∃ d ∈ l, p d = true := by
        obtain ⟨d, hd, hpd⟩ := h
        exact ⟨d, (List.mem_cons.mp hd).resolve_left fun he => hpc (he ▸ hpd), hpd⟩
      obtain ⟨d, hd, hpd, l2, hsub, heq⟩ := ih hlater
      exact ⟨d, List.mem_cons_of_mem c hd, hpd, l2, fun e he => List.mem_cons_of_mem c (hsub e he), by rw [if_neg hpc, heq]⟩

/-- A condition that acts on a silence leaves it, without the mark. -/
theorem actOn_stays (c : Condition) (hstate : s.silence.state = .silent) : (actOn c s).silence.state = .silent ∧
    (s.silence.level = 15 → (actOn c s).silence.level = 15) ∧ (actOn c s).silence.resumable = false := by
  cases hhard : c.hard with
  | true =>
    rw [actOn_silent (.inl hhard)]
    exact ⟨rfl, fun _ => rfl, rfl⟩
  | false =>
    rw [actOn_of_silent hhard hstate]
    exact ⟨hstate, id, rfl⟩

theorem actEach_stays {l : List Condition} (hstate : s.silence.state = .silent) :
    (actEach p l s).silence.state = .silent ∧ (s.silence.level = 15 → (actEach p l s).silence.level = 15) ∧
    (s.silence.resumable = false ∨ (∃ c ∈ l, p c = true) → (actEach p l s).silence.resumable = false) := by
  induction l generalizing s with
  | nil => exact ⟨hstate, id, fun h => h.resolve_right nofun⟩
  | cons c l ih =>
    rw [actEach_cons]
    by_cases hpc : p c = true
    · obtain ⟨hsilent, hlevel, hmark⟩ := actOn_stays c hstate
      obtain ⟨hsilent2, hlevel2, hmark2⟩ := ih hsilent
      rw [if_pos hpc]
      exact ⟨hsilent2, fun h => hlevel2 (hlevel h), fun _ => hmark2 (.inl hmark)⟩
    · obtain ⟨hsilent2, hlevel2, hmark2⟩ := ih hstate
      rw [if_neg hpc]
      refine ⟨hsilent2, hlevel2, fun h => hmark2 (h.imp id fun ⟨d, hd, hpd⟩ => ⟨d, ?_, hpd⟩)⟩
      exact (List.mem_cons.mp hd).resolve_left fun he => hpc (he ▸ hpd)

/-- A hard condition among those that act: SILENT without the mark, whatever the others do (R178). -/
theorem actEach_hard {l : List Condition} (h : ∃ c ∈ l, p c = true ∧ c.hard = true) :
    (actEach p l s).silence.state = .silent ∧ (actEach p l s).silence.level = 15 ∧
    (actEach p l s).silence.resumable = false := by
  induction l generalizing s with
  | nil =>
    obtain ⟨c, hc, -⟩ := h
    cases hc
  | cons c l ih =>
    rw [actEach_cons]
    by_cases hc : p c = true ∧ c.hard = true
    · have hrecord := actOn_silent (s := s) (.inl hc.2)
      obtain ⟨hsilent, hlevel, hmark⟩ := actEach_stays (p := p) (l := l) (s := actOn c s) (by rw [hrecord])
      rw [if_pos hc.1]
      exact ⟨hsilent, hlevel (by rw [hrecord]), hmark (.inl (by rw [hrecord]))⟩
    · refine ih ?_
      obtain ⟨d, hd, hpd⟩ := h
      exact ⟨d, (List.mem_cons.mp hd).resolve_left fun he => hc (he ▸ hpd), hpd⟩

/-- Soft conditions leave a fade as it is (R172). -/
theorem actEach_fading {l : List Condition} (hsoft : ∀ c ∈ l, p c = true → c.hard = false)
    (hstate : s.silence.state = .fading) : actEach p l s = s := by
  induction l with
  | nil => rfl
  | cons c l ih =>
    rw [actEach_cons]
    split
    next hpc =>
      rw [actOn_of_fading (hsoft c List.mem_cons_self hpc) hstate]
      exact ih fun d hd => hsoft d (List.mem_cons_of_mem c hd)
    · exact ih fun d hd => hsoft d (List.mem_cons_of_mem c hd)

/-- Two moves in turn, the second of which does not end a silence that the first brought. -/
theorem TraceFollows.trans {u : State} (h1 : TraceFollows s t) (h2 : TraceFollows t u) (hsettings : t.settings = s.settings)
    (hstays : s.silence.state = .silent → t.silence.state = .silent)
    (hstays2 : t.silence.state = .silent → u.silence.state = .silent) : TraceFollows s u := by
  by_cases ht : t.silence.state = .silent
  · unfold TraceFollows at h1 h2 ⊢
    rw [h2, if_neg (by simp [ht]), h1]
    simp only [ht, hstays2 ht]
  · have htrace : t.trace = s.trace := by
      rw [h1, if_neg fun h => ht h.2]
    exact h2.congr htrace hsettings ⟨fun h => absurd h ht, fun h => absurd (hstays h) ht⟩

theorem actEach_follows (l : List Condition) (s : State) : TraceFollows s (actEach p l s) := by
  induction l generalizing s with
  | nil => exact .of_same rfl id
  | cons c l ih =>
    rw [actEach_cons]
    split
    · exact (actOn_follows c s).trans (ih _) (actOn_unchanged c s .settings (by decide)) (fun h => (actOn_stays c h).1)
        fun h => (actEach_stays h).1
    · exact ih s

/-- The conditions that the new mask enables have acted. -/
def newlyActed (m : BitVec 8) (s : State) : State :=
  actEach (newlyEnabled (enabledActive s.silence) (withMask m s)) allConditions (withMask m s)

theorem setMask_eq (m : BitVec 8) (s : State) : setMask m s =
    if enabledActive s.silence ≠ 0 ∧ enabledActive (newlyActed m s).silence = 0 then allCleared (newlyActed m s)
      else newlyActed m s := by
  simp only [setMask, actNewlyEnabled_eq]
  rfl

theorem newlyActed_condsKept (m : BitVec 8) (s : State) : CondsKept (withMask m s) (newlyActed m s) := by
  unfold newlyActed
  generalize hu : withMask m s = u
  clear hu
  suffices hfold : ∀ (l : List Condition) (q : Condition → Bool) (v : State), CondsKept v (actEach q l v) from hfold _ _ _
  intro l q
  induction l with
  | nil => exact .refl
  | cons c l ih =>
    intro v
    rw [actEach_cons]
    split
    · exact (actOn_condsKept c v).trans (ih _)
    · exact ih v

theorem setMask_condsKept (m : BitVec 8) (s : State) : CondsKept (withMask m s) (setMask m s) := by
  rw [setMask_eq]
  split
  · exact (newlyActed_condsKept m s).trans (allCleared_condsKept _)
  · exact newlyActed_condsKept m s

theorem newlyEnabled_iff (m : BitVec 8) (s : State) (c : Condition) :
    newlyEnabled (enabledActive s.silence) (withMask m s) c = true ↔
      hasCondition (enabledActive (setMask m s).silence) c = true ∧ hasCondition (enabledActive s.silence) c = false := by
  rw [newlyEnabled, (setMask_condsKept m s).active, Bool.and_eq_true, Bool.not_eq_true']

/-- A newly enabled condition stands, so nothing is cleared. -/
theorem setMask_of_new {m : BitVec 8} {s : State} (h : ∃ c, newlyEnabled (enabledActive s.silence) (withMask m s) c = true) :
    setMask m s = newlyActed m s := by
  obtain ⟨c, hc⟩ := h
  rw [setMask_eq, if_neg fun hlast => ?_]
  rw [(newlyActed_condsKept m s).active] at hlast
  exact flags_ne_zero (Bool.and_elim_left hc) hlast.2

theorem setMask_of_none {m : BitVec 8} {s : State} (h : ∀ c, newlyEnabled (enabledActive s.silence) (withMask m s) c = false) :
    setMask m s = if enabledActive s.silence ≠ 0 ∧ enabledActive (setMask m s).silence = 0 then allCleared (withMask m s)
      else withMask m s := by
  rw [(setMask_condsKept m s).active]
  rw [setMask_eq, newlyActed, actEach_none fun c _ => h c]

theorem setMask_follows (m : BitVec 8) (s : State) : TraceFollows s (setMask m s) := by
  have hacted : TraceFollows s (newlyActed m s) := (actEach_follows _ _).congr rfl rfl Iff.rfl
  by_cases hnew : ∃ c, newlyEnabled (enabledActive s.silence) (withMask m s) c = true
  · rw [setMask_of_new hnew]
    exact hacted
  · have hnone : ∀ c, newlyEnabled (enabledActive s.silence) (withMask m s) c = false := fun c =>
      Bool.eq_false_iff.mpr fun hc => hnew ⟨c, hc⟩
    rw [setMask_of_none hnone]
    split
    · exact (allCleared_follows _).congr rfl rfl Iff.rfl
    · exact .of_same rfl id

/-- What newly enabled soft conditions do, by the silence state they meet (R172, R178). -/
theorem setMask_soft {m : BitVec 8} {s : State} (hnew : ∃ c, newlyEnabled (enabledActive s.silence) (withMask m s) c = true)
    (hsoft : ∀ c, newlyEnabled (enabledActive s.silence) (withMask m s) c = true → c.hard = false) :
    (s.silence.state = .voiced → s.queue ≠ [] → (setMask m s).silence.state = .fading ∧
      (setMask m s).silence.level = 1 ∧ (setMask m s).silence.fadeCount = 0) ∧
    (s.silence.state = .fading → (setMask m s).silence.state = .fading ∧ (setMask m s).silence.level = s.silence.level ∧
      (setMask m s).silence.fadeCount = s.silence.fadeCount) ∧
    (s.silence.state = .holding ∨ (s.silence.state = .voiced ∧ s.queue = []) →
      (setMask m s).silence.state = .silent ∧ (setMask m s).silence.level = 15) ∧
    (s.silence.state = .silent → (setMask m s).silence.state = .silent ∧ (setMask m s).silence.resumable = false) := by
  have hlisted : ∃ c ∈ allConditions, newlyEnabled (enabledActive s.silence) (withMask m s) c = true := by
    obtain ⟨c, hc⟩ := hnew
    exact ⟨c, mem_allConditions c, hc⟩
  obtain ⟨c, -, hc, l, -, hfirst⟩ := actEach_first (s := withMask m s) hlisted
  rw [setMask_of_new hnew]
  refine ⟨fun hstate hqueue => ?_, fun hstate => ?_, fun hcase => ?_, fun hstate => ?_⟩
  · have hrecord := actOn_fading (s := withMask m s) (hsoft c hc) hstate hqueue
    rw [newlyActed, hfirst, actEach_fading (fun d _ => hsoft d) (by rw [hrecord]), hrecord]
    exact ⟨rfl, rfl, rfl⟩
  · rw [newlyActed, actEach_fading (s := withMask m s) (fun d _ => hsoft d) hstate]
    exact ⟨hstate, rfl, rfl⟩
  · have hrecord := actOn_silent (s := withMask m s) (c := c) (.inr hcase)
    obtain ⟨hsilent, hlevel, -⟩ := actEach_stays (p := newlyEnabled (enabledActive s.silence) (withMask m s)) (l := l)
      (s := actOn c (withMask m s)) (by rw [hrecord])
    rw [newlyActed, hfirst]
    exact ⟨hsilent, hlevel (by rw [hrecord])⟩
  · obtain ⟨hsilent, -, hmark⟩ := actEach_stays (p := newlyEnabled (enabledActive s.silence) (withMask m s))
      (l := allConditions) (s := withMask m s) hstate
    exact ⟨hsilent, hmark (.inr hlisted)⟩

theorem setMask_hard {m : BitVec 8} {s : State}
    (h : ∃ c, newlyEnabled (enabledActive s.silence) (withMask m s) c = true ∧ c.hard = true) :
    (setMask m s).silence.state = .silent ∧ (setMask m s).silence.level = 15 ∧ (setMask m s).silence.resumable = false := by
  obtain ⟨c, hc, hhard⟩ := h
  rw [setMask_of_new ⟨c, hc⟩]
  exact actEach_hard ⟨c, mem_allConditions c, hc, hhard⟩

/-- A mask that enables nothing new: the last enabled active condition may have been masked (R174, R178). -/
theorem setMask_none {m : BitVec 8} {s : State} (hnone : ∀ c, newlyEnabled (enabledActive s.silence) (withMask m s) c = false) :
    (enabledActive s.silence ≠ 0 → enabledActive (setMask m s).silence = 0 →
      s.silence.state = .fading ∨ s.silence.state = .silent →
      (s.settings.resume = .manual → (setMask m s).silence.state = .silent ∧ (setMask m s).silence.level = 15 ∧
        (setMask m s).silence.resumable = true) ∧
      (s.settings.resume = .auto → s.settings.holdTime ≠ 0 → (setMask m s).silence.state = .holding ∧
        (setMask m s).silence.level = 15 ∧ (setMask m s).silence.hold = 0) ∧
      (s.settings.resume = .auto → s.settings.holdTime = 0 → (setMask m s).silence.state = .voiced ∧
        (setMask m s).silence.level = 0)) ∧
    (enabledActive s.silence = 0 ∨ enabledActive (setMask m s).silence ≠ 0 ∨ s.silence.state = .voiced ∨
        s.silence.state = .holding →
      (setMask m s).silence.state = s.silence.state ∧ (setMask m s).silence.level = s.silence.level) := by
  have heq := setMask_of_none hnone
  refine ⟨fun hbefore hafter hstate => ?_, fun hcase => ?_⟩
  · rw [if_pos ⟨hbefore, hafter⟩] at heq
    rw [heq]
    refine ⟨fun hmanual => ?_, fun hauto hhold => ?_, fun hauto hhold => ?_⟩
    · rw [allCleared_manual (s := withMask m s) hstate hmanual, goSilent_silence]
      exact ⟨rfl, rfl, rfl⟩
    · rw [allCleared_auto (s := withMask m s) hstate hauto, goHolding_held (s := withMask m s) hhold]
      exact ⟨rfl, rfl, rfl⟩
    · rw [allCleared_auto (s := withMask m s) hstate hauto, goHolding_over (s := withMask m s) hhold]
      exact ⟨rfl, rfl⟩
  · by_cases hlast : enabledActive s.silence ≠ 0 ∧ enabledActive (setMask m s).silence = 0
    · have hrest : s.silence.state = .voiced ∨ s.silence.state = .holding := by tauto
      rw [if_pos hlast, allCleared_of_restful (s := withMask m s) hrest] at heq
      rw [heq]
      exact ⟨rfl, rfl⟩
    · rw [if_neg hlast] at heq
      rw [heq]
      exact ⟨rfl, rfl⟩

end

theorem doneOr_mask (m mask : BitVec 8) : doneOr (decide (m ≠ mask)) = if m = mask then .done else .doneClamped := by
  by_cases h : m = mask <;> simp [doneOr, h]

theorem pairsRefused_iff {pairs : List (BitVec 8 × BitVec 24)} (hlen : 1 ≤ pairs.length) :
    pairsRefused pairs = true ↔ ∃ p ∈ pairs, 20 < p.1.toNat := by
  have hne : pairs ≠ [] := List.ne_nil_of_length_pos hlen
  simp [pairsRefused, hne]

/-- Settles O44. -/
theorem nodeAndMaskSet : Obligations.NodeAndMaskSet := by
  refine ⟨fun h pairs s hp ht hs hlen hthree => ?_, fun n v s => ?_, fun v s => ?_, fun v n lo hi hn => ?_, fun v => ?_,
    fun v w => ?_, fun h mask s hp ht hs => ?_⟩
  · refine ⟨fun hbad => ?_, fun hgood => ?_⟩
    · refine (act_writes 10 (serveNodeSet h (pairs.take 3)) hp ht hs).trans (congrArg _ ?_)
      rw [List.take_of_length_le hthree]
      exact if_pos ((pairsRefused_iff hlen).mpr hbad)
    · refine (act_writes 10 (serveNodeSet h (pairs.take 3)) hp ht hs).trans (congrArg _ ?_)
      rw [List.take_of_length_le hthree]
      refine if_neg fun hbad => ?_
      obtain ⟨p, hmem, hp⟩ := (pairsRefused_iff hlen).mp hbad
      have := hgood p hmem
      omega
  · refine ⟨?_, fun m hm => ?_, writeSetting_unchanged_all _ _ _⟩
    · rw [writeSetting_settings, readSetting_written]
    · rw [writeSetting_settings, readSetting_other _ _ hm]
  · exact ⟨fun n hn => writeSetting_plain v s hn, writeSetting_readyLevel v s, writeSetting_idleTime v s, writeSetting_auto s,
      writeSetting_manual s, writeSetting_holdTime v s⟩
  · obtain ⟨hvalue, hle⟩ := settingValue_clamped v hn
    rw [hvalue, clamp]
    omega
  · refine ⟨rfl, fun hv => if_neg (by omega), (nearestWait_nearest v).1, (nearestHold_nearest v).1, fun n hn => ?_,
      fun n h15 h16 => if_neg (by omega)⟩
    obtain ⟨hvalue, hreplaced⟩ := settingReplaced_map v hn
    rw [hvalue]
    exact ⟨(mapValue_parts v).1, (mapValue_parts v).2, hreplaced⟩
  · exact ⟨(nearestWait_nearest v).2 w, (nearestHold_nearest v).2 w⟩
  · refine ⟨setMask (mask ||| fixedFlags) (acknowledge s), ?_, (setMask_condsKept _ _).2, (setMask_condsKept _ _).1,
      (setMask_follows (mask ||| fixedFlags) (acknowledge s)).congr rfl rfl Iff.rfl, fun new hnew => ?_, setMask_unchanged _ _⟩
    · refine (act_writes 11 (serveMaskSet h mask) hp ht hs).trans (congrArg _ ?_)
      rw [serveMaskSet, doneOr_mask]
      rfl
    · have hiff (c : Condition) : new c ↔ newlyEnabled (enabledActive (acknowledge s).silence)
          (withMask (mask ||| fixedFlags) (acknowledge s)) c = true := (hnew c).trans (newlyEnabled_iff _ _ c).symm
      exact ⟨fun ⟨c, hc, hhard⟩ => setMask_hard ⟨c, (hiff c).mp hc, hhard⟩,
        fun ⟨c, hc⟩ hsoft => setMask_soft (s := acknowledge s) ⟨c, (hiff c).mp hc⟩ fun d hd => hsoft d ((hiff d).mpr hd),
        fun hnone => setMask_none (s := acknowledge s) fun c => Bool.eq_false_iff.mpr fun hc => hnone c ((hiff c).mpr hc)⟩

end Sys2Proof.Machine
end

