-- ==== Sys2Proof/Proofs/ResetInvariants.lean ====
section
/-! The machine right after reset meets every invariant. -/

namespace Sys2Proof.Machine

-- One proof after another: many at once would ask for more threads than the memory limit allows.
set_option Elab.async false

theorem defaultSettings_inRange : SettingsInRange defaultSettings := by
  simp [SettingsInRange, defaultSettings]

theorem defaultVoicing_inRange : VoicingInRange defaultVoicing := by
  simp only [VoicingInRange, defaultVoicing]
  decide

theorem reset_rangesKept : RangesKept State.reset := by
  refine ⟨defaultSettings_inRange, fun k => ?_, nofun, nofun⟩
  simpa [State.reset, freshChannel] using defaultVoicing_inRange

theorem reset_bankSound : BankSound State.reset := ⟨Nat.zero_le _, fun _ => rfl, nofun, nofun, nofun⟩

theorem reset_clockSound : ClockSound State.reset := by
  simp [ClockSound, State.reset, Timebase.initial, Config.week]

theorem reset_capacitySound : CapacitySound State.reset := by
  refine ⟨by decide, by decide, by decide, fun c => ?_⟩
  simp [State.reset]

theorem reset_silenceSound : SilenceSound State.reset := initial_sound (m := 0xFF#8) rfl (by decide) (by decide)

theorem reset_conditionsSound : ConditionsSound State.reset := by
  have hnone (c : Condition) : hasCondition State.reset.silence.conds c = false := hasCondition_zero c
  refine ⟨?_, ?_, ?_, ?_, ?_, ?_, ?_, nofun, nofun⟩ <;> rw [hnone] <;> rfl

theorem reset_locksSound : LocksSound State.reset := by
  intro t
  have hlocks : State.reset.library.locks[t] = 0 := by simp [State.reset]
  have hplayers : playersOf State.reset t = 0 := rfl
  rw [hlocks, hplayers]
  exact ⟨rfl, fun hpos => absurd hpos (Nat.lt_irrefl 0)⟩

theorem reset_poolSound : PoolSound State.reset := by
  refine ⟨?_, nofun, nofun⟩
  rw [poolUsed_eq]
  simp [State.reset, LoadedPart.poolEvents]

/-- Settles O52. -/
theorem resetMeetsInvariants : Obligations.ResetMeetsInvariants := by
  have hchannel (k : Fin 8) : State.reset.channels[k] = freshChannel defaultVoicing := by simp [State.reset]
  refine ⟨reset_rangesKept, reset_bankSound, reset_clockSound, reset_capacitySound, ⟨List.Pairwise.nil, by decide, nofun, nofun⟩,
    reset_silenceSound, reset_conditionsSound, nofun, fun k => ?_, nofun, nofun, reset_locksSound, fun k hk => ?_,
    reset_poolSound, ⟨nofun, fun y hy => absurd hy (by simp [State.reset, Line.initial])⟩, List.Pairwise.nil⟩
  · rw [hchannel]
    exact ⟨fun _ => ⟨rfl, rfl⟩, nofun⟩
  · simp [State.reset] at hk

end Sys2Proof.Machine
end

