-- ==== Sys2Proof/Proofs/AdvanceAndChoice.lean ====
section
/-! The ticks that tower time advances (R66), and the choice of reference (R69). -/

namespace Sys2Proof.Machine

-- One proof after another: many at once would ask for more threads than the memory limit allows.
set_option Elab.async false

/-! ### Trim and slew -/

theorem multiples_in_range (n d : Nat) : ((List.range n).filter fun j => decide ((j + 1) % d = 0)).length = n / d := by
  rw [← Nat.card_multiples n d]
  simp only [Nat.dvd_iff_mod_eq_zero]
  rfl

theorem sum_marks {α : Type} (l : List α) (p : α → Bool) (c : Int) :
    (l.map fun j => if p j = true then c else 0).sum = (l.filter p).length * c := by
  induction l with
  | nil => simp
  | cons a l ih =>
    rw [List.map_cons, List.sum_cons, ih, List.filter_cons]
    split
    · rw [List.length_cons]
      push_cast
      ring
    · ring

/-- The trim marks a tick exactly when its number within 4096 is a multiple of 4096 divided by |k| (R66). -/
theorem trimPart_eq (k : Int) (n : LocalCount) : trimPart k n =
    if k ≠ 0 ∧ (n.toNat % 4096 + 1) % (4096 / k.natAbs) = 0 then k.sign else 0 := by
  unfold trimPart
  obtain hk | rfl | hk := lt_trichotomy k 0
  · simp [hk.ne, Int.sign_eq_neg_one_of_neg hk, not_lt.mpr hk.le]
  · simp
  · simp [hk.ne', Int.sign_eq_one_of_pos hk, hk]

theorem place_in_period (q j : Nat) (hj : j < 4096) : (BitVec.ofNat 32 (4096 * q + j)).toNat % 4096 = j := by
  rw [BitVec.toNat_ofNat]
  omega

theorem trimPart_in_period {k : Int} (hk : k ≠ 0) (q : Nat) {j : Nat} (hj : j < 4096) :
    trimPart k (BitVec.ofNat 32 (4096 * q + j)) = if decide ((j + 1) % (4096 / k.natAbs) = 0) = true then k.sign else 0 := by
  rw [trimPart_eq, place_in_period q j hj]
  simp [hk]

/-- |k| marks fall into a period of 4096 ticks. -/
theorem marks_in_period {k : Int} (hk : k ≠ 0) (hlow : -8 ≤ k) (hhigh : k ≤ 8) : 4096 / (4096 / k.natAbs) = k.natAbs := by
  have hpos : 1 ≤ k.natAbs := by omega
  have hle : k.natAbs ≤ 8 := by omega
  generalize k.natAbs = n at hpos hle
  interval_cases n <;> rfl

theorem trim_in_period {k : Int} (q : Nat) (hlow : -8 ≤ k) (hhigh : k ≤ 8) :
    ((List.range 4096).map fun j => trimPart k (BitVec.ofNat 32 (4096 * q + j))).sum = k ∧
    ((List.range 4096).filter fun j => decide (trimPart k (BitVec.ofNat 32 (4096 * q + j)) ≠ 0)).length = k.natAbs := by
  by_cases hk : k = 0
  · have hzero (n : LocalCount) : trimPart 0 n = 0 := if_pos rfl
    subst hk
    generalize List.range 4096 = l
    simp [hzero]
  have hvalue : ∀ j ∈ List.range 4096, trimPart k (BitVec.ofNat 32 (4096 * q + j)) =
      if decide ((j + 1) % (4096 / k.natAbs) = 0) = true then k.sign else 0 := fun j hj =>
    trimPart_in_period hk q (List.mem_range.mp hj)
  have hmarked : ∀ j ∈ List.range 4096, decide (trimPart k (BitVec.ofNat 32 (4096 * q + j)) ≠ 0) =
      decide ((j + 1) % (4096 / k.natAbs) = 0) := by
    intro j hj
    have hsign : k.sign ≠ 0 := fun h0 => hk (Int.sign_eq_zero_iff_zero.mp h0)
    rw [hvalue j hj]
    by_cases hd : (j + 1) % (4096 / k.natAbs) = 0
    · rw [if_pos (decide_eq_true hd), decide_eq_true hd, decide_eq_true hsign]
    · rw [decide_eq_false hd, if_neg Bool.false_ne_true, decide_eq_false (not_not.mpr rfl)]
  constructor
  · rw [List.map_congr_left hvalue, sum_marks, multiples_in_range, marks_in_period hk hlow hhigh, mul_comm]
    exact Int.sign_mul_natAbs k
  · rw [List.filter_congr hmarked, multiples_in_range, marks_in_period hk hlow hhigh]

theorem slewPart_eq (slew trim : Int) (n : LocalCount) : slewPart slew trim n =
    if slew ≠ 0 ∧ n.toNat % 32 = 31 ∧ ¬(slew < 0 ∧ trimPart trim n = -1) then slew.sign else 0 := by
  unfold slewPart
  obtain hs | rfl | hs := lt_trichotomy slew 0
  · by_cases hn : n.toNat % 32 = 31 <;> simp [hs.ne, hs, hs.le, hn, Int.sign_eq_neg_one_of_neg hs]
  · simp
  · by_cases hn : n.toNat % 32 = 31 <;> simp [hs.ne', hs, not_lt.mpr hs.le, hn, Int.sign_eq_one_of_pos hs]

theorem sign_cases (k : Int) : k.sign = -1 ∨ k.sign = 0 ∨ k.sign = 1 := by
  obtain hk | rfl | hk := lt_trichotomy k 0
  · exact .inl (Int.sign_eq_neg_one_of_neg hk)
  · exact .inr (.inl rfl)
  · exact .inr (.inr (Int.sign_eq_one_of_pos hk))

theorem trimPart_cases (k : Int) (n : LocalCount) : trimPart k n = -1 ∨ trimPart k n = 0 ∨ trimPart k n = 1 := by
  rw [trimPart_eq]
  split
  · exact sign_cases k
  · exact .inr (.inl rfl)

/-- The slew withholds its -1 where the trim takes one, so tower time never runs back. -/
theorem slewPart_cases (slew trim : Int) (n : LocalCount) :
    (slewPart slew trim n = -1 ∧ trimPart trim n ≠ -1) ∨ slewPart slew trim n = 0 ∨ slewPart slew trim n = 1 := by
  rw [slewPart_eq]
  split
  next hmoves =>
    obtain hsign | hsign := sign_cases slew
    · refine .inl ⟨hsign, fun htrim => hmoves.2.2 ⟨Int.sign_eq_neg_one_iff_neg.mp hsign, htrim⟩⟩
    · exact .inr hsign
  · exact .inr (.inl rfl)

theorem advance_eq (x : Timebase) (n : LocalCount) :
    (advance x n : Int) = 1 + trimPart x.trim n + slewPart x.slew x.trim n ∧ advance x n ≤ 3 := by
  have htrim := trimPart_cases x.trim n
  have hslew := slewPart_cases x.slew x.trim n
  unfold advance
  omega

/-- Settles O8. -/
theorem trimAndSlewContributions : Obligations.TrimAndSlewContributions :=
  ⟨fun _ q hlow hhigh => trim_in_period q hlow hhigh, trimPart_eq, advance_eq, slewPart_eq⟩

/-! ### The choice of reference -/

section
variable {s : State} {st : Fin 16} {test : Validity × LockState → Bool}

theorem allStations_ordered : allStations.Pairwise (· < ·) := by decide

theorem find?_first {l : List (Fin 16)} {p : Fin 16 → Bool} {a b : Fin 16} (hl : l.Pairwise (· < ·)) (ha : l.find? p = some a)
    (hb : b ∈ l) (hp : p b = true) : a ≤ b := by
  obtain ⟨-, before, after, rfl, hnot⟩ := List.find?_eq_some_iff_append.mp ha
  rcases List.mem_append.mp hb with hb | hb
  · have hfailed := hnot b hb
    simp [hp] at hfailed
  rcases List.mem_cons.mp hb with rfl | hb
  · exact le_rfl
  · exact ((List.pairwise_cons.mp (List.pairwise_append.mp hl).2.1).1 b hb).le

/-- A station is a candidate that meets the test. -/
def Meets (s : State) (test : Validity × LockState → Bool) (st : Fin 16) : Prop :=
  ∃ c, candidate s st = some c ∧ test c = true

theorem lowestCandidate_eq (s : State) (test : Validity × LockState → Bool) :
    lowestCandidate s test = allStations.find? fun st => (candidate s st).any test := by
  unfold lowestCandidate
  congr 1
  funext st
  cases candidate s st <;> rfl

theorem meets_iff : (candidate s st).any test = true ↔ Meets s test st := by
  unfold Meets
  cases candidate s st <;> simp

theorem lowestCandidate_some (h : lowestCandidate s test = some st) :
    Meets s test st ∧ ∀ other, Meets s test other → st ≤ other := by
  rw [lowestCandidate_eq] at h
  refine ⟨meets_iff.mp (List.find?_some (p := fun st => (candidate s st).any test) h), fun other hother => ?_⟩
  exact find?_first allStations_ordered h (allStations_complete other) (meets_iff.mpr hother)

theorem lowestCandidate_none (h : lowestCandidate s test = none) (other : Fin 16) : ¬Meets s test other := fun hother =>
  List.find?_eq_none.mp (lowestCandidate_eq s test ▸ h) other (allStations_complete other) (meets_iff.mpr hother)

theorem candidate_own (s : State) : candidate s s.straps.station = some (s.time.validity, s.time.lock) := if_pos rfl

/-- The three tests of R69 in turn; the node itself meets the last. -/
theorem chooseReference_cases (s : State) :
    (lowestCandidate s fun c => decide (c.2 = .sourced)) = some (chooseReference s) ∨
    (lowestCandidate s (fun c => decide (c.2 = .sourced)) = none ∧
      (lowestCandidate s fun c => decide (c.1 = .set)) = some (chooseReference s)) ∨
    (lowestCandidate s (fun c => decide (c.2 = .sourced)) = none ∧ lowestCandidate s (fun c => decide (c.1 = .set)) = none ∧
      (lowestCandidate s fun _ => true) = some (chooseReference s)) := by
  unfold chooseReference
  split
  next hsourced => exact .inl hsourced
  next hsourced =>
  split
  next hset => exact .inr (.inl ⟨hsourced, hset⟩)
  next hset =>
  split
  next hany => exact .inr (.inr ⟨hsourced, hset, hany⟩)
  next hany => exact absurd ⟨_, candidate_own s, rfl⟩ (lowestCandidate_none hany s.straps.station)

theorem meets_of (d : Validity × LockState) (hd : candidate s st = some d) (htest : test d = true) : Meets s test st :=
  ⟨d, hd, htest⟩

/-- The choice is a candidate, and none has a better claim. -/
theorem chooseReference_best (s : State) : ∃ c, candidate s (chooseReference s) = some c ∧
    ∀ (st : Fin 16) (d : Validity × LockState), candidate s st = some d →
      (d.2 = .sourced → c.2 = .sourced ∧ chooseReference s ≤ st) ∧
      (d.1 = .set → c.2 = .sourced ∨ (c.1 = .set ∧ chooseReference s ≤ st)) ∧
      (c.2 = .sourced ∨ c.1 = .set ∨ chooseReference s ≤ st) := by
  obtain h | ⟨hno, h⟩ | ⟨hno, hno2, h⟩ := chooseReference_cases s
  · obtain ⟨⟨c, hc, htest⟩, hleast⟩ := lowestCandidate_some h
    have hsourced : c.2 = .sourced := of_decide_eq_true htest
    exact ⟨c, hc, fun st d hd => ⟨fun hd2 => ⟨hsourced, hleast st (meets_of d hd (decide_eq_true hd2))⟩,
      fun _ => .inl hsourced, .inl hsourced⟩⟩
  · obtain ⟨⟨c, hc, htest⟩, hleast⟩ := lowestCandidate_some h
    have hset : c.1 = .set := of_decide_eq_true htest
    exact ⟨c, hc, fun st d hd => ⟨fun hd2 => absurd (meets_of d hd (decide_eq_true hd2)) (lowestCandidate_none hno st),
      fun hd1 => .inr ⟨hset, hleast st (meets_of d hd (decide_eq_true hd1))⟩, .inr (.inl hset)⟩⟩
  · obtain ⟨⟨c, hc, -⟩, hleast⟩ := lowestCandidate_some h
    exact ⟨c, hc, fun st d hd => ⟨fun hd2 => absurd (meets_of d hd (decide_eq_true hd2)) (lowestCandidate_none hno st),
      fun hd1 => absurd (meets_of d hd (decide_eq_true hd1)) (lowestCandidate_none hno2 st),
      .inr (.inr (hleast st (meets_of d hd rfl)))⟩⟩

end

/-- Settles O11. -/
theorem referenceChoice : Obligations.ReferenceChoice := by
  refine fun s => ⟨fun st => ?_, chooseReference_best s⟩
  rw [candidate]
  split
  · rfl
  · cases s.peers[st] with
    | absent => rfl
    | lapsed i => rfl
    | live i =>
      obtain ⟨last, body⟩ := i
      cases body <;> rfl

end Sys2Proof.Machine
end

