-- ==== Sys2Proof/Proofs/TransmitRules.lean ====
section
/-! Frames handed to the transmit queue, offered, put back, completed and abandoned (R91 to R94). -/

namespace Sys2Proof.Machine

-- One proof after another: many at once would ask for more threads than the memory limit allows.
set_option Elab.async false

section
variable {s t : State} {x : TxFrame}

/-! ### Places in the queue -/

theorem insertTx_joined (s : State) (x : TxFrame) (l : List TxFrame) : Joined s x l (insertTx s x l) := by
  induction l with
  | nil => exact ⟨[], [], rfl, rfl, by simp, by simp⟩
  | cons y l ih =>
    rw [insertTx]
    split
    next hlt => exact ⟨[], y :: l, rfl, rfl, by simp, fun z hz => by cases hz; exact hlt⟩
    next hle =>
      obtain ⟨pre, post, rfl, hafter, hpre, hpost⟩ := ih
      refine ⟨y :: pre, post, rfl, by rw [hafter]; rfl, fun z hz => ?_, hpost⟩
      obtain rfl | hz := List.mem_cons.mp hz
      · exact Nat.le_of_not_lt hle
      · exact hpre z hz

theorem reinstateTx_reinstated (s : State) (x : TxFrame) (l : List TxFrame) : Reinstated s x l (reinstateTx s x l) := by
  induction l with
  | nil => exact ⟨[], [], rfl, rfl, by simp, by simp⟩
  | cons y l ih =>
    rw [reinstateTx]
    split
    next hle => exact ⟨[], y :: l, rfl, rfl, by simp, fun z hz => by cases hz; exact hle⟩
    next hlt =>
      obtain ⟨pre, post, rfl, hafter, hpre, hpost⟩ := ih
      refine ⟨y :: pre, post, rfl, by rw [hafter]; rfl, fun z hz => ?_, hpost⟩
      obtain rfl | hz := List.mem_cons.mp hz
      · exact Nat.lt_of_not_le hlt
      · exact hpre z hz

/-! ### A frame handed -/

theorem handFrame_room (x : TxFrame) (h : txCount s < 8) : handFrame x s = (joinTx x s, true) := if_pos h

theorem handFrame_evicts {h : TxFrame} (hfull : 8 ≤ txCount s) (hlast : s.line.queue.getLast? = some h)
    (hlt : txIdent s x.frame < txIdent s h.frame) : handFrame x s = (joinTx x (evictTx h s), true) := by
  rw [handFrame, if_neg (show ¬txCount s < Config.txSize from Nat.not_lt.mpr hfull), txHighest, hlast]
  exact if_pos hlt

theorem handFrame_refused {h : TxFrame} (hfull : 8 ≤ txCount s) (hlast : s.line.queue.getLast? = some h)
    (hle : txIdent s h.frame ≤ txIdent s x.frame) : handFrame x s = (refuseTx x s, false) := by
  rw [handFrame, if_neg (show ¬txCount s < Config.txSize from Nat.not_lt.mpr hfull), txHighest, hlast]
  exact if_neg (Nat.not_lt.mpr hle)

/-- A frame handed while there is room joins at its place, and nothing else changes. -/
theorem handFrame_joined (x : TxFrame) (h : txCount s < 8) : (handFrame x s).2 = true ∧
    Joined s x s.line.queue (handFrame x s).1.line.queue ∧ Unchanged [.line] s (handFrame x s).1 := by
  rw [handFrame_room x h]
  exact ⟨rfl, insertTx_joined s x s.line.queue, joinTx_unchanged x s⟩

theorem frameLost_readCounter (x : TxFrame) (s : State) {c : Counter} (hc : c ≠ .ordersLost) :
    readCounter (frameLost x s) c = readCounter s c := by
  unfold frameLost
  split
  · split
    case h_2 => exact readCounter_raise_other hc
    all_goals rfl
  all_goals rfl

theorem frameGone_readCounter (o : Origin) (s : State) (c : Counter) : readCounter (frameGone o s) c = readCounter s c :=
  readCounter_of_same (frameGone_unchanged o s .counters (by decide)) c

theorem evictTx_readCounter (x : TxFrame) (s : State) {c : Counter} (hc : c ≠ .ordersLost) : readCounter (evictTx x s) c =
    if c = .txDropped then min 65535 (readCounter s c + 1) else readCounter s c := by
  rw [evictTx, frameGone_readCounter, frameLost_readCounter _ _ hc]
  split
  next heq =>
    subst heq
    exact raise_raised _ _
  next hne => exact readCounter_raise_other hne

theorem refuseTx_counters (x : TxFrame) (s : State) :
    (refuseTx x s).counters = if countsRefusal x.frame then (raise .txDropped s).counters else s.counters := by
  have hpart (u : State) : (if x.origin = .part then partOut u else u).counters = u.counters := by
    split
    · exact partOut_unchanged u .counters (by decide)
    · rfl
  simp only [refuseTx, hpart]
  split <;> rfl

theorem handFrame_readCounter (x : TxFrame) (s : State) {c : Counter} (h1 : c ≠ .ordersLost) (h2 : c ≠ .txDropped) :
    readCounter (handFrame x s).1 c = readCounter s c := by
  have hrefused : readCounter (refuseTx x s) c = readCounter s c := by
    rw [readCounter, refuseTx_counters]
    split
    · exact readCounter_raise_other h2
    · rfl
  unfold handFrame
  split
  · rfl
  split
  · exact hrefused
  split
  · exact (evictTx_readCounter _ s h1).trans (if_neg h2)
  · exact hrefused

/-! ### A PRESENCE handed -/

theorem handBeacon_aside (b : NodeBeacon) (h : sendingPresence s = true) :
    handBeacon b s = { s with line := { s.line with setAside := some b } } := if_pos h

theorem handBeacon_fresh (b : NodeBeacon) (h : sendingPresence s = false) (hnone : ∀ y ∈ s.line.queue, y.frame.isPresence = false) :
    handBeacon b s = (handFrame { frame := .presence b, origin := .beacon } s).1 := by
  have hany : (s.line.queue.any fun y => y.frame.isPresence) = false := List.any_eq_false.mpr fun y hy => by simp [hnone y hy]
  rw [handBeacon, h, hany]
  rfl

theorem map_replacePresence {l : List TxFrame} (x : TxFrame) (h : ∀ y ∈ l, y.frame.isPresence = false) :
    l.map (replacePresence x) = l := by
  refine (List.map_congr_left fun y hy => ?_).trans (List.map_id l)
  rw [replacePresence, if_neg (by simp [h y hy])]
  rfl

theorem handBeacon_replaces (b : NodeBeacon) {pre post : List TxFrame} {old : TxFrame} (h : sendingPresence s = false)
    (hqueue : s.line.queue = pre ++ old :: post) (hold : old.frame.isPresence = true)
    (hothers : ∀ y ∈ pre ++ post, y.frame.isPresence = false) : handBeacon b s = { s with line := { s.line with
      queue := pre ++ { frame := .presence b, origin := .beacon } :: post } } := by
  have hany : (s.line.queue.any fun y => y.frame.isPresence) = true :=
    List.any_eq_true.mpr ⟨old, by simp [hqueue], hold⟩
  have hmap : s.line.queue.map (replacePresence ⟨.presence b, .beacon⟩) = pre ++ ⟨.presence b, .beacon⟩ :: post := by
    rw [hqueue, List.map_append, List.map_cons, map_replacePresence _ fun y hy => hothers y (List.mem_append_left _ hy),
      map_replacePresence _ fun y hy => hothers y (List.mem_append_right _ hy), replacePresence, if_pos hold]
  rw [handBeacon, h, hany, ← hmap]
  rfl

theorem handBeacon_readCounter (b : NodeBeacon) (s : State) {c : Counter} (h1 : c ≠ .ordersLost) (h2 : c ≠ .txDropped) :
    readCounter (handBeacon b s) c = readCounter s c := by
  simp only [handBeacon]
  split
  · rfl
  split
  · rfl
  · exact handFrame_readCounter _ s h1 h2

end

/-- A reply of a single frame (R181). -/
def replyFrame (h : Service) (n : Nat) (r : Result) (b : ReplyBody) : TxFrame where
  frame := .reply { command := n, tag := h.tag, result := r, final := true, part := 0, body := b }
  origin := .single

theorem reply_of_targeted {h : Service} {s : State} (n : Nat) (r : Result) (b : ReplyBody) (ht : targeted s h = true) :
    reply h n r b s = (handFrame (replyFrame h n r b) s).1 := if_pos ht

/-- Settles O14. -/
theorem transmitQueueTakesFrames : Obligations.TransmitQueueTakesFrames := by
  refine ⟨fun x s => ⟨handFrame_joined x, fun h rest hfull hqueue hlt => ?_, fun h rest hfull hqueue hle => ?_⟩,
    fun h n r b s => ⟨fun ht => if_neg (by simp [ht]), fun ht hroom => ?_⟩,
    fun b s => ⟨handBeacon_aside b, fun pre old post => handBeacon_replaces b⟩⟩
  · have hlast : s.line.queue.getLast? = some h := by rw [hqueue, List.getLast?_concat]
    have hjoined : Joined s x rest (joinTx x (evictTx h s)).line.queue := by
      rw [joinTx_line, evictTx_line, insertTx_congr (evictTx_straps h s)]
      simpa [hqueue] using insertTx_joined s x rest
    have hunchanged := handFrame_unchanged x s
    rw [handFrame_evicts hfull hlast hlt] at hunchanged ⊢
    exact ⟨rfl, hjoined, (evictTx_readCounter h s (by decide)).trans (if_pos rfl), hunchanged⟩
  · have hlast : s.line.queue.getLast? = some h := by rw [hqueue, List.getLast?_concat]
    rw [handFrame_refused hfull hlast hle]
    refine ⟨rfl, refuseTx_line x s, fun hcounts => ?_, fun hcounts => ?_, refuseTx_unchanged x s⟩
    · rw [Raised, readCounter, refuseTx_counters, if_pos hcounts]
      exact raise_raised .txDropped s
    · rw [refuseTx_counters, if_neg (by simp [hcounts])]
  · obtain ⟨-, hjoined, hunchanged⟩ := handFrame_joined (replyFrame h n r b) hroom
    rw [reply_of_targeted n r b ht]
    exact ⟨hunchanged, hjoined⟩

/-! ### A transmission -/

section
variable {s : State} {x : TxFrame} {y : Sending}

theorem offerFrame_of (h : offerable s = some x) : offerFrame s = { s with line := { s.line with
    queue := s.line.queue.erase x, sending := some { tx := { x with frame := stampFrame s x.frame }, stamp := stampNow s } } } := by
  rw [offerFrame, h]

/-- What an idle, listened-in node may offer (R91, R95). -/
theorem offerable_of_idle (hlisten : s.listen = none) (hfault : s.line.faultAt = none) (hsending : s.line.sending = none) :
    offerable s = if s.line.clashAt.isSome then s.line.queue.find? fun y => y.frame.isPresence else s.line.queue.head? := by
  rw [offerable, hlisten, hfault, hsending]
  rfl

theorem loseArbitration_of (c : Fin 11) (hsending : s.line.sending = some y) (hcell : identCell s y.tx.frame c = true) :
    loseArbitration c s = { s with line := { s.line with
      queue := reinstateTx s (returned y s.line.setAside) s.line.queue, sending := none, setAside := none } } := by
  rw [loseArbitration, hsending]
  exact if_pos hcell

theorem completeFrame_of (acked : Bool) (hsending : s.line.sending = some y) : completeFrame acked s =
    deliverOwn y (endSending y.tx.origin (if acked then { s with line := { s.line with txErrors := 0 } }
      else raise .noAck { s with line := { s.line with txErrors := 0 } })) := by
  rw [completeFrame, hsending]

/-- The line with no frame in transmission and none set aside. -/
def lineIdle (l : Line) : Line := { l with sending := none, setAside := none }

theorem endSending_none (o : Origin) (haside : s.line.setAside = none) :
    endSending o s = frameGone o { s with line := lineIdle s.line } := by
  rw [endSending, haside]
  rfl

theorem endSending_some (o : Origin) {b : NodeBeacon} (haside : s.line.setAside = some b) :
    endSending o s = handBeacon b (frameGone o { s with line := lineIdle s.line }) := by
  rw [endSending, haside]
  rfl

theorem frameGone_straps (o : Origin) (s : State) : (frameGone o s).straps = s.straps :=
  frameGone_unchanged o s .straps (by decide)

theorem handBeacon_idle (b : NodeBeacon) (s : State) (hsending : s.line.sending = none) :
    (handBeacon b s).line = { s.line with queue := (handBeacon b s).line.queue } := by
  have hsp : sendingPresence s = false := by rw [sendingPresence, hsending]
  simp only [handBeacon, hsp, Bool.false_eq_true, ↓reduceIte]
  split
  · rfl
  · obtain hline | ⟨q, -, hline⟩ := handFrame_line { frame := .presence b, origin := .beacon } s <;> rw [hline]

/-- The line after a transmission has ended, the queue aside. -/
theorem endSending_line (o : Origin) (s : State) :
    (endSending o s).line = { lineIdle s.line with queue := (endSending o s).line.queue } := by
  cases haside : s.line.setAside with
  | none =>
    rw [endSending_none o haside, frameGone_line]
  | some b =>
    have hgone : (frameGone o { s with line := lineIdle s.line }).line = lineIdle s.line := frameGone_line o _
    rw [endSending_some o haside, handBeacon_idle b _ (by rw [hgone]; rfl)]
    rw [hgone]

theorem endSending_readCounter (o : Origin) (s : State) {c : Counter} (h1 : c ≠ .ordersLost) (h2 : c ≠ .txDropped) :
    readCounter (endSending o s) c = readCounter s c := by
  cases haside : s.line.setAside with
  | none =>
    rw [endSending_none o haside, frameGone_readCounter]
    rfl
  | some b =>
    rw [endSending_some o haside, handBeacon_readCounter b _ h1 h2, frameGone_readCounter]
    rfl

/-- The queue after a transmission, with no PRESENCE set aside. -/
theorem endSending_queue_none (o : Origin) (haside : s.line.setAside = none) : (endSending o s).line.queue = s.line.queue := by
  rw [endSending_none o haside, frameGone_line]
  rfl

/-- A PRESENCE set aside joins the queue that has none and room for it. -/
theorem endSending_queue_joined (o : Origin) {b : NodeBeacon} (haside : s.line.setAside = some b)
    (hnone : ∀ y ∈ s.line.queue, y.frame.isPresence = false) (hroom : s.line.queue.length < 8) :
    Joined s { frame := .presence b, origin := .beacon } s.line.queue (endSending o s).line.queue := by
  generalize hu : frameGone o { s with line := lineIdle s.line } = u
  have hline : u.line = lineIdle s.line := by rw [← hu, frameGone_line]
  have hqueue : u.line.queue = s.line.queue := by rw [hline]; rfl
  have hsending : u.line.sending = none := by rw [hline]; rfl
  have hstraps : u.straps = s.straps := by rw [← hu, frameGone_straps]
  have hcount : txCount u < 8 := by rw [txCount, hqueue, hsending]; exact hroom
  have hsp : sendingPresence u = false := by rw [sendingPresence, hsending]
  rw [endSending_some o haside, hu, handBeacon_fresh b hsp (by rw [hqueue]; exact hnone), handFrame_room _ hcount, joinTx_line,
    hqueue, insertTx_congr hstraps]
  exact insertTx_joined s _ _

/-- A PRESENCE set aside takes the place of the one that waits. -/
theorem endSending_queue_replaced (o : Origin) {b : NodeBeacon} {pre post : List TxFrame} {old : TxFrame}
    (haside : s.line.setAside = some b) (hq : s.line.queue = pre ++ old :: post) (hold : old.frame.isPresence = true)
    (hothers : ∀ y ∈ pre ++ post, y.frame.isPresence = false) :
    (endSending o s).line.queue = pre ++ { frame := .presence b, origin := .beacon } :: post := by
  generalize hu : frameGone o { s with line := lineIdle s.line } = u
  have hline : u.line = lineIdle s.line := by rw [← hu, frameGone_line]
  have hqueue : u.line.queue = pre ++ old :: post := by rw [hline]; exact hq
  have hsp : sendingPresence u = false := by rw [sendingPresence, hline]; rfl
  rw [endSending_some o haside, hu, handBeacon_replaces b hsp hqueue hold hothers]

theorem deliverOwn_quiet (u : State) (h : (∃ b, y.tx.frame = .presence b) ∨ ∃ r, y.tx.frame = .reply r) :
    deliverOwn y u = u := by
  obtain ⟨b, hframe⟩ | ⟨r, hframe⟩ := h <;> simp only [deliverOwn, hframe]

end

/-- Settles O15. -/
theorem offerLossCompletion : Obligations.OfferLossCompletion := by
  refine ⟨fun s hp hlisten hfault hsending => ⟨fun x rest hclash hqueue => ?_, fun pre x post hclash hqueue hx hpre => ?_⟩,
    fun c x s hp hsending hcell => ?_, fun acked x s hp hsending => ?_⟩
  · have hoffer : offerable s = some x := by
      rw [offerable_of_idle hlisten hfault hsending, hclash, hqueue]
      rfl
    refine ⟨_, act_of_powered _ hp, ?_, offerFrame_unchanged s⟩
    rw [offerFrame_of hoffer, hqueue, List.erase_cons_head]
    rfl
  · have hnot : x ∉ pre := fun hm => by simp [hpre x hm] at hx
    have hfind : s.line.queue.find? (fun y => y.frame.isPresence) = some x := by
      rw [hqueue, List.find?_eq_some_iff_append]
      exact ⟨hx, pre, post, rfl, fun y hy => by simp [hpre y hy]⟩
    have hoffer : offerable s = some x := by
      rw [offerable_of_idle hlisten hfault hsending, if_pos hclash, hfind]
    refine ⟨_, act_of_powered _ hp, ?_, ⟨_, by rw [offerFrame_of hoffer], rfl, rfl⟩, offerFrame_unchanged s⟩
    rw [offerFrame_of hoffer, hqueue, List.erase_append_right _ hnot, List.erase_cons_head]
  · refine ⟨_, act_of_powered _ hp, ?_⟩
    rw [loseArbitration_of c hsending hcell]
    refine ⟨rfl, rfl, rfl, fun haside => ?_, fun b haside => ?_, writeLine_unchanged s _⟩
    · rw [haside]
      exact reinstateTx_reinstated s _ _
    · rw [haside]
      exact reinstateTx_reinstated s _ _
  · generalize hv : (if acked then { s with line := { s.line with txErrors := 0 } }
      else raise .noAck { s with line := { s.line with txErrors := 0 } } : State) = v
    have hline : v.line = { s.line with txErrors := 0 } := by cases acked <;> rw [← hv] <;> rfl
    have hunchanged : Unchanged handed s v := by
      rw [← hv]
      exact .ite (writeLine_unchanged s _).widen ((writeLine_unchanged s _).widen.andThen (raise_unchanged _ _))
    have hstraps : (endSending x.tx.origin v).straps = s.straps :=
      (hunchanged.andThen (endSending_unchanged x.tx.origin v)) .straps (by decide)
    have hown (seq : BitVec 8) : ownPerf (endSending x.tx.origin v) seq = { station := s.straps.station, seq := seq } := by
      rw [ownPerf, hstraps]
    have hjoined {b : NodeBeacon} {q : List TxFrame} (h : Joined v { frame := .presence b, origin := .beacon } v.line.queue q) :
        Joined s { frame := .presence b, origin := .beacon } s.line.queue q := by
      have hident (f : Frame) : txIdent v f = txIdent s f := txIdent_congr (hunchanged .straps (by decide)) f
      simpa only [Joined, hident, hline] using h
    refine ⟨endSending x.tx.origin v, (act_of_powered _ hp).trans (by rw [completeFrame_of acked hsending, hv]),
      by rw [endSending_line, hline]; rfl, by rw [endSending_line, hline]; rfl, by rw [endSending_line, hline]; rfl,
      fun haside => ?_, fun b haside hnone hroom => ?_, fun b pre old post haside hqueue hold hothers => ?_, fun hack => ?_,
      fun hack => ?_, hunchanged.andThen (endSending_unchanged x.tx.origin v), fun pr b hframe => ?_, fun pr b hframe => ?_,
      fun seq r hframe => ?_, fun seq base items hframe => ?_, deliverOwn_quiet _⟩
    · rw [endSending_queue_none _ (by rw [hline]; exact haside), hline]
    · exact hjoined (endSending_queue_joined _ (by rw [hline]; exact haside) (by rw [hline]; exact hnone)
        (by rw [hline]; exact hroom))
    · exact endSending_queue_replaced _ (by rw [hline]; exact haside) (by rw [hline]; exact hqueue) hold hothers
    · rw [Raised, endSending_readCounter _ _ (by decide) (by decide), ← hv, hack]
      exact raise_raised .noAck _
    · rw [endSending_readCounter _ _ (by decide) (by decide), ← hv, hack]
      rfl
    all_goals simp only [deliverOwn, hframe, hown]

/-! ### Transmission and receive errors -/

section
variable {s : State} {x : Sending}

theorem abandonFrame_of (hsending : s.line.sending = some x) : abandonFrame s = faultCheck (endSending x.tx.origin
    (frameLost x.tx (raise .txError { s with line := { s.line with txErrors := s.line.txErrors + 1 } }))) := by
  rw [abandonFrame, hsending]

theorem faultCheck_line (s : State) : (faultCheck s).line = { s.line with faultAt := (faultCheck s).line.faultAt } := by
  unfold faultCheck
  split
  · rw [assertCond_unchanged _ _ .line (by decide)]
  · rfl

theorem faultCheck_begins (hmany : 16 ≤ s.line.txErrors) (hnone : s.line.faultAt = none) :
    (faultCheck s).line.faultAt = some s.time.count ∧ hasCondition (faultCheck s).silence.conds .lineFault = true := by
  rw [faultCheck, if_pos ⟨hmany, hnone⟩]
  refine ⟨by rw [assertCond_unchanged _ _ .line (by decide)], ?_⟩
  rw [assertCond_has]
  rfl

theorem faultCheck_few (hfew : s.line.txErrors < 16) : faultCheck s = s := if_neg fun h => Nat.not_lt.mpr h.1 hfew

/-- The performance of a slot after a frame has left the transmit queue. -/
theorem frameGone_slot (o : Origin) (s : State) (k : Fin 4) : (frameGone o s).conductor.slots[k] =
    s.conductor.slots[k].change fun p => { p with chance := true } := by
  have hconductor : (frameGone o s).conductor = { s.conductor with
      slots := Vector.ofFn fun k : Fin 4 => s.conductor.slots[k].change fun p => { p with chance := true } } := by
    unfold frameGone
    dsimp only
    split
    · exact partOut_unchanged _ .conductor (by decide)
    · rfl
  exact (congrArg (fun c : Conductor => c.slots[k]) hconductor).trans (by simp)

theorem receiveFailure_eq (s : State) (hfew : (recentErrors s).length < 8) : receiveFailure s = raise .rxError { s with
    line := { s.line with errors := recentErrors s ++ [s.time.count], ackDriven := false } } := by
  refine if_neg fun hmany => ?_
  have hlength : 8 < (recentErrors s ++ [s.time.count]).length := hmany
  rw [List.length_append, List.length_singleton] at hlength
  omega

theorem receiveFailure_asserts (s : State) (hmany : 8 ≤ (recentErrors s).length) : receiveFailure s =
    assertCond .checkErrors (raise .rxError { s with
      line := { s.line with errors := recentErrors s ++ [s.time.count], ackDriven := false } }) := by
  refine if_pos ?_
  have hlength : 8 < (recentErrors s ++ [s.time.count]).length := by
    rw [List.length_append, List.length_singleton]
    omega
  exact hlength

/-- A receive error: counted, remembered, not acknowledged; silence changes with CHECK_ERRORS alone. -/
theorem receiveFailure_kept (s : State) : (receiveFailure s).counters = (raise .rxError s).counters ∧
    (receiveFailure s).line = { s.line with errors := recentErrors s ++ [s.time.count], ackDriven := false } := by
  by_cases hfew : (recentErrors s).length < 8
  · rw [receiveFailure_eq s hfew]
    exact ⟨rfl, rfl⟩
  · rw [receiveFailure_asserts s (Nat.le_of_not_lt hfew), assertCond_unchanged _ _ .line (by decide),
      assertCond_unchanged _ _ .counters (by decide)]
    exact ⟨rfl, rfl⟩

end

/-- Settles O16. -/
theorem lineErrors : Obligations.LineErrors := by
  refine ⟨fun x s hp hsending => ⟨_, (act_of_powered abandonFrame hp).trans (congrArg _ (abandonFrame_of hsending)), ?_⟩,
    fun s hp => ⟨_, act_of_powered receiveFailure hp, ?_⟩, fun ident p s hp hkind => ⟨_, act_of_powered _ hp, ?_⟩,
    fun ident p s hp hkind hgood => ?_⟩
  · generalize hv : raise .txError { s with line := { s.line with txErrors := s.line.txErrors + 1 } } = v
    generalize hw : endSending x.tx.origin (frameLost x.tx v) = w
    have hvline : v.line = { s.line with txErrors := s.line.txErrors + 1 } := by rw [← hv]; rfl
    have hwline : w.line = { lineIdle v.line with queue := w.line.queue } := by
      rw [← hw, endSending_line, frameLost_line]
    have hvunchanged : Unchanged [.line, .conductor, .counters, .service, .silence, .trace] s v := by
      rw [← hv]
      exact (writeLine_unchanged s _).widen.andThen (raise_unchanged _ _)
    have hunchanged : Unchanged [.line, .conductor, .counters, .service] v w := by
      rw [← hw]
      exact (frameLost_unchanged _ _).widen.andThen (endSending_unchanged _ _)
    have hfault := faultCheck_unchanged w
    have hcounters : (faultCheck w).counters = w.counters := hfault .counters (by decide)
    have hconductor : (faultCheck w).conductor = w.conductor := hfault .conductor (by decide)
    have hsilence : w.silence = s.silence := (hunchanged .silence (by decide)).trans (by rw [← hv]; rfl)
    have htime : w.time = s.time := (hunchanged .time (by decide)).trans (hvunchanged .time (by decide))
    have herrors : w.line.txErrors = s.line.txErrors + 1 := by rw [hwline, hvline]; rfl
    have hfaultAt : w.line.faultAt = s.line.faultAt := by rw [hwline, hvline]; rfl
    refine ⟨by rw [faultCheck_line, hwline]; rfl, by rw [faultCheck_line]; exact herrors, ?_, fun k seq base items hx haside => ?_,
      fun k p pr b hx haside hslot hphase hseq => ?_, fun hnone hmany => ?_, fun hfew => ?_,
      (hvunchanged.andThen hunchanged).andThen hfault⟩
    · rw [Raised, readCounter_of_same hcounters, ← hw, endSending_readCounter _ _ (by decide) (by decide),
        frameLost_readCounter _ _ (by decide), ← hv]
      exact raise_raised .txError _
    · have hlost : frameLost x.tx v = raise .ordersLost (updPerf k (orderLost seq) v) := by rw [hx]; rfl
      have haside2 : (frameLost x.tx v).line.setAside = none := by rw [frameLost_line, hvline]; exact haside
      rw [Raised, readCounter_of_same hcounters, ← hw, endSending_none _ haside2, frameGone_readCounter, hlost]
      refine (raise_raised .ordersLost (updPerf k (orderLost seq) v)).trans ?_
      have hcount : readCounter (updPerf k (orderLost seq) v) .ordersLost = readCounter s .ordersLost := by
        rw [← hv]
        exact readCounter_raise_other (s := { s with line := { s.line with txErrors := s.line.txErrors + 1 } }) (by decide)
      rw [hcount]
    · have hvslot : v.conductor.slots[k] = .active p := by rw [← hv]; exact hslot
      have hlost : frameLost x.tx v = updPerf k (claimLost b.seq) v := by rw [hx]; rfl
      have haside2 : (frameLost x.tx v).line.setAside = none := by rw [frameLost_line, hvline]; exact haside
      refine ⟨{ p with phase := .preroll, chance := true }, ?_, rfl, rfl⟩
      refine (congrArg (fun c : Conductor => c.slots[k]) hconductor).trans ?_
      subst hw
      rw [endSending_none _ haside2]
      refine (frameGone_slot _ _ k).trans ?_
      rw [hlost]
      have hupd : (updPerf k (claimLost b.seq) v).conductor.slots[k] = (v.conductor.slots[k]).change (claimLost b.seq) := by
        simp [updPerf, setSlot]
      have hline : ({ updPerf k (claimLost b.seq) v with line := lineIdle (updPerf k (claimLost b.seq) v).line } :
          State).conductor.slots[k] = (updPerf k (claimLost b.seq) v).conductor.slots[k] := rfl
      rw [hline, hupd, hvslot]
      simp only [Slot.change, claimLost, hphase, hseq, and_self, ↓reduceIte]
    · obtain ⟨hbegins, hset⟩ := faultCheck_begins (s := w) (by omega) (by rw [hfaultAt, hnone])
      rw [← htime]
      exact ⟨hbegins, hset⟩
    · rw [faultCheck_few (by omega)]
      exact ⟨hfaultAt, hsilence⟩
  · obtain ⟨hcounters, hline⟩ := receiveFailure_kept s
    refine ⟨?_, hline, fun hmany => ?_, fun hfew => ?_, receiveFailure_unchanged s⟩
    · rw [Raised, readCounter_of_same hcounters]
      exact raise_raised .rxError s
    · rw [receiveFailure_asserts s hmany, assertCond_has]
      rfl
    · rw [receiveFailure_eq s hfew]
      rfl
  · rw [hearUnknown, if_neg (by simp [hkind])]
    exact ⟨raise_raised .rxUnknown (acknowledge s), fun c hc => readCounter_raise_other hc, rfl,
      (acknowledge_unchanged s).widen.andThen (raise_unchanged _ _)⟩
  · refine (act_of_powered _ hp).trans ?_
    rw [hearUnknown, if_pos hgood, if_pos hkind]
    rfl

end Sys2Proof.Machine
end

