-- ==== Sys2Proof/Proofs/PresenceRules.lean ====
section
/-! The lock state and the choice of reference taken, the end of the listen period, what a PRESENCE holds (R70, R80, R96). -/

namespace Sys2Proof.Machine

-- One proof after another: many at once would ask for more threads than the memory limit allows.
set_option Elab.async false

section
variable {s : State}

theorem setLock_time (l : LockState) (s : State) : (setLock l s).time = { s.time with lock := l } := by
  simp only [setLock]
  split
  · exact assertCond_unchanged _ _ .time (by decide)
  · exact clearCond_unchanged _ _ .time (by decide)

theorem setLock_unlocked (l : LockState) (s : State) :
    hasCondition (setLock l s).silence.conds .timeUnlocked = decide (l = .acquiring) := by
  simp only [setLock]
  split
  next hacquiring => rw [assertCond_has, decide_eq_true hacquiring]; rfl
  next hother => rw [clearCond_has, decide_eq_false hother]; rfl

theorem adoptChoice_time (c : Fin 16) (s : State) : (adoptChoice c s).time = { s.time with
    reference := some c, lock := lockForChoice s s.time.lock c, close := 0, beaconBase := none } := setLock_time _ _

/-- The choice hangs on the peers, the node's validity, and on whether the node is SOURCED. -/
theorem chooseReference_congr {t : State} (hstation : t.straps.station = s.straps.station) (hpeers : t.peers = s.peers)
    (hvalidity : t.time.validity = s.time.validity) (hlock : t.time.lock = .sourced ↔ s.time.lock = .sourced) :
    chooseReference t = chooseReference s := by
  have htest (test : Validity × LockState → Bool) (hown : test (t.time.validity, t.time.lock) = test (s.time.validity, s.time.lock)) :
      lowestCandidate t test = lowestCandidate s test := by
    rw [lowestCandidate_eq, lowestCandidate_eq]
    congr 1
    funext st
    rw [candidate, candidate, hstation, hpeers]
    split
    · exact hown
    · rfl
  simp only [chooseReference, hstation]
  rw [htest _ (by simp only [hlock]), htest _ (by simp only [hvalidity]), htest _ rfl]

theorem listenOver_of {c : LocalCount} (hc : s.listen = some c) (h : 6000 ≤ ticksSince s.time.count c) :
    listenOver s = true := by
  simp only [listenOver, hc, Config.listenTicks]
  exact decide_eq_true h

theorem beaconDue_of (hlisten : s.listen = none) (h : 2000 ≤ s.line.beaconTimer) : beaconDue s = true := by
  rw [beaconDue, hlisten]
  exact decide_eq_true h

/-! ### Flags as a number -/

/-- The number whose bits the first n flags are. -/
def flagSum (b : Nat → Bool) (n : Nat) : Nat := (List.range n).foldl (fun a k => if b k then a + 2 ^ k else a) 0

theorem flagSum_succ (b : Nat → Bool) (n : Nat) : flagSum b (n + 1) = if b n then flagSum b n + 2 ^ n else flagSum b n := by
  rw [flagSum, List.range_succ, List.foldl_append]
  rfl

theorem flagSum_testBit (b : Nat → Bool) (n : Nat) : flagSum b n < 2 ^ n ∧ ∀ k < n, (flagSum b n).testBit k = b k := by
  induction n with
  | zero => exact ⟨Nat.zero_lt_one, fun k hk => absurd hk (Nat.not_lt_zero k)⟩
  | succ n ih =>
    obtain ⟨hlt, hbits⟩ := ih
    rw [flagSum_succ]
    split
    next hn =>
      refine ⟨by rw [pow_succ]; omega, fun k hk => ?_⟩
      rw [Nat.add_comm]
      obtain hk | rfl := Nat.lt_succ_iff_lt_or_eq.mp hk
      · rw [Nat.testBit_two_pow_add_gt hk, hbits k hk]
      · rw [Nat.testBit_two_pow_add_eq, Nat.testBit_lt_two_pow hlt, hn]
        rfl
    next hn =>
      refine ⟨hlt.trans (Nat.pow_lt_pow_right (by decide) (Nat.lt_succ_self n)), fun k hk => ?_⟩
      obtain hk | rfl := Nat.lt_succ_iff_lt_or_eq.mp hk
      · exact hbits k hk
      · rw [Nat.testBit_lt_two_pow hlt]
        simpa using hn

/-- Channel k is RUN, for any number k. -/
def runFlag (s : State) (k : Nat) : Bool := if h : k < 8 then decide (channelState s ⟨k, h⟩ = .run) else false

theorem playableMask_eq (s : State) : playableMask s = BitVec.ofNat 8 (flagSum (runFlag s) 8) := by
  simp [playableMask, flagSum, allChannels, runFlag, List.range, List.range.loop]

theorem playableMask_getLsbD (s : State) (k : Fin 8) :
    (playableMask s).getLsbD k.val = decide (channelState s k = .run) := by
  rw [playableMask_eq, BitVec.getLsbD_ofNat, decide_eq_true k.isLt, Bool.true_and, (flagSum_testBit _ 8).2 k.val k.isLt,
    runFlag, dif_pos k.isLt]

theorem lockForChoice_own (s : State) (before : LockState) : lockForChoice s before s.straps.station =
    if before = .sourced then .sourced else .reference := by
  cases before <;> simp [lockForChoice]

theorem lockForChoice_other {choice : Fin 16} (h : choice ≠ s.straps.station) :
    lockForChoice s .reference choice = (if s.time.validity = .set then .locked else .acquiring) ∧
    lockForChoice s .acquiring choice = .acquiring ∧ lockForChoice s .locked choice = .locked ∧
    lockForChoice s .sourced choice = .sourced := by
  simp [lockForChoice, h]

end

/-- Settles O18. -/
theorem presenceBuiltAndListenEnd : Obligations.PresenceBuiltAndListenEnd := by
  refine ⟨fun c s hp hlisten hover => ?_, fun s hp hlisten hover => ⟨_, act_due (f := buildDuePresence) hp
    (beaconDue_of hlisten hover), rfl⟩, fun s hsending hnone hroom => ?_, playableMask_getLsbD,
    fun s choice => ⟨fun before hown => hown ▸ lockForChoice_own s before, lockForChoice_other⟩⟩
  · have hchoice : chooseReference { s with listen := none, line := { s.line with beaconTimer := 0 } } = chooseReference s :=
      chooseReference_congr rfl rfl rfl Iff.rfl
    have hu := adoptChoice_unchanged (chooseReference s) { s with listen := none, line := { s.line with beaconTimer := 0 } }
    refine ⟨adoptChoice (chooseReference s) { s with listen := none, line := { s.line with beaconTimer := 0 } },
      (act_due (f := endListen) hp (listenOver_of hlisten hover)).trans ?_, hu .listen (by decide), hu .line (by decide),
      adoptChoice_time _ _, ?_, ?_⟩
    · rw [endListen, hchoice]
    · rw [adoptChoice_time]
      exact setLock_unlocked _ _
    · refine Unchanged.andThen (ps := [.listen, .line, .time, .silence, .trace]) (fun p hp => ?_) hu
      cases p <;> first | exact absurd (by decide) hp | rfl
  · obtain ⟨-, hjoined, hunchanged⟩ := handFrame_joined { frame := .presence (ownBeacon s), origin := .beacon } hroom
    rw [buildPresence, handBeacon_fresh (ownBeacon s) hsending hnone]
    exact ⟨hunchanged, hjoined⟩

end Sys2Proof.Machine
end

