-- ==== Sys2Proof/Proofs/LocalTick.lean ====
section
/-! What a local tick does to each part of the state (R25, R30, R65, R66, R96, R136, R160). -/

namespace Sys2Proof.Machine

-- One proof after another: many at once would ask for more threads than the memory limit allows.
set_option Elab.async false

section
variable {s t : State}

/-! ### Bank, hammers and beacons of a tick -/

theorem chargerEnable_iff (s : State) : chargerEnable s = true ↔
    (s.drive.mode = .charging ∨ s.drive.mode = .ready) ∧ s.pins.chargerFault = false := by
  rw [chargerEnable, Bool.and_eq_true, bankUp_iff, Bool.not_eq_true']

theorem holderTouches_iff (s : State) : holderTouches s = false ↔ ∀ x, s.floor.holder = some x → touches s x.mask = false := by
  rw [holderTouches]
  cases s.floor.holder <;> simp

theorem idleRuns_iff (s : State) : idleRuns s = true ↔ (s.drive.mode = .charging ∨ s.drive.mode = .ready) ∧ s.queue = [] ∧
    ∀ x, s.floor.holder = some x → touches s x.mask = false := by
  rw [idleRuns, Bool.and_eq_true, Bool.and_eq_true, bankUp_iff, List.isEmpty_iff, Bool.not_eq_true', holderTouches_iff, and_assoc]

/-- A bell of the mask within the node's range is one of a present channel: bells end at 64. -/
theorem touches_iff (s : State) (mask : BellMask) : touches s mask = true ↔
    ∃ k : Fin 8, k.val ≤ s.straps.channelCount.toNat ∧ maskHas mask (s.straps.bellBase.toNat + 1 + k.val) = true := by
  rw [touches, List.any_eq_true]
  constructor
  · rintro ⟨k, -, hk⟩
    obtain ⟨hpresent, hmask⟩ := Bool.and_eq_true_iff.mp hk
    refine ⟨k, ?_, hmask⟩
    have hlt := of_decide_eq_true hpresent
    unfold presentCount at hlt
    omega
  · rintro ⟨k, hcount, hmask⟩
    refine ⟨k, allChannels_complete k, Bool.and_eq_true_iff.mpr ⟨decide_eq_true ?_, hmask⟩⟩
    have hbit := BitVec.lt_of_getLsbD hmask
    unfold presentCount bellBase
    omega

theorem becomesHeld_iff (s : State) (e : Entry) : becomesHeld s e = true ↔ reached s.time.tower e.launch = true ∧
    channelState s e.channel = .run ∧ isClear s e.channel = false := by
  rw [becomesHeld, Bool.and_eq_true, Bool.and_eq_true, decide_eq_true_iff, Bool.not_eq_true', launchReached, and_assoc]

theorem bellOf_congr (h : t.straps = s.straps) (k : Fin 8) : bellOf t k = bellOf s k := by
  rw [bellOf, bellOf, bellBase, bellBase, h]

theorem touches_congr (h : t.straps = s.straps) (mask : BellMask) : touches t mask = touches s mask := by
  simp only [touches, isPresent_congr h, bellOf_congr h]

theorem channelState_congr (hstraps : t.straps = s.straps) (hchannels : t.channels = s.channels) (hhalted : t.halted = s.halted)
    (k : Fin 8) : channelState t k = channelState s k := by
  rw [channelState, channelState, isPresent_congr hstraps, hchannels, hhalted]

theorem isClear_congr (htime : t.time = s.time) (hchannels : t.channels = s.channels) (k : Fin 8) :
    isClear t k = isClear s k := by
  rw [isClear, isClear, htime, hchannels]

/-- Whether an entry becomes held hangs on the straps, tower time, the channels and the halted set. -/
theorem becomesHeld_congr (h : Unchanged ps s t) (e : Entry) (hstraps : Part.straps ∉ ps := by decide)
    (htime : Part.time ∉ ps := by decide) (hchannels : Part.channels ∉ ps := by decide)
    (hhalted : Part.halted ∉ ps := by decide) : becomesHeld t e = becomesHeld s e := by
  have h1 : t.straps = s.straps := h .straps hstraps
  have h2 : t.time = s.time := h .time htime
  have h3 : t.channels = s.channels := h .channels hchannels
  have h4 : t.halted = s.halted := h .halted hhalted
  have hreached : launchReached t e = launchReached s e := by rw [launchReached, launchReached, h2]
  rw [becomesHeld, becomesHeld, hreached, channelState_congr h1 h3 h4, isClear_congr h2 h3]

/-! ### The parts of a tick -/

/-- The state after the charge of a tick. -/
def charged (b : Bool) (s : State) : State := chargeTick (tickTime { s with pins := { s.pins with feedback := b } })

theorem localTick_eq (b : Bool) (s : State) :
    localTick b s = forgetErrors (markHeld (tickBeacon (tickSlots (holdTick (idleTick (charged b s)))))) := rfl

theorem charged_unchanged (b : Bool) (s : State) : Unchanged [.pins, .time, .calendar, .drive] s (charged b s) :=
  (Unchanged.andThen (ps := [.pins, .time, .calendar, .drive]) (fun p hp => by cases p <;> first | rfl | simp at hp)
    (tickTime_unchanged { s with pins := { s.pins with feedback := b } })).andThen (chargeTick_unchanged _)

theorem charged_drive (b : Bool) (s : State) : (charged b s).drive =
    if chargerEnable s = true ∧ b = true then
      { mode := if s.settings.readyLevel ≤ min 60000 (s.drive.level + s.settings.recharge) then .ready else .charging
        level := min 60000 (s.drive.level + s.settings.recharge), idle := s.drive.idle }
    else s.drive := by
  have henable : chargerEnable (tickTime { s with pins := { s.pins with feedback := b } }) = chargerEnable s := rfl
  have hfeedback : (tickTime { s with pins := { s.pins with feedback := b } }).pins.feedback = b := rfl
  rw [charged, chargeTick, henable, hfeedback]
  split
  next hcharge =>
    obtain hmode | hmode := ((chargerEnable_iff s).mp hcharge.1).1 <;>
      simp [bankSync, driveFor, tickTime, hmode, Config.bankFull]
  · rfl

theorem charged_bankUp (b : Bool) (s : State) : bankUp (charged b s).drive.mode = bankUp s.drive.mode := by
  rw [charged_drive]
  split
  next hcharge =>
    rw [bankUp_iff.mpr ((chargerEnable_iff s).mp hcharge.1).1, bankUp_iff]
    dsimp only
    split
    · exact .inr rfl
    · exact .inl rfl
  · rfl

theorem charged_idleRuns (b : Bool) (s : State) : idleRuns (charged b s) = idleRuns s := by
  have hu := charged_unchanged b s
  have hqueue : (charged b s).queue = s.queue := hu .queue (by decide)
  have hfloor : (charged b s).floor = s.floor := hu .floor (by decide)
  have hstraps : (charged b s).straps = s.straps := hu .straps (by decide)
  have htouches : holderTouches (charged b s) = holderTouches s := by
    rw [holderTouches, holderTouches, hfloor]
    simp only [touches_congr hstraps]
  rw [idleRuns, idleRuns, charged_bankUp, hqueue, htouches]

theorem afterIdle_unchanged (u : State) : Unchanged [.silence, .conductor, .line, .queue] u
    (forgetErrors (markHeld (tickBeacon (tickSlots (holdTick u))))) :=
  ((((holdTick_unchanged u).widen.andThen (tickSlots_unchanged _)).andThen (tickBeacon_unchanged _)).andThen
    (markHeld_unchanged _)).andThen (forgetErrors_unchanged _)

theorem localTick_drive (b : Bool) (s : State) : (localTick b s).drive =
    { (charged b s).drive with idle := if idleRuns s then (s.drive.idle + 1) % 4294967296 else 0 } := by
  have hidle : (charged b s).drive.idle = s.drive.idle := by
    rw [charged_drive]
    split <;> rfl
  rw [localTick_eq, afterIdle_unchanged _ .drive (by decide), idleTick, charged_idleRuns, hidle]
  rfl

theorem localTick_hold (b : Bool) (s : State) : (localTick b s).silence = { s.silence with
    hold := (if s.silence.state = .holding then (s.silence.hold + 1) % 4294967296 else s.silence.hold) } := by
  have hbefore : (idleTick (charged b s)).silence = s.silence :=
    ((charged_unchanged b s).widen.andThen (idleTick_unchanged _) : Unchanged [.pins, .time, .calendar, .drive] s _)
      .silence (by decide)
  have hafter (u : State) : Unchanged [.conductor, .line, .queue] u (forgetErrors (markHeld (tickBeacon (tickSlots u)))) :=
    (((tickSlots_unchanged u).widen.andThen (tickBeacon_unchanged _)).andThen (markHeld_unchanged _)).andThen
      (forgetErrors_unchanged _)
  rw [localTick_eq, hafter _ .silence (by decide), holdTick, hbefore]
  split
  · rfl
  · rw [hbefore]

theorem localTick_line (b : Bool) (s : State) : (localTick b s).line = { s.line with
    beaconTimer := (if s.listen.isSome then s.line.beaconTimer else (s.line.beaconTimer + 1) % 4294967296)
    errors := s.line.errors.filter fun c => decide (ticksSince (localTick b s).time.count c ≤ 4000) } := by
  generalize hu : tickSlots (holdTick (idleTick (charged b s))) = u
  have hunchanged : Unchanged [.pins, .time, .calendar, .drive, .silence, .conductor] s u := by
    rw [← hu]
    exact (((charged_unchanged b s).widen.andThen (idleTick_unchanged _)).andThen (holdTick_unchanged _)).andThen
      (tickSlots_unchanged _)
  have hline : u.line = s.line := hunchanged .line (by decide)
  have hlisten : u.listen = s.listen := hunchanged .listen (by decide)
  have hbeacon : (tickBeacon u).line = { s.line with
      beaconTimer := if s.listen.isSome then s.line.beaconTimer else (s.line.beaconTimer + 1) % 4294967296 } := by
    rw [tickBeacon, hlisten, ← hline]
    cases s.listen <;> rfl
  have htime : (localTick b s).time = (tickBeacon u).time := by
    rw [localTick_eq, hu, forgetErrors_unchanged _ .time (by decide), markHeld_unchanged _ .time (by decide)]
  have hmarked : (markHeld (tickBeacon u)).line = (tickBeacon u).line := markHeld_unchanged _ .line (by decide)
  have hmarkedTime : (markHeld (tickBeacon u)).time = (tickBeacon u).time := markHeld_unchanged _ .time (by decide)
  rw [htime, localTick_eq, hu]
  simp only [forgetErrors, recentErrors, hmarked, hmarkedTime, hbeacon, Config.errorWindow]

theorem localTick_entries (b : Bool) (s : State) : (localTick b s).queue =
    s.queue.map fun e => if becomesHeld (localTick b s) e then { e with held := true } else e := by
  generalize hu : tickBeacon (tickSlots (holdTick (idleTick (charged b s)))) = u
  have hqueue : u.queue = s.queue := by
    rw [← hu]
    exact (((((charged_unchanged b s).widen.andThen (idleTick_unchanged _)).andThen (holdTick_unchanged _)).andThen
      (tickSlots_unchanged _)).andThen (tickBeacon_unchanged _) :
      Unchanged [.pins, .time, .calendar, .drive, .silence, .conductor, .line] s _) .queue (by decide)
  have hlater : Unchanged [.queue, .line] u (localTick b s) := by
    rw [localTick_eq, hu]
    exact (markHeld_unchanged u).widen.andThen (forgetErrors_unchanged _)
  have hheld : becomesHeld (localTick b s) = becomesHeld u := funext fun e => becomesHeld_congr hlater e
  rw [hheld, localTick_eq, hu, forgetErrors_unchanged _ .queue (by decide), markHeld, hqueue]

/-! ### The whole minute whose pre-roll point a tick reaches -/

theorem eq_singleton_of_filter {α : Type} {l : List α} {p : α → Bool} {a : α}
    (hl : l.Pairwise fun x y => ¬(p x = true ∧ p y = true)) (ha : a ∈ l.filter p) : l.filter p = [a] := by
  have hpair := hl.filter p
  have hall : ∀ x ∈ l.filter p, p x = true := fun x hx => (List.mem_filter.mp hx).2
  generalize l.filter p = r at *
  match r with
  | [] => cases ha
  | [x] => rw [List.mem_singleton.mp ha]
  | x :: y :: r =>
    exact absurd ⟨hall x (by simp), hall y (by simp)⟩ ((List.pairwise_cons.mp hpair).1 y (by simp))

/-- Two ticks of one advance never both reach a whole minute. -/
theorem pointsReached_single {n : Nat} (hn : n ≤ 3) {m at_ : Nat} (hm : m ∈ pointsReached s at_ n) :
    pointsReached s at_ n = [m] := by
  refine eq_singleton_of_filter ?_ hm
  refine List.pairwise_map.mpr (List.Pairwise.imp_of_mem ?_ List.pairwise_lt_range)
  intro i j hi hj hij hboth
  have hj := List.mem_range.mp hj
  have hi := of_decide_eq_true hboth.1
  have hj2 := of_decide_eq_true hboth.2
  simp only [plus, Config.minute, Config.week] at hi hj2
  omega

theorem localTick_calendar (b : Bool) (s : State) : (localTick b s).calendar =
    (pointsReached s s.time.tower (advance s.time (s.time.count + 1))).foldl (fun c m => reachPoint m c) s.calendar := by
  rw [localTick_eq, afterIdle_unchanged _ .calendar (by decide), idleTick_unchanged _ .calendar (by decide), charged,
    chargeTick_unchanged _ .calendar (by decide)]
  rfl

theorem reachPoint_new {m : Nat} {c : Calendar} (h : m ∉ c.settled) : reachPoint m c = { c with
    due := c.due ++ [m], decided := m :: c.decided.filter fun x => decide (x ≠ m) } := by
  have hkept : c.settled.filter (fun x => decide (x ≠ m)) = c.settled :=
    List.filter_eq_self.mpr fun x hx => decide_eq_true fun he => h (he ▸ hx)
  rw [reachPoint, if_neg h, markDecided, hkept]

theorem reachPoint_settled {m : Nat} {c : Calendar} (h : m ∈ c.settled) : reachPoint m c = { c with
    decided := m :: c.decided.filter fun x => decide (x ≠ m)
    settled := c.settled.filter fun x => decide (x ≠ m) } := if_pos h

theorem localTick_pins (b : Bool) (s : State) : (localTick b s).pins = { s.pins with feedback := b } := by
  rw [localTick_eq, afterIdle_unchanged _ .pins (by decide), idleTick_unchanged _ .pins (by decide), charged,
    chargeTick_unchanged _ .pins (by decide)]
  rfl

end

/-- Settles O7. -/
theorem localTickResult : Obligations.LocalTickResult := by
  refine ⟨fun b s hp => ⟨_, act_of_powered (localTick b) hp, localTick_time b s, localTick_pins b s, ?_, ?_, ?_,
    localTick_hold b s, fun k => ?_, ?_, localTick_line b s, localTick_entries b s, fun m hm => ⟨fun hnew => ?_, fun hold => ?_⟩,
    fun hnone => ?_, (localTick_unchanged s b).widen⟩, chargerEnable_iff, idleRuns_iff, touches_iff, becomesHeld_iff⟩
  · rw [localTick_drive, charged_drive]
    split <;> rfl
  · rw [localTick_drive, charged_drive]
    split <;> rfl
  · rw [localTick_drive]
  · refine (localTick_slots b s k).trans ?_
    cases s.conductor.slots[k] <;> rfl
  · rw [localTick_eq]
    exact ((((charged_unchanged b s).widen.andThen (idleTick_unchanged _)).andThen (holdTick_unchanged _) :
      Unchanged [.pins, .time, .calendar, .drive, .silence] s _) .conductor (by decide)) |> fun h => by
        rw [forgetErrors_unchanged _ .conductor (by decide), markHeld_unchanged _ .conductor (by decide),
          tickBeacon_unchanged _ .conductor (by decide), tickSlots, h]
  · rw [localTick_calendar, pointsReached_single (advance_eq _ _).2 hm]
    exact reachPoint_new hnew
  · rw [localTick_calendar, pointsReached_single (advance_eq _ _).2 hm]
    exact reachPoint_settled hold
  · rw [localTick_calendar, hnone]
    rfl

end Sys2Proof.Machine
end

