-- ==== Sys2Proof/Proofs/PeerRules.lean ====
section
/-! The choice of reference made again, and the peer table with the conflict flags that follow it (R5, R69, R95, R97, R98). -/

namespace Sys2Proof.Machine

-- One proof after another: many at once would ask for more threads than the memory limit allows.
set_option Elab.async false

section
variable {s t : State}

/-! ### The choice made again -/

theorem lockForChoice_sourced (s : State) (before : LockState) (c : Fin 16) :
    lockForChoice s before c = .sourced ↔ before = .sourced := by
  cases before
  case reference =>
    rw [lockForChoice]
    split
    · simp
    · split <;> simp
  all_goals
    rw [lockForChoice]
    try split
    all_goals simp

theorem rechoose_of_same (h : s.listen.isSome ∨ s.time.reference = some (chooseReference s)) : rechoose s = s := if_pos h

theorem rechoose_of_changed (hlisten : s.listen = none) (h : s.time.reference ≠ some (chooseReference s)) :
    rechoose s = adoptChoice (chooseReference s) s := if_neg fun hor => hor.elim (by simp [hlisten]) h

theorem rechoose_cases (s : State) : rechoose s = s ∨
    (s.listen = none ∧ s.time.reference ≠ some (chooseReference s) ∧ rechoose s = adoptChoice (chooseReference s) s) := by
  by_cases h : s.listen.isSome ∨ s.time.reference = some (chooseReference s)
  · exact .inl (rechoose_of_same h)
  · rw [not_or, Option.not_isSome_iff_eq_none] at h
    exact .inr ⟨h.1, h.2, rechoose_of_changed h.1 h.2⟩

/-- Making the choice does not change what the choice is. -/
theorem chooseReference_rechoose (s : State) : chooseReference (rechoose s) = chooseReference s := by
  obtain h | ⟨-, -, h⟩ := rechoose_cases s <;> rw [h]
  have hu := adoptChoice_unchanged (chooseReference s) s
  refine chooseReference_congr (by rw [hu .straps (by decide)]) (hu .peers (by decide)) ?_ ?_
  · rw [adoptChoice_time]
  · rw [adoptChoice_time]
    exact lockForChoice_sourced _ _ _

theorem rechoose_reference (hlisten : s.listen = none) : (rechoose s).time.reference = some (chooseReference (rechoose s)) := by
  rw [chooseReference_rechoose]
  by_cases h : s.time.reference = some (chooseReference s)
  · rw [rechoose_of_same (.inr h), h]
  · rw [rechoose_of_changed hlisten h, adoptChoice_time]

/-- What making the choice leaves of the clock. -/
theorem rechoose_time (s : State) : (rechoose s).time.tower = s.time.tower ∧ (rechoose s).time.validity = s.time.validity ∧
    (rechoose s).time.count = s.time.count ∧ (rechoose s).time.slew = s.time.slew ∧ (rechoose s).time.trim = s.time.trim ∧
    (rechoose s).time.stepAt = s.time.stepAt ∧ (rechoose s).time.lastMark = s.time.lastMark ∧
    (rechoose s).time.markBase = s.time.markBase := by
  obtain h | ⟨-, -, h⟩ := rechoose_cases s <;> rw [h]
  · exact ⟨rfl, rfl, rfl, rfl, rfl, rfl, rfl, rfl⟩
  · rw [adoptChoice_time]
    exact ⟨rfl, rfl, rfl, rfl, rfl, rfl, rfl, rfl⟩

/-! ### Conflict flags -/

theorem conflictOf_congr (hstraps : t.straps = s.straps) (hpeers : t.peers = s.peers) (k : Fin 8) :
    conflictOf t k = conflictOf s k := by
  simp only [conflictOf, isPresent_congr hstraps, bellOf_congr hstraps, hstraps, hpeers]

theorem conflictOf_iff (s : State) (k : Fin 8) : conflictOf s k = true ↔
    isPresent s k = true ∧ ∃ (st : Fin 16) (i : PeerInfo) (b : NodeBeacon), st < s.straps.station ∧ s.peers[st] = .live i ∧
      i.body = .node b ∧ b.bellBase.toNat + 1 ≤ bellOf s k ∧ bellOf s k ≤ b.bellBase.toNat + 1 + b.count.toNat := by
  rw [conflictOf, Bool.and_eq_true, List.any_eq_true]
  refine and_congr_right fun _ => ⟨?_, ?_⟩
  · rintro ⟨st, -, hst⟩
    obtain ⟨hlower, hannounced⟩ := Bool.and_eq_true_iff.mp hst
    split at hannounced
    next b hb =>
      obtain ⟨i, hlive, hbody⟩ := liveNode_eq_some_iff.mp hb
      exact ⟨st, i, b, of_decide_eq_true hlower, hlive, hbody, of_decide_eq_true hannounced⟩
    · cases hannounced
  · rintro ⟨st, i, b, hlower, hlive, hbody, hrange⟩
    refine ⟨st, allStations_complete st, Bool.and_eq_true_iff.mpr ⟨decide_eq_true hlower, ?_⟩⟩
    rw [liveNode_eq_some_iff.mpr ⟨i, hlive, hbody⟩]
    exact decide_eq_true hrange

theorem evalConflicts_channel (s : State) (k : Fin 8) :
    (evalConflicts s).channels[k] = { s.channels[k] with conflict := conflictOf s k } := by
  simp [evalConflicts]

/-- A record that has lapsed or gone: the flags of the table as it is, and the choice made again. -/
theorem peerChanged_result (p : Fin 16) (x : PeerRecord) (s : State) :
    (peerChanged (setPeer p x s)).peers = s.peers.set p x ∧
    (∀ k : Fin 8, (peerChanged (setPeer p x s)).channels[k] =
      { s.channels[k] with conflict := conflictOf (peerChanged (setPeer p x s)) k }) ∧
    (s.listen = none → (peerChanged (setPeer p x s)).time.reference = some (chooseReference (peerChanged (setPeer p x s)))) ∧
    Unchanged [.peers, .channels, .time, .silence, .trace] s (peerChanged (setPeer p x s)) := by
  have hu := peerChanged_unchanged (setPeer p x s)
  have hpeers : (peerChanged (setPeer p x s)).peers = s.peers.set p x := hu .peers (by decide)
  have hchannels : (peerChanged (setPeer p x s)).channels = (evalConflicts (setPeer p x s)).channels :=
    rechoose_unchanged _ .channels (by decide)
  refine ⟨hpeers, fun k => ?_, fun hlisten => rechoose_reference hlisten, (setPeer_unchanged p x s).widen.andThen hu⟩
  have hflag : conflictOf (peerChanged (setPeer p x s)) k = conflictOf (setPeer p x s) k :=
    conflictOf_congr (hu .straps (by decide)) (hu .peers (by decide)) k
  rw [hflag]
  exact (congrArg (fun v : Vector Channel 8 => v[k]) hchannels).trans (evalConflicts_channel _ k)

/-! ### A PRESENCE heard -/

/-- The record of a PRESENCE taken, with the flags it brings. -/
def recordedPeer (rx : Heard) (body : Beacon) (s : State) : State :=
  let s1 := setPeer rx.sender (.live { lastHeard := rx.stamp.count, body := body }) s
  if rx.sender < s.straps.station then evalConflicts s1 else s1

theorem takePresence_eq (rx : Heard) (body : Beacon) (s : State) : takePresence rx.sender rx.stamp body s =
    measurePeer rx.sender rx.stamp body (rechoose (recordedPeer rx body s)) := rfl

theorem recordedPeer_unchanged (rx : Heard) (body : Beacon) (s : State) :
    Unchanged [.peers, .channels] s (recordedPeer rx body s) :=
  .ite ((setPeer_unchanged _ _ s).widen.andThen (evalConflicts_unchanged _)) (setPeer_unchanged _ _ s).widen

theorem recordedPeer_peers (rx : Heard) (body : Beacon) (s : State) :
    (recordedPeer rx body s).peers = s.peers.set rx.sender (.live { lastHeard := rx.stamp.count, body := body }) := by
  simp only [recordedPeer]
  split <;> rfl

theorem recordedPeer_channel (rx : Heard) (body : Beacon) (s : State) (k : Fin 8) : (recordedPeer rx body s).channels[k] =
    { s.channels[k] with conflict :=
      if rx.sender < s.straps.station then conflictOf (recordedPeer rx body s) k else s.channels[k].conflict } := by
  have hflag : conflictOf (recordedPeer rx body s) k =
      conflictOf (setPeer rx.sender (.live { lastHeard := rx.stamp.count, body := body }) s) k :=
    conflictOf_congr (s := setPeer rx.sender (.live { lastHeard := rx.stamp.count, body := body }) s)
      (recordedPeer_unchanged rx body s .straps (by decide)) (recordedPeer_peers rx body s) k
  rw [hflag]
  unfold recordedPeer
  by_cases hlower : rx.sender < s.straps.station
  · simp only [if_pos hlower]
    exact evalConflicts_channel _ k
  · simp only [if_neg hlower]
    rfl

theorem takePresence_result (rx : Heard) (body : Beacon) (s : State) :
    (takePresence rx.sender rx.stamp body s).peers = s.peers.set rx.sender (.live { lastHeard := rx.stamp.count, body := body }) ∧
    ∀ k : Fin 8, (takePresence rx.sender rx.stamp body s).channels[k].conflict =
      if rx.sender < s.straps.station then conflictOf (takePresence rx.sender rx.stamp body s) k else s.channels[k].conflict := by
  have hmeasured := measurePeer_moves rx.sender rx.stamp body (rechoose (recordedPeer rx body s))
  have hchosen := rechoose_unchanged (recordedPeer rx body s)
  have hpeers : (takePresence rx.sender rx.stamp body s).peers = (recordedPeer rx body s).peers :=
    (hmeasured.detail .peers (by decide) : _ = _).trans (hchosen .peers (by decide))
  have hstraps : (takePresence rx.sender rx.stamp body s).straps = (recordedPeer rx body s).straps :=
    (hmeasured.detail .straps (by decide) : _ = _).trans (hchosen .straps (by decide))
  refine ⟨hpeers.trans (recordedPeer_peers rx body s), fun k => ?_⟩
  have hconflict : ∀ k : Fin 8, (takePresence rx.sender rx.stamp body s).channels[k].conflict =
      (rechoose (recordedPeer rx body s)).channels[k].conflict := hmeasured.detail .conflict (by decide)
  have hkept : (rechoose (recordedPeer rx body s)).channels = (recordedPeer rx body s).channels := hchosen .channels (by decide)
  rw [conflictOf_congr hstraps hpeers]
  refine (hconflict k).trans ?_
  exact (congrArg (fun v : Vector Channel 8 => v[k].conflict) hkept).trans
    (congrArg Channel.conflict (recordedPeer_channel rx body s k))

theorem lapsing_of {p : Fin 16} {i : PeerInfo} (hp : p ≠ s.straps.station) (hlive : s.peers[p] = .live i)
    (hage : 6000 ≤ ticksSince s.time.count i.lastHeard) : lapsing s p = some i := by
  rw [lapsing, hlive]
  exact if_pos ⟨hp, hage⟩

theorem vanishing_of {p : Fin 16} {i : PeerInfo} (hp : p ≠ s.straps.station)
    (hlive : s.peers[p] = .live i ∨ s.peers[p] = .lapsed i) (hage : 120000 ≤ ticksSince s.time.count i.lastHeard) :
    vanishing s p = true := by
  have hinfo : s.peers[p].info? = some i := by obtain h | h := hlive <;> rw [h] <;> rfl
  rw [vanishing, decide_eq_true hp, hinfo, Bool.true_and]
  simp only [Config.absenceTicks]
  exact decide_eq_true hage

end

/-- Settles O12. -/
theorem peerTableResult : Obligations.PeerTableResult := by
  refine ⟨fun rx body s hp => ⟨_, act_of_powered (hearPresence rx body) hp, fun hown => ?_, fun hother => ?_⟩,
    fun p i s hp hpeer => ⟨fun hlive hage => ?_, fun hlive hage => ?_⟩, conflictOf_iff⟩
  · rw [hearPresence, if_pos hown, heardClash]
    have hu := assertCond_unchanged .stationClash
      { acknowledge s with line := { (acknowledge s).line with clashAt := some (acknowledge s).time.count } }
    refine ⟨by rw [hu .line (by decide)]; rfl, by rw [assertCond_has]; rfl, ?_⟩
    exact Unchanged.andThen (t := { acknowledge s with
      line := { (acknowledge s).line with clashAt := some (acknowledge s).time.count } })
      (fun p hp => by cases p <;> first | rfl | simp at hp) hu
  · rw [hearPresence, if_neg hother]
    obtain ⟨hpeers, hconflicts⟩ := takePresence_result rx body (acknowledge s)
    exact ⟨hpeers, hconflicts, (acknowledge_unchanged s).widen.andThen (takePresence_unchanged _ _ _ _) fun _ hq => hq⟩
  · refine ⟨_, (act_of_powered (lapsePeer p) hp).trans ?_, peerChanged_result p (.lapsed i) s⟩
    rw [lapsePeer, lapsing_of hpeer hlive hage]
  · exact ⟨_, act_due (f := fun u => peerChanged (setPeer p .absent u)) (b := fun u => vanishing u p) hp
      (vanishing_of hpeer hlive hage), peerChanged_result p .absent s⟩

end Sys2Proof.Machine
end

