-- ==== Sys2Proof/Proofs/Dampers.lean ====
section
/-! The ends of pulse, flight and return, the lift and the drop of a damper, and the contact and fault inputs
(R10 to R19, R29, R32, R34, R35). -/

namespace Sys2Proof.Machine

-- One proof after another: many at once would ask for more threads than the memory limit allows.
set_option Elab.async false

section
variable {s t : State} {k j : Fin 8}

/-! ### What the rules of the dampers read -/

theorem mem_entriesOn {e : Entry} : e ∈ entriesOn s k ↔ e ∈ s.queue ∧ e.channel = k := by
  rw [entriesOn, List.mem_filter, beq_iff_eq]

theorem liftReached_iff (s : State) (k : Fin 8) : liftReached s k = true ↔
    ∃ e ∈ s.queue, e.channel = k ∧ ∃ l, e.lift = some l ∧ reached s.time.tower l = true := by
  rw [liftReached, List.any_eq_true]
  refine exists_congr fun e => ?_
  rw [mem_entriesOn, and_assoc]
  cases e.lift <;> simp

theorem dropSkipped_iff (s : State) (k : Fin 8) (at_ : Nat) : dropSkipped s k at_ = true ↔
    ∃ e ∈ s.queue, e.channel = k ∧ ∃ l, e.lift = some l ∧
      atOrBefore l (plus at_ s.channels[k].voicing.lead) = true := by
  rw [dropSkipped, List.any_eq_true]
  refine exists_congr fun e => ?_
  rw [mem_entriesOn, and_assoc]
  cases e.lift <;> simp

theorem entriesOn_ne_nil_of_liftReached (h : liftReached s k = true) : entriesOn s k ≠ [] := fun hnil => by
  rw [liftReached, hnil] at h
  cases h

theorem entriesOn_ne_nil_of_dropSkipped {at_ : Nat} (h : dropSkipped s k at_ = true) : entriesOn s k ≠ [] := fun hnil => by
  rw [dropSkipped, hnil] at h
  cases h

theorem liftReached_congr (hqueue : t.queue = s.queue) (htower : t.time.tower = s.time.tower) :
    liftReached t k = liftReached s k := by
  rw [liftReached, liftReached, entriesOn, entriesOn, hqueue, htower]

theorem Channel.atRest_iff (c : Channel) : c.atRest = true ↔ c.hammer = .rest := decide_eq_true_iff

theorem settled_iff (s : State) : settled s = true ↔ ∀ k : Fin 8, isPresent s k = true →
    s.channels[k].hammer = .rest ∧ s.channels[k].damperUp = false ∧ s.channels[k].drop = none := by
  rw [settled, List.all_eq_true]
  refine ⟨fun h k hk => ?_, fun h k _ => ?_⟩
  · have hone := h k (allChannels_complete k)
    rw [hk] at hone
    simpa [Channel.atRest_iff, and_assoc] using hone
  · cases hk : isPresent s k with
    | false => rfl
    | true => simpa [Channel.atRest_iff, and_assoc] using h k hk

/-! ### The drain's completion -/

theorem drainCheck_channels (s : State) : (drainCheck s).channels = s.channels := drainCheck_unchanged s .channels (by decide)

theorem drainCheck_of_not_draining (h : s.drive.mode ≠ .draining) : drainCheck s = s := if_neg fun hd => h hd.1

theorem drainCheck_of_not_settled (h : settled s = false) : drainCheck s = s := if_neg fun hd => by simp [h] at hd

/-- The completion is tested once: a second test finds nothing more to do. -/
theorem drainCheck_twice (s : State) : drainCheck (drainCheck s) = drainCheck s := by
  by_cases hdrain : s.drive.mode = .draining ∧ settled s = true
  · refine drainCheck_of_not_draining ?_
    rw [drainCheck, if_pos hdrain]
    nofun
  · have hkept : drainCheck s = s := if_neg hdrain
    rw [hkept, hkept]

/-! ### The lift (R15, R19) -/

/-- A channel's damper would lift now, were it DOWN. -/
def lifts (s : State) (k : Fin 8) : Bool :=
  isPresent s k && s.channels[k].voicing.damped && !s.pins.access && liftReached s k

theorem lifts_iff (s : State) (k : Fin 8) : lifts s k = true ↔ isPresent s k = true ∧
    s.channels[k].voicing.damped = true ∧ (!s.pins.access) = true ∧ liftReached s k = true := by
  rw [lifts, Bool.and_eq_true, Bool.and_eq_true, Bool.and_eq_true, and_assoc, and_assoc]

theorem updChannel_of_kept {f : Channel → Channel} (h : f s.channels[k] = s.channels[k]) : updChannel k f s = s := by
  rw [updChannel, h]
  exact congrArg (fun v => { s with channels := v }) (Vector.set_getElem_self k.isLt)

theorem tryLift_eq (k : Fin 8) (s : State) : tryLift k s =
    updChannel k (fun c => { c with damperUp := c.damperUp || lifts s k }) s := by
  unfold tryLift
  split
  next hlift =>
    obtain ⟨hpresent, hdamped, -, haccess, hreached⟩ := hlift
    simp only [(lifts_iff s k).mpr ⟨hpresent, hdamped, haccess, hreached⟩, Bool.or_true]
  next hno =>
    refine (updChannel_of_kept ?_).symm
    have hkept : (s.channels[k].damperUp || lifts s k) = s.channels[k].damperUp := by
      cases hup : s.channels[k].damperUp with
      | true => rfl
      | false =>
        refine Bool.eq_false_iff.mpr fun hl => ?_
        obtain ⟨hpresent, hdamped, haccess, hreached⟩ := (lifts_iff s k).mp hl
        exact hno ⟨hpresent, hdamped, by rw [hup]; rfl, haccess, hreached⟩
    rw [hkept]

theorem tryLift_channel (k : Fin 8) (s : State) (j : Fin 8) : (tryLift k s).channels[j] = { s.channels[j] with
    damperUp := s.channels[j].damperUp || (decide (j = k) && lifts s j) } := by
  rw [tryLift_eq, updChannel_channel]
  split
  next hj => simp [hj]
  next hj => simp [hj]

theorem lifts_congr (hstraps : t.straps = s.straps) (hpins : t.pins = s.pins) (hqueue : t.queue = s.queue)
    (htower : t.time.tower = s.time.tower) (hdamped : t.channels[k].voicing.damped = s.channels[k].voicing.damped) :
    lifts t k = lifts s k := by
  rw [lifts, lifts, isPresent_congr hstraps, hpins, hdamped, liftReached_congr hqueue htower]

theorem tryLift_lifts (k : Fin 8) (s : State) (j : Fin 8) : lifts (tryLift k s) j = lifts s j := by
  have hu := tryLift_unchanged k s
  refine lifts_congr (hu .straps (by decide)) (hu .pins (by decide)) (hu .queue (by decide)) ?_ ?_
  · rw [hu .time (by decide)]
  · rw [tryLift_channel]

theorem liftEach_channel (l : List (Fin 8)) (s : State) (j : Fin 8) :
    (l.foldl (fun t k => tryLift k t) s).channels[j] = { s.channels[j] with
      damperUp := s.channels[j].damperUp || (decide (j ∈ l) && lifts s j) } := by
  induction l generalizing s with
  | nil => simp
  | cons k l ih =>
    rw [List.foldl_cons, ih, tryLift_lifts, tryLift_channel]
    by_cases hj : j = k <;> cases lifts s j <;> simp [hj]

theorem liftAll_channel (s : State) (j : Fin 8) : (allChannels.foldl (fun t k => tryLift k t) s).channels[j] =
    { s.channels[j] with damperUp := s.channels[j].damperUp || lifts s j } := by
  rw [liftEach_channel, decide_eq_true (allChannels_complete j), Bool.true_and]

/-! ### The idle drop (R18) -/

/-- The damper is idle: UP with no drop pending, no entry and the hammer at REST. -/
def idles (s : State) (k : Fin 8) : Bool :=
  s.channels[k].voicing.damped && s.channels[k].drop.isNone && (entriesOn s k).isEmpty && s.channels[k].atRest

/-- The damper of an idle channel DOWN. -/
def idleDown (k : Fin 8) (s : State) : State :=
  updChannel k (fun c => { c with damperUp := c.damperUp && !idles s k }) s

theorem idleDown_of_kept (h : s.channels[k].damperUp = false ∨ idles s k = false) : idleDown k s = s := by
  refine updChannel_of_kept ?_
  have hsame : (s.channels[k].damperUp && !idles s k) = s.channels[k].damperUp := by
    obtain h | h := h <;> rw [h]
    · rfl
    · exact Bool.and_true _
  rw [hsame]

theorem idleDrop_iff (s : State) (k : Fin 8) : (s.channels[k].voicing.damped = true ∧ s.channels[k].damperUp = true ∧
    s.channels[k].drop = none ∧ entriesOn s k = [] ∧ s.channels[k].atRest = true) ↔
      s.channels[k].damperUp = true ∧ idles s k = true := by
  simp only [idles, Bool.and_eq_true, Option.isNone_iff_eq_none, List.isEmpty_iff]
  tauto

/-- The drain's completion is tested where the damper fell, and it may be tested again. -/
theorem idleDrop_eq (k : Fin 8) (s : State) : idleDrop k s =
    if s.channels[k].damperUp = true ∧ idles s k = true then drainCheck (idleDown k s) else s := by
  unfold idleDrop
  simp only [idleDrop_iff]
  split
  next h =>
    rw [idleDown, h.2]
    simp only [Bool.not_true, Bool.and_false]
  · rfl

theorem idleDrop_of_kept (h : s.channels[k].damperUp = false ∨ idles s k = false) : idleDrop k s = s := by
  rw [idleDrop_eq]
  refine if_neg fun ⟨hup, hidle⟩ => ?_
  obtain h | h := h
  · exact absurd (hup.symm.trans h) (by decide)
  · exact absurd (hidle.symm.trans h) (by decide)

theorem drainCheck_idleDrop (k : Fin 8) (s : State) : drainCheck (idleDrop k s) = drainCheck (idleDown k s) := by
  rw [idleDrop_eq]
  split
  · rw [drainCheck_twice]
  next h =>
    refine congrArg drainCheck (idleDown_of_kept ?_).symm
    obtain h | h := not_and_or.mp h
    · exact .inl (Bool.eq_false_iff.mpr h)
    · exact .inr (Bool.eq_false_iff.mpr h)

theorem idleDown_channel (k : Fin 8) (s : State) (j : Fin 8) : (idleDown k s).channels[j] = { s.channels[j] with
    damperUp := s.channels[j].damperUp && !(decide (j = k) && idles s j) } := by
  rw [idleDown, updChannel_channel]
  split
  next hj => simp [hj]
  next hj => simp [hj]

/-! ### The hammer at REST (R12, R18, R32) -/

theorem hammerRests_eq (k : Fin 8) (s : State) : hammerRests k s =
    drainCheck (idleDown k (updChannel k (fun c => { c with hammer := .rest }) s)) := drainCheck_idleDrop _ _

theorem hammerRests_own (k : Fin 8) (s : State) : (hammerRests k s).channels[k] = { s.channels[k] with
    hammer := .rest
    damperUp := s.channels[k].damperUp && !(s.channels[k].voicing.damped && s.channels[k].drop.isNone &&
      (entriesOn s k).isEmpty) } := by
  have hrests : idles (updChannel k (fun c => { c with hammer := .rest }) s) k =
      (s.channels[k].voicing.damped && s.channels[k].drop.isNone && (entriesOn s k).isEmpty) := by
    rw [idles, updChannel_channel, if_pos rfl]
    exact Bool.and_true _
  rw [hammerRests_eq, drainCheck_channels, idleDown_channel, hrests, updChannel_channel, if_pos rfl]
  simp

theorem hammerRests_other (hj : j ≠ k) (s : State) : (hammerRests k s).channels[j] = s.channels[j] := by
  rw [hammerRests_eq, drainCheck_channels, idleDown_channel, updChannel_channel, if_neg hj]
  simp [hj]

theorem hammerRests_drive (k : Fin 8) (s : State) : (hammerRests k s).drive =
    if s.drive.mode = .draining ∧ settled (hammerRests k s) = true
      then { mode := .off, level := 0, idle := s.drive.idle } else s.drive := by
  rw [hammerRests_eq]
  exact drainCheck_drive _

/-! ### The drop (R17) -/

theorem dropDue_of {at_ : Nat} (hdamped : s.channels[k].voicing.damped = true) (hdrop : s.channels[k].drop = some at_)
    (hreached : reached s.time.tower at_ = true) : dropDue s k = some at_ := by
  simp only [dropDue, hdrop]
  exact if_pos ⟨hdamped, hreached⟩

/-- The damper at a drop time reached: it stays where the drop is skipped, and falls, to lift where a lift time is
reached, otherwise. -/
def dropped (k : Fin 8) (at_ : Nat) (s : State) : State :=
  updChannel k (fun c => { c with
    drop := none
    damperUp := if dropSkipped s k at_ then c.damperUp else lifts s k }) s

theorem updChannel_updChannel (k : Fin 8) (f g : Channel → Channel) (s : State) :
    updChannel k g (updChannel k f s) = updChannel k (fun c => g (f c)) s := by
  simp [updChannel]

theorem drainCheck_dropDamper {at_ : Nat} (hdue : dropDue s k = some at_) :
    drainCheck (dropDamper k s) = drainCheck (dropped k at_ s) := by
  simp only [dropDamper, hdue]
  split
  next hskip => simp only [dropped, hskip, if_true]
  next hfall =>
    rw [drainCheck_twice, tryLift_eq, updChannel_updChannel, dropped]
    have hl : lifts (updChannel k (fun c => { c with drop := none, damperUp := false }) s) k = lifts s k :=
      lifts_congr rfl rfl rfl rfl (by rw [updChannel_channel, if_pos rfl])
    simp only [hl, if_neg hfall, Bool.false_or]

/-- A damper that a drop leaves UP has an entry to wait for, so it is not idle. -/
theorem dropDamper_idles {at_ : Nat} (hdue : dropDue s k = some at_) :
    (dropDamper k s).channels[k].damperUp = false ∨ idles (dropDamper k s) k = false := by
  have hqueue : entriesOn (dropDamper k s) k = entriesOn s k := by
    rw [entriesOn, entriesOn, dropDamper_unchanged k s .queue (by decide)]
  have hnotIdle (h : entriesOn s k ≠ []) : idles (dropDamper k s) k = false := by
    simp [idles, hqueue, List.isEmpty_eq_false_iff.mpr h]
  cases hskip : dropSkipped s k at_ with
  | true => exact .inr (hnotIdle (entriesOn_ne_nil_of_dropSkipped hskip))
  | false =>
    cases hlift : liftReached s k with
    | true => exact .inr (hnotIdle (entriesOn_ne_nil_of_liftReached hlift))
    | false =>
      left
      have hchannels := congrArg State.channels (drainCheck_dropDamper hdue)
      rw [drainCheck_channels, drainCheck_channels] at hchannels
      rw [hchannels, dropped, updChannel_channel, if_pos rfl]
      simp [hskip, lifts, hlift]

theorem drop_eq {at_ : Nat} (hdue : dropDue s k = some at_) :
    drainCheck (idleDrop k (dropDamper k s)) = drainCheck (dropped k at_ s) := by
  rw [idleDrop_of_kept (dropDamper_idles hdue), drainCheck_dropDamper hdue]

/-! ### The access contact (R19, R34) -/

theorem openChamber_channel (s : State) (k : Fin 8) : (openChamber s).channels[k] =
    { s.channels[k] with gate := none, damperUp := false, drop := none } := by
  rw [openChamber, assertCond_unchanged _ _ .channels (by decide), dropAll, mapChannels_channel, shutBank,
    mapChannels_channel]
  rfl

theorem holderTouches_congr (hfloor : t.floor = s.floor) (hstraps : t.straps = s.straps) :
    holderTouches t = holderTouches s := by
  rw [holderTouches, holderTouches, hfloor]
  simp only [touches_congr hstraps]

theorem holderTouches_some_iff (s : State) : holderTouches s = true ↔
    ∃ x, s.floor.holder = some x ∧ touches s x.mask = true := by
  rw [holderTouches]
  cases s.floor.holder <;> simp

/-- A wake of a bank that is OFF, the chamber closed. -/
theorem wakeBank_drive_of_off (haccess : s.pins.access = false) (hoff : s.drive.mode = .off) :
    (wakeBank s).drive = { mode := .charging, level := s.drive.level, idle := 0 } := by
  simp [wakeBank, haccess, hoff]

theorem wakeAtRelease_drive (haccess : s.pins.access = false) (hoff : s.drive.mode = .off) :
    (wakeAtRelease s).drive = if s.queue ≠ [] ∨ holderTouches s = true
      then { mode := .charging, level := s.drive.level, idle := 0 } else s.drive := by
  unfold wakeAtRelease
  split
  · exact wakeBank_drive_of_off haccess hoff
  · rfl

/-- The chamber closed and the bank woken, every damper lifts that is due. -/
def liftedAtRelease (s : State) : State :=
  allChannels.foldl (fun t k => tryLift k t) (wakeAtRelease (setAccess false s))

theorem liftedAtRelease_unchanged (s : State) :
    Unchanged [.channels] (wakeAtRelease (setAccess false s)) (liftedAtRelease s) :=
  .foldl _ (fun t k => tryLift_unchanged k t) allChannels _

theorem closeChamber_pins (s : State) : (closeChamber s).pins = { s.pins with access := false } := by
  have hpins : (closeChamber s).pins = (liftedAtRelease s).pins := clearCond_unchanged _ _ .pins (by decide)
  rw [hpins, liftedAtRelease_unchanged s .pins (by decide), wakeAtRelease_unchanged _ .pins (by decide)]
  rfl

theorem closeChamber_drive (hoff : s.drive.mode = .off) : (closeChamber s).drive =
    if s.queue ≠ [] ∨ holderTouches s = true then { mode := .charging, level := s.drive.level, idle := 0 } else s.drive := by
  have hdrive : (closeChamber s).drive = (liftedAtRelease s).drive := clearCond_unchanged _ _ .drive (by decide)
  rw [hdrive, liftedAtRelease_unchanged s .drive (by decide)]
  exact wakeAtRelease_drive (s := setAccess false s) rfl hoff

theorem closeChamber_channel (s : State) (k : Fin 8) : (closeChamber s).channels[k] = { s.channels[k] with
    damperUp := s.channels[k].damperUp ||
      (isPresent s k && s.channels[k].voicing.damped && liftReached s k) } := by
  have hwoken := wakeAtRelease_unchanged (setAccess false s)
  have hchannels : (wakeAtRelease (setAccess false s)).channels = s.channels := hwoken .channels (by decide)
  have hlifts : lifts (wakeAtRelease (setAccess false s)) k = lifts (setAccess false s) k :=
    lifts_congr (hwoken .straps (by decide)) (hwoken .pins (by decide)) (hwoken .queue (by decide))
      (by rw [hwoken .time (by decide)]) (by rw [hwoken .channels (by decide)])
  have hopen : lifts (setAccess false s) k = (isPresent s k && s.channels[k].voicing.damped && liftReached s k) :=
    congrArg (· && liftReached s k) (Bool.and_true _)
  rw [closeChamber, clearCond_unchanged _ _ .channels (by decide), liftAll_channel, hlifts, hopen, hchannels]

/-- An input that is not yet active becomes so. -/
theorem act_unless {f : State → State} {b : State → Bool} (hp : s.powered = true) (hb : b s = false) :
    act (fun u => if b u then u else f u) s = .next (f s) := by
  rw [act_of_powered _ hp, if_neg (by rw [hb]; exact Bool.false_ne_true)]

/-- What a hammer that comes to REST brings, for every command that brings it there. -/
theorem exec_of_hammerRests {c : Instr} (h : exec c s = .next (hammerRests k s)) : ∃ t, exec c s = .next t ∧
    t.channels[k] = { s.channels[k] with
      hammer := .rest
      damperUp := s.channels[k].damperUp && !(s.channels[k].voicing.damped && s.channels[k].drop.isNone &&
        (entriesOn s k).isEmpty) } ∧
    (∀ j : Fin 8, j ≠ k → t.channels[j] = s.channels[j]) ∧
    t.drive = (if s.drive.mode = .draining ∧ settled t = true
      then { mode := .off, level := 0, idle := s.drive.idle } else s.drive) ∧
    Unchanged [.channels, .drive] s t :=
  ⟨_, h, hammerRests_own k s, fun _ hj => hammerRests_other hj s, hammerRests_drive k s,
    ((updChannel_unchanged k _ s).widen.andThen (idleDrop_unchanged k _)).andThen (drainCheck_unchanged _)⟩

theorem endFlight_rests {since : LocalCount} {flight back : Nat} (hh : s.channels[k].hammer = .flying since flight back)
    (hback : back ≤ flight) (hover : flight ≤ ticksSince s.time.count since) : endFlight k s = hammerRests k s := by
  rw [endFlight, hh]
  exact (if_pos hover).trans (if_pos hback)

theorem endFlight_returns {since : LocalCount} {flight back : Nat} (hh : s.channels[k].hammer = .flying since flight back)
    (hlt : flight < back) (hover : flight ≤ ticksSince s.time.count since) : endFlight k s =
      updChannel k (fun c => { c with hammer := .returning since back }) s := by
  rw [endFlight, hh]
  exact (if_pos hover).trans (if_neg (Nat.not_le.mpr hlt))

theorem returnOver_of {since : LocalCount} {flight back : Nat} (hover : back ≤ ticksSince s.time.count since)
    (hh : s.channels[k].hammer = .returning since back ∨ s.channels[k].hammer = .flying since flight back) :
    returnOver s k = true := by
  obtain hh | hh := hh <;> rw [returnOver, hh] <;> exact decide_eq_true hover

theorem pulseOver_of {g : Gate} (hg : s.channels[k].gate = some g)
    (hover : 2 * g.width < 25 * (ticksSince s.time.count g.since + 1)) : pulseOver s k = true := by
  rw [pulseOver, hg]
  exact decide_eq_true hover

end

/-- Settles O23. -/
theorem strokesAndDampers : Obligations.StrokesAndDampers := by
  refine ⟨fun k g s hp hg hover => act_due (f := updChannel k fun c => { c with gate := none })
      (b := fun s => pulseOver s k) hp (pulseOver_of hg hover),
    fun k since flight back s hp hh hover hlt => (act_of_powered (endFlight k) hp).trans
      (congrArg _ (endFlight_returns hh hlt hover)),
    fun k c since flight back s hp hcase => exec_of_hammerRests ?_,
    fun k s hp hpresent hdamped hdown hreached => ⟨fun haccess => ?_, fun haccess => ?_⟩,
    fun k at_ s hp hdamped hdrop hreached => ?_, settled_iff, liftReached_iff, dropSkipped_iff⟩
  · obtain ⟨rfl, hh, hback, hover⟩ | ⟨rfl, hh, hover⟩ := hcase
    · exact (act_of_powered (endFlight k) hp).trans (congrArg _ (endFlight_rests hh hback hover))
    · exact act_due (f := hammerRests k) (b := fun s => returnOver s k) hp (returnOver_of hover hh)
  · refine (act_of_powered (tryLift k) hp).trans (congrArg _ ?_)
    exact if_pos ⟨hpresent, hdamped, by rw [hdown]; rfl, by rw [haccess]; rfl, hreached⟩
  · refine (act_of_powered (tryLift k) hp).trans (congrArg _ ?_)
    exact if_neg fun h => by simp [haccess] at h
  · have hdue := dropDue_of hdamped hdrop hreached
    refine ⟨drainCheck (dropped k at_ s), ?_, ?_, fun j hj => ?_, drainCheck_drive _,
      (updChannel_unchanged k _ s).widen.andThen (drainCheck_unchanged _)⟩
    · rw [← drop_eq hdue]
      exact act_due (f := fun s => drainCheck (idleDrop k (dropDamper k s))) (b := fun s => (dropDue s k).isSome) hp
        (by rw [hdue]; rfl)
    · rw [drainCheck_channels, dropped, updChannel_channel, if_pos rfl, lifts, hdamped, Bool.and_true]
    · rw [drainCheck_channels, dropped, updChannel_channel, if_neg hj]

/-- Settles O25. -/
theorem contactAndFaultInputs : Obligations.ContactAndFaultInputs := by
  refine ⟨fun s hp haccess hclear hmask => ?_, fun s hp haccess hoff => ?_,
    fun s hp hf => act_unless (f := fun s => assertCond .driveFault (setChargerFault true s))
      (b := fun s => s.pins.chargerFault) hp hf,
    fun s hp hf => act_due (f := fun s => clearCond .driveFault (setChargerFault false s))
      (b := fun s => s.pins.chargerFault) hp hf,
    fun s hp hf => act_unless (f := fun s => assertCond .coilHot (setCoilHot true s)) (b := fun s => s.pins.coilHot) hp hf,
    fun s hp hf => act_due (f := fun s => clearCond .coilHot (setCoilHot false s)) (b := fun s => s.pins.coilHot) hp hf,
    holderTouches_some_iff, liftReached_iff⟩
  · refine ⟨openChamber s, act_unless (f := openChamber) (b := fun s => s.pins.access) hp haccess, ?_, ?_,
      openChamber_channel s, ?_⟩
    · exact assertCond_unchanged _ _ .pins (by decide)
    · exact assertCond_unchanged _ _ .drive (by decide)
    have hconds : hasCondition (openChamber s).silence.conds .access = true := by
      rw [openChamber, assertCond_has, decide_eq_true rfl, Bool.true_or]
    have hsilent : openChamber s = actOn .access (flagSet .access (dropAll (shutBank (setAccess true s)))) :=
      assertCond_of_enabled (s := dropAll (shutBank (setAccess true s))) hclear hmask
    refine ⟨?_, ?_, ?_, hconds, openChamber_unchanged s⟩ <;> rw [hsilent, actOn_silent (.inl rfl)]
  · refine ⟨closeChamber s, act_due (f := closeChamber) (b := fun s => s.pins.access) hp haccess, closeChamber_pins s, ?_,
      fun hwanted => ?_, fun hqueue htouch => ?_, closeChamber_channel s, ?_, closeChamber_unchanged s⟩
    · rw [closeChamber_drive hoff]
      split <;> rfl
    · rw [closeChamber_drive hoff, if_pos hwanted]
      exact ⟨rfl, rfl⟩
    · rw [closeChamber_drive hoff]
      exact if_neg (by simp [hqueue, htouch])
    · rw [closeChamber, clearCond_has, decide_eq_false (not_not_intro rfl)]
      rfl

end Sys2Proof.Machine
end

