-- ==== Sys2Proof/Proofs/Slots.lean ====
section
/-! A performance slot's CLAIM, its beacon, its gate, its wait and its end (R125, R127, R129, R136, R137, R138). -/

namespace Sys2Proof.Machine

-- One proof after another: many at once would ask for more threads than the memory limit allows.
set_option Elab.async false

section
variable {s t : State} {k j : Fin 4} {p q : Perf}

/-! ### A slot that plays -/

theorem perf?_of_active (h : s.conductor.slots[k] = .active p) : s.conductor.slots[k].perf? = some p := by rw [h]; rfl

theorem updPerf_of_active (f : Perf → Perf) (h : s.conductor.slots[k] = .active p) :
    updPerf k f s = setSlot k (.active (f p)) s := by
  rw [updPerf, h]
  rfl

theorem setSlot_active (k : Fin 4) (x : Slot) (s : State) : (setSlot k x s).conductor.slots[k] = x := by
  rw [setSlot_slots, if_pos rfl]

/-! ### A frame the queue can take -/

theorem txCanTake_iff (s : State) (f : Frame) : txCanTake s f = true ↔
    txCount s < 8 ∨ ∃ h, s.line.queue.getLast? = some h ∧ txIdent s f < txIdent s h.frame := by
  rw [txCanTake, Bool.or_eq_true, decide_eq_true_iff, txHighest]
  cases s.line.queue.getLast? <;> simp [Config.txSize]

theorem mem_insertTx (s : State) (x : TxFrame) (l : List TxFrame) : x ∈ insertTx s x l := by
  obtain ⟨pre, post, -, hafter, -⟩ := insertTx_joined s x l
  simp [hafter]

theorem handFrame_taken {x : TxFrame} (h : txCanTake s x.frame = true) :
    (handFrame x s).2 = true ∧ x ∈ (handFrame x s).1.line.queue := by
  by_cases hroom : txCount s < 8
  · rw [handFrame_room x hroom]
    exact ⟨rfl, mem_insertTx s x _⟩
  · obtain hroom2 | ⟨h, hlast, hlt⟩ := (txCanTake_iff s x.frame).mp h
    · exact absurd hroom2 hroom
    · rw [handFrame_evicts (Nat.le_of_not_lt hroom) hlast hlt]
      exact ⟨rfl, mem_insertTx _ x _⟩

/-! ### The CLAIM (R125, R161) -/

theorem claimReady_iff (s : State) (k : Fin 4) (p : Perf) : claimReady s k p = true ↔
    p.phase = .preroll ∧ reached s.time.tower p.claimTime = true ∧ txCanTake s (.claim p.priority (floorBodyOf p)) = true := by
  rw [claimReady, Bool.and_eq_true, Bool.and_eq_true, decide_eq_true_iff, and_assoc]
  rfl

theorem claimsBefore_iff (s : State) (j k : Fin 4) (p : Perf) : claimsBefore s j k p = true ↔
    j < k ∧ ∃ q, s.conductor.slots[j] = .active q ∧ q.claimTime = p.claimTime ∧ claimReady s j q = true := by
  rw [claimsBefore, Bool.and_eq_true, decide_eq_true_iff]
  cases s.conductor.slots[j] <;> simp [Slot.perf?]

theorem allSlots_complete (k : Fin 4) : k ∈ allSlots := by
  fin_cases k <;> decide

theorem claimDue_iff (s : State) (k : Fin 4) (p : Perf) : claimDue s k p = true ↔
    claimReady s k p = true ∧ ∀ j, claimsBefore s j k p = false := by
  rw [claimDue, Bool.and_eq_true, List.all_eq_true]
  refine and_congr_right fun _ => ⟨fun h j => ?_, fun h j _ => by rw [h j]; rfl⟩
  exact Bool.not_eq_true' _ ▸ h j (allSlots_complete j)

theorem handClaim_of_active (h : s.conductor.slots[k] = .active p) : handClaim k s =
    if claimDue s k p then
      if (handFrame (claimFrame k p) s).2 then updPerf k claimTaken (handFrame (claimFrame k p) s).1
      else (handFrame (claimFrame k p) s).1
    else s := by
  rw [handClaim, perf?_of_active h]

theorem claimHandoff_of_not_due (hp : s.powered = true) (h : s.conductor.slots[k] = .active p)
    (hdue : claimDue s k p = false) : exec (.claimHandoff k) s = .next s := by
  refine (act_of_powered (handClaim k) hp).trans (congrArg _ ?_)
  rw [handClaim_of_active h, if_neg (by rw [hdue]; exact Bool.false_ne_true)]

/-- Settles O34. -/
theorem claimAndBeaconHanded : Obligations.ClaimAndBeaconHanded := by
  intro k p s hp h
  refine ⟨fun hphase hreached htake hfirst => ?_, fun hnot => ?_, fun j q hj hq hphase htime htake => ?_,
    fun hholds hover => ?_, fun hnot => ?_⟩
  · have hdue : claimDue s k p = true := by
      refine (claimDue_iff s k p).mpr ⟨(claimReady_iff s k p).mpr ⟨hphase, hreached, htake⟩, fun j => ?_⟩
      refine Bool.eq_false_iff.mpr fun hbefore => ?_
      obtain ⟨hj, q, hq, htime, hready⟩ := (claimsBefore_iff s j k p).mp hbefore
      obtain ⟨hqphase, -, hqtake⟩ := (claimReady_iff s j q).mp hready
      exact absurd (hqtake.symm.trans (hfirst j q hj hq hqphase htime)) (by decide)
    obtain ⟨htaken, hmem⟩ := handFrame_taken (x := claimFrame k p) htake
    obtain ⟨q, hq, hkept, -⟩ := (handFrame_kept (claimFrame k p) s).active h
    refine ⟨updPerf k claimTaken (handFrame (claimFrame k p) s).1, claimTaken q, ?_, ?_, rfl, ?_, ?_, hmem, ?_⟩
    · refine (act_of_powered (handClaim k) hp).trans (congrArg _ ?_)
      rw [handClaim_of_active h, if_pos hdue, if_pos htaken]
    · rw [updPerf_of_active _ hq, setSlot_active]
    · rw [claimTaken, hkept]
    · rw [claimTaken, hkept]
    · exact (handFrame_unchanged _ s).andThen (setSlot_unchanged _ _ _)
  · refine claimHandoff_of_not_due hp h (Bool.eq_false_iff.mpr fun hdue => ?_)
    obtain ⟨hphase, hreached, -⟩ := (claimReady_iff s k p).mp ((claimDue_iff s k p).mp hdue).1
    obtain hnot | hnot := hnot
    · exact hnot hphase
    · exact absurd (hreached.symm.trans hnot) (by decide)
  · refine claimHandoff_of_not_due hp h (Bool.eq_false_iff.mpr fun hdue => ?_)
    obtain ⟨hready, hfirst⟩ := (claimDue_iff s k p).mp hdue
    obtain ⟨-, hreached, -⟩ := (claimReady_iff s k p).mp hready
    have hbefore : claimsBefore s j k p = true := (claimsBefore_iff s j k p).mpr
      ⟨hj, q, hq, htime, (claimReady_iff s j q).mpr ⟨hphase, htime ▸ hreached, htake⟩⟩
    exact absurd (hbefore.symm.trans (hfirst j)) (by decide)
  · refine (act_of_powered (handFloorBeacon k) hp).trans (congrArg _ ?_)
    have hdue : floorBeaconDue p = true := Bool.and_eq_true_iff.mpr ⟨hholds, decide_eq_true hover⟩
    rw [handFloorBeacon, perf?_of_active h]
    refine (if_pos hdue).trans ?_
    rw [updPerf_of_active _ h]
    rfl
  · refine (act_of_powered (handFloorBeacon k) hp).trans (congrArg _ ?_)
    rw [handFloorBeacon, perf?_of_active h]
    refine if_neg fun hdue => ?_
    obtain ⟨hholds, hover⟩ := Bool.and_eq_true_iff.mp hdue
    obtain hnot | hnot := hnot
    · exact absurd (hholds.symm.trans hnot) (by decide)
    · exact absurd (of_decide_eq_true hover) (Nat.not_le.mpr hnot)

/-! ### The end of a slot (R138, R142, R165) -/

theorem freeContactsOf_contact (k : Fin 4) (s : State) (c : Fin 2) : (freeContactsOf k s).calendar.contacts[c] =
    { s.calendar.contacts[c] with
      busy := s.calendar.contacts[c].busy && !decide (s.calendar.contacts[c].slot = some k) } := by
  have hfree : (freeContactsOf k s).calendar.contacts[c] = freeContact k s.calendar.contacts[c] := by
    simp [freeContactsOf]
  rw [hfree, freeContact]
  split
  next h => rw [decide_eq_true h, Bool.not_true, Bool.and_false]
  next h => rw [decide_eq_false h, Bool.not_false, Bool.and_true]

theorem perfCounter_ne (o : PerfOutcome) : perfCounter o ≠ .ordersLost ∧ perfCounter o ≠ .txDropped := by
  cases o <;> decide

theorem closeSlot_slot (k : Fin 4) (seq : BitVec 8) (o : PerfOutcome) (s : State) :
    (closeSlot k seq o s).conductor.slots[k] = .ended seq o := setSlot_active k _ s

theorem closeSlot_contact (k : Fin 4) (seq : BitVec 8) (o : PerfOutcome) (s : State) (c : Fin 2) :
    (closeSlot k seq o s).calendar.contacts[c] = { s.calendar.contacts[c] with
      busy := s.calendar.contacts[c].busy && !decide (s.calendar.contacts[c].slot = some k) } :=
  freeContactsOf_contact k _ c

theorem closeSlot_raised (k : Fin 4) (seq : BitVec 8) (o : PerfOutcome) (s : State) :
    Raised (perfCounter o) s (closeSlot k seq o s) := raise_raised (perfCounter o) (setSlot k (.ended seq o) s)

theorem handRelease_readCounter (k : Fin 4) (p : Perf) (o : PerfOutcome) (s : State) {c : Counter} (h1 : c ≠ .ordersLost)
    (h2 : c ≠ .txDropped) : readCounter (handRelease k p o s) c = readCounter s c := by
  unfold handRelease
  split
  · exact handFrame_readCounter _ s h1 h2
  · rfl

/-- A slot closed after its RELEASE was handed, its lock given back. -/
theorem closed_after_hand {seq : BitVec 8} {o : PerfOutcome} {n : Fin 32} (hu : Unchanged handed s t)
    (hcounter : readCounter t (perfCounter o) = readCounter s (perfCounter o)) :
    (closeSlot k seq o (unlockTune n t)).conductor.slots[k] = .ended seq o ∧
    Raised (perfCounter o) s (closeSlot k seq o (unlockTune n t)) ∧
    (closeSlot k seq o (unlockTune n t)).library =
      { s.library with locks := s.library.locks.set n (s.library.locks[n] - 1) } ∧
    (∀ c : Fin 2, (closeSlot k seq o (unlockTune n t)).calendar.contacts[c] = { s.calendar.contacts[c] with
      busy := s.calendar.contacts[c].busy && !decide (s.calendar.contacts[c].slot = some k) }) ∧
    Unchanged ending s (closeSlot k seq o (unlockTune n t)) := by
  have hlibrary : t.library = s.library := hu .library (by decide)
  have hcalendar : (unlockTune n t).calendar = s.calendar := hu .calendar (by decide)
  refine ⟨closeSlot_slot k seq o _, ?_, ?_, fun c => ?_,
    (hu.widen.andThen (unlockTune_unchanged _ _)).andThen (closeSlot_unchanged _ _ _ _)⟩
  · rw [Raised, ← hcounter]
    exact closeSlot_raised k seq o (unlockTune n t)
  · rw [← hlibrary]
    rfl
  · rw [closeSlot_contact, hcalendar]

theorem endPerf_result (k : Fin 4) (p : Perf) (o : PerfOutcome) (s : State) :
    (endPerf k p o s).conductor.slots[k] = .ended p.seq o ∧ Raised (perfCounter o) s (endPerf k p o s) ∧
    (endPerf k p o s).library = { s.library with locks := s.library.locks.set p.slot (s.library.locks[p.slot] - 1) } ∧
    (∀ c : Fin 2, (endPerf k p o s).calendar.contacts[c] = { s.calendar.contacts[c] with
      busy := s.calendar.contacts[c].busy && !decide (s.calendar.contacts[c].slot = some k) }) ∧
    Unchanged ending s (endPerf k p o s) :=
  closed_after_hand (handRelease_unchanged k p o s)
    (handRelease_readCounter k p o s (perfCounter_ne o).1 (perfCounter_ne o).2)

theorem endPerf_line (k : Fin 4) (p : Perf) (o : PerfOutcome) (s : State) :
    (endPerf k p o s).line = (handRelease k p o s).line :=
  (closeSlot_unchanged k p.seq o _ .line (by decide)).trans (unlockTune_unchanged p.slot _ .line (by decide))

theorem endPerf_joined (o : PerfOutcome) (hholds : p.phase.holds = true) (hroom : txCount s < 8) :
    Joined s { frame := .release p.seq (releaseReasonOf o), origin := .slot k }
      s.line.queue (endPerf k p o s).line.queue := by
  rw [endPerf_line, handRelease, if_pos hholds]
  exact (handFrame_joined _ hroom).2.1

theorem endPerf_quiet (k : Fin 4) (o : PerfOutcome) (s : State) (hholds : p.phase.holds = false) :
    (endPerf k p o s).line = s.line := by
  rw [endPerf_line, handRelease, if_neg (by rw [hholds]; exact Bool.false_ne_true)]

/-- The RELEASE of a performance that has rung out. -/
def rungOut (k : Fin 4) (p : Perf) (s : State) : State := handOnly (releaseFrame (.slot k) p.seq .ended) s

theorem finishPerf_of_active (h : (rungOut k p s).conductor.slots[k] = .active q) : finishPerf k p s =
    closeSlot k q.seq (endingOutcome q) (unlockTune q.slot (rungOut k p s)) := by
  rw [rungOut] at h
  simp only [finishPerf, h, Slot.perf?]
  rfl

theorem endingOutcome_cases (q : Perf) : endingOutcome q = .completed ∨ endingOutcome q = .lostOrders := by
  unfold endingOutcome
  split
  · exact .inl rfl
  · exact .inr rfl

theorem Phase.holds_iff (p : Phase) : p.holds = true ↔ p = .gathering ∨ p = .playing ∨ p = .ending := by
  cases p <;> simp [Phase.holds]

end

/-- Settles O35. -/
theorem slotEndings : Obligations.SlotEndings := by
  refine ⟨fun k p d s hp h hphase hd hover => ?_, fun k p s hp h hphase hover => ?_, fun k p o s => ?_,
    rfl, rfl, rfl, rfl, rfl, rfl, Phase.holds_iff⟩
  · have hdue : deadlineDue s p = true := by
      rw [deadlineDue, hd]
      exact Bool.and_eq_true_iff.mpr ⟨decide_eq_true hphase, hover⟩
    refine (act_of_powered (endWait k) hp).trans (congrArg _ ?_)
    rw [endWait, perf?_of_active h]
    exact if_pos hdue
  · obtain ⟨q, hq, hkept, -⟩ := (handFrame_kept (releaseFrame (.slot k) p.seq .ended) s).active h
    have hseq : q.seq = p.seq := by rw [hkept]
    have hslot : q.slot = p.slot := by rw [hkept]
    have hfinish : finishPerf k p s = closeSlot k p.seq (endingOutcome q) (unlockTune p.slot (rungOut k p s)) := by
      rw [finishPerf_of_active hq, hseq, hslot]
    have hdue : ringOutOver s p = true := Bool.and_eq_true_iff.mpr ⟨decide_eq_true hphase, hover⟩
    obtain ⟨hended, hraised, hlibrary, hcontacts, hunchanged⟩ := closed_after_hand (k := k) (seq := p.seq)
      (o := endingOutcome q) (n := p.slot) (handOnly_unchanged (releaseFrame (.slot k) p.seq .ended) s)
      (handFrame_readCounter _ s (perfCounter_ne _).1 (perfCounter_ne _).2)
    refine ⟨_, endingOutcome q, ?_, hended, endingOutcome_cases q, hraised, hunchanged, hlibrary, hcontacts, fun hroom => ?_⟩
    · refine (act_of_powered (endIfRungOut k) hp).trans (congrArg _ ?_)
      rw [endIfRungOut, perf?_of_active h]
      exact (if_pos hdue).trans hfinish
    · have hsame : (handFrame (releaseFrame (.slot k) p.seq .ended) s).1.conductor = s.conductor := by
        rw [handFrame_room _ hroom]
        rfl
      have hpq : p = q := by
        have hslots := congrArg (fun c : Conductor => c.slots[k]) hsame
        exact (Slot.active.inj ((hq.symm.trans hslots).trans h)).symm
      refine ⟨by rw [← hpq]; rfl, (handFrame_joined _ hroom).2.1⟩
  · obtain ⟨hended, hraised, hlibrary, hcontacts, hunchanged⟩ := endPerf_result k p o s
    exact ⟨hended, hraised, hlibrary, hcontacts, fun hholds hroom => endPerf_joined o hholds hroom,
      fun hholds => endPerf_quiet k o s hholds, hunchanged⟩

/-! ### The gate (R129) -/

/-- A slot plays on: its performance is PLAYING or ENDING, with its sequence, its start and what its start was moved by. -/
def PlaysOn (k : Fin 4) (p : Perf) (s : State) : Prop :=
  ∃ q, s.conductor.slots[k] = .active q ∧ (q.phase = .playing ∨ q.phase = .ending) ∧ q.seq = p.seq ∧ q.start = p.start ∧
    q.postponed = p.postponed

section
variable {s t : State} {k j : Fin 4} {p q : Perf}

theorem PlaysOn.congr (h : PlaysOn k p s) (hconductor : t.conductor = s.conductor) : PlaysOn k p t := by
  rw [PlaysOn, hconductor]
  exact h

theorem PlaysOn.updPerf {f : Perf → Perf} (h : PlaysOn k p s) (hphase : ∀ q, (f q).phase = q.phase ∨ (f q).phase = .ending)
    (hf : ∀ q, (f q).seq = q.seq ∧ (f q).start = q.start ∧ (f q).postponed = q.postponed) :
    PlaysOn k p (updPerf k f s) := by
  obtain ⟨q, hq, hplays, hseq, hstart, hpostponed⟩ := h
  obtain ⟨fseq, fstart, fpostponed⟩ := hf q
  refine ⟨f q, by rw [updPerf_of_active f hq, setSlot_active], ?_, fseq.trans hseq, fstart.trans hstart,
    fpostponed.trans hpostponed⟩
  obtain hsame | hending := hphase q
  · rwa [hsame]
  · exact .inr hending

theorem PlaysOn.handFrame (h : PlaysOn k p s) (x : TxFrame) : PlaysOn k p (handFrame x s).1 := by
  obtain ⟨q, hq, hplays, hseq, hstart, hpostponed⟩ := h
  obtain ⟨r, hr, hkept, hphase⟩ := (handFrame_kept x s).active hq
  refine ⟨r, hr, ?_, ?_, ?_, ?_⟩
  · obtain hsame | ⟨hclaiming, -⟩ := hphase
    · rwa [hsame]
    · rw [hclaiming] at hplays
      obtain h | h := hplays <;> cases h
  · rw [hkept]; exact hseq
  · rw [hkept]; exact hstart
  · rw [hkept]; exact hpostponed

theorem stream_playsOn (fuel : Nat) (h : PlaysOn k p s) : PlaysOn k p (stream fuel k s) := by
  induction fuel generalizing s with
  | zero => exact h
  | succ fuel ih =>
    rw [stream]
    split
    · exact h
    dsimp only
    split
    · exact h.updPerf (fun _ => .inr rfl) fun _ => ⟨rfl, rfl, rfl⟩
    next first rest _ =>
      have hcursor : PlaysOn k p (Machine.updPerf k (fun q => { q with cursor := first.1 }) s) :=
        h.updPerf (fun _ => .inl rfl) fun _ => ⟨rfl, rfl, rfl⟩
      split
      · exact hcursor
      split
      · refine ih (PlaysOn.congr ?_ (raise_unchanged .lateSend _ .conductor (by decide)))
        exact hcursor.updPerf (fun _ => .inl rfl) fun _ => ⟨rfl, rfl, rfl⟩
      split
      · exact ih ((hcursor.handFrame _).updPerf (fun _ => .inl rfl) fun _ => ⟨rfl, rfl, rfl⟩)
      · exact (hcursor.handFrame _).updPerf (fun _ => .inl rfl) fun _ => ⟨rfl, rfl, rfl⟩

theorem build_playsOn (h : PlaysOn k p s) : PlaysOn k p (build k s) := by
  unfold build
  split
  · exact h
  split
  · exact stream_playsOn _ (h.updPerf (fun _ => .inl rfl) fun _ => ⟨rfl, rfl, rfl⟩)
  · exact h

theorem gateDue_iff (s : State) (p : Perf) : gateDue s p = true ↔
    p.phase = .gathering ∧ reached s.time.tower (minus p.start 4000) = true := by
  rw [gateDue, Bool.and_eq_true, decide_eq_true_iff]
  rfl

theorem gateIfDue_of_due (h : s.conductor.slots[k] = .active p) (hdue : gateDue s p = true) :
    gateIfDue k s = evalGate k p s := by
  rw [gateIfDue, perf?_of_active h]
  exact if_pos hdue

theorem gateIfDue_of_not_due (h : s.conductor.slots[k] = .active p) (hdue : gateDue s p = false) : gateIfDue k s = s := by
  rw [gateIfDue, perf?_of_active h]
  exact if_neg (by rw [hdue]; exact Bool.false_ne_true)

theorem evalGate_passes (h : s.conductor.slots[k] = .active p) (hgate : gatePasses s p.rule p.mask = true) :
    evalGate k p s = build k (setSlot k (.active { p with phase := .playing }) s) ∧
      PlaysOn k p (build k (setSlot k (.active { p with phase := .playing }) s)) := by
  refine ⟨?_, build_playsOn ⟨_, setSlot_active k _ s, .inl rfl, rfl, rfl, rfl⟩⟩
  rw [evalGate, if_pos hgate, updPerf_of_active _ h]

theorem evalGate_postpones (h : s.conductor.slots[k] = .active p) (hgate : gatePasses s p.rule p.mask = false)
    (hwait : p.postponed + 8000 ≤ s.settings.claimWait) :
    evalGate k p s = (handFrame (floorFrame k (postpone p)) (setSlot k (.active (postpone p)) s)).1 := by
  rw [evalGate, if_neg (by rw [hgate]; exact Bool.false_ne_true),
    if_pos (show p.postponed + Config.cueLead ≤ s.settings.claimWait from hwait), updPerf_of_active _ h]
  rfl

theorem postpone_eq (p : Perf) : postpone p =
    { p with postponed := p.postponed + 8000, start := plus p.start 8000, beaconTimer := 0 } := rfl

theorem evalGate_abandons (hgate : gatePasses s p.rule p.mask = false) (hwait : s.settings.claimWait < p.postponed + 8000) :
    evalGate k p s = endPerf k p .abandoned s := by
  rw [evalGate, if_neg (by rw [hgate]; exact Bool.false_ne_true),
    if_neg (show ¬p.postponed + Config.cueLead ≤ s.settings.claimWait from Nat.not_le.mpr hwait)]

end

/-- Settles O36. -/
theorem ensembleGateEvaluated : Obligations.EnsembleGateEvaluated := by
  intro k p s hp h
  refine ⟨fun hnot => (act_of_powered (gateIfDue k) hp).trans (congrArg _ (gateIfDue_of_not_due h ?_)),
    fun hphase hreached => ?_⟩
  · refine Bool.eq_false_iff.mpr fun hdue => ?_
    obtain ⟨hphase, hreached⟩ := (gateDue_iff s p).mp hdue
    obtain hnot | hnot := hnot
    · exact hnot hphase
    · exact absurd (hreached.symm.trans hnot) (by decide)
  have hexec : exec (.ensembleGate k) s = .next (evalGate k p s) := (act_of_powered (gateIfDue k) hp).trans
    (congrArg _ (gateIfDue_of_due h ((gateDue_iff s p).mpr ⟨hphase, hreached⟩)))
  rw [hexec]
  refine ⟨fun hgate => ?_, fun hgate hwait => ?_,
    fun hgate hwait => congrArg _ (evalGate_abandons hgate hwait)⟩
  case refine_2 =>
    rw [evalGate_postpones h hgate hwait, postpone_eq]
    rfl
  obtain ⟨heval, q, hq, hplays, hseq, hstart, -⟩ := evalGate_passes h hgate
  have hactive : (evalGate k p s).conductor.slots[k] = .active q :=
    (congrArg (fun u : State => u.conductor.slots[k]) heval).trans hq
  refine ⟨_, q, rfl, hactive, hplays, hseq, hstart, heval, ?_⟩
  rw [heval]
  exact (setSlot_unchanged k _ s).widen.andThen (build_unchanged k _)

end Sys2Proof.Machine
end

