-- ==== Sys2Proof/Proofs/Notices.lean ====
section
/-! What the notices of the Floor Tracker do to the performance slots (R126, R127, R139, R140). -/

namespace Sys2Proof.Machine

-- One proof after another: many at once would ask for more threads than the memory limit allows.
set_option Elab.async false

section
variable {s t : State} {k j : Fin 4} {p q : Perf} {seq : BitVec 8}

theorem not_reached_of_isBefore {a b : Nat} (h : isBefore a b = true) : reached a b = false :=
  decide_eq_false (Int.not_le.mpr (of_decide_eq_true h))

/-! ### The notices that name a performance -/

theorem onAccepted_of_slot (hseq : slotOfSeq s seq = some k) (h : s.conductor.slots[k] = .active p) :
    onAccepted seq s = if p.phase.holds then s else
      gateIfDue k (setSlot k (.active { p with phase := .gathering, beaconTimer := 0 }) s) := by
  rw [onAccepted, hseq]
  dsimp only
  rw [perf?_of_active h, enterGathering, updPerf_of_active _ h]

theorem onRefused_of_slot (stamp : LocalCount) (hseq : slotOfSeq s seq = some k) (h : s.conductor.slots[k] = .active p)
    (hphase : p.phase = .claiming) : onRefused seq stamp s =
      if p.deadline.isSome = true ∧
          countReached s.time.count (p.deadline.getD (stamp + BitVec.ofNat 32 s.settings.claimWait)) = true
      then endPerf k p .abandoned s
      else setSlot k (.active { p with
        phase := .waiting, deadline := some (p.deadline.getD (stamp + BitVec.ofNat 32 s.settings.claimWait)) }) s := by
  rw [onRefused, hseq]
  dsimp only
  rw [perf?_of_active h]
  refine (if_pos hphase).trans ?_
  rw [updPerf_of_active _ h]

theorem onRefused_of_other (stamp : LocalCount) (hseq : slotOfSeq s seq = some k) (h : s.conductor.slots[k] = .active p)
    (hphase : p.phase ≠ .claiming) : onRefused seq stamp s = s := by
  rw [onRefused, hseq]
  dsimp only
  rw [perf?_of_active h]
  exact if_neg hphase

theorem onDuplicate_of_slot (hseq : slotOfSeq s seq = some k) (h : s.conductor.slots[k] = .active p) :
    onDuplicate seq s = if p.phase = .claiming then endPerf k p .duplicate s else s := by
  rw [onDuplicate, hseq]
  dsimp only
  rw [perf?_of_active h]

theorem endHolding_of_slot (o : PerfOutcome) (hseq : slotOfSeq s seq = some k) (h : s.conductor.slots[k] = .active p) :
    endHolding seq o s = if p.phase.holds then endPerf k p o s else s := by
  rw [endHolding, hseq]
  dsimp only
  rw [perf?_of_active h]

theorem onStopped_of_slot (hseq : slotOfSeq s seq = some k) (h : s.conductor.slots[k] = .active p) :
    onStopped seq s = endPerf k p .stopped s := by
  rw [onStopped, hseq]
  dsimp only
  rw [perf?_of_active h]

/-! ### PREEMPTED (R139) -/

/-- The slot of a preempted performance that is cued again, its old performance ended. -/
def preemptedSlot (k : Fin 4) (p : Perf) (s : State) : State := closeSlot k p.seq .preempted (handRelease k p .preempted s)

theorem onPreempted_of_slot (hseq : slotOfSeq s seq = some k) (h : s.conductor.slots[k] = .active p) :
    onPreempted seq s = if p.phase.holds then
        if p.retry = true ∧ p.phase ≠ .ending then
          setSlot k (.active (retryPerf (newSequence (preemptedSlot k p s)) s.time.tower p))
            (bumpSequence (newSequence (preemptedSlot k p s)) (preemptedSlot k p s))
        else endPerf k p .preempted s
      else s := by
  rw [onPreempted, hseq]
  dsimp only
  rw [perf?_of_active h]
  cases hholds : p.phase.holds with
  | false => exact if_pos (by rw [hholds]; rfl)
  | true => exact if_neg (by rw [hholds]; exact Bool.false_ne_true)

theorem preemptedSlot_unchanged (k : Fin 4) (p : Perf) (s : State) :
    Unchanged [.line, .conductor, .counters, .service, .calendar] s (preemptedSlot k p s) :=
  (handRelease_unchanged k p .preempted s).widen.andThen (closeSlot_unchanged _ _ _ _)

theorem preemptedSlot_raised (k : Fin 4) (p : Perf) (s : State) : Raised .perfPreempted s (preemptedSlot k p s) := by
  rw [Raised, ← handRelease_readCounter k p .preempted s (c := .perfPreempted) (by decide) (by decide)]
  exact closeSlot_raised k p.seq .preempted _

theorem preemptedSlot_line (hholds : p.phase.holds = true) (hroom : txCount s < 8) :
    Joined s { frame := .release p.seq .preempted, origin := .slot k } s.line.queue (preemptedSlot k p s).line.queue := by
  have hline : (preemptedSlot k p s).line = (handRelease k p .preempted s).line :=
    closeSlot_unchanged k p.seq .preempted _ .line (by decide)
  rw [hline, handRelease, if_pos hholds]
  exact (handFrame_joined _ hroom).2.1

/-! ### VACANT (R127) -/

theorem updEach_slots {f : Perf → Perf} {l : List (Fin 4)} (hl : l.Nodup) (s : State) (j : Fin 4) :
    (l.foldl (fun t k => updPerf k f t) s).conductor.slots[j] =
      if j ∈ l then s.conductor.slots[j].change f else s.conductor.slots[j] := by
  induction l generalizing s with
  | nil => simp
  | cons k l ih =>
    obtain ⟨hk, hl⟩ := List.nodup_cons.mp hl
    rw [List.foldl_cons, ih hl, updPerf_slots]
    by_cases hj : k = j
    · subst hj
      rw [if_neg hk, if_pos rfl, if_pos (List.mem_cons_self)]
    · rw [if_neg hj]
      simp [Ne.symm hj]

theorem onVacant_slot (s : State) (j : Fin 4) :
    (onVacant s).conductor.slots[j] = s.conductor.slots[j].change (reclaim s.time.tower) := by
  have hfold (l : List (Fin 4)) (t : State) (ht : t.time.tower = s.time.tower) :
      l.foldl (fun t k => updPerf k (reclaim t.time.tower) t) t = l.foldl (fun t k => updPerf k (reclaim s.time.tower) t) t := by
    induction l generalizing t with
    | nil => simp only [List.foldl_nil]
    | cons k l ih =>
      rw [List.foldl_cons, List.foldl_cons, ht]
      have htime : (updPerf k (reclaim s.time.tower) t).time = t.time := updPerf_unchanged k _ t .time (by decide)
      exact ih _ ((congrArg Timebase.tower htime).trans ht)
  rw [onVacant, hfold _ s rfl, updEach_slots (by decide), if_pos (allSlots_complete j)]

end

/-- Settles O33. -/
theorem noticesReachTheSlot : Obligations.NoticesReachTheSlot := by
  refine ⟨fun seq n s hn hseq => ?_, fun seq stamp n s hseq hn => ?_, fun seq k p s hseq h => ?_⟩
  · obtain rfl | rfl := hn <;> simp only [onNotice, onAccepted, hseq] <;> rfl
  · simp only [List.mem_cons, List.not_mem_nil, or_false] at hn
    obtain rfl | rfl | rfl | rfl | rfl | rfl := hn <;>
      simp only [onNotice, onRefused, onDuplicate, onPreempted, endHolding, onStopped, hseq]
  have haccepted (n : Notice) (hn : n = .accepted seq ∨ n = .adopted seq) : onNotice n s = onAccepted seq s := by
    obtain rfl | rfl := hn <;> rfl
  have hpreempted : onNotice (.preempted seq) s = _ := onPreempted_of_slot hseq h
  refine ⟨fun n hn => ⟨fun hholds => ?_, fun hholds hbefore => ?_, fun hholds hp => ?_⟩,
    fun stamp hphase => ⟨fun hd => ?_, fun d hd hnot => ?_, fun d hd hover => ?_, ?_⟩,
    fun hphase => ⟨fun stamp => onRefused_of_other stamp hseq h hphase,
      (onDuplicate_of_slot hseq h).trans (if_neg hphase)⟩,
    fun hholds => ⟨?_, ?_, ?_⟩, fun hholds hretry hphase => ?_, fun hholds hnot => ?_,
    fun hholds => ⟨(endHolding_of_slot .contested hseq h).trans (if_pos hholds),
      (endHolding_of_slot .abandoned hseq h).trans (if_pos hholds)⟩,
    onStopped_of_slot hseq h, fun hphase => ?_, fun hphase => ?_, onVacant_unchanged s⟩
  · rw [haccepted n hn, onAccepted_of_slot hseq h, if_pos hholds]
  · rw [haccepted n hn, onAccepted_of_slot hseq h, if_neg (by simp [hholds])]
    refine gateIfDue_of_not_due (setSlot_active k _ s) (Bool.eq_false_iff.mpr fun hdue => ?_)
    obtain ⟨-, hreached⟩ := (gateDue_iff _ _).mp hdue
    exact absurd (hreached.symm.trans (not_reached_of_isBefore hbefore)) (by decide)
  · rw [haccepted n hn, onAccepted_of_slot hseq h, if_neg (by simp [hholds])]
    exact act_of_powered (gateIfDue k) (s := setSlot k _ s) hp
  · refine (onRefused_of_slot stamp hseq h hphase).trans ?_
    rw [hd]
    exact if_neg fun hboth => absurd hboth.1 (by decide)
  · refine (onRefused_of_slot stamp hseq h hphase).trans ?_
    rw [hd]
    exact if_neg fun hboth => absurd (hboth.2.symm.trans hnot) (by decide)
  · refine (onRefused_of_slot stamp hseq h hphase).trans ?_
    rw [hd]
    exact if_pos ⟨rfl, hover⟩
  · exact (onDuplicate_of_slot hseq h).trans (if_pos hphase)
  · rw [hpreempted, if_neg (by simp [hholds])]
  · exact (endHolding_of_slot .contested hseq h).trans (if_neg (by simp [hholds]))
  · exact (endHolding_of_slot .abandoned hseq h).trans (if_neg (by simp [hholds]))
  · rw [hpreempted, if_pos hholds, if_pos ⟨hretry, hphase⟩]
    generalize hn : newSequence (preemptedSlot k p s) = n
    have hended := preemptedSlot_unchanged k p s
    refine ⟨n, retryPerf n s.time.tower p, setSlot_active k _ _, rfl, rfl, rfl, rfl, rfl, rfl, rfl, rfl, rfl, rfl, rfl, rfl,
      rfl, preemptedSlot_raised k p s, fun hroom => preemptedSlot_line hholds hroom, hended .library (by decide),
      ?_⟩
    exact ((hended.widen (qs := ending)).andThen (bumpSequence_unchanged n _)).andThen (setSlot_unchanged k _ _)
  · rw [hpreempted, if_pos hholds, if_neg]
    rintro ⟨hretry, hphase⟩
    obtain hnot | hnot := hnot
    · exact absurd (hretry.symm.trans hnot) (by decide)
    · exact hphase hnot
  · refine (onVacant_slot s k).trans ?_
    rw [h, Slot.change, reclaim, if_pos hphase]
    rfl
  · refine (onVacant_slot s k).trans ?_
    rw [h, Slot.change, reclaim, if_neg hphase]

end Sys2Proof.Machine
end

