-- ==== Sys2Proof/Proofs/FloorResults.lean ====
section
/-! What CLAIM, FLOOR, RELEASE, STOP and the lapse leave of the floor record and of the strike queue (R103 to R118). -/

namespace Sys2Proof.Machine

-- One proof after another: many at once would ask for more threads than the memory limit allows.
set_option Elab.async false

section
variable {s t : State} {e : Entry} {p : PerfId} {x h : Holder} {f : FadingPart}

/-! ### The record written -/

theorem writeHolder_floor (h : Holder) (s : State) :
    (writeHolder h s).floor = { holder := some h, fading := s.floor.fading } := rfl

theorem dropHolder_floor (s : State) : (dropHolder s).floor = { holder := none, fading := s.floor.fading } := rfl

theorem clearFading_floor (s : State) : (clearFading s).floor = { holder := s.floor.holder, fading := none } := rfl

/-! ### Purges -/

theorem mem_purge (sel : Entry → Bool) (s : State) (e : Entry) :
    e ∈ (purge sel s).queue ↔ e ∈ s.queue ∧ sel e = false := by
  rw [purge_queue, List.mem_filter, Bool.not_eq_true']

theorem not_ownedBy_iff : e.ownedBy p = false ↔ e.owner ≠ .perf p := by
  rw [← Bool.not_eq_true, ownedBy_iff]

theorem mem_purgePerf (p : PerfId) (s : State) (e : Entry) :
    e ∈ (purgePerf p s).queue ↔ e ∈ s.queue ∧ e.owner ≠ .perf p := by
  rw [purgePerf, mem_purge, not_ownedBy_iff]

theorem mem_purgeTest (s : State) (e : Entry) : e ∈ (purgeTest s).queue ↔ e ∈ s.queue ∧ e.owner ≠ .test := by
  rw [purgeTest, mem_purge, decide_eq_false_iff_not]

theorem mem_purgeFading (s : State) (e : Entry) : e ∈ (purgeFading s).queue ↔
    e ∈ s.queue ∧ ∀ f, s.floor.fading = some f → e.owner ≠ .perf f.perf := by
  unfold purgeFading
  cases s.floor.fading with
  | none => simp
  | some f => simpa [clearFading] using mem_purgePerf f.perf s e

/-- An entry of another performance leaves the fading part as it is. -/
theorem removeEntry_floor_of_other (o : StrikeOutcome) (hother : ∀ f, s.floor.fading = some f → e.owner ≠ .perf f.perf) :
    (removeEntry o e s).floor = s.floor := by
  generalize hu : raise (outcomeCounter o) (writeRecord (unfiredRecord s e o) (dequeue e s)) = u
  have hfloor : u.floor = s.floor := by
    rw [← hu]
    exact ((dequeue_unchanged e s).widen.andThen (writeRecord_unchanged _ _) : Unchanged [.queue, .trace] s _) .floor (by decide)
  have hnot : (fadingOf u e).isSome = false := by
    rw [fadingOf, hfloor]
    cases hf : s.floor.fading with
    | none => rfl
    | some f => simp [not_ownedBy_iff.mpr (hother f hf)]
  rw [removeEntry, hu, afterRemoval]
  simp only [hnot]
  rw [fadeOut_unchanged _ .floor (by decide), idleDrop_unchanged _ _ .floor (by decide)]
  exact hfloor

/-- A purge that selects no entry of the fading performance leaves the floor record as it is. -/
theorem purge_floor_of_others {sel : Entry → Bool}
    (hothers : ∀ e, sel e = true → ∀ f, s.floor.fading = some f → e.owner ≠ .perf f.perf) :
    (purge sel s).floor = s.floor := by
  have hsel : ∀ e ∈ s.queue.filter sel, sel e = true := fun e he => (List.mem_filter.mp he).2
  unfold purge
  generalize s.queue.filter sel = l at hsel
  induction l generalizing s with
  | nil => rfl
  | cons e l ih =>
    have hfloor : (removeEntry .purged e s).floor = s.floor :=
      removeEntry_floor_of_other _ (hothers e (hsel e List.mem_cons_self))
    rw [List.foldl_cons, ih (by rw [hfloor]; exact hothers) fun x hx => hsel x (List.mem_cons_of_mem e hx), hfloor]

theorem purgePerf_floor_of_other (hother : ∀ f, s.floor.fading = some f → f.perf ≠ p) : (purgePerf p s).floor = s.floor := by
  refine purge_floor_of_others fun e he f hf howner => hother f hf ?_
  exact Owner.perf.inj (howner.symm.trans (ownedBy_iff.mp he))

theorem removeEntry_counters (o : StrikeOutcome) (e : Entry) (s : State) :
    (removeEntry o e s).counters = (raise (outcomeCounter o) s).counters := by
  have hbefore : (writeRecord (unfiredRecord s e o) (dequeue e s)).counters = s.counters :=
    ((dequeue_unchanged e s).widen.andThen (writeRecord_unchanged _ _) : Unchanged [.queue, .trace] s _) .counters (by decide)
  rw [removeEntry, afterRemoval_unchanged _ _ .counters (by decide)]
  simp only [raise, hbefore]

theorem removeEntry_readCounter {o : StrikeOutcome} {c : Counter} (e : Entry) (s : State) (hc : c ≠ outcomeCounter o) :
    readCounter (removeEntry o e s) c = readCounter s c :=
  (readCounter_of_same (removeEntry_counters o e s) c).trans (readCounter_raise_other hc)

theorem purge_readCounter (sel : Entry → Bool) (s : State) {c : Counter} (hc : c ≠ .purged) :
    readCounter (purge sel s) c = readCounter s c := by
  unfold purge
  generalize s.queue.filter sel = l
  induction l generalizing s with
  | nil => rfl
  | cons e l ih => rw [List.foldl_cons, ih, removeEntry_readCounter e s hc]

theorem purgeFading_readCounter (s : State) {c : Counter} (hc : c ≠ .purged) :
    readCounter (purgeFading s) c = readCounter s c := by
  unfold purgeFading
  split
  · rfl
  · exact purge_readCounter _ s hc

/-! ### The wake of a new holder (R29, R106) -/

theorem wakeBank_up (haccess : s.pins.access = false) : bankUp (wakeBank s).drive.mode = true ∧ (wakeBank s).drive.idle = 0 := by
  refine ⟨?_, rfl⟩
  simp only [wakeBank, haccess]
  cases s.drive.mode
  case draining =>
    by_cases hlevel : s.settings.readyLevel ≤ s.drive.level <;> simp [hlevel, bankUp]
  all_goals rfl

/-- The bank of a state that comes from another by the floor's doings is woken where the mask touches the node. -/
theorem wakeIfTouched_up {ps : List Part} {m : BellMask} (hu : Unchanged ps s t) (htouches : touches s m = true)
    (haccess : s.pins.access = false) (hstraps : Part.straps ∉ ps := by decide) (hpins : Part.pins ∉ ps := by decide) :
    bankUp (wakeIfTouched m t).drive.mode = true ∧ (wakeIfTouched m t).drive.idle = 0 := by
  rw [wakeIfTouched, if_pos ((touches_congr (hu .straps hstraps) m).trans htouches)]
  have hsame : t.pins = s.pins := hu .pins hpins
  exact wakeBank_up (by rw [hsame, haccess])

/-! ### A VACANT record taken (R106, R111) -/

theorem takeVacant_floor (h : Holder) (s : State) : (takeVacant h s).floor = { holder := some h, fading := none } := by
  have hfading : (purgeTest (purgeFading s)).floor.fading = none := purge_fading_none _ (purgeFading_fading s)
  rw [takeVacant, wakeIfTouched_unchanged _ _ .floor (by decide), writeHolder_floor, hfading]

theorem mem_takeVacant (h : Holder) (s : State) (e : Entry) : e ∈ (takeVacant h s).queue ↔
    e ∈ s.queue ∧ e.owner ≠ .test ∧ ∀ f, s.floor.fading = some f → e.owner ≠ .perf f.perf := by
  rw [takeVacant, wakeIfTouched_unchanged _ _ .queue (by decide), writeHolder, mem_purgeTest, mem_purgeFading]
  tauto

theorem takeVacant_wakes (htouches : touches s h.mask = true) (haccess : s.pins.access = false) :
    bankUp (takeVacant h s).drive.mode = true ∧ (takeVacant h s).drive.idle = 0 :=
  wakeIfTouched_up (((purgeFading_unchanged s).andThen (purgeTest_unchanged _) (fun _ hq => hq)).andThen
    (writeHolder_unchanged h _)) htouches haccess

/-! ### A holder that fades (R107, R109, R113, R115) -/

theorem checkFading_queue (s : State) : (checkFading s).queue = s.queue := checkFading_unchanged s .queue (by decide)

theorem checkFading_holder (s : State) : (checkFading s).floor.holder = s.floor.holder := (checkFading_kept s).1

theorem checkFading_stays (hf : s.floor.fading = some f) (he : ∃ e ∈ s.queue, e.owner = .perf f.perf) :
    (checkFading s).floor.fading = some f := by
  have hany : (s.queue.any fun e => e.ownedBy f.perf) = true := by
    obtain ⟨e, he, howner⟩ := he
    exact List.any_eq_true.mpr ⟨e, he, ownedBy_iff.mpr howner⟩
  rw [checkFading, hf]
  exact (congrArg (fun u : State => u.floor.fading) (if_pos hany)).trans hf

theorem checkFading_goes (hf : s.floor.fading = some f) (he : ∀ e ∈ s.queue, e.owner ≠ .perf f.perf) :
    (checkFading s).floor.fading = none := by
  have hany : ¬(s.queue.any fun e => e.ownedBy f.perf) = true := by
    rw [List.any_eq_true]
    rintro ⟨e, hm, howned⟩
    exact he e hm (ownedBy_iff.mp howned)
  rw [checkFading, hf]
  exact congrArg (fun u : State => u.floor.fading) (if_neg hany)

theorem vacate_of_fading (hf : s.floor.fading = some f) : vacate x s = dropHolder (purgePerf x.perf s) := by
  rw [vacate, hf]
  rfl

theorem vacate_of_none (hf : s.floor.fading = none) : vacate x s =
    checkFading { s with floor := { holder := none, fading := some (fadingFrom x 0 none) } } := by
  rw [vacate, hf]

theorem vacate_holder (x : Holder) (s : State) : (vacate x s).floor.holder = none := by
  cases hf : s.floor.fading with
  | none => rw [vacate_of_none hf, checkFading_holder]
  | some f => rw [vacate_of_fading hf]; rfl

end

/-- Settles O30. -/
theorem releaseAndLapse : Obligations.ReleaseAndLapse := by
  refine ⟨fun rx seq r p s hp hperf => ⟨fun hother => ?_, fun x hx hxp => ?_⟩, fun x s hp hx hover => ⟨_, ?_, rfl⟩,
    fun x s hx => ⟨vacate_holder x s, vacate_unchanged x s, fun hf => ?_, fun f hf => ⟨fun e => ?_, fun hne => ?_⟩⟩⟩
  · subst hperf
    refine (act_of_powered (fun s => applyRelease (heardPerf rx seq) (acknowledge s)) hp).trans (congrArg _ ?_)
    rw [applyRelease]
    split
    · rfl
    next y hy => exact if_neg (hother y hy)
  · subst hperf
    refine (act_of_powered (fun s => applyRelease (heardPerf rx seq) (acknowledge s)) hp).trans (congrArg _ ?_)
    have hheld : (acknowledge s).floor.holder = some x := hx
    rw [applyRelease, hheld]
    exact if_pos hxp
  · have hdue : lapseDue s = true := by
      rw [lapseDue, hx]
      exact decide_eq_true hover
    refine (act_due (f := applyLapse) hp hdue).trans (congrArg _ ?_)
    rw [applyLapse, hx]
  · rw [vacate_of_none hf, checkFading_queue]
    exact ⟨rfl, fun he => checkFading_stays rfl he, fun he => checkFading_goes rfl he⟩
  · rw [vacate_of_fading hf]
    exact mem_purgePerf x.perf s e
  · rw [vacate_of_fading hf, dropHolder_floor, purgePerf_floor_of_other fun g hg => ?_]
    · exact hf
    · rw [hf] at hg
      cases hg
      exact hne

/-! ### STOP (R114) -/

section
variable {s t : State} {p : PerfId} {x : Holder} {f : FadingPart}

theorem isFading_iff (s : State) (p : PerfId) : isFading s p = true ↔ ∃ f, s.floor.fading = some f ∧ f.perf = p := by
  rw [isFading]
  cases s.floor.fading <;> simp

theorem stopPerf_of_holder (h : ∃ x, s.floor.holder = some x ∧ x.perf = p) :
    stopPerf p s = dropHolder (purgePerf p s) := if_pos (isHolder_iff.mpr h)

theorem stopPerf_of_fading (h : ∀ x, s.floor.holder = some x → x.perf ≠ p) (hf : s.floor.fading = some f)
    (hp : f.perf = p) : stopPerf p s = clearFading (purgePerf p s) := by
  have hnot : ¬isHolder s p = true := fun hh => by
    obtain ⟨x, hx, hxp⟩ := isHolder_iff.mp hh
    exact h x hx hxp
  rw [stopPerf, if_neg hnot, if_pos ((isFading_iff s p).mpr ⟨f, hf, hp⟩), purgeFading, hf]
  dsimp only
  rw [hp]

theorem stopPerf_of_neither (h : ∀ x, s.floor.holder = some x → x.perf ≠ p) (hf : ∀ f, s.floor.fading = some f → f.perf ≠ p) :
    stopPerf p s = s := by
  have hnot : ¬isHolder s p = true := fun hh => by
    obtain ⟨x, hx, hxp⟩ := isHolder_iff.mp hh
    exact h x hx hxp
  have hnot2 : ¬isFading s p = true := fun hh => by
    obtain ⟨f, hg, hgp⟩ := (isFading_iff s p).mp hh
    exact hf f hg hgp
  rw [stopPerf, if_neg hnot, if_neg hnot2]

theorem giveNotices_floor (ns : List Notice) (s : State) : (giveNotices ns s).floor = s.floor :=
  giveNotices_unchanged ns s .floor (by decide)

theorem mem_purgeHolder (s : State) (e : Entry) : e ∈ (purgeHolder s).queue ↔
    e ∈ s.queue ∧ ∀ x, s.floor.holder = some x → e.owner ≠ .perf x.perf := by
  unfold purgeHolder
  cases s.floor.holder with
  | none => simp
  | some x => simpa using mem_purgePerf x.perf s e

/-- Entries of no fading performance are those of none, whether the holder's purge cleared the fading part or not. -/
theorem purgeHolder_fading_iff (s : State) {e : Entry} (he : e ∈ (purgeHolder s).queue) :
    (∀ f, (purgeHolder s).floor.fading = some f → e.owner ≠ .perf f.perf) ↔
      ∀ f, s.floor.fading = some f → e.owner ≠ .perf f.perf := by
  cases hh : s.floor.holder with
  | none => rw [purgeHolder, hh]
  | some x =>
    have heq : purgeHolder s = purgePerf x.perf s := by rw [purgeHolder, hh]
    by_cases hsame : ∃ f, s.floor.fading = some f ∧ f.perf = x.perf
    · obtain ⟨f, hf, hfx⟩ := hsame
      rw [heq] at he ⊢
      have hnot := ((mem_purgePerf x.perf s e).mp he).2
      refine ⟨fun _ g hg => ?_, fun _ g hg => ?_⟩
      · rw [hf] at hg
        cases hg
        rwa [hfx]
      · obtain ⟨g', hg', hperf, -⟩ := (purge_kept _ s).2 g hg
        rw [hf] at hg'
        cases hg'
        rwa [hperf, hfx]
    · rw [heq, purgePerf_floor_of_other fun f hf hfx => hsame ⟨f, hf, hfx⟩]

theorem stopFloorRecord_floor (s : State) : (stopFloorRecord s).floor = { holder := none, fading := none } := by
  have hfading : (purgeTest (purgeFading (purgeHolder s))).floor.fading = none := purge_fading_none _ (purgeFading_fading _)
  rw [stopFloorRecord, dropHolder_floor, hfading]

theorem mem_stopFloorRecord (s : State) (e : Entry) : e ∈ (stopFloorRecord s).queue ↔ e ∈ s.queue ∧ e.owner ≠ .test ∧
    (∀ x, s.floor.holder = some x → e.owner ≠ .perf x.perf) ∧
    (∀ f, s.floor.fading = some f → e.owner ≠ .perf f.perf) := by
  have hmem : e ∈ (stopFloorRecord s).queue ↔ (e ∈ (purgeHolder s).queue ∧
      ∀ f, s.floor.fading = some f → e.owner ≠ .perf f.perf) ∧ e.owner ≠ .test := by
    rw [stopFloorRecord, dropHolder, mem_purgeTest, mem_purgeFading]
    exact and_congr_left fun _ => and_congr_right (purgeHolder_fading_iff s)
  rw [hmem, mem_purgeHolder]
  tauto

end

/-- Settles O31. -/
theorem stopResult : Obligations.StopResult := by
  refine ⟨fun h p s hp => ?_, fun h s hp => ?_⟩
  · refine ⟨stopPerf p (acknowledge s), applyStopPerf p (acknowledge s),
      act_of_powered (fun s => stopReply h (applyStopPerf p (acknowledge s))) hp, rfl,
      giveNotices_floor _ _, fun hholder => ?_, fun hother hfading => ?_, fun hother hfading => ?_,
      stopPerf_unchanged p (acknowledge s)⟩
    · rw [stopPerf_of_holder (s := acknowledge s) hholder]
      refine ⟨rfl, purge_fading_none (s := acknowledge s) _, fun f hf hne => ?_, mem_purgePerf p (acknowledge s)⟩
      have hfloor : (purgePerf p (acknowledge s)).floor = (acknowledge s).floor := purgePerf_floor_of_other fun g hg => by
        rw [acknowledge_floor, hf] at hg
        cases hg
        exact hne
      exact (congrArg FloorRecord.fading hfloor).trans hf
    · obtain ⟨f, hf, hfp⟩ := hfading
      rw [stopPerf_of_fading (s := acknowledge s) hother hf hfp]
      refine ⟨?_, mem_purgePerf p (acknowledge s)⟩
      have hholder : (purgePerf p (acknowledge s)).floor.holder = s.floor.holder := purge_holder _ _
      rw [clearFading_floor, hholder]
    · exact stopPerf_of_neither (s := acknowledge s) hother hfading
  · have hfloor := stopFloorRecord_floor (acknowledge s)
    refine ⟨stopFloorRecord (acknowledge s), applyStopFloor (acknowledge s), ?_, ?_, hfloor, mem_stopFloorRecord _,
      stopFloorRecord_unchanged _⟩
    · have hvacant : (applyStopFloor (acknowledge s)).floor = { holder := none, fading := none } :=
        (giveNotices_floor _ _).trans hfloor
      refine (act_of_powered (fun s => stopReply h (applyStopFloor (acknowledge s))) hp).trans (congrArg _ ?_)
      rw [stopReply, hvacant]
      rfl
    · rw [applyStopFloor, vacantNotice, hfloor]
      dsimp only
      have hown : ownOnFloor (acknowledge s) = ownOnFloor s := rfl
      rw [hown, acknowledge_floor]
      simp

/-! ### A CLAIM (R105 to R108) -/

section
variable {s t : State} {p : PerfId} {x h : Holder} {f : FadingPart}

theorem judge_renewed (hx : s.floor.holder = some x) (hperf : x.perf = h.perf) : judge s h = .renewed := by
  rw [judge, hx]
  exact if_pos hperf

/-- A CLAIM of another performance, judged. -/
theorem judge_of_other (hx : s.floor.holder = some x) (hperf : x.perf ≠ h.perf) : judge s h =
    if x.tag = h.tag ∧ (dist h.start x.start).natAbs ≤ 8000 then .duplicate
    else if x.priority.level < h.priority.level then .preemption else .refusal := by
  rw [judge, hx]
  refine (if_neg hperf).trans ?_
  simp only [withinDuplicate, decide_eq_true_iff]
  rfl

/-- The record between the purges of a preemption and the wake. -/
def preempted (old new : Holder) (s : State) : State :=
  checkFading { purge (fromCutoff old.perf (minus new.start Config.gateLead)) (purgeFading s) with
    floor := { holder := some new, fading := some (fadingFrom old 1 (some (minus new.start Config.gateLead))) } }

theorem preempt_eq (old new : Holder) (s : State) :
    preempt old new s = raise .floorPreemptions (wakeIfTouched new.mask (preempted old new s)) := by
  rw [preempt, preempted]

theorem preempt_kept (old new : Holder) (s : State) : (preempt old new s).floor = (preempted old new s).floor ∧
    (preempt old new s).queue = (preempted old new s).queue := by
  have hu : Unchanged [.drive, .counters] (preempted old new s) (preempt old new s) := by
    rw [preempt_eq]
    exact (wakeIfTouched_unchanged new.mask _).widen.andThen (raise_unchanged _ _)
  exact ⟨hu .floor (by decide), hu .queue (by decide)⟩

theorem mem_preempt (old new : Holder) (s : State) (e : Entry) : e ∈ (preempt old new s).queue ↔ e ∈ s.queue ∧
    (e.owner = .perf old.perf → isBefore e.impact (minus new.start Config.gateLead) = true) ∧
    ∀ f, s.floor.fading = some f → e.owner ≠ .perf f.perf := by
  have hcutoff : fromCutoff old.perf (minus new.start Config.gateLead) e = false ↔
      (e.owner = .perf old.perf → isBefore e.impact (minus new.start Config.gateLead) = true) := by
    rw [fromCutoff, Bool.and_eq_false_iff, not_ownedBy_iff, ne_eq, ← imp_iff_not_or, reached, isBefore,
      decide_eq_false_iff_not, decide_eq_true_iff, not_le]
  rw [(preempt_kept old new s).2, preempted, checkFading_queue]
  dsimp only
  rw [mem_purge, mem_purgeFading, hcutoff]
  exact ⟨fun ⟨⟨hm, hfading⟩, hbefore⟩ => ⟨hm, hbefore, hfading⟩, fun ⟨hm, hbefore, hfading⟩ => ⟨⟨hm, hfading⟩, hbefore⟩⟩

theorem preempt_holder (old new : Holder) (s : State) : (preempt old new s).floor.holder = some new := by
  rw [(preempt_kept old new s).1, preempted, checkFading_holder]

theorem preempt_fades (old new : Holder) (s : State) :
    ((∃ e ∈ (preempt old new s).queue, e.owner = .perf old.perf) → (preempt old new s).floor.fading = some
      { perf := old.perf, priority := old.priority, reduction := 1, launches := 0
        cutoff := some (minus new.start Config.gateLead) }) ∧
    ((∀ e ∈ (preempt old new s).queue, e.owner ≠ .perf old.perf) → (preempt old new s).floor.fading = none) := by
  obtain ⟨hfloor, hqueue⟩ := preempt_kept old new s
  rw [hfloor, hqueue]
  constructor <;> intro he <;> rw [preempted, checkFading_queue] at he
  · exact checkFading_stays rfl he
  · exact checkFading_goes rfl he

theorem gateLead_eq : Config.gateLead = 4000 := rfl

theorem preempted_unchanged (old new : Holder) (s : State) : Unchanged removal s (preempted old new s) := by
  have hpurged : Unchanged removal s (purge (fromCutoff old.perf (minus new.start Config.gateLead)) (purgeFading s)) :=
    (purgeFading_unchanged s).andThen (purge_unchanged _ _) (fun _ hq => hq)
  refine Unchanged.andThen (hpurged.andThen (qs := [.floor]) (u := { purge _ (purgeFading s) with floor := _ }) ?_)
    (checkFading_unchanged _)
  intro q hq
  cases q <;> first | rfl | simp at hq

theorem preempt_wakes {old new : Holder} (htouches : touches s new.mask = true) (haccess : s.pins.access = false) :
    bankUp (preempt old new s).drive.mode = true ∧ (preempt old new s).drive.idle = 0 := by
  rw [preempt_eq]
  exact wakeIfTouched_up (preempted_unchanged old new s) htouches haccess

theorem preempt_raised (old new : Holder) (s : State) : Raised .floorPreemptions s (preempt old new s) := by
  have hcounter : readCounter (wakeIfTouched new.mask (preempted old new s)) .floorPreemptions =
      readCounter s .floorPreemptions := by
    have hcounters : (wakeIfTouched new.mask (preempted old new s)).counters =
        (purge (fromCutoff old.perf (minus new.start Config.gateLead)) (purgeFading s)).counters :=
      (wakeIfTouched_unchanged _ _ .counters (by decide)).trans (checkFading_unchanged _ .counters (by decide))
    rw [readCounter_of_same hcounters, purge_readCounter _ _ (by decide), purgeFading_readCounter _ (by decide)]
  rw [preempt_eq, Raised, ← hcounter]
  exact raise_raised _ _

theorem exec_claim (rx : Heard) (pr : Priority) (b : FloorBody) (hp : s.powered = true) : exec (.claim rx pr b) s =
    .next (applyClaim (holderFrom (heardPerf rx b.seq) pr b rx.stamp.count) (acknowledge s)) :=
  act_of_powered (fun s => applyClaim (holderFrom (heardPerf rx b.seq) pr b rx.stamp.count) (acknowledge s)) hp

end

/-- Settles O27. -/
theorem claimResult : Obligations.ClaimResult := by
  intro rx pr b p s hp hperf
  subst hperf
  rw [exec_claim rx pr b hp]
  generalize hh : holderFrom (heardPerf rx b.seq) pr b rx.stamp.count = h
  have hhperf : h.perf = { station := rx.sender, seq := b.seq } := by rw [← hh]; rfl
  have hown (n : Notice) (q : PerfId) : ownNotice (acknowledge s) q n = ownNotice s q n := rfl
  refine ⟨fun hnone => ⟨takeVacant h (acknowledge s), ?_, ?_, ?_, mem_takeVacant h (acknowledge s),
      fun htouches haccess => ?_, takeVacant_unchanged h _⟩, fun x hx hxp => ?_, fun x hx hxp =>
      ⟨fun hdup => ?_, fun hdup => ⟨fun hle => ?_, fun hlt => ?_⟩⟩⟩
  · have hjudge : judge (acknowledge s) h = .acceptance := by rw [judge, acknowledge_floor, hnone]
    rw [applyClaim, hjudge, ← hh]
    rfl
  · rw [takeVacant_floor]
  · rw [takeVacant_floor, ← hh]
    rfl
  · exact takeVacant_wakes (s := acknowledge s) (by rw [← hh]; exact htouches) haccess
  · have hjudge : judge (acknowledge s) h = .renewed := judge_renewed (s := acknowledge s) hx (hxp.trans hhperf.symm)
    rw [applyClaim, hjudge]
    dsimp only
    rw [refresh_of_held (s := acknowledge s) _ _ hx, ← hh]
    rfl
  all_goals
    have hjudge := judge_of_other (s := acknowledge s) (h := h) hx (by rw [hhperf]; exact hxp)
  · rw [if_pos (by rw [← hh]; exact hdup)] at hjudge
    rw [applyClaim, hjudge, ← hh]
    rfl
  · rw [if_neg (by rw [← hh]; exact hdup), if_neg (by rw [← hh]; exact Nat.not_lt.mpr hle)] at hjudge
    rw [applyClaim, hjudge, ← hh]
    rfl
  · rw [if_neg (by rw [← hh]; exact hdup), if_pos (by rw [← hh]; exact hlt)] at hjudge
    obtain ⟨hstays, hgoes⟩ := preempt_fades x h (acknowledge s)
    have hstart : h.start = b.start.toNat := by rw [← hh]; rfl
    have hcutoff : minus h.start Config.gateLead = minus b.start.toNat 4000 := by rw [hstart, gateLead_eq]
    rw [hcutoff] at hstays
    refine ⟨preempt x h (acknowledge s), ?_, ?_, hstays, hgoes, fun e => ?_, fun htouches haccess => ?_,
      preempt_raised x h (acknowledge s), preempt_unchanged x h _⟩
    · have hheld : (acknowledge s).floor.holder = some x := hx
      rw [applyClaim, hjudge]
      dsimp only
      rw [hheld]
      dsimp only
      rw [hown, hown, hhperf]
    · rw [preempt_holder, ← hh]
      rfl
    · rw [mem_preempt, hcutoff]
      rfl
    · exact preempt_wakes (s := acknowledge s) (by rw [← hh]; exact htouches) haccess

/-! ### A FLOOR beacon of another performance (R110 to R112) -/

section
variable {s t : State} {p : PerfId} {x b : Holder} {f : FadingPart}

theorem beaconWins_true (h : x.priority.level < b.priority.level ∨ (x.priority = b.priority ∧
    (isBefore b.start x.start = true ∨ (isBefore x.start b.start = false ∧ isBefore b.start x.start = false ∧
      b.perf.station < x.perf.station)))) : beaconWins b x = true := by
  unfold beaconWins
  obtain hlt | ⟨heq, hstart⟩ := h
  · rw [if_pos (Nat.ne_of_gt hlt)]
    exact decide_eq_true hlt
  rw [if_neg (by rw [heq]; exact fun hne => hne rfl)]
  obtain hbefore | ⟨hnot, hnot2, hstation⟩ := hstart
  · rw [if_pos hbefore]
  · rw [if_neg (by rw [hnot2]; exact Bool.false_ne_true), if_neg (by rw [hnot]; exact Bool.false_ne_true)]
    exact decide_eq_true hstation

theorem beaconWins_false (h : b.priority.level < x.priority.level ∨ (x.priority = b.priority ∧
    isBefore b.start x.start = false ∧ (isBefore x.start b.start = true ∨ x.perf.station ≤ b.perf.station))) :
    beaconWins b x = false := by
  unfold beaconWins
  obtain hlt | ⟨heq, hnot, hstart⟩ := h
  · rw [if_pos (Nat.ne_of_lt hlt)]
    exact decide_eq_false (Nat.lt_asymm hlt)
  rw [if_neg (by rw [heq]; exact fun hne => hne rfl), if_neg (by rw [hnot]; exact Bool.false_ne_true)]
  obtain hbefore | hstation := hstart
  · rw [if_pos hbefore]
  · split
    · rfl
    · exact decide_eq_false (Fin.not_lt.mpr hstation)

/-- The record and the queue between the purges of a contest and the wake. -/
def contested (x b : Holder) (s : State) : State := writeHolder b (purgePerf x.perf (purgeIfFading b.perf s))

theorem replaceHolder_eq (x b : Holder) (s : State) :
    replaceHolder x b s = raise .floorContests (wakeIfTouched b.mask (contested x b s)) := rfl

theorem contested_unchanged (x b : Holder) (s : State) : Unchanged removal s (contested x b s) :=
  ((purgeIfFading_unchanged b.perf s).andThen (purgePerf_unchanged x.perf _)).andThen (writeHolder_unchanged b _)

theorem replaceHolder_kept (x b : Holder) (s : State) : (replaceHolder x b s).floor = (contested x b s).floor ∧
    (replaceHolder x b s).queue = (contested x b s).queue := by
  have hu : Unchanged [.drive, .counters] (contested x b s) (replaceHolder x b s) := by
    rw [replaceHolder_eq]
    exact (wakeIfTouched_unchanged b.mask _).widen.andThen (raise_unchanged _ _)
  exact ⟨hu .floor (by decide), hu .queue (by decide)⟩

theorem purgeIfFading_of_other (h : ∀ f, s.floor.fading = some f → f.perf ≠ p) : purgeIfFading p s = s := by
  rw [purgeIfFading]
  split
  · rfl
  next f hf => exact if_neg (h f hf)

theorem purgeIfFading_of_same (hf : s.floor.fading = some f) (hp : f.perf = p) : purgeIfFading p s = purgeFading s := by
  rw [purgeIfFading, hf]
  exact if_pos hp

theorem mem_purgeIfFading (p : PerfId) (s : State) (e : Entry) : e ∈ (purgeIfFading p s).queue ↔
    e ∈ s.queue ∧ ∀ f, s.floor.fading = some f → f.perf = p → e.owner ≠ .perf p := by
  by_cases h : ∃ f, s.floor.fading = some f ∧ f.perf = p
  · obtain ⟨f, hf, hp⟩ := h
    rw [purgeIfFading_of_same hf hp, mem_purgeFading, hf]
    simp [hp]
  · rw [purgeIfFading_of_other fun f hf hp => h ⟨f, hf, hp⟩]
    exact (and_iff_left fun f hf hp => absurd ⟨f, hf, hp⟩ h).symm

theorem mem_replaceHolder (x b : Holder) (s : State) (e : Entry) : e ∈ (replaceHolder x b s).queue ↔ e ∈ s.queue ∧
    e.owner ≠ .perf x.perf ∧ ∀ f, s.floor.fading = some f → f.perf = b.perf → e.owner ≠ .perf b.perf := by
  rw [(replaceHolder_kept x b s).2, contested, writeHolder, mem_purgePerf, mem_purgeIfFading]
  tauto

theorem replaceHolder_fading (x b : Holder) (s : State) : (replaceHolder x b s).floor =
    { holder := some b, fading := (purgePerf x.perf (purgeIfFading b.perf s)).floor.fading } := by
  rw [(replaceHolder_kept x b s).1, contested, writeHolder_floor]

theorem replaceHolder_no_fading (h : s.floor.fading = none ∨ ∃ f, s.floor.fading = some f ∧ f.perf = b.perf) :
    (replaceHolder x b s).floor.fading = none := by
  rw [replaceHolder_fading]
  refine purge_fading_none _ ?_
  obtain hnone | ⟨f, hf, hp⟩ := h
  · rw [purgeIfFading_of_other (fun f hf => by rw [hnone] at hf; cases hf), hnone]
  · rw [purgeIfFading_of_same hf hp, purgeFading_fading]

theorem replaceHolder_keeps_fading (hf : s.floor.fading = some f) (hb : f.perf ≠ b.perf) (hx : f.perf ≠ x.perf) :
    (replaceHolder x b s).floor.fading = some f := by
  have honly {g : FadingPart} (hg : s.floor.fading = some g) : g = f := Option.some.inj (hg.symm.trans hf)
  rw [replaceHolder_fading, purgeIfFading_of_other (fun g hg => by rw [honly hg]; exact hb),
    purgePerf_floor_of_other fun g hg => by rw [honly hg]; exact hx, hf]

theorem replaceHolder_wakes (htouches : touches s b.mask = true) (haccess : s.pins.access = false) :
    bankUp (replaceHolder x b s).drive.mode = true ∧ (replaceHolder x b s).drive.idle = 0 := by
  rw [replaceHolder_eq]
  exact wakeIfTouched_up (contested_unchanged x b s) htouches haccess

theorem replaceHolder_raised (x b : Holder) (s : State) : Raised .floorContests s (replaceHolder x b s) := by
  have hfading : readCounter (purgeIfFading b.perf s) .floorContests = readCounter s .floorContests := by
    unfold purgeIfFading
    split
    · rfl
    split
    · exact purgeFading_readCounter s (by decide)
    · rfl
  have hcounter : readCounter (wakeIfTouched b.mask (contested x b s)) .floorContests = readCounter s .floorContests := by
    have hcounters : (wakeIfTouched b.mask (contested x b s)).counters =
        (purgePerf x.perf (purgeIfFading b.perf s)).counters :=
      (wakeIfTouched_unchanged _ _ .counters (by decide)).trans (writeHolder_unchanged b _ .counters (by decide))
    rw [readCounter_of_same hcounters, purgePerf, purge_readCounter _ _ (by decide), hfading]
  rw [replaceHolder_eq, Raised, ← hcounter]
  exact raise_raised _ _

end

/-- Settles O29. -/
theorem floorBeaconAdoptedOrContested : Obligations.FloorBeaconAdoptedOrContested := by
  intro rx pr b p n s hp hperf hn
  subst hperf
  have hexec : exec (.floor rx pr b) s = .next (applyFloor n (acknowledge s)) := by
    rw [exec_floor_of_powered rx pr b hp, hn]
    rfl
  have hnperf : n.perf = { station := rx.sender, seq := b.seq } := by rw [hn]
  have hown (n : Notice) (q : PerfId) : ownNotice (acknowledge s) q n = ownNotice s q n := rfl
  have hmask : n.mask = b.mask := by rw [hn]
  rw [hexec]
  refine ⟨fun hnone => ⟨takeVacant n (acknowledge s), ?_, takeVacant_floor n _, mem_takeVacant n (acknowledge s),
      fun htouches haccess => takeVacant_wakes (s := acknowledge s) (by rw [hmask]; exact htouches) haccess,
      takeVacant_unchanged n _⟩, fun x hx hxp => ⟨fun hwins => ⟨replaceHolder x n (acknowledge s), ?_, ?_, fun e => ?_,
        fun hnone => replaceHolder_no_fading (.inl hnone), fun f hf hfp => replaceHolder_no_fading (.inr ⟨f, hf, ?_⟩),
        fun f hf hfp hfx => replaceHolder_keeps_fading hf ?_ hfx, fun htouches haccess => ?_,
        replaceHolder_raised x n (acknowledge s), replaceHolder_unchanged x n _⟩, fun hloses => ?_⟩⟩
  · have hvacant : (acknowledge s).floor.holder = none := hnone
    rw [applyFloor, hvacant]
    dsimp only
    rw [hown, hnperf]
  · have hheld : (acknowledge s).floor.holder = some x := hx
    rw [applyFloor, hheld]
    dsimp only
    rw [if_neg (by rw [hnperf]; exact hxp), if_pos (beaconWins_true (by rw [hn]; exact hwins)), hown, hown, hnperf]
  · rw [replaceHolder_fading]
  · rw [mem_replaceHolder, hnperf]
    rfl
  · rw [hnperf]; exact hfp
  · rw [hnperf]; exact hfp
  · exact replaceHolder_wakes (s := acknowledge s) (by rw [hmask]; exact htouches) haccess
  · have hheld : (acknowledge s).floor.holder = some x := hx
    rw [applyFloor, hheld]
    dsimp only
    rw [if_neg (by rw [hnperf]; exact hxp),
      if_neg (by rw [beaconWins_false (by rw [hn]; exact hloses)]; exact Bool.false_ne_true), hown, hnperf]

end Sys2Proof.Machine
end

