-- ==== Sys2Proof/Proofs/LibraryRules.lean ====
section
/-! Loading a tune, deleting a part and the OVERLAY flag (R147, R148, R150 to R154). -/

namespace Sys2Proof.Machine

-- One proof after another: many at once would ask for more threads than the memory limit allows.
set_option Elab.async false

/-! ### Headers, events and checksums -/

theorem readHeader_none {f : LoadFields} (h : f.priority = 0#2 ∨ f.tempo.toNat < 1 ∨ 4000 < f.tempo.toNat ∨
    f.count.toNat < 1 ∨ 2048 < f.count.toNat) : readHeader f = none := by
  unfold readHeader
  split
  · rfl
  next pr hpr =>
    refine if_neg fun hrange => ?_
    obtain hzero | hout := h
    · rw [hzero] at hpr
      cases hpr
    · omega

theorem readHeader_some {f : LoadFields} (hpr : f.priority ≠ 0#2) (ht1 : 1 ≤ f.tempo.toNat) (ht2 : f.tempo.toNat ≤ 4000)
    (hc1 : 1 ≤ f.count.toNat) (hc2 : f.count.toNat ≤ 2048) : ∃ x, readHeader f = some x ∧ x.tuneId = f.tuneId ∧
      x.rule = f.rule ∧ x.retry = f.retry ∧ x.tempo = f.tempo.toNat ∧ x.count = f.count.toNat ∧
      x.priority.level = f.priority.toNat := by
  obtain ⟨pr, hsome⟩ : ∃ pr, priorityOf f.priority = some pr := by
    cases hp : priorityOf f.priority with
    | some pr => exact ⟨pr, rfl⟩
    | none =>
      exfalso
      generalize f.priority = c at hpr hp
      revert c
      decide
  have hread : readHeader f = some { tuneId := f.tuneId, priority := pr, rule := f.rule, retry := f.retry
                                     tempo := f.tempo.toNat, count := f.count.toNat } := by
    rw [readHeader, hsome]
    exact if_pos ⟨ht1, ht2, hc1, hc2⟩
  exact ⟨_, hread, rfl, rfl, rfl, rfl, rfl, (priorityOf_eq_some_iff.mp hsome).symm⟩

/-- An event of a LOAD_DATA as it stands in a tune. -/
def eventRead (e : LoadEvent) : TuneEvent :=
  { delta := e.delta.toNat, bell := e.bell.toNat, velocity := e.velocity.toNat, duration := e.duration.toNat }

/-- An event is in range: its bell and velocity are, and one that is no REST has a velocity. -/
def EventInRange (e : LoadEvent) : Prop := e.bell.toNat ≤ 64 ∧ e.velocity.toNat ≤ 15 ∧ (e.bell = 0 ∨ e.velocity ≠ 0)

theorem velocity_pos_iff (v : BitVec 8) : 1 ≤ v.toNat ↔ v ≠ 0 := by
  rw [Nat.one_le_iff_ne_zero, ne_eq, ne_eq, ← BitVec.toNat_inj]
  rfl

theorem readTuneEvent_of_inRange {e : LoadEvent} (h : EventInRange e) : readTuneEvent e = some (eventRead e) := by
  obtain ⟨hbell, hvelocity, hrest⟩ := h
  exact if_pos ⟨hbell, hvelocity, hrest.imp_right (velocity_pos_iff _).mpr⟩

theorem readTuneEvent_of_not {e : LoadEvent} (h : ¬EventInRange e) : readTuneEvent e = none :=
  if_neg fun ⟨hbell, hvelocity, hrest⟩ => h ⟨hbell, hvelocity, hrest.imp_right (velocity_pos_iff _).mp⟩

theorem readTuneEvents_of_inRange {l : List LoadEvent} (h : ∀ e ∈ l, EventInRange e) :
    readTuneEvents l = some (l.map eventRead) := by
  induction l with
  | nil => rfl
  | cons e l ih =>
    rw [readTuneEvents, readTuneEvent_of_inRange (h e List.mem_cons_self),
      ih fun x hx => h x (List.mem_cons_of_mem e hx)]
    rfl

theorem readTuneEvents_of_not {l : List LoadEvent} {e : LoadEvent} (he : e ∈ l) (h : ¬EventInRange e) :
    readTuneEvents l = none := by
  induction l with
  | nil => cases he
  | cons x l ih =>
    rw [readTuneEvents]
    obtain rfl | he := List.mem_cons.mp he
    · rw [readTuneEvent_of_not h]
    · rw [ih he]
      cases readTuneEvent x <;> rfl

theorem readTuneEvents_length {l : List LoadEvent} {es : List TuneEvent} (h : readTuneEvents l = some es) :
    es.length = l.length := by
  by_cases hrange : ∀ e ∈ l, EventInRange e
  · rw [readTuneEvents_of_inRange hrange] at h
    rw [← Option.some.inj h, List.length_map]
  · obtain ⟨e, he, hnot⟩ : ∃ e ∈ l, ¬EventInRange e := by simpa using hrange
    rw [readTuneEvents_of_not he hnot] at h
    cases h

/-- The sum of R153, written over the numbered events. -/
theorem checksumFrom_eq (i : Nat) (l : List TuneEvent) : checksumFrom i l =
    ((l.zipIdx i).map fun e => e.1.delta + 3 * e.1.bell + 5 * e.1.velocity + 7 * e.1.duration + e.2).sum := by
  induction l generalizing i with
  | nil => rfl
  | cons e l ih => rw [checksumFrom, ih, List.zipIdx_cons, List.map_cons, List.sum_cons]

/-! ### The commands -/

section
variable {h : Service} {n : BitVec 8} {t : Fin 32} {s : State} {x : TuneHeader} {got : List TuneEvent} {loader : Fin 16}

theorem notHere_iff (s : State) (t : Fin 32) : notHere s t = true ↔ t.val < 8 ∧ s.library.overlay = false := by
  rw [notHere, Bool.and_eq_true, decide_eq_true_iff, Bool.not_eq_true']

theorem ite_of_false {α : Sort _} {b : Bool} {x y : α} (h : b = false) : (if b then x else y) = y :=
  if_neg (by rw [h]; exact Bool.false_ne_true)

theorem serveLoadBegin_read (hn : slotNumber n = some t) {f : LoadFields} (hf : readHeader f = some x) :
    serveLoadBegin h n f s = beginLoad h t x s := by
  simp only [serveLoadBegin, hn, hf]

theorem serveLoadBegin_unread {f : LoadFields} (hunread : slotNumber n = none ∨ readHeader f = none) :
    serveLoadBegin h n f s = reply h 12 .range .none s := by
  obtain hn | hf := hunread
  · simp only [serveLoadBegin, hn]
  · cases hn : slotNumber n <;> simp only [serveLoadBegin, hf, hn]

theorem serveLoadData_read {i : BitVec 16} {es : List LoadEvent} (hn : slotNumber n = some t) :
    serveLoadData h n i es s = loadInto h t i.toNat es s := by
  simp only [serveLoadData, hn]

theorem serveLoadData_unread {i : BitVec 16} {es : List LoadEvent} (hn : slotNumber n = none) :
    serveLoadData h n i es s = reply h 13 .range .none s := by
  simp only [serveLoadData, hn]

theorem serveLoadEnd_read {c : BitVec 16} (hn : slotNumber n = some t) : serveLoadEnd h n c s = endLoad h t c s := by
  simp only [serveLoadEnd, hn]

theorem serveLoadEnd_unread {c : BitVec 16} (hn : slotNumber n = none) :
    serveLoadEnd h n c s = reply h 14 .range .none s := by
  simp only [serveLoadEnd, hn]

theorem serveDelete_read (hn : slotNumber n = some t) : serveDelete h n s = deletePart h t s := by
  simp only [serveDelete, hn]

theorem serveDelete_unread (hn : slotNumber n = none) : serveDelete h n s = reply h 15 .range .none s := by
  simp only [serveDelete, hn]

/-- LOAD_DATA and LOAD_END for a part that is LOADING. -/
theorem loadInto_loading (i : Nat) (es : List LoadEvent) (hhere : notHere s t = false)
    (hpart : s.library.parts[t] = .loading x got loader) : loadInto h t i es s = takeEvents h t x got loader i es s := by
  rw [loadInto, ite_of_false hhere, hpart]

theorem endLoad_loading (c : BitVec 16) (hhere : notHere s t = false) (hpart : s.library.parts[t] = .loading x got loader) :
    endLoad h t c s = if h.heard.sender ≠ loader then reply h 14 .busy .none s else closeLoad h t x got c s := by
  rw [endLoad, ite_of_false hhere, hpart]

theorem loadInto_not_loading (i : Nat) (es : List LoadEvent) (hhere : notHere s t = false)
    (hpart : s.library.parts[t].isLoading = false) : loadInto h t i es s = reply h 13 .sequence .none s := by
  rw [loadInto, ite_of_false hhere]
  cases hp : s.library.parts[t] with
  | loading => rw [hp] at hpart; cases hpart
  | empty => rfl
  | valid => rfl

theorem endLoad_not_loading (c : BitVec 16) (hhere : notHere s t = false)
    (hpart : s.library.parts[t].isLoading = false) : endLoad h t c s = reply h 14 .sequence .none s := by
  rw [endLoad, ite_of_false hhere]
  cases hp : s.library.parts[t] with
  | loading => rw [hp] at hpart; cases hpart
  | empty => rfl
  | valid => rfl

/-- What LOAD_DATA and LOAD_END share: a part that is not here, not LOADING or not the sender's. -/
theorem load_refused {r : Result} (hcase : (notHere s t = true ∧ r = .notHere) ∨
    (notHere s t = false ∧ r = .sequence ∧ s.library.parts[t].isLoading = false) ∨
    (notHere s t = false ∧ r = .busy ∧ ∃ x got loader, s.library.parts[t] = .loading x got loader ∧ loader ≠ h.heard.sender)) :
    (∀ i es, loadInto h t i es s = reply h 13 r .none s) ∧ ∀ c, endLoad h t c s = reply h 14 r .none s := by
  obtain ⟨hnot, rfl⟩ | ⟨hhere, rfl, hpart⟩ | ⟨hhere, rfl, x, got, loader, hpart, hne⟩ := hcase
  · exact ⟨fun i es => if_pos hnot, fun c => if_pos hnot⟩
  · exact ⟨fun i es => loadInto_not_loading i es hhere hpart, fun c => endLoad_not_loading c hhere hpart⟩
  · refine ⟨fun i es => ?_, fun c => ?_⟩
    · rw [loadInto_loading i es hhere hpart]
      exact if_pos hne.symm
    · rw [endLoad_loading c hhere hpart]
      exact if_pos hne.symm

theorem takeEvents_sequence {i : Nat} {es : List LoadEvent} (hi : i ≠ got.length) :
    takeEvents h t x got h.heard.sender i es s = reply h 13 .sequence .none (setPart t .empty s) := by
  rw [takeEvents, if_neg (not_not_intro rfl), if_pos hi]

theorem takeEvents_taken {es : List LoadEvent} {vs : List TuneEvent} (hread : readTuneEvents es = some vs)
    (hroom : got.length + vs.length ≤ x.count) : takeEvents h t x got h.heard.sender got.length es s =
      reply h 13 .done (.next (got.length + vs.length)) (setPart t (.loading x (got ++ vs) h.heard.sender) s) := by
  rw [takeEvents, if_neg (not_not_intro rfl), if_neg (not_not_intro rfl), hread]
  exact if_neg (Nat.not_lt.mpr hroom)

theorem takeEvents_range {es : List LoadEvent} (hbad : readTuneEvents es = none ∨ x.count < got.length + es.length) :
    takeEvents h t x got h.heard.sender got.length es s = reply h 13 .range .none s := by
  rw [takeEvents, if_neg (not_not_intro rfl), if_neg (not_not_intro rfl)]
  cases hread : readTuneEvents es with
  | none => rfl
  | some vs =>
    obtain hnone | hmany := hbad
    · rw [hread] at hnone
      cases hnone
    · exact if_pos (by rw [readTuneEvents_length hread]; exact hmany)

theorem closeLoad_valid {c : BitVec 16} (hall : got.length = x.count) (hc : c = checksumOf got) :
    closeLoad h t x got c s = reply h 14 .done (.checksum c) (setPart t (.valid x (tuneMask got) got) s) := by
  subst hc
  exact if_pos ⟨hall, rfl⟩

theorem closeLoad_check {c : BitVec 16} (hbad : got.length ≠ x.count ∨ c ≠ checksumOf got) :
    closeLoad h t x got c s = reply h 14 .check (.checksum (checksumOf got)) (setPart t .empty s) := by
  refine if_neg fun ⟨hall, hc⟩ => ?_
  obtain hcount | hsum := hbad
  · exact hcount hall
  · exact hsum hc.symm

theorem overlayHeld_iff (s : State) : overlayHeld s = true ↔
    ∃ j : Fin 32, j.val < 8 ∧ (isLocked s j = true ∨ s.library.parts[j].isLoading = true) := by
  rw [overlayHeld, List.any_eq_true]
  constructor
  · rintro ⟨n, hn, hheld⟩
    have hlt : n < 8 := List.mem_range.mp (show n ∈ List.range 8 from hn)
    exact ⟨Fin.ofNat 32 n, by rw [Fin.val_ofNat]; omega, Bool.or_eq_true_iff.mp hheld⟩
  · rintro ⟨j, hj, hheld⟩
    have hval : Fin.ofNat 32 j.val = j := Fin.ext (Nat.mod_eq_of_lt j.isLt)
    refine ⟨j.val, show j.val ∈ List.range 8 from List.mem_range.mpr hj, ?_⟩
    dsimp only
    simp only [hval]
    exact Bool.or_eq_true_iff.mpr hheld

end

/-- Settles O45. -/
theorem libraryCommands : Obligations.LibraryCommands := by
  have hbegin {h : Service} {n : BitVec 8} {f : LoadFields} {s : State} (hp : s.powered = true)
      (ht : targeted s h = true) (hs : storing s = false) :
      exec (.loadBegin h n f) s = .next (serveLoadBegin h n f (acknowledge s)) :=
    act_writes 12 (serveLoadBegin h n f) hp ht hs
  have hdata {h : Service} {n : BitVec 8} {i : BitVec 16} {es : List LoadEvent} {s : State} (hp : s.powered = true)
      (ht : targeted s h = true) (hs : storing s = false) (hes : es ≠ []) :
      exec (.loadData h n i es) s = .next (serveLoadData h n i (es.take 2) (acknowledge s)) := by
    rw [exec_loadData hes]
    exact act_writes 13 (serveLoadData h n i (es.take 2)) hp ht hs
  have hend {h : Service} {n : BitVec 8} {c : BitVec 16} {s : State} (hp : s.powered = true)
      (ht : targeted s h = true) (hs : storing s = false) :
      exec (.loadEnd h n c) s = .next (serveLoadEnd h n c (acknowledge s)) := act_writes 14 (serveLoadEnd h n c) hp ht hs
  have hdelete {h : Service} {n : BitVec 8} {s : State} (hp : s.powered = true)
      (ht : targeted s h = true) (hs : storing s = false) :
      exec (.delete h n) s = .next (serveDelete h n (acknowledge s)) := act_writes 15 (serveDelete h n) hp ht hs
  refine ⟨fun h n t s hp ht hs hn => ?_, fun h n s hp ht hs hn => ?_, fun h n t s hp ht hs hn =>
    ⟨notHere_iff s t, fun r hcase => ?_⟩, fun f => ⟨readHeader_none, readHeader_some⟩, fun l => ⟨?_, fun hrange => ?_⟩,
    fun h n i s hp ht => act_onTarget _ hp ht⟩
  · have hslot := slotNumber_of_val hn
    refine ⟨fun f hf => ?_, fun f x hf => ⟨fun hnot => ?_, fun hhere hlock => ?_, fun hhere hlock hfull => ?_,
        fun hhere hlock hroom => ?_⟩, fun x got index events hhere hpart hmin hmax => ?_,
      fun x got c hhere hpart => ⟨fun hall hc => ?_, fun hbad => ?_⟩, fun got => congrArg _ (checksumFrom_eq 0 got),
      fun hnot => ?_, fun hhere hlock => ?_, fun hhere hlock => ?_, fun on => ⟨fun hheld => ?_, fun hfree => ?_⟩⟩
    · rw [hbegin hp ht hs, serveLoadBegin_unread (.inr hf)]
    · rw [hbegin hp ht hs, serveLoadBegin_read hslot hf]
      exact congrArg _ (if_pos hnot)
    · rw [hbegin hp ht hs, serveLoadBegin_read hslot hf]
      exact congrArg _ ((ite_of_false hhere).trans (if_pos hlock))
    · rw [hbegin hp ht hs, serveLoadBegin_read hslot hf]
      exact congrArg _ ((ite_of_false hhere).trans ((ite_of_false hlock).trans (if_pos hfull)))
    · refine ⟨_, ?_, rfl⟩
      rw [hbegin hp ht hs, serveLoadBegin_read hslot hf]
      exact congrArg _ ((ite_of_false hhere).trans ((ite_of_false hlock).trans (if_neg (Nat.not_lt.mpr hroom))))
    · have hes : events ≠ [] := fun hnil => by simp [hnil] at hmin
      have htake : events.take 2 = events := List.take_of_length_le hmax
      have hexec : exec (.loadData h n index events) s =
          .next (takeEvents h t x got h.heard.sender index.toNat events (acknowledge s)) := by
        rw [hdata hp ht hs hes, htake, serveLoadData_read hslot]
        exact congrArg _ (loadInto_loading (s := acknowledge s) index.toNat events hhere hpart)
      refine ⟨fun hi => ?_, fun es hi hread hroom => ?_, fun hi hbad => ?_⟩ <;> rw [hexec]
      · rw [takeEvents_sequence hi]
        rfl
      · rw [hi, takeEvents_taken hread hroom]
        rfl
      · rw [hi, takeEvents_range hbad]
    · rw [hend hp ht hs, serveLoadEnd_read hslot]
      refine congrArg _ ((endLoad_loading (s := acknowledge s) c hhere hpart).trans ?_)
      rw [if_neg (not_not_intro rfl), closeLoad_valid hall hc]
      rfl
    · rw [hend hp ht hs, serveLoadEnd_read hslot]
      refine congrArg _ ((endLoad_loading (s := acknowledge s) c hhere hpart).trans ?_)
      rw [if_neg (not_not_intro rfl), closeLoad_check hbad]
      rfl
    · rw [hdelete hp ht hs, serveDelete_read hslot]
      exact congrArg _ (if_pos hnot)
    · rw [hdelete hp ht hs, serveDelete_read hslot]
      exact congrArg _ ((ite_of_false hhere).trans (if_pos hlock))
    · rw [hdelete hp ht hs, serveDelete_read hslot]
      exact congrArg _ ((ite_of_false hhere).trans (ite_of_false hlock))
    · refine (act_writes 16 (serveOverlay h on) hp ht hs).trans (congrArg _ ?_)
      exact if_pos ((overlayHeld_iff (acknowledge s)).mpr hheld)
    · refine (act_writes 16 (serveOverlay h on) hp ht hs).trans (congrArg _ ?_)
      refine if_neg fun hheld => ?_
      obtain ⟨j, hj, hlock | hload⟩ := (overlayHeld_iff (acknowledge s)).mp hheld
      · exact absurd (hlock.symm.trans (hfree j hj).1) (by decide)
      · exact absurd (hload.symm.trans (hfree j hj).2) (by decide)
  · have hslot := slotNumber_of_large hn
    refine ⟨fun f => ?_, fun i e es => ?_, fun c => ?_, ?_⟩
    · rw [hbegin hp ht hs, serveLoadBegin_unread (.inl hslot)]
    · rw [hdata hp ht hs (List.cons_ne_nil e es), serveLoadData_unread hslot]
    · rw [hend hp ht hs, serveLoadEnd_unread hslot]
    · rw [hdelete hp ht hs, serveDelete_unread hslot]
  · have hslot := slotNumber_of_val hn
    obtain ⟨hload, hclose⟩ := load_refused (s := acknowledge s) (h := h) hcase
    refine ⟨fun i e es => ?_, fun c => ?_⟩
    · rw [hdata hp ht hs (List.cons_ne_nil e es), serveLoadData_read hslot, hload]
    · rw [hend hp ht hs, serveLoadEnd_read hslot, hclose]
  · rintro ⟨e, he, hbad⟩
    refine readTuneEvents_of_not he fun ⟨hbell, hvelocity, hrest⟩ => ?_
    obtain hbig | hbig | ⟨hnote, hzero⟩ := hbad
    · omega
    · omega
    · exact hrest.elim hnote fun hne => hne hzero
  · exact readTuneEvents_of_inRange hrange

end Sys2Proof.Machine
end

