-- ==== Sys2Proof/Proofs/StatusParts.lean ====
section
/-! The replies of several parts: the image a STATUS reply is sent from, the groups of its parts, and the handing of
their parts (R184, R189). -/

namespace Sys2Proof.Machine

-- One proof after another: many at once would ask for more threads than the memory limit allows.
set_option Elab.async false

/-! ### A sorted list, part by part -/

/-- A list in which a test, once met, is met from there on. -/
theorem filter_append_filter {α : Type} {p : α → Bool} {l : List α} (h : l.Pairwise fun x y => p x = true → p y = true) :
    (l.filter fun x => !p x) ++ l.filter p = l := by
  induction l with
  | nil => rfl
  | cons x l ih =>
    obtain ⟨hx, hl⟩ := List.pairwise_cons.mp h
    cases hp : p x with
    | false => simp [hp, ih hl]
    | true =>
      have hall : ∀ y ∈ l, p y = true := fun y hy => hx y hy hp
      have hnone : (l.filter fun x => !p x) = [] := List.filter_eq_nil_iff.mpr fun y hy => by simp [hall y hy]
      simp [hp, hnone, List.filter_eq_self.mpr hall]

/-- A list sorted by a key is the parts of each key one after another. -/
theorem flatMap_filter_key {α : Type} {key : α → Nat} (n : Nat) {l : List α} (hsorted : l.Pairwise fun x y => key x ≤ key y)
    (hlt : ∀ x ∈ l, key x < n) : ((List.range n).flatMap fun j => l.filter fun x => decide (key x = j)) = l := by
  induction n generalizing l with
  | zero =>
    cases l with
    | nil => rfl
    | cons x l => exact absurd (hlt x List.mem_cons_self) (Nat.not_lt_zero _)
  | succ n ih =>
    have hsplit : (l.filter fun x => !decide (n ≤ key x)) ++ (l.filter fun x => decide (n ≤ key x)) = l := by
      refine filter_append_filter (hsorted.imp fun hxy hx => ?_)
      exact decide_eq_true ((of_decide_eq_true hx).trans hxy)
    have hlast : (l.filter fun x => decide (key x = n)) = l.filter fun x => decide (n ≤ key x) := by
      refine List.filter_congr fun x hx => decide_eq_decide.mpr ?_
      have := hlt x hx
      omega
    have hfirst : ((List.range n).flatMap fun j => l.filter fun x => decide (key x = j)) =
        l.filter fun x => !decide (n ≤ key x) := by
      rw [← ih (hsorted.filter _) fun x hx => by simpa using (List.mem_filter.mp hx).2]
      refine List.flatMap_congr fun j hj => ?_
      have hj := List.mem_range.mp hj
      rw [List.filter_filter]
      refine List.filter_congr fun x _ => ?_
      by_cases hkey : key x = j <;> simp [hkey, hj]
    rw [List.range_succ, List.flatMap_append, hfirst, List.flatMap_singleton, hlast, hsplit]

theorem zipIdx_sorted {α : Type} (l : List α) (k : Nat) : (l.zipIdx k).Pairwise fun x y => x.2 ≤ y.2 := by
  induction l generalizing k with
  | nil => exact List.Pairwise.nil
  | cons a l ih =>
    rw [List.zipIdx_cons]
    refine List.pairwise_cons.mpr ⟨fun y hy => ?_, ih (k + 1)⟩
    exact Nat.le_of_succ_le (List.le_snd_of_mem_zipIdx hy)

/-! ### The groups of a STATUS reply -/

theorem latestEnd_mono (fresh : Nat) {i j : Nat} (h : i ≤ j) : latestEnd fresh i ≤ latestEnd fresh j := by
  induction h with
  | refl => exact Nat.le_refl _
  | step _ ih => exact ih.trans (Nat.le_max_left _ _)

theorem endPart_mono (fresh parts n : Nat) {i j : Nat} (h : i ≤ j) (hj : j < n) :
    endPart fresh parts n i ≤ endPart fresh parts n j := by
  have hlatest : latestEnd fresh (i + 1) ≤ latestEnd fresh (j + 1) := latestEnd_mono fresh (Nat.succ_le_succ h)
  unfold endPart
  split
  next hi =>
    have hij : i = j := by omega
    rw [← hij, if_pos hi]
  split
  · exact Nat.min_le_left _ _
  · exact min_le_min_left _ (Nat.add_le_add_left hlatest 1)

theorem endPart_bounds (fresh n i : Nat) {parts : Nat} (h : 1 ≤ parts) :
    1 ≤ endPart fresh parts n i ∧ endPart fresh parts n i ≤ parts := by
  unfold endPart
  split
  · exact ⟨h, Nat.le_refl _⟩
  · exact ⟨Nat.le_min.mpr ⟨h, Nat.le_add_right 1 _⟩, Nat.min_le_left _ _⟩

/-- Every group once, in its order: the groups that end in a part follow those of the parts before it. -/
theorem groupsOf_all (fresh : Nat) {n : Nat} (groups : List StatusGroup) (h : 1 ≤ n) :
    (List.range n).flatMap (fun j => groupsOf fresh n groups (j + 1)) = groups := by
  have hparts : (List.range n).flatMap (fun j => groupsOf fresh n groups (j + 1)) =
      ((List.range n).flatMap fun j => groups.zipIdx.filter fun x =>
        decide (endPart fresh n groups.length x.2 - 1 = j)).map Prod.fst := by
    rw [List.map_flatMap]
    refine List.flatMap_congr fun j _ => congrArg _ (List.filter_congr fun x _ => decide_eq_decide.mpr ?_)
    have := (endPart_bounds fresh groups.length x.2 h).1
    omega
  have hsorted : groups.zipIdx.Pairwise fun x y =>
      endPart fresh n groups.length x.2 - 1 ≤ endPart fresh n groups.length y.2 - 1 := by
    refine List.Pairwise.imp_of_mem (fun {x y} _ hy hxy => ?_) (zipIdx_sorted groups 0)
    have hlt : y.2 < groups.length := by simpa using List.snd_lt_of_mem_zipIdx hy
    exact Nat.sub_le_sub_right (endPart_mono fresh n groups.length hxy hlt) 1
  have hall : ∀ x ∈ groups.zipIdx, endPart fresh n groups.length x.2 - 1 < n := fun x _ => by
    have := endPart_bounds fresh groups.length x.2 h
    omega
  refine hparts.trans ((congrArg (List.map Prod.fst) (flatMap_filter_key n hsorted hall)).trans ?_)
  exact List.zipIdx_map_fst 0 groups

/-! ### The image of a STATUS reply -/

theorem channelReports_eq (s : State) : allChannels.map (channelReport s) = (List.finRange 8).map fun k =>
    { state := channelState s k, halted := s.halted.getLsbD k.val, conflict := s.channels[k].conflict
      hammer := s.channels[k].hammer, damperUp := s.channels[k].damperUp, drop := s.channels[k].drop
      lastFired := match s.channels[k].lastFired with
        | some l => some l.launch
        | none => none } := by
  have hall : allChannels = List.finRange 8 := by decide
  rw [hall]
  refine List.map_congr_left fun k _ => ?_
  rw [channelReport]
  cases s.channels[k].lastFired <;> rfl

theorem markAge_eq (s : State) : markAge s = (match s.straps.timeSource, s.time.lastMark with
    | true, some m => some (ticksSince s.time.count m.count)
    | _, _ => none) := by
  rw [markAge]
  cases s.straps.timeSource <;> cases s.time.lastMark <;> rfl

theorem beaconAge_eq (s : State) : beaconAge s = (match s.floor.holder with
    | some x => some (ticksSince s.time.count x.lastBeacon)
    | none => none) := by
  rw [beaconAge]
  cases s.floor.holder <;> rfl

theorem tuneState_eq (s : State) (n : Fin 32) : tuneState (resolveSlot s n) =
    if s.library.overlay = true ∨ 8 ≤ n.val
      then (match s.library.parts[n] with
        | .empty => .empty
        | .loading _ _ _ => .loading
        | .valid _ _ _ => .valid)
      else if n.val < 6 then .valid else .empty := by
  simp only [resolveSlot, Bool.or_eq_true, decide_eq_true_iff]
  split
  · cases s.library.parts[n] <;> rfl
  split <;> rfl

theorem tuneReports_eq (s : State) : (List.finRange 32).map (tuneReport s) = (List.finRange 32).map fun n =>
    { part := s.library.parts[n], locks := s.library.locks[n]
      state := if s.library.overlay = true ∨ 8 ≤ n.val
        then (match s.library.parts[n] with
          | .empty => .empty
          | .loading _ _ _ => .loading
          | .valid _ _ _ => .valid)
        else if n.val < 6 then .valid else .empty } := by
  refine List.map_congr_left fun n _ => ?_
  rw [tuneReport, tuneState_eq]

theorem txCount_eq (s : State) : txCount s = s.line.queue.length + if s.line.sending.isSome then 1 else 0 := by
  rw [txCount]
  cases s.line.sending <;> rfl

theorem allStations_eq : allStations = List.finRange 16 := by decide

/-! ### The parts of a reply -/

theorem statusFollow_bounds (s : State) : 1 ≤ statusFollow s ∧ statusFollow s ≤ 255 := by
  have := Nat.mod_lt (Config.statusParts s.free).toNat (by decide : 0 < 255)
  unfold statusFollow
  omega

theorem partBody_trace {records : List StrikeRecord} {n : Nat} {r : StrikeRecord} (h : records[n]? = some r) :
    partBody (.trace records) (n + 1) = .traceRecord r := by
  simp only [partBody, Nat.add_sub_cancel, h]

theorem sendPart_of {j : ReplyJob} {s : State} (hj : s.service.reply = some j) (hout : j.out = true)
    (hmore : j.next ≤ j.last) (hroom : txCount s < 8) : sendPart s =
      handPart j.command j.tag (decide (j.next = j.last)) j.next (partBody j.image j.next)
        (setReply { j with next := j.next + 1, out := false } s) := by
  have hdue : partDue s = some j := by
    rw [partDue, hj]
    exact if_pos ⟨hout, hmore, hroom⟩
  rw [sendPart, hdue]

theorem unlessReplying_busy {h : Service} {n : Nat} {f : State → State} {s : State} (hr : s.service.reply.isSome = true) :
    unlessReplying h n f s = reply h n .busy .none s := if_pos hr

theorem unlessReplying_free {h : Service} {n : Nat} {f : State → State} {s : State} (hr : s.service.reply = none) :
    unlessReplying h n f s = f s := if_neg (by rw [hr]; exact Bool.false_ne_true)

/-- Settles O47. -/
theorem statusAndTraceReplies : Obligations.StatusAndTraceReplies := by
  refine ⟨fun h s hp ht => ⟨fun hr => ⟨?_, ?_⟩, fun hr => ⟨statusFollow s, (statusFollow_bounds s).1,
      (statusFollow_bounds s).2, ?_⟩, fun hr => ?_⟩,
    fun j s hp hj hout hmore hroom => (act_of_powered sendPart hp).trans (congrArg _ (sendPart_of hj hout hmore hroom)),
    fun records n r hr => partBody_trace hr, fun fresh n i groups => ⟨rfl, groupsOf_all fresh groups⟩,
    fun s => ⟨?_, rfl, rfl⟩, fun x mask events loader => ⟨rfl, rfl, rfl⟩, fun c tag final n b s hroom => ?_⟩
  · exact (act_onTarget _ hp ht).trans (congrArg _ (unlessReplying_busy (s := acknowledge s) hr))
  · exact (act_onTarget _ hp ht).trans (congrArg _ (unlessReplying_busy (s := acknowledge s) hr))
  · exact (act_onTarget _ hp ht).trans (congrArg _ (unlessReplying_free (s := acknowledge s) hr))
  · refine (act_onTarget _ hp ht).trans (congrArg _ ((unlessReplying_free (s := acknowledge s) hr).trans ?_))
    have hempty : decide (s.trace.records.length = 0) = decide (s.trace.records = []) :=
      decide_eq_decide.mpr List.length_eq_zero_iff
    rw [← hempty]
    rfl
  · rw [statusImage, channelReports_eq, markAge_eq, beaconAge_eq, tuneReports_eq, txCount_eq, allStations_eq] <;> rfl
  · exact (handFrame_joined _ hroom).2

end Sys2Proof.Machine
end

