-- ==== Sys2Proof/Proofs/Admission.lean ====
section
/-! The stages of admission for orders and TEST entries alike, the insertion of an entry and what follows it, and the
test pulse (R20, R39 to R49). -/

namespace Sys2Proof.Machine

-- One proof after another: many at once would ask for more threads than the memory limit allows.
set_option Elab.async false

section
variable {s t : State} {k : Fin 8} {e : Entry}

/-! ### Records of removed entries (R56, R188) -/

theorem writeRecord_last (r : StrikeRecord) (hopen : s.trace.state ≠ .frozen) :
    (writeRecord r s).trace.records.getLast? = some r := by
  unfold writeRecord
  split
  next hfrozen => exact absurd hfrozen hopen
  next => exact List.getLast?_concat
  next =>
    dsimp only
    split <;> exact List.getLast?_concat

/-- The record written depends on the trace and the settings alone. -/
theorem writeRecord_trace_congr (r : StrikeRecord) (htrace : t.trace = s.trace) (hsettings : t.settings = s.settings) :
    (writeRecord r t).trace = (writeRecord r s).trace := by
  unfold writeRecord fireTrigger
  rw [htrace, hsettings]
  split
  · exact htrace
  · rfl
  · dsimp only
    split <;> rfl

theorem afterRemoval_follows (e : Entry) (s : State) : TraceFollows s (afterRemoval e s) := by
  have hu : Unchanged [.floor, .channels, .drive] s (idleDrop e.channel (if (fadingOf s e).isSome then checkFading s else s)) :=
    (Unchanged.ite (checkFading_unchanged s) (.refl _ _)).widen.andThen (idleDrop_unchanged _ _)
  refine (fadeOut_follows _).congr (hu .trace (by decide)) (hu .settings (by decide)) ?_
  rw [show _ = s.silence from hu .silence (by decide)]

/-- The record of an entry that leaves is written before an entry to SILENT is announced. -/
theorem TraceFollows.last (h : TraceFollows (writeRecord r s) t) (hopen : s.trace.state ≠ .frozen) :
    t.trace.records.getLast? = some r := by
  unfold TraceFollows at h
  rw [h]
  split
  · rw [silentTrigger_records, writeRecord_last r hopen]
  · exact writeRecord_last r hopen

theorem removeEntry_follows (o : StrikeOutcome) (e : Entry) (s : State) :
    TraceFollows (writeRecord (unfiredRecord s e o) s) (removeEntry o e s) := by
  have hw (u : State) : Unchanged [.trace] u (writeRecord (unfiredRecord s e o) u) := writeRecord_unchanged _ _
  refine (afterRemoval_follows e _).congr (writeRecord_trace_congr _ rfl rfl) ?_ ?_
  · exact (hw (dequeue e s) .settings (by decide)).trans (hw s .settings (by decide)).symm
  · have hsame : (raise (outcomeCounter o) (writeRecord (unfiredRecord s e o) (dequeue e s))).silence =
        (writeRecord (unfiredRecord s e o) s).silence :=
      (hw (dequeue e s) .silence (by decide)).trans (hw s .silence (by decide)).symm
    rw [hsame]

/-! ### The place of an entry (R39) -/

theorem insertEntry_inserted (e : Entry) (q : List Entry) : Inserted e q (insertEntry e q) := by
  induction q with
  | nil => exact ⟨[], [], rfl, rfl, nofun, nofun⟩
  | cons y l ih =>
    rw [insertEntry]
    split
    next hbefore =>
      refine ⟨[], y :: l, rfl, rfl, nofun, fun x hx => ?_⟩
      obtain rfl := Option.some.inj hx
      exact hbefore
    next hafter =>
      obtain ⟨pre, post, hq, hr, hpre, hpost⟩ := ih
      refine ⟨y :: pre, post, by rw [hq, List.cons_append], by rw [hr, List.cons_append], fun x hx => ?_, hpost⟩
      obtain rfl | hx := List.mem_cons.mp hx
      · exact Bool.eq_false_iff.mpr hafter
      · exact hpre x hx

/-- A lift time of the entry is reached. -/
def entryLifts (s : State) (e : Entry) : Bool :=
  match e.lift with
  | some l => reached s.time.tower l
  | none => false

theorem liftReached_eq (s : State) (k : Fin 8) : liftReached s k = (entriesOn s k).any (entryLifts s) := rfl

theorem liftReached_enqueue (e : Entry) (s : State) (j : Fin 8) :
    liftReached (enqueue e s) j = (liftReached s j || (decide (j = e.channel) && entryLifts s e)) := by
  refine Bool.eq_iff_iff.mpr ?_
  simp only [liftReached_eq, List.any_eq_true, mem_entriesOn, Bool.or_eq_true, Bool.and_eq_true, decide_eq_true_eq]
  constructor
  · rintro ⟨x, ⟨hx, hj⟩, hlift⟩
    obtain rfl | hx := mem_insertEntry.mp hx
    · exact .inr ⟨hj.symm, hlift⟩
    · exact .inl ⟨x, ⟨hx, hj⟩, hlift⟩
  · rintro (⟨x, ⟨hx, hj⟩, hlift⟩ | ⟨hj, hlift⟩)
    · exact ⟨x, ⟨mem_insertEntry.mpr (.inr hx), hj⟩, hlift⟩
    · exact ⟨e, ⟨mem_insertEntry.mpr (.inl rfl), hj.symm⟩, hlift⟩

theorem lifts_enqueue (e : Entry) (s : State) : (decide (k = e.channel) && lifts (wakeBank (enqueue e s)) k) =
    (decide (k = e.channel) && isPresent s k && s.channels[k].voicing.damped && !s.pins.access &&
      (liftReached s k || entryLifts s e)) := by
  have hl : lifts (wakeBank (enqueue e s)) k =
      (isPresent s k && s.channels[k].voicing.damped && !s.pins.access && liftReached (enqueue e s) k) := rfl
  rw [hl, liftReached_enqueue]
  by_cases hk : k = e.channel
  · simp [hk]
  · simp [hk]

theorem inserted_entryInserted (e : Entry) (s : State) : EntryInserted (numbered e s) s (inserted e s) := by
  have henqueue : Unchanged [.queue, .admission, .drive, .channels] s (enqueue (numbered e s) s) := fun p hp => by
    cases p <;> first | exact absurd (by decide) hp | rfl
  have hu := henqueue.andThen (inserted_unchanged e s)
  refine ⟨?_, inserted_admission e s, tryLift_unchanged _ _ .drive (by decide), fun j => ?_, hu⟩
  · rw [inserted_queue]
    exact insertEntry_inserted _ _
  · refine (tryLift_channel e.channel _ j).trans ?_
    exact congrArg (fun b => { s.channels[j] with damperUp := s.channels[j].damperUp || b })
      (lifts_enqueue (k := j) (numbered e s) s)

theorem insertStrike_follows (e : Entry) (s : State) : insertStrike e s = afterInsertion (numbered e s) (inserted e s) :=
  insertStrike_eq e s

/-- An entry whose launch time lies ahead is left to wait. -/
theorem afterInsertion_waits (h : isBefore t.time.tower e.launch = true) : afterInsertion e t = t := by
  have hnot : launchReached t e = false := by
    have hlt : dist t.time.tower e.launch < 0 := of_decide_eq_true h
    exact decide_eq_false (by omega)
  have hdue : launchDue t e = false := by rw [launchDue, hnot, Bool.false_and]
  rw [afterInsertion, hdue]
  exact (if_neg Bool.false_ne_true).trans (if_neg (Bool.eq_false_iff.mp hnot))

/-! ### Flight, lateness and restrike (R44, R45, R46) -/

theorem flightAt_ends {v : Voicing} (h : v.f15 ≤ v.f1) : flightAt v 1 = v.f1 ∧ flightAt v 15 = v.f15 := by
  unfold flightAt
  constructor <;> omega

theorem flightAt_between {v : Voicing} (h : v.f15 ≤ v.f1) {n : Nat} (hle : n ≤ 15) :
    v.f15 ≤ flightAt v n ∧ flightAt v n ≤ v.f1 := by
  have hmul : (v.f1 - v.f15) * (n - 1) ≤ (v.f1 - v.f15) * 14 := Nat.mul_le_mul_left _ (by omega)
  unfold flightAt
  omega

theorem reached_of_not_before {a b : Nat} (h : isBefore a b = false) : reached a b = true :=
  decide_eq_true (not_lt.mp (of_decide_eq_false h))

theorem not_reached_of_before {a b : Nat} (h : isBefore a b = true) : ¬reached a b = true := fun hr =>
  absurd (of_decide_eq_true hr) (not_le.mpr (of_decide_eq_true h))

theorem clampLaunch_kept {limit launch earliest : Nat} (h : isBefore launch earliest = false) :
    clampLaunch limit launch earliest = some launch := if_pos (reached_of_not_before h)

theorem clampLaunch_moved {limit launch earliest : Nat} (h : isBefore launch earliest = true)
    (hd : dist earliest launch ≤ limit) : clampLaunch limit launch earliest = some earliest :=
  (if_neg (not_reached_of_before h)).trans (if_pos hd)

theorem clampLaunch_late {limit launch earliest : Nat} (h : isBefore launch earliest = true)
    (hd : limit < dist earliest launch) : clampLaunch limit launch earliest = none :=
  (if_neg (not_reached_of_before h)).trans (if_neg (not_le.mpr hd))

/-! ### The ready time (R46) -/

/-- The launch times that a channel's ready time is taken from, in the model's order. -/
def launchTimes (s : State) (k : Fin 8) : List Nat :=
  (entriesOn s k).map Entry.launch ++ (s.channels[k].lastFired.map LastFired.launch).toList

theorem mem_launchTimes {n : Nat} : n ∈ launchTimes s k ↔ (∃ e ∈ s.queue, e.channel = k ∧ e.launch = n) ∨
    ∃ l, s.channels[k].lastFired = some l ∧ l.launch = n := by
  simp only [launchTimes, List.mem_append, List.mem_map, mem_entriesOn, Option.mem_toList, Option.map_eq_some_iff, and_assoc]

/-- The later of the best so far and another launch time. -/
def laterOf (best : Option Nat) (n : Nat) : Option Nat :=
  match best with
  | none => some n
  | some b => some (later b n)

theorem latestLaunch_eq (s : State) (k : Fin 8) : latestLaunch s k = (launchTimes s k).foldl laterOf none := by
  unfold latestLaunch launchTimes
  cases s.channels[k].lastFired <;> rfl

theorem isAfter_of_window {a b base : Nat} (ha : minus a base ≤ 1000000000) (hb : minus b base ≤ 1000000000) :
    isAfter a b = decide (minus b base < minus a base) := by
  rw [isAfter, dist_of_window ha hb]
  refine decide_eq_decide.mpr ?_
  omega

/-- Among launch times within a window the fold ends with one that no other is after. -/
theorem foldl_laterOf {l : List Nat} {b base : Nat} (hwindow : ∀ n ∈ b :: l, minus n base ≤ 1000000000) :
    ∃ m ∈ b :: l, l.foldl laterOf (some b) = some m ∧ ∀ n ∈ b :: l, isAfter n m = false := by
  induction l generalizing b with
  | nil =>
    refine ⟨b, List.mem_singleton_self b, rfl, fun n hn => ?_⟩
    obtain rfl := List.mem_singleton.mp hn
    rw [isAfter_of_window (hwindow _ hn) (hwindow _ hn), decide_eq_false (lt_irrefl _)]
  | cons c l ih =>
    have hb := hwindow b List.mem_cons_self
    have hc := hwindow c (List.mem_cons_of_mem b List.mem_cons_self)
    have hl (n : Nat) (hn : n ∈ l) := hwindow n (List.mem_cons_of_mem b (List.mem_cons_of_mem c hn))
    have hbest : (later b c = b ∨ later b c = c) ∧ minus b base ≤ minus (later b c) base ∧
        minus c base ≤ minus (later b c) base := by
      rw [later, isAfter_of_window hc hb]
      split
      next h =>
        have := of_decide_eq_true h
        exact ⟨.inr rfl, by omega, le_rfl⟩
      next h =>
        have := of_decide_eq_false (Bool.eq_false_iff.mpr h)
        exact ⟨.inl rfl, le_rfl, by omega⟩
    obtain ⟨heither, hbm, hcm⟩ := hbest
    have hbest : minus (later b c) base ≤ 1000000000 := by
      obtain h | h := heither <;> rw [h] <;> assumption
    have hw : ∀ n ∈ later b c :: l, minus n base ≤ 1000000000 := fun n hn => by
      obtain rfl | hn := List.mem_cons.mp hn
      · exact hbest
      · exact hl n hn
    obtain ⟨m, hm, hfold, hlast⟩ := ih hw
    have hmw := hw m hm
    have htop := hlast _ List.mem_cons_self
    rw [isAfter_of_window hbest hmw, decide_eq_false_iff_not, not_lt] at htop
    refine ⟨m, ?_, hfold, fun n hn => ?_⟩
    · obtain hm | hm := List.mem_cons.mp hm
      · obtain h | h := heither <;> simp [hm, h]
      · simp [hm]
    · obtain rfl | hn := List.mem_cons.mp hn
      · rw [isAfter_of_window hb hmw]
        exact decide_eq_false (by omega)
      obtain rfl | hn := List.mem_cons.mp hn
      · rw [isAfter_of_window hc hmw]
        exact decide_eq_false (by omega)
      · exact hlast n (List.mem_cons_of_mem _ hn)

theorem foldl_laterOf_some (l : List Nat) (b : Nat) : ∃ m, l.foldl laterOf (some b) = some m := by
  induction l generalizing b with
  | nil => exact ⟨b, rfl⟩
  | cons c l ih => exact ih (later b c)

theorem readyTime_none_iff : readyTime s k = none ↔ launchTimes s k = [] := by
  rw [readyTime, Option.map_eq_none_iff, latestLaunch_eq]
  cases launchTimes s k with
  | nil => exact iff_of_true rfl rfl
  | cons b l =>
    obtain ⟨m, hm⟩ := foldl_laterOf_some l b
    have hfold : (b :: l).foldl laterOf none = some m := hm
    rw [hfold]
    exact iff_of_false nofun nofun

theorem readyTime_some {r base : Nat} (h : readyTime s k = some r)
    (hwindow : ∀ n ∈ launchTimes s k, minus n base ≤ 1000000000) :
    ∃ last ∈ launchTimes s k, r = plus last s.channels[k].voicing.back ∧
      ∀ n ∈ launchTimes s k, isAfter n last = false := by
  obtain ⟨last, hlast, rfl⟩ := Option.map_eq_some_iff.mp h
  rw [latestLaunch_eq] at hlast
  cases htimes : launchTimes s k with
  | nil =>
    rw [htimes] at hlast
    cases hlast
  | cons b l =>
    rw [htimes] at hlast hwindow
    obtain ⟨m, hm, hfold, hall⟩ := foldl_laterOf hwindow
    have hsame : last = m := Option.some.inj (hlast.symm.trans hfold)
    exact ⟨m, hm, by rw [hsame], hall⟩

theorem launchTimes_eq_nil_iff : launchTimes s k = [] ↔ (∀ e ∈ s.queue, e.channel ≠ k) ∧ s.channels[k].lastFired = none := by
  simp only [List.eq_nil_iff_forall_not_mem, mem_launchTimes, not_or, not_exists, not_and]
  constructor
  · intro h
    refine ⟨fun e he hk => (h e.launch).1 e he hk rfl, ?_⟩
    cases hl : s.channels[k].lastFired with
    | none => rfl
    | some l => exact absurd rfl ((h l.launch).2 l hl)
  · rintro ⟨hnone, hfired⟩ n
    exact ⟨fun e he hk => absurd hk (hnone e he), fun l hl => by rw [hfired] at hl; cases hl⟩

/-! ### The full queue (R47) -/

/-- A full queue evicts the last entry of the fading performance. -/
theorem evictable_last {pre post : List Entry} (hq : s.queue = pre ++ e :: post) (he : (fadingOf s e).isSome = true)
    (hpost : ∀ y ∈ post, fadingOf s y = none) : evictable s = some e := by
  have hnone : post.filter (fun y => (fadingOf s y).isSome) = [] :=
    List.filter_eq_nil_iff.mpr fun y hy => by rw [hpost y hy]; nofun
  rw [evictable, hq, List.filter_append, List.filter_cons_of_pos (p := fun y => (fadingOf s y).isSome) he, hnone,
    List.getLast?_concat]

theorem evictable_none (h : ∀ x ∈ s.queue, fadingOf s x = none) : evictable s = none := by
  have hnone : s.queue.filter (fun y => (fadingOf s y).isSome) = [] :=
    List.filter_eq_nil_iff.mpr fun y hy => by rw [h y hy]; nofun
  rw [evictable, hnone]
  rfl

theorem makeRoom_of_room (st : Standing) (h : s.queue.length < 96) : makeRoom st s = some s := if_pos h

theorem makeRoom_of_evictable (hfull : 96 ≤ s.queue.length) (he : evictable s = some e) :
    makeRoom .holder s = some (removeEntry .purged e s) :=
  (if_neg (not_lt.mpr hfull)).trans (by rw [he, Option.map_some])

theorem makeRoom_of_none {st : Standing} (hfull : 96 ≤ s.queue.length) (h : st ≠ .holder ∨ ∀ x ∈ s.queue, fadingOf s x = none) :
    makeRoom st s = none := by
  cases st with
  | holder =>
    obtain h | h := h
    · exact absurd rfl h
    · exact (if_neg (not_lt.mpr hfull)).trans (by rw [evictable_none h, Option.map_none])
  | fading => exact if_neg (not_lt.mpr hfull)
  | test => exact if_neg (not_lt.mpr hfull)

/-! ### One admission -/

section
variable {owner : Owner} {pr impact velocity launch now : Nat} {d : Option Nat} {st : Standing}

theorem admitRequest_discarded {c : Counter} (h : planLaunch s k impact velocity now = .discard c) :
    admitRequest k owner pr impact velocity d st now s = (raise c s, false) := by
  simp only [admitRequest, h]

theorem admitRequest_overflow (h : planLaunch s k impact velocity now = .launch launch) (hroom : makeRoom st s = none) :
    admitRequest k owner pr impact velocity d st now s = (raise .overflow s, false) := by
  simp only [admitRequest, h, hroom]

theorem admitRequest_taken (h : planLaunch s k impact velocity now = .launch launch) (hroom : makeRoom st s = some t) :
    admitRequest k owner pr impact velocity d st now s =
      (insertStrike (newEntry s k owner pr impact velocity launch d) t, true) := by
  simp only [admitRequest, h, hroom]

/-- An order with room, or for which room was made, becomes an entry with the values that the stages give it (R48). -/
theorem admitRequest_inserts (h : planLaunch s k impact velocity now = .launch launch) (hroom : makeRoom st s = some t)
    (hadmission : t.admission = s.admission) : ∃ (e : Entry) (u : State),
      e.channel = k ∧ e.owner = owner ∧ e.priority = pr ∧ e.impact = impact ∧
      e.launch = launch ∧ e.velocity = velocity ∧
      e.duration = (if s.channels[k].voicing.damped = true then d else none) ∧
      e.lift = e.duration.map (fun _ => minus launch s.channels[k].voicing.lead) ∧
      e.admission = s.admission ∧ e.held = false ∧ EntryInserted e t u ∧
      admitRequest k owner pr impact velocity d st now s = (afterInsertion e u, true) := by
  refine ⟨numbered (newEntry s k owner pr impact velocity launch d) t, inserted (newEntry s k owner pr impact velocity launch d) t,
    rfl, rfl, rfl, rfl, rfl, rfl, rfl, rfl, hadmission, rfl, inserted_entryInserted _ _, ?_⟩
  rw [admitRequest_taken h hroom, insertStrike_follows]

end

/-! ### The floor stage (R42, R116) -/

section
variable {p : PerfId} {impact : Nat} {f : FadingPart}

theorem floorStanding_holder {h : Holder} (hh : s.floor.holder = some h) (hp : h.perf = p) :
    floorStanding s p impact = some (.holder, h.priority.level) := by
  simp only [floorStanding, hh, if_pos hp]

/-- An order of no holder stands by the fading performance alone. -/
theorem floorStanding_of_other (hother : ∀ h, s.floor.holder = some h → h.perf ≠ p) :
    floorStanding s p impact = s.floor.fading.bind fun f =>
      if f.perf = p ∧ beforeCutoff f impact = true then some (Standing.fading, f.priority.level) else none := by
  cases hh : s.floor.holder with
  | some h =>
    simp only [floorStanding, hh, if_neg (hother h hh)]
    cases s.floor.fading <;> rfl
  | none =>
    simp only [floorStanding, hh]
    cases s.floor.fading <;> rfl

theorem beforeCutoff_of_none (h : ∀ c, f.cutoff = some c → isBefore impact c = true) : beforeCutoff f impact = true := by
  unfold beforeCutoff
  split
  · rfl
  next c hc => exact h c hc

theorem beforeCutoff_of_some {c : Nat} (h : f.cutoff = some c) : beforeCutoff f impact = isBefore impact c := by
  simp only [beforeCutoff, h]

theorem floorStanding_known (p : PerfId) (impact : Nat) (s : State) :
    (∀ h, s.floor.holder = some h → h.perf = p → floorStanding s p impact = some (.holder, h.priority.level)) ∧
    (∀ f, (∀ h, s.floor.holder = some h → h.perf ≠ p) → s.floor.fading = some f → f.perf = p →
      ((∀ c, f.cutoff = some c → isBefore impact c = true) →
        floorStanding s p impact = some (.fading, f.priority.level)) ∧
      (∀ c, f.cutoff = some c → isBefore impact c = false → floorStanding s p impact = none)) ∧
    ((∀ h, s.floor.holder = some h → h.perf ≠ p) → (∀ f, s.floor.fading = some f → f.perf ≠ p) →
      floorStanding s p impact = none) := by
  refine ⟨fun h hh hp => floorStanding_holder hh hp, fun f hother hf hp => ⟨fun hcut => ?_, fun c hc hcut => ?_⟩,
    fun hother hfading => ?_⟩
  · rw [floorStanding_of_other hother, hf]
    exact if_pos ⟨hp, beforeCutoff_of_none hcut⟩
  · rw [floorStanding_of_other hother, hf]
    refine if_neg fun h => ?_
    rw [beforeCutoff_of_some hc, hcut] at h
    exact Bool.false_ne_true h.2
  · rw [floorStanding_of_other hother]
    cases hf : s.floor.fading with
    | none => rfl
    | some f => exact if_neg fun h => hfading f hf h.1

end

theorem takeOrder_of_velocity_zero {p : PerfId} {base now : Nat} {o : OrderItem} (hv : o.velocity = 0) :
    takeOrder p base now o s = s := by
  unfold takeOrder
  split
  · rfl
  · exact if_pos hv

end

/-- Settles O60: a lemma per stage, and the insertion as the model's `inserted` followed by `afterInsertion`. -/
theorem orderPlanned : Obligations.OrderPlanned := by
  refine ⟨fun p base now o s hv => takeOrder_of_velocity_zero hv, floorStanding_known, fun v n => ⟨rfl, fun hf => ?_⟩,
    fun limit launch earliest => ⟨clampLaunch_kept, clampLaunch_moved, clampLaunch_late⟩, fun k impact n now s => ?_,
    fun k s => ⟨?_, fun r base hr hqueued hfired => ?_⟩,
    fun k owner pr impact velocity d st now s => ⟨fun c hc => admitRequest_discarded hc, fun launch hlaunch =>
      ⟨fun r hr => ?_, fun hfull hno => admitRequest_overflow hlaunch (makeRoom_of_none hfull hno)⟩⟩,
    fun o e s => ⟨removeEntry_queue o e s, ?_, fun r hr => ?_, removeEntry_unchanged o e s⟩⟩
  · exact ⟨(flightAt_ends hf).1, (flightAt_ends hf).2, fun _ hn => flightAt_between hf hn⟩
  · rfl
  · exact readyTime_none_iff.trans launchTimes_eq_nil_iff
  · have hwindow : ∀ n ∈ launchTimes s k, minus n base ≤ 1000000000 := fun n hn => by
      obtain ⟨e, he, hk, rfl⟩ | ⟨l, hl, rfl⟩ := mem_launchTimes.mp hn
      · exact hqueued e he hk
      · exact hfired l hl
    obtain ⟨last, hlast, heq, hall⟩ := readyTime_some hr hwindow
    exact ⟨last, heq, mem_launchTimes.mp hlast, fun e he hk => hall _ (mem_launchTimes.mpr (.inl ⟨e, he, hk, rfl⟩)),
      fun l hl => hall _ (mem_launchTimes.mpr (.inr ⟨l, hl, rfl⟩))⟩
  · obtain ⟨hroom, rfl⟩ | ⟨hfull, rfl, pre, x, post, hq, hx, hpost, rfl⟩ := hr
    · exact admitRequest_inserts hlaunch (makeRoom_of_room st hroom) rfl
    · exact admitRequest_inserts hlaunch (makeRoom_of_evictable hfull (evictable_last hq hx hpost))
        (removeEntry_unchanged _ _ _ .admission (by decide))
  · exact (readCounter_of_same (removeEntry_counters o e s) _).trans (raise_raised _ s)
  · have hfollows : TraceFollows (writeRecord r s) (removeEntry o e s) := hr ▸ removeEntry_follows o e s
    refine ⟨hfollows.last, ?_⟩
    have hsilence : (writeRecord r s).silence = s.silence := writeRecord_unchanged r s .silence (by decide)
    unfold TraceFollows at hfollows
    rw [hsilence] at hfollows
    exact hfollows

/-- Settles O19: the orders fold over `takeOrder`, and an order that every stage passes is an insertion of O60. -/
theorem orderAdmitted : Obligations.OrderAdmitted := by
  refine ⟨fun rx seq base items s hp => ⟨fun hgood => ?_, fun hbad => ?_⟩,
    fun p base o k st pr launch s hbell hv hrun hfloor hnear hroom hplan => ?_,
    fun p base o k s hbell hv hrun => ⟨fun hstray => ?_, fun st pr hfloor hnear hbefore hlate => ?_⟩⟩
  · refine (act_of_powered (hearOrder rx seq base items) hp).trans ?_
    rw [hearOrder, if_pos (show orderCountGood items = true from decide_eq_true hgood)]
    rfl
  · refine (act_of_powered (hearOrder rx seq base items) hp).trans ?_
    rw [hearOrder, if_neg (show ¬orderCountGood items = true from fun h => ?_)]
    have := of_decide_eq_true h
    omega
  · have htake := takeOrder_of_standing (base := base) (now := s.time.tower) hbell hv hrun hfloor
    rw [if_neg (not_lt.mpr hnear)] at htake
    obtain ⟨e, t, hk, howner, hpr, himpact, hlaunch, hvel, hdur, hlift, hadm, hheld, hins, heq⟩ :=
      admitRequest_inserts (owner := .perf p) (pr := pr) (d := orderDuration o) hplan (makeRoom_of_room st hroom) rfl
    have htake : takeOrder p base s.time.tower o s = afterInsertion e t := by rw [htake, heq]
    refine ⟨e, t, hk, howner, hpr, himpact, hlaunch, hvel, ?_, hlift, hadm, hheld, hins, htake, fun hahead => ?_⟩
    · rw [hdur, orderDuration]
      generalize s.channels[k].voicing.damped = damped
      by_cases hd : o.duration = 0
      · simp [hd]
      · cases damped <;> simp
    · have htime : t.time = s.time := hins.2.2.2.2 .time (by decide)
      rw [htake]
      refine afterInsertion_waits ?_
      rw [htime, hlaunch]
      exact hahead
  · simp only [takeOrder, hbell, if_neg hv, if_neg (not_not_intro hrun), hstray]
  · have htake := takeOrder_of_standing (base := base) (now := s.time.tower) hbell hv hrun hfloor
    rw [if_neg (not_lt.mpr hnear)] at htake
    rw [htake, admitRequest_discarded (c := .late)]
    simp only [planLaunch, clampLaunch_late hbefore hlate]

end Sys2Proof.Machine
end

