-- ==== Sys2Proof/Proofs/TestPulse.lean ====
section
/-! CHANNEL PULSE: the wake it brings, the TEST entries it makes, and its refusals (R20, R21, R49). -/

namespace Sys2Proof.Machine

-- One proof after another: many at once would ask for more threads than the memory limit allows.
set_option Elab.async false

section
variable {s t : State} {k : Fin 8} {e x : Entry}

/-! ### A bank that is woken stays so (R29, R32, R55) -/

/-- What a wake leaves: the idle timer at 0, and the bank up unless the chamber is open. -/
def Woken (s : State) : Prop := s.drive.idle = 0 ∧ (s.pins.access = false → bankUp s.drive.mode = true)

theorem Woken.of_unchanged {ps : List Part} (h : Woken s) (hu : Unchanged ps s t) (hdrive : Part.drive ∉ ps := by decide)
    (hpins : Part.pins ∉ ps := by decide) : Woken t := by
  have hd : t.drive = s.drive := hu .drive hdrive
  have hp : t.pins = s.pins := hu .pins hpins
  rw [Woken, hd, hp]
  exact h

theorem wakeBank_woken (s : State) : Woken (wakeBank s) := ⟨rfl, fun h => (wakeBank_up (s := s) h).1⟩

theorem not_bankUp_of_draining {d : DriveState} (h : d = .draining) : bankUp d ≠ true := by
  rw [h]
  decide

theorem drainCheck_woken (h : Woken s) : Woken (drainCheck s) := by
  unfold drainCheck
  split
  next hdrain => exact ⟨h.1, fun haccess => absurd (h.2 haccess) (not_bankUp_of_draining hdrain.1)⟩
  · exact h

theorem idleDrop_woken (k : Fin 8) (h : Woken s) : Woken (idleDrop k s) := by
  unfold idleDrop
  dsimp only
  split
  · exact drainCheck_woken (h.of_unchanged (updChannel_unchanged k _ s))
  · exact h

theorem afterRemoval_woken (e : Entry) (h : Woken s) : Woken (afterRemoval e s) := by
  have hfading : Woken (if (fadingOf s e).isSome then checkFading s else s) :=
    h.of_unchanged (.ite (checkFading_unchanged s) (.refl _ _))
  exact (idleDrop_woken e.channel hfading).of_unchanged (fadeOut_unchanged _)

theorem closeLaunch_woken (e : Entry) (o : StrikeOutcome) (h : Woken s) : Woken (closeLaunch e o s) :=
  afterRemoval_woken e (((h.of_unchanged (raise_unchanged _ s)).of_unchanged (preemptStep_unchanged e _)).of_unchanged
    (fadeStepSilence_unchanged _))

theorem driveFor_up (s : State) {d : DriveState} (n : Nat) (h : bankUp d = true) : bankUp (driveFor s d n) = true := by
  unfold driveFor
  split
  · split <;> rfl
  · split <;> rfl
  · exact h
  · exact h

theorem fireEntry_woken (e : Entry) (v : Nat) (h : Woken s) : Woken (fireEntry e v s) :=
  ⟨h.1, fun haccess => driveFor_up _ _ (h.2 haccess)⟩

theorem launchEntry_woken (e : Entry) (h : Woken s) : Woken (launchEntry e s) := by
  have hgone : Woken (dequeue e s) := h.of_unchanged (dequeue_unchanged e s)
  unfold launchEntry
  dsimp only
  split
  · exact closeLaunch_woken _ _ (hgone.of_unchanged (writeRecord_unchanged _ _))
  · exact closeLaunch_woken _ _ ((fireEntry_woken _ _ hgone).of_unchanged (writeRecord_unchanged _ _))

theorem afterInsertion_woken (e : Entry) (h : Woken s) : Woken (afterInsertion e s) := by
  unfold afterInsertion
  split
  · exact launchEntry_woken e h
  split
  · exact h
  · exact h

theorem inserted_woken (e : Entry) (s : State) : Woken (inserted e s) :=
  (wakeBank_woken _).of_unchanged (tryLift_unchanged e.channel _)

/-! ### What an admission adds to the queue (R48) -/

theorem mem_afterInsertion (h : x ∈ (afterInsertion e t).queue) : x ∈ t.queue ∨ x = { e with held := true } := by
  unfold afterInsertion at h
  split at h
  · rw [launchEntry_queue] at h
    exact .inl (List.mem_of_mem_erase h)
  split at h
  · obtain ⟨y, hy, rfl⟩ := List.mem_map.mp h
    split
    next hye => exact .inr (by rw [hye])
    · exact .inl hy
  · exact .inl h

section
variable {owner : Owner} {pr impact velocity now : Nat} {d : Option Nat} {st : Standing}

theorem mem_admitRequest (h : x ∈ (admitRequest k owner pr impact velocity d st now s).1.queue) :
    x ∈ s.queue ∨ (x.owner = owner ∧ x.priority = pr ∧ x.velocity = velocity ∧ x.channel = k) := by
  unfold admitRequest at h
  split at h
  · exact .inl h
  split at h
  · exact .inl h
  next u hroom =>
    have hqueue : ∀ y ∈ u.queue, y ∈ s.queue := fun y hy => by
      obtain ⟨-, rfl⟩ | ⟨-, -, z, -, rfl⟩ := makeRoom_cases hroom
      · exact hy
      · rw [removeEntry_queue] at hy
        exact List.mem_of_mem_erase hy
    dsimp only at h
    rw [insertStrike_follows] at h
    obtain h | rfl := mem_afterInsertion h
    · rw [inserted_queue] at h
      obtain rfl | h := mem_insertEntry.mp h
      · exact .inr ⟨rfl, rfl, rfl, rfl⟩
      · exact .inl (hqueue x h)
    · exact .inr ⟨rfl, rfl, rfl, rfl⟩

theorem admitRequest_woken (h : Woken s) : Woken (admitRequest k owner pr impact velocity d st now s).1 := by
  unfold admitRequest
  split
  · exact h.of_unchanged (raise_unchanged _ s)
  split
  · exact h.of_unchanged (raise_unchanged _ s)
  · dsimp only
    rw [insertStrike_follows]
    exact afterInsertion_woken _ (inserted_woken _ _)

end

/-! ### The entries of a pulse (R21) -/

theorem mem_pulseChannels {mask : ChannelMask} (h : k ∈ pulseChannels s mask) : mask.getLsbD k.val = true := by
  have hboth := (List.mem_filter.mp h).2
  rw [Bool.and_eq_true] at hboth
  exact hboth.1

theorem fst_mem_of_mem_zipIdx {α : Type} {l : List α} {y : α × Nat} (h : y ∈ l.zipIdx) : y.1 ∈ l := by
  obtain ⟨hn, heq⟩ := List.mem_zipIdx' h
  rw [heq]
  exact List.getElem_mem hn

/-- What a pulse leaves of the state it began in. -/
def Pulsed (mask : ChannelMask) (velocity : Nat) (s t : State) : Prop :=
  Woken t ∧ (∀ e ∈ t.queue, e ∈ s.queue ∨
    (e.owner = .test ∧ e.priority = 0 ∧ e.velocity = velocity ∧ mask.getLsbD e.channel.val = true)) ∧ Unchanged admission s t

theorem takePulse_pulsed (mask : ChannelMask) (velocity : Nat) (s : State) :
    Pulsed mask velocity s (takePulse mask velocity s).1 := by
  refine List.foldlRecOn (motive := fun acc : State × ChannelMask => Pulsed mask velocity s acc.1) _ _
    ⟨wakeBank_woken s, fun e he => .inl he, (wakeBank_unchanged s).widen⟩ fun acc hacc y hy => ?_
  obtain ⟨hwoken, hqueue, hu⟩ := hacc
  refine ⟨admitRequest_woken hwoken, fun e he => ?_, hu.andThen (admitRequest_unchanged _ _ _ _ _ _ _ _ _)⟩
  obtain he | ⟨howner, hpr, hvel, hk⟩ := mem_admitRequest he
  · exact hqueue e he
  · exact .inr ⟨howner, hpr, hvel, hk ▸ mem_pulseChannels (fst_mem_of_mem_zipIdx hy)⟩

theorem takePulse_of_none {mask : ChannelMask} (velocity : Nat)
    (h : ∀ k : Fin 8, mask.getLsbD k.val = true → channelState s k ≠ .run) :
    takePulse mask velocity s = (wakeBank s, 0) := by
  have hnone : pulseChannels s mask = [] := List.filter_eq_nil_iff.mpr fun k _ hk => by
    rw [Bool.and_eq_true] at hk
    exact h k hk.1 (of_decide_eq_true hk.2)
  rw [takePulse, hnone]
  rfl

theorem takePulse_eq (mask : ChannelMask) (velocity : Nat) (s : State) : takePulse mask velocity s =
    ((List.finRange 8).filter fun k => mask.getLsbD k.val && decide (channelState s k = .run)).zipIdx.foldl
      (pulseOne s.time.tower velocity) (wakeBank s, 0) := by
  have hall : allChannels = List.finRange 8 := by decide
  rw [takePulse, pulseChannels, hall]

end

/-- Settles O41: the fold of `takePulse` keeps `Pulsed`, its steps are admissions of O60. -/
theorem channelPulseResult : Obligations.ChannelPulseResult := by
  intro h mask v s hp ht
  refine ⟨fun hv => ?_, fun hlo hhi hheld => ?_, fun hlo hhi hvacant => ?_⟩
  · refine (act_onTarget (servePulse h mask v) hp ht).trans (congrArg _ ?_)
    exact if_pos hv
  · have hv : ¬(v.toNat < 1 ∨ 15 < v.toNat) := by omega
    refine (act_onTarget (servePulse h mask v) hp ht).trans (congrArg _ ?_)
    exact (if_neg hv).trans (if_pos hheld)
  · have hv : ¬(v.toNat < 1 ∨ 15 < v.toNat) := by omega
    have hfree : ¬(acknowledge s).floor.holder.isSome = true := by
      rw [show (acknowledge s).floor.holder = none from hvacant]
      nofun
    obtain ⟨⟨hidle, hup⟩, hqueue, hu⟩ := takePulse_pulsed mask v.toNat (acknowledge s)
    refine ⟨(takePulse mask v.toNat (acknowledge s)).1, (takePulse mask v.toNat (acknowledge s)).2, ?_, hidle,
      fun haccess => hup ?_, hqueue, takePulse_eq mask v.toNat (acknowledge s), fun hno => ?_, hu⟩
    · refine (act_onTarget (servePulse h mask v) hp ht).trans (congrArg _ ?_)
      exact (if_neg hv).trans (if_neg hfree)
    · have hpins : (takePulse mask v.toNat (acknowledge s)).1.pins = s.pins := hu .pins (by decide)
      rw [hpins, haccess]
    · have hnone := takePulse_of_none (s := acknowledge s) v.toNat hno
      exact ⟨congrArg Prod.snd hnone, congrArg Prod.fst hnone⟩

end Sys2Proof.Machine
end

