-- ==== Sys2Proof/Proofs/LaunchEvents.lean ====
section
/-! The launch event: the entry that is due, the strike that fires and the entry that does not, its record, and what it
counts toward (R27, R50 to R56, R115, R173, R188). -/

namespace Sys2Proof.Machine

-- One proof after another: many at once would ask for more threads than the memory limit allows.
set_option Elab.async false

section
variable {s t w : State} {k j : Fin 8} {e x : Entry} {o : StrikeOutcome} {u : Nat}

/-! ### The energy degrade (R27, R54) -/

theorem degrade_eq_some_iff (v : Voicing) (energy n u : Nat) : degrade v energy n = some u ↔
    1 ≤ u ∧ u ≤ n ∧ strikeCost v u ≤ energy ∧ ∀ w, u < w → w ≤ n → energy < strikeCost v w := by
  induction n with
  | zero => exact iff_of_false nofun fun h => by omega
  | succ n ih =>
    rw [degrade]
    split
    next hcost =>
      refine ⟨fun h => ?_, fun ⟨_, hle, _, hmax⟩ => ?_⟩
      · obtain rfl := Option.some.inj h
        exact ⟨by omega, le_rfl, hcost, fun w h1 h2 => by omega⟩
      · by_contra hne
        have hne : n + 1 ≠ u := fun h => hne (congrArg some h)
        exact absurd (hmax (n + 1) (by omega) le_rfl) (not_lt.mpr hcost)
    next hcost =>
      refine ih.trans ⟨fun ⟨hpos, hle, hu, hmax⟩ => ⟨hpos, by omega, hu, fun w h1 h2 => ?_⟩,
        fun ⟨hpos, hle, hu, hmax⟩ => ⟨hpos, ?_, hu, fun w h1 h2 => hmax w h1 (by omega)⟩⟩
      · obtain rfl | hlt := Nat.eq_or_lt_of_le h2
        · exact not_le.mp hcost
        · exact hmax w h1 (by omega)
      · have hne : u ≠ n + 1 := fun heq => hcost (heq ▸ hu)
        omega

theorem degrade_eq_none_iff (v : Voicing) (energy n : Nat) :
    degrade v energy n = none ↔ ∀ w, 1 ≤ w → w ≤ n → energy < strikeCost v w := by
  induction n with
  | zero => exact iff_of_true rfl fun w h1 h2 => by omega
  | succ n ih =>
    rw [degrade]
    split
    next hcost => exact iff_of_false nofun fun h => absurd (h (n + 1) (by omega) le_rfl) (not_lt.mpr hcost)
    next hcost =>
      refine ih.trans ⟨fun h w h1 h2 => ?_, fun h w h1 h2 => h w h1 (by omega)⟩
      obtain rfl | hlt := Nat.eq_or_lt_of_le h2
      · exact not_le.mp hcost
      · exact h w h1 (by omega)

theorem pulseWidth_succ (v : Voicing) (i : Fin 15) : pulseWidth v (i.val + 1) = v.curve[i] := by
  rw [pulseWidth, Nat.add_sub_cancel, List.getD_eq_getElem _ _ (by simp)]
  exact Vector.getElem_toList _

theorem available_of_high {p : Nat} (h : 3 ≤ p) : available s p = s.drive.level := if_pos h

theorem available_of_low {p : Nat} (h : p < 3) : available s p = s.drive.level - s.settings.reserve :=
  if_neg (not_le.mpr h)

theorem strikeCost_pos {v : Voicing} (hv : VoicingInRange v) (hpos : 1 ≤ u) (hle : u ≤ 15) : 1 ≤ strikeCost v u := by
  obtain ⟨hcurve, -, -, -, -, hcoil, -⟩ := hv
  have hwidth : pulseWidth v u = v.curve[(⟨u - 1, by omega⟩ : Fin 15)] := by
    have h := pulseWidth_succ v ⟨u - 1, by omega⟩
    rwa [show u - 1 + 1 = u by omega] at h
  rw [strikeCost, hwidth]
  exact Nat.mul_pos (hcurve _).1 hcoil

/-! ### The entry that is due, and as it is served (R39, R50) -/

theorem isClear_iff (s : State) (k : Fin 8) : isClear s k = true ↔ s.channels[k].hammer = .rest ∧
    ∀ l, s.channels[k].lastFired = some l → reached s.time.tower (plus l.launch l.back) = true := by
  rw [isClear, Bool.and_eq_true, Channel.atRest_iff]
  refine and_congr_right fun _ => ?_
  split
  next h => exact iff_of_true rfl fun l hl => by rw [h] at hl; cases hl
  next l h => exact ⟨fun hr m hm => by rw [h] at hm; cases hm; exact hr, fun hall => hall l h⟩

theorem launchDue_iff (s : State) (e : Entry) : launchDue s e = true ↔ reached s.time.tower e.launch = true ∧
    (isClear s e.channel = true ∨ channelState s e.channel ≠ .run ∨
      s.settings.lateLimit < dist s.time.tower e.launch) := by
  simp only [launchDue, launchReached, pastLimit, Bool.and_eq_true, Bool.or_eq_true, decide_eq_true_eq, or_assoc]

theorem firstDue_iff (s : State) (e : Entry) : firstDue s = some e ↔ ∃ pre post, s.queue = pre ++ e :: post ∧
    launchDue s e = true ∧ ∀ y ∈ pre, launchDue s y = false := by
  rw [firstDue, List.find?_eq_some_iff_append]
  simp only [Bool.not_eq_true']
  constructor
  · rintro ⟨hdue, pre, post, hq, hpre⟩
    exact ⟨pre, post, hq, hdue, hpre⟩
  · rintro ⟨pre, post, hq, hdue, hpre⟩
    exact ⟨hdue, pre, post, hq, hpre⟩

theorem withinReturn_iff (s : State) (e : Entry) : withinReturn s e = true ↔
    ∃ l, s.channels[e.channel].lastFired = some l ∧ isBefore e.launch (plus l.launch l.back) = true := by
  unfold withinReturn
  split
  next h => exact iff_of_false nofun fun ⟨l, hl, _⟩ => by rw [h] at hl; cases hl
  next l h => exact ⟨fun hb => ⟨l, h, hb⟩, fun ⟨m, hm, hb⟩ => by rw [h] at hm; cases hm; exact hb⟩

theorem servedEntry_now (hclear : isClear s e.channel = true) (h : e.held = true ∨ withinReturn s e = true) :
    servedEntry s e = { e with launch := s.time.tower } :=
  if_pos ⟨Bool.or_eq_true _ _ ▸ h, hclear⟩

theorem servedEntry_same (h : isClear s e.channel = false ∨ (e.held = false ∧ withinReturn s e = false)) :
    servedEntry s e = e := by
  refine if_neg fun ⟨hwas, hclear⟩ => ?_
  obtain h | ⟨hheld, hwithin⟩ := h
  · rw [h] at hclear
    cases hclear
  · rw [hheld, hwithin] at hwas
    cases hwas

theorem servedEntry_kept (s : State) (e : Entry) : (servedEntry s e).channel = e.channel ∧ (servedEntry s e).owner = e.owner := by
  unfold servedEntry
  split <;> exact ⟨rfl, rfl⟩

/-- Two fired launches of a channel are at least the return time apart (R50). -/
theorem servedEntry_apart (hx : x = servedEntry s e) (hclear : isClear s x.channel = true) :
    ∀ l, s.channels[x.channel].lastFired = some l → reached x.launch (plus l.launch l.back) = true := by
  have hchannel : x.channel = e.channel := hx ▸ (servedEntry_kept s e).1
  have hfired : s.channels[x.channel].lastFired = s.channels[e.channel].lastFired :=
    congrArg (fun k : Fin 8 => s.channels[k].lastFired) hchannel
  rw [hchannel] at hclear
  rw [hfired]
  intro l hl
  by_cases hnow : e.held = true ∨ withinReturn s e = true
  · rw [hx, servedEntry_now hclear hnow]
    exact ((isClear_iff s e.channel).mp hclear).2 l hl
  · obtain ⟨hheld, hwithin⟩ := not_or.mp hnow
    rw [hx, servedEntry_same (.inr ⟨Bool.eq_false_iff.mpr hheld, Bool.eq_false_iff.mpr hwithin⟩)]
    refine reached_of_not_before (Bool.eq_false_iff.mpr fun hb => hwithin ?_)
    exact (withinReturn_iff s e).mpr ⟨l, hl, hb⟩

/-! ### The trace of a launch event (R56, R179, R188) -/

theorem fadeStepSilence_follows (s : State) : TraceFollows s (fadeStepSilence s) := by
  unfold fadeStepSilence
  split
  next hfading =>
    dsimp only
    split
    · split
      · exact goSilent_follows false s
      · exact .of_same rfl id
    · exact .of_same rfl id
  · exact .of_same rfl id

theorem goSilent_state (mark : Bool) (s : State) : (goSilent mark s).silence.state = .silent := by rw [goSilent_silence]

theorem fadeStepSilence_stays (h : s.silence.state = .silent) : fadeStepSilence s = s :=
  if_neg (by rw [h]; nofun)

theorem afterRemoval_silence (e : Entry) (s : State) : (afterRemoval e s).silence = (fadeOut s).silence := by
  have hu : Unchanged [.floor, .channels, .drive] s (idleDrop e.channel (if (fadingOf s e).isSome then checkFading s else s)) :=
    (Unchanged.ite (checkFading_unchanged s) (.refl _ _)).widen.andThen (idleDrop_unchanged _ _)
  have hsilence := hu .silence (by decide)
  have hqueue := hu .queue (by decide)
  dsimp only [Part.same] at hsilence hqueue
  rw [afterRemoval, fadeOut_silence, fadeOut_silence, goSilent_silence, goSilent_silence, hsilence, hqueue]

theorem closeLaunch_silence (e : Entry) (o : StrikeOutcome) (s : State) :
    (closeLaunch e o s).silence = (fadeOut (fadeStepSilence (preemptStep e (raise (outcomeCounter o) s)))).silence :=
  afterRemoval_silence e _

theorem fadeOut_stays (h : s.silence.state = .silent) : fadeOut s = s :=
  if_neg (by rw [h]; nofun)

theorem closeLaunch_follows (e : Entry) (o : StrikeOutcome) (s : State) : TraceFollows s (closeLaunch e o s) := by
  have hu : Unchanged [.counters, .floor] s (preemptStep e (raise (outcomeCounter o) s)) :=
    (raise_unchanged _ s).widen.andThen (preemptStep_unchanged e _)
  have hsilence := hu .silence (by decide)
  dsimp only [Part.same] at hsilence
  have hfirst := (fadeStepSilence_follows (preemptStep e (raise (outcomeCounter o) s))).congr (hu .trace (by decide))
    (hu .settings (by decide)) (by rw [hsilence])
  refine hfirst.trans (afterRemoval_follows e _) ?_ (fun h => ?_) fun h => ?_
  · exact ((hu.widen.andThen (fadeStepSilence_unchanged _) : Unchanged [.counters, .floor, .silence, .trace] s _)
      .settings (by decide))
  · rw [fadeStepSilence_stays (by rw [hsilence, h]), hsilence, h]
  · rw [closeLaunch_silence, fadeOut_stays h, h]

/-! ### A launch event as its closing (R51) -/

/-- Before it closes, a launch event has taken the entry, fired or not, and written its record. -/
theorem launchEntry_closes (e : Entry) (s : State) : ∃ o w, launchEntry e s = closeLaunch (servedEntry s e) o w ∧
    w.queue = s.queue.erase e ∧ Unchanged [.queue, .drive, .channels, .trace] s w := by
  have hgone : Unchanged [.queue, .drive, .channels, .trace] s (dequeue e s) := (dequeue_unchanged e s).widen
  unfold launchEntry
  dsimp only
  split
  · exact ⟨_, _, rfl, writeRecord_unchanged _ _ .queue (by decide), hgone.andThen (writeRecord_unchanged _ _)⟩
  · refine ⟨_, _, rfl, ?_, (hgone.andThen (fireEntry_unchanged _ _ _)).andThen (writeRecord_unchanged _ _)⟩
    exact (writeRecord_unchanged _ _ .queue (by decide)).trans (fireEntry_unchanged _ _ _ .queue (by decide))

theorem launchEntry_unfired (h : serve s (servedEntry s e) = .unfired o) : launchEntry e s =
    closeLaunch (servedEntry s e) o (writeRecord (unfiredRecord s (servedEntry s e) o) (dequeue e s)) := by
  simp only [launchEntry, h]

theorem launchEntry_fired (h : serve s (servedEntry s e) = .fired u o) : launchEntry e s =
    closeLaunch (servedEntry s e) o
      (writeRecord (firedRecord s (servedEntry s e) u o) (fireEntry (servedEntry s e) u (dequeue e s))) := by
  simp only [launchEntry, h]

theorem closeLaunch_raised (hcounters : w.counters = s.counters) : Raised (outcomeCounter o) s (closeLaunch x o w) := by
  have hsame : (closeLaunch x o w).counters = (raise (outcomeCounter o) s).counters := by
    have hafter : Unchanged [.floor, .channels, .drive, .silence, .trace] (raise (outcomeCounter o) w) (closeLaunch x o w) :=
      ((preemptStep_unchanged x _).widen.andThen (fadeStepSilence_unchanged _)).andThen (afterRemoval_unchanged x _)
    rw [show (closeLaunch x o w).counters = _ from hafter .counters (by decide)]
    simp only [raise, hcounters]
  exact (readCounter_of_same hsame _).trans (raise_raised _ s)

/-- The record written is the last, and the trace takes an entry to SILENT after it. -/
theorem launch_traced {r : StrikeRecord} (htrace : w.trace = s.trace) (hsettings : w.settings = s.settings)
    (hsilence : w.silence = s.silence) (h : t = closeLaunch x o (writeRecord r w)) :
    (s.trace.state ≠ .frozen → t.trace.records.getLast? = some r) ∧
    t.trace = (if s.silence.state ≠ .silent ∧ t.silence.state = .silent then silentTrigger (writeRecord r s)
      else writeRecord r s).trace := by
  have hw : Unchanged [.trace] w (writeRecord r w) := writeRecord_unchanged r w
  have hs : Unchanged [.trace] s (writeRecord r s) := writeRecord_unchanged r s
  have hstate : (writeRecord r w).silence = (writeRecord r s).silence :=
    (hw .silence (by decide)).trans (hsilence.trans (hs .silence (by decide)).symm)
  have hfollows : TraceFollows (writeRecord r s) t := by
    rw [h]
    refine (closeLaunch_follows x o (writeRecord r w)).congr (writeRecord_trace_congr r htrace hsettings) ?_ (by rw [hstate])
    exact (hw .settings (by decide)).trans (hsettings.trans (hs .settings (by decide)).symm)
  refine ⟨hfollows.last, ?_⟩
  unfold TraceFollows at hfollows
  rw [hs .silence (by decide)] at hfollows
  exact hfollows

/-! ### The channels and the bank after a launch event (R18, R32, R55) -/

/-- A launch event's count toward the two fades. -/
def counted (x : Entry) (o : StrikeOutcome) (w : State) : State := fadeStepSilence (preemptStep x (raise (outcomeCounter o) w))

/-- The fading part goes with its last entry. -/
def fadingTested (x : Entry) (w : State) : State := if (fadingOf w x).isSome then checkFading w else w

theorem closeLaunch_eq (x : Entry) (o : StrikeOutcome) (w : State) :
    closeLaunch x o w = fadeOut (idleDrop x.channel (fadingTested x (counted x o w))) := rfl

theorem counted_unchanged (x : Entry) (o : StrikeOutcome) (w : State) :
    Unchanged [.counters, .floor, .silence, .trace] w (counted x o w) :=
  ((raise_unchanged _ w).widen.andThen (preemptStep_unchanged x _)).andThen (fadeStepSilence_unchanged _)

theorem fadingTested_unchanged (x : Entry) (w : State) : Unchanged [.floor] w (fadingTested x w) :=
  .ite (checkFading_unchanged w) (.refl _ w)

theorem closing_unchanged (x : Entry) (o : StrikeOutcome) (w : State) :
    Unchanged [.counters, .floor, .silence, .trace] w (fadingTested x (counted x o w)) :=
  (counted_unchanged x o w).andThen (fadingTested_unchanged x _)

theorem idleDrop_channel (k : Fin 8) (s : State) (j : Fin 8) : (idleDrop k s).channels[j] =
    { s.channels[j] with damperUp := (idleDrop k s).channels[j].damperUp } := by
  rw [idleDrop_eq]
  split
  · have h : (drainCheck (idleDown k s)).channels[j] = (idleDown k s).channels[j] :=
      congrArg (fun v : Vector Channel 8 => v[j]) (drainCheck_channels _)
    rw [h, idleDown_channel]
  · rfl

theorem idleDrop_drive (k : Fin 8) (h : s.drive.mode ≠ .draining) : (idleDrop k s).drive = s.drive := by
  rw [idleDrop_eq]
  split
  · rw [drainCheck_of_not_draining (s := idleDown k s) h]
    rfl
  · rfl

theorem closeLaunch_channel (x : Entry) (o : StrikeOutcome) (w : State) (j : Fin 8) : (closeLaunch x o w).channels[j] =
    { w.channels[j] with damperUp := (closeLaunch x o w).channels[j].damperUp } := by
  have hchannels : (fadingTested x (counted x o w)).channels = w.channels := closing_unchanged x o w .channels (by decide)
  have hlast : (closeLaunch x o w).channels = (idleDrop x.channel (fadingTested x (counted x o w))).channels := by
    rw [closeLaunch_eq]
    exact fadeOut_unchanged _ .channels (by decide)
  have h := idleDrop_channel x.channel (fadingTested x (counted x o w)) j
  rw [hlast, h, hchannels]

theorem closeLaunch_drive (x : Entry) (o : StrikeOutcome) (h : w.drive.mode ≠ .draining) :
    (closeLaunch x o w).drive = w.drive := by
  have hdrive : (fadingTested x (counted x o w)).drive = w.drive := closing_unchanged x o w .drive (by decide)
  rw [closeLaunch_eq, fadeOut_unchanged _ .drive (by decide), idleDrop_drive x.channel (by rw [hdrive]; exact h),
    hdrive]

/-- A hammer that is under way keeps its damper. -/
theorem closeLaunch_channels_of_moving (x : Entry) (o : StrikeOutcome) (h : w.channels[x.channel].hammer ≠ .rest) :
    (closeLaunch x o w).channels = w.channels := by
  have hchannels : (fadingTested x (counted x o w)).channels = w.channels := closing_unchanged x o w .channels (by decide)
  have hmoving : idles (fadingTested x (counted x o w)) x.channel = false := by
    have hrest : (fadingTested x (counted x o w)).channels[x.channel].atRest = false := by
      rw [Bool.eq_false_iff, ne_eq, Channel.atRest_iff, hchannels]
      exact h
    rw [idles, hrest, Bool.and_false]
  rw [closeLaunch_eq, fadeOut_unchanged _ .channels (by decide), idleDrop_of_kept (.inr hmoving), hchannels]

theorem driveFor_of_up {d : DriveState} (n : Nat) (h : bankUp d = true) :
    driveFor s d n = if s.settings.readyLevel ≤ n then .ready else .charging := by
  cases d with
  | off => cases h
  | charging => rfl
  | ready => rfl
  | draining => cases h

theorem fireEntry_channel (x : Entry) (u : Nat) (s : State) (j : Fin 8) : (fireEntry x u s).channels[j] =
    if j = x.channel then fireChannel s.time.count x u s.channels[j] else s.channels[j] :=
  updChannel_channel x.channel _ _ j

theorem fireChannel_drop (now : LocalCount) (x : Entry) (u : Nat) (c : Channel) : (fireChannel now x u c).drop =
    (match x.duration, c.voicing.damped, c.drop with
      | some d, true, none => some (plus x.impact d)
      | some d, true, some old => some (later old (plus x.impact d))
      | _, _, old => old) := by
  unfold fireChannel
  cases hd : x.duration <;> cases hdamped : c.voicing.damped <;> cases hdrop : c.drop <;> rfl

theorem fireChannel_eq (now : LocalCount) (x : Entry) (u : Nat) (c : Channel) : fireChannel now x u c = { c with
    gate := some { since := now, width := pulseWidth c.voicing u }
    hammer := .flying now (flightAt c.voicing u) c.voicing.back
    lastFired := some { launch := x.launch, back := c.voicing.back }
    drop := (match x.duration, c.voicing.damped, c.drop with
      | some d, true, none => some (plus x.impact d)
      | some d, true, some old => some (later old (plus x.impact d))
      | _, _, old => old) } :=
  congrArg (fun d => { fireChannel now x u c with drop := d }) (fireChannel_drop now x u c)

/-- A strike of a low priority is never paid from the reserve (R27). -/
theorem reserve_kept {v : Voicing} (hlow : x.priority < 3) (hpos : 1 ≤ strikeCost v u)
    (hcost : strikeCost v u ≤ available s x.priority) : s.settings.reserve ≤ s.drive.level - strikeCost v u := by
  rw [available_of_low hlow] at hcost
  omega

/-! ### The floor after a launch event (R53, R115) -/

/-- The fading part as a launch event of one of its entries leaves it while others remain. -/
def fadedOnce (step : Nat) (f : FadingPart) : FadingPart :=
  if f.reduction = 0 then f
  else if step ≤ f.launches + 1 then { f with launches := 0, reduction := min 15 (f.reduction + 1) }
  else { f with launches := f.launches + 1 }

theorem fadedOnce_perf (step : Nat) (f : FadingPart) : (fadedOnce step f).perf = f.perf := by
  unfold fadedOnce
  split
  · rfl
  split <;> rfl

theorem fadingOf_of_owner {f : FadingPart} (hf : s.floor.fading = some f) (howner : e.owner = .perf f.perf) :
    fadingOf s e = some f := by
  simp only [fadingOf, hf, ownedBy_iff.mpr howner, if_true]

theorem fadingOf_of_other (hother : ∀ f, s.floor.fading = some f → e.owner ≠ .perf f.perf) : fadingOf s e = none := by
  rw [fadingOf]
  cases hf : s.floor.fading with
  | none => rfl
  | some f => simp [not_ownedBy_iff.mpr (hother f hf)]

theorem preemptStep_floor {f : FadingPart} (hf : s.floor.fading = some f) (howner : e.owner = .perf f.perf) :
    (preemptStep e s).floor.fading = some (fadedOnce s.settings.fadeStep f) := by
  unfold preemptStep fadedOnce
  rw [fadingOf_of_owner hf howner]
  dsimp only
  split
  · exact hf
  · split <;> rfl

theorem preemptStep_of_other (hother : ∀ f, s.floor.fading = some f → e.owner ≠ .perf f.perf) : preemptStep e s = s := by
  unfold preemptStep
  rw [fadingOf_of_other hother]

theorem afterRemoval_floor (e : Entry) (s : State) :
    (afterRemoval e s).floor = (if (fadingOf s e).isSome then checkFading s else s).floor := by
  rw [afterRemoval, fadeOut_unchanged _ .floor (by decide), idleDrop_unchanged _ _ .floor (by decide)]

theorem closeLaunch_floor_of_other (x : Entry) (o : StrikeOutcome) (hother : ∀ f, w.floor.fading = some f → x.owner ≠ .perf f.perf) :
    (closeLaunch x o w).floor = w.floor := by
  have hsame : (fadeStepSilence (preemptStep x (raise (outcomeCounter o) w))).floor = w.floor := by
    rw [fadeStepSilence_unchanged _ .floor (by decide), preemptStep_of_other (s := raise (outcomeCounter o) w) hother]
    rfl
  rw [closeLaunch, afterRemoval_floor, fadingOf_of_other (by rw [hsame]; exact hother)]
  exact hsame

theorem closeLaunch_floor_of_fading {f : FadingPart} (o : StrikeOutcome) (hf : w.floor.fading = some f)
    (howner : x.owner = .perf f.perf) :
    ((∀ y ∈ w.queue, y.owner ≠ .perf f.perf) → (closeLaunch x o w).floor.fading = none) ∧
    ((∃ y ∈ w.queue, y.owner = .perf f.perf) →
      (closeLaunch x o w).floor.fading = some (fadedOnce w.settings.fadeStep f)) := by
  generalize hv : counted x o w = v
  have hqueue : v.queue = w.queue := by
    rw [← hv]
    exact counted_unchanged x o w .queue (by decide)
  have hfading : v.floor.fading = some (fadedOnce w.settings.fadeStep f) := by
    rw [← hv, counted, fadeStepSilence_unchanged _ .floor (by decide)]
    exact preemptStep_floor (s := raise (outcomeCounter o) w) hf howner
  have hperf : (fadedOnce w.settings.fadeStep f).perf = f.perf := fadedOnce_perf _ f
  have hsome : fadingOf v x = some (fadedOnce w.settings.fadeStep f) := fadingOf_of_owner hfading (by rw [hperf, howner])
  have hfloor : (closeLaunch x o w).floor = (checkFading v).floor := by
    refine (afterRemoval_floor x (counted x o w)).trans ?_
    rw [hv, hsome]
    exact congrArg State.floor (if_pos rfl)
  rw [hfloor, ← hqueue]
  exact ⟨fun hnone => checkFading_goes hfading (by rw [hperf]; exact hnone),
    fun hsome => checkFading_stays hfading (by rw [hperf]; exact hsome)⟩

/-! ### The silence after a launch event (R173) -/

theorem fadeStepSilence_of_fading (hstate : s.silence.state = .fading) : fadeStepSilence s =
    if s.settings.fadeStep ≤ s.silence.fadeCount + 1 then
      if 15 ≤ s.silence.level + 1 then goSilent false s
      else { s with silence := { s.silence with fadeCount := 0, level := s.silence.level + 1 } }
    else { s with silence := { s.silence with fadeCount := s.silence.fadeCount + 1 } } := if_pos hstate

/-- What a launch event does to the silence of the node: the fade's count, and the end of the fade. -/
def fadedLaunch (s : State) : Silence := (fadeOut (fadeStepSilence s)).silence

theorem fadedLaunch_of_not_fading (hstate : s.silence.state ≠ .fading) : fadedLaunch s = s.silence := by
  have hstep : fadeStepSilence s = s := if_neg hstate
  have hout : fadeOut s = s := if_neg fun h => hstate h.1
  rw [fadedLaunch, hstep, hout]

theorem fadeOut_ends (hstate : s.silence.state = .fading) (hqueue : s.queue = []) : (fadeOut s).silence = (goSilent false s).silence := by
  rw [fadeOut_silence, if_pos ⟨hstate, hqueue⟩]

theorem fadeOut_goes_on (hqueue : s.queue ≠ []) : fadeOut s = s := if_neg fun h => hqueue h.2

theorem fadedLaunch_silent (hstate : s.silence.state = .fading)
    (h : s.queue = [] ∨ (s.settings.fadeStep ≤ s.silence.fadeCount + 1 ∧ 14 ≤ s.silence.level)) :
    (fadedLaunch s).state = .silent ∧ (fadedLaunch s).level = 15 ∧ (fadedLaunch s).resumable = false := by
  rw [fadedLaunch, fadeStepSilence_of_fading hstate]
  by_cases hcount : s.settings.fadeStep ≤ s.silence.fadeCount + 1
  · rw [if_pos hcount]
    by_cases hlevel : 15 ≤ s.silence.level + 1
    · rw [if_pos hlevel, fadeOut_stays (goSilent_state false s), goSilent_silence]
      exact ⟨rfl, rfl, rfl⟩
    · have hempty : s.queue = [] := h.resolve_right fun hfull => by omega
      rw [if_neg hlevel, fadeOut_ends, goSilent_silence]
      · exact ⟨rfl, rfl, rfl⟩
      · exact hstate
      · exact hempty
  · have hempty : s.queue = [] := h.resolve_right fun hfull => hcount hfull.1
    rw [if_neg hcount, fadeOut_ends, goSilent_silence]
    · exact ⟨rfl, rfl, rfl⟩
    · exact hstate
    · exact hempty

theorem fadedLaunch_deeper (hstate : s.silence.state = .fading) (hqueue : s.queue ≠ [])
    (hcount : s.settings.fadeStep ≤ s.silence.fadeCount + 1) (hlevel : s.silence.level < 14) :
    fadedLaunch s = { s.silence with fadeCount := 0, level := s.silence.level + 1 } := by
  have hroom : ¬15 ≤ s.silence.level + 1 := by omega
  rw [fadedLaunch, fadeStepSilence_of_fading hstate, if_pos hcount, if_neg hroom, fadeOut_goes_on]
  exact hqueue

theorem fadedLaunch_counted (hstate : s.silence.state = .fading) (hqueue : s.queue ≠ [])
    (hcount : s.silence.fadeCount + 1 < s.settings.fadeStep) :
    fadedLaunch s = { s.silence with fadeCount := s.silence.fadeCount + 1 } := by
  rw [fadedLaunch, fadeStepSilence_of_fading hstate, if_neg (not_le.mpr hcount), fadeOut_goes_on]
  exact hqueue

theorem fadedLaunch_congr (hsilence : t.silence = s.silence) (hsettings : t.settings = s.settings) (hqueue : t.queue = s.queue) :
    fadedLaunch t = fadedLaunch s := by
  have hsame : (fadeStepSilence t).silence = (fadeStepSilence s).silence := by
    unfold fadeStepSilence
    rw [hsilence, hsettings]
    split
    · dsimp only
      split
      · split
        · rw [goSilent_silence, goSilent_silence, hsilence]
        · rfl
      · rfl
    · exact hsilence
  have hq : (fadeStepSilence t).queue = (fadeStepSilence s).queue := by
    rw [fadeStepSilence_unchanged t .queue (by decide), fadeStepSilence_unchanged s .queue (by decide), hqueue]
  rw [fadedLaunch, fadedLaunch, fadeOut_silence, fadeOut_silence, goSilent_silence, goSilent_silence, hsame, hq]

/-! ### The writing of a record (R56, R188) -/

theorem pushRecord_of_room {r : StrikeRecord} {l : List StrikeRecord} (h : l.length < 64) : pushRecord r l = l ++ [r] := by
  have hnone : l.length + 1 - 64 = 0 := by omega
  exact (congrArg (fun n => l.drop n ++ [r]) hnone).trans (by rw [List.drop_zero])

theorem pushRecord_of_full {r : StrikeRecord} {l : List StrikeRecord} (h : l.length = 64) : pushRecord r l = l.tail ++ [r] := by
  have hone : l.length + 1 - 64 = 1 := by omega
  exact (congrArg (fun n => l.drop n ++ [r]) hone).trans (by rw [List.drop_one])

theorem recordTriggers_iff (g : Trigger) (o : StrikeOutcome) : recordTriggers g o = true ↔
    (g = .starved ∧ o = .starved) ∨ (g = .notFired ∧ o ≠ .fired) := by
  cases g <;> simp [recordTriggers]

theorem writeRecord_counting (r : StrikeRecord) (h : s.trace.state = .counting) : writeRecord r s = { s with trace := {
    records := pushRecord r s.trace.records, remaining := s.trace.remaining - 1
    state := if s.trace.remaining ≤ 1 then .frozen else .counting } } := by
  have hlast : (s.trace.remaining - 1 = 0) = (s.trace.remaining ≤ 1) := propext (by omega)
  simp only [writeRecord, h, hlast]

theorem writeRecord_trigger {r : StrikeRecord} (h : s.trace.state = .open) (ht : recordTriggers s.settings.trigger r.outcome = true) :
    writeRecord r s = { s with trace := {
      records := pushRecord r s.trace.records, remaining := s.settings.postCount
      state := if s.settings.postCount = 0 then .frozen else .counting } } := by
  simp only [writeRecord, h, ht, if_true, fireTrigger]

theorem writeRecord_open {r : StrikeRecord} (h : s.trace.state = .open) (ht : recordTriggers s.settings.trigger r.outcome = false) :
    writeRecord r s = { s with trace := { s.trace with records := pushRecord r s.trace.records } } := by
  simp [writeRecord, h, ht]

/-! ### The first tests of the outcome (R51) -/

theorem serve_halted (h : channelState s e.channel ≠ .run) : serve s e = .unfired .halted := if_pos h

theorem serve_silenced (hrun : channelState s e.channel = .run)
    (h : isClear s e.channel = false ∨ s.silence.state = .silent) : serve s e = .unfired .silenced := by
  obtain h | h := h
  · simp [serve, hrun, h]
  · cases hclear : isClear s e.channel <;> simp [serve, hrun, h, hclear]

theorem serve_starved (hrun : channelState s e.channel = .run) (hclear : isClear s e.channel = true)
    (hsilent : s.silence.state ≠ .silent) (hbank : bankUp s.drive.mode = false) : serve s e = .unfired .starved := by
  simp [serve, hrun, hclear, hsilent, hbank]

theorem exec_launchEvent (hp : s.powered = true) (h : firstDue s = some e) :
    exec .launchEvent s = .next (launchEntry e s) := by
  refine (act_of_powered launchFirst hp).trans (congrArg _ ?_)
  simp only [launchFirst, h]

end

/-- A strike that fires (R55, R56). -/
theorem launchEntry_strikes {e x : Entry} {u : Nat} {o : StrikeOutcome} {s t : State} (hx : x = servedEntry s e)
    (hserve : serve s x = .fired u o) (ht : t = launchEntry e s) :
    t.drive.level = s.drive.level - strikeCost s.channels[x.channel].voicing u ∧
    t.drive.mode = (if s.settings.readyLevel ≤ t.drive.level then .ready else .charging) ∧
    t.drive.idle = s.drive.idle ∧
    (∀ j : Fin 8, t.channels[j] = if j = x.channel then fireChannel s.time.count x u s.channels[j] else s.channels[j]) ∧
    Raised (outcomeCounter o) s t ∧
    (s.trace.state ≠ .frozen → t.trace.records.getLast? = some (firedRecord s x u o)) ∧
    t.trace = (if s.silence.state ≠ .silent ∧ t.silence.state = .silent then silentTrigger (writeRecord (firedRecord s x u o) s)
      else writeRecord (firedRecord s x u o) s).trace := by
  have hbank : bankUp s.drive.mode = true := (ready_of_serve_fired hserve).bank
  generalize hf : fireEntry x u (dequeue e s) = f
  have hclosed : t = closeLaunch x o (writeRecord (firedRecord s x u o) f) := by
    rw [ht, ← hf, hx]
    rw [hx] at hserve
    exact launchEntry_fired hserve
  have hfu : Unchanged [.queue, .drive, .channels] s f := by
    rw [← hf]
    exact (dequeue_unchanged e s).widen.andThen (fireEntry_unchanged x u _)
  have hw : Unchanged [.trace] f (writeRecord (firedRecord s x u o) f) := writeRecord_unchanged _ _
  have hdrive : f.drive = { mode := if s.settings.readyLevel ≤ s.drive.level - strikeCost s.channels[x.channel].voicing u then
      .ready else .charging, level := s.drive.level - strikeCost s.channels[x.channel].voicing u, idle := s.drive.idle } := by
    rw [← hf]
    exact congrArg (fun m => Drive.mk m (s.drive.level - strikeCost s.channels[x.channel].voicing u) s.drive.idle)
      (driveFor_of_up (s := s) _ hbank)
  have hchannel (j : Fin 8) : f.channels[j] =
      if j = x.channel then fireChannel s.time.count x u s.channels[j] else s.channels[j] := by
    rw [← hf]
    exact fireEntry_channel x u (dequeue e s) j
  have hwd : (writeRecord (firedRecord s x u o) f).drive = f.drive := hw .drive (by decide)
  have hwc : (writeRecord (firedRecord s x u o) f).channels = f.channels := hw .channels (by decide)
  have hnotDraining : (writeRecord (firedRecord s x u o) f).drive.mode ≠ .draining := by
    rw [hwd, hdrive]
    dsimp only
    split <;> nofun
  have hmoving : (writeRecord (firedRecord s x u o) f).channels[x.channel].hammer ≠ .rest := by
    rw [hwc, hchannel, if_pos rfl]
    nofun
  have htd : t.drive = f.drive := by rw [hclosed, closeLaunch_drive x o hnotDraining, hwd]
  refine ⟨by rw [htd, hdrive], by rw [htd, hdrive], by rw [htd, hdrive], fun j => ?_, ?_,
    launch_traced (hfu .trace (by decide)) (hfu .settings (by decide)) (hfu .silence (by decide)) hclosed⟩
  · rw [hclosed, closeLaunch_channels_of_moving x o hmoving, hwc, hchannel]
  · rw [hclosed]
    exact closeLaunch_raised ((hw .counters (by decide)).trans (hfu .counters (by decide)))

/-- Settles O22: a launch event is a strike or none, and `closeLaunch` after it, whose floor and silence are read
from the lemmas above. -/
theorem launchEventResult : Obligations.LaunchEventResult := by
  refine ⟨fun v energy n => ⟨degrade_eq_some_iff v energy n, degrade_eq_none_iff v energy n⟩,
    fun v i => ⟨pulseWidth_succ v i, by rw [strikeCost, pulseWidth_succ]⟩,
    fun s p => ⟨available_of_high, fun hlow => ?_⟩,
    fun e x u o s hp hdue hx hserve => ?_, fun e x o s hp hdue hx hserve => ?_, fun e s hp hdue => ?_,
    fun e s => ⟨serve_halted, serve_silenced, serve_starved⟩, firstDue_iff, launchDue_iff, isClear_iff,
    fun s e => ⟨fun hclear h => ?_, fun h => ?_⟩, fun r l => ⟨pushRecord_of_room, pushRecord_of_full⟩,
    fun r s => ⟨fun h => ?_, writeRecord_counting r, fun h => ⟨fun ht => ?_, fun ht => ?_⟩⟩, fun s => ⟨fun h ht => ?_, fun h => ?_⟩⟩
  · rw [available_of_low hlow]
    omega
  · have hready := ready_of_serve_fired hserve
    obtain ⟨hlevel, hmode, hidle, hchannel, hraised, htrace⟩ := launchEntry_strikes hx hserve rfl
    refine ⟨_, exec_launchEvent hp hdue, launchEntry_queue _ _, hlevel, hmode, hidle, fun hlow hvel hv => ?_, ?_, ?_,
      fun j hj => ?_, hraised, fun r hr => ?_, launchEntry_unchanged e s⟩
    · obtain ⟨hpos, hle, hcost, -⟩ := (degrade_eq_some_iff _ _ _ _).mp (degrade_of_serve_fired hserve)
      have := effectiveVelocity_le s x
      rw [hlevel]
      exact reserve_kept hlow (strikeCost_pos hv hpos (by omega)) hcost
    · exact (hchannel x.channel).trans ((if_pos rfl).trans (fireChannel_eq _ _ _ _))
    · exact servedEntry_apart hx hready.clear
    · rw [hchannel j, if_neg hj]
    · obtain rfl : r = firedRecord s x u o := hr
      exact htrace
  · have hgone : Unchanged [.queue] s (dequeue e s) := dequeue_unchanged e s
    have hw : Unchanged [.trace] (dequeue e s) (writeRecord (unfiredRecord s x o) (dequeue e s)) := writeRecord_unchanged _ _
    have hclosed : launchEntry e s = closeLaunch x o (writeRecord (unfiredRecord s x o) (dequeue e s)) := by
      rw [hx]
      exact launchEntry_unfired (hx ▸ hserve)
    refine ⟨_, exec_launchEvent hp hdue, launchEntry_queue _ _, ?_, fun j => ?_, fun hmode => ?_, fun r hr => ?_,
      launchEntry_unchanged e s⟩
    · rw [hclosed]
      exact closeLaunch_raised (hw .counters (by decide))
    · have hchannels : (writeRecord (unfiredRecord s x o) (dequeue e s)).channels = s.channels := hw .channels (by decide)
      have h := closeLaunch_channel x o (writeRecord (unfiredRecord s x o) (dequeue e s)) j
      rw [hchannels, ← hclosed] at h
      exact h
    · have hdrive : (writeRecord (unfiredRecord s x o) (dequeue e s)).drive = s.drive := hw .drive (by decide)
      rw [hclosed, closeLaunch_drive x o (by rw [hdrive]; exact hmode), hdrive]
    · obtain rfl : r = unfiredRecord s x o := hr
      exact launch_traced (w := dequeue e s) rfl rfl rfl hclosed
  · obtain ⟨o, w, hclosed, hqueue, hu⟩ := launchEntry_closes e s
    obtain ⟨-, howner⟩ := servedEntry_kept s e
    have hfloor : w.floor = s.floor := hu .floor (by decide)
    have hsettings : w.settings = s.settings := hu .settings (by decide)
    have hsilence : (launchEntry e s).silence = fadedLaunch w := by
      rw [hclosed, closeLaunch_silence]
      have hpre : Unchanged [.counters, .floor] w (preemptStep (servedEntry s e) (raise (outcomeCounter o) w)) :=
        (raise_unchanged _ w).widen.andThen (preemptStep_unchanged _ _)
      exact fadedLaunch_congr (hpre .silence (by decide)) (hpre .settings (by decide)) (hpre .queue (by decide))
    have hws : w.silence = s.silence := hu .silence (by decide)
    refine ⟨_, exec_launchEvent hp hdue, rfl, launchEntry_queue _ _, (launchEntry_kept e s).1, fun hother => ?_,
      fun f hf hown => ?_, fun hstate => ?_, fun hstate => ⟨fun h => ?_, fun hq hcount hlevel => ?_, fun hq hcount => ?_⟩⟩
    · rw [hclosed, closeLaunch_floor_of_other _ o (by rw [hfloor, howner]; exact hother), hfloor]
    · have h := closeLaunch_floor_of_fading (x := servedEntry s e) o (hfloor ▸ hf) (howner.trans hown)
      rw [← hclosed, hqueue, hsettings] at h
      rw [launchEntry_queue]
      exact h
    · rw [hsilence, fadedLaunch_of_not_fading (by rw [hws]; exact hstate), hws]
    · rw [hsilence]
      rw [launchEntry_queue, ← hqueue, ← hsettings, ← hws] at h
      exact fadedLaunch_silent (by rw [hws, hstate]) h
    · rw [launchEntry_queue, ← hqueue] at hq
      rw [← hsettings, ← hws] at hcount
      rw [← hws] at hlevel
      rw [hsilence, fadedLaunch_deeper (by rw [hws, hstate]) hq hcount hlevel, hws]
    · rw [launchEntry_queue, ← hqueue] at hq
      rw [← hsettings, ← hws] at hcount
      rw [hsilence, fadedLaunch_counted (by rw [hws, hstate]) hq hcount, hws]
  · exact servedEntry_now hclear (h.imp_right (withinReturn_iff s e).mpr)
  · refine servedEntry_same (h.imp_right fun ⟨hheld, hnone⟩ => ⟨hheld, Bool.eq_false_iff.mpr fun hw => ?_⟩)
    obtain ⟨l, hl, hb⟩ := (withinReturn_iff s e).mp hw
    rw [hnone l hl] at hb
    cases hb
  · simp only [writeRecord, h]
  · exact writeRecord_trigger h ((recordTriggers_iff _ _).mpr ht)
  · exact writeRecord_open h (Bool.eq_false_iff.mpr fun hr => ht ((recordTriggers_iff _ _).mp hr))
  · exact if_pos ⟨h, ht⟩
  · refine if_neg fun ⟨hopen, ht⟩ => ?_
    obtain h | h := h
    · exact h hopen
    · exact h ht

end Sys2Proof.Machine
end

