-- ==== Sys2Proof/Proofs/TuneEvents.lean ====
section
/-! The events of a performance: of a loaded tune by its deltas and tempo, of a resident one from the settings, the note
events from a cursor on, and the orders packed into a frame (R130 to R133, R146). -/

namespace Sys2Proof.Machine

-- One proof after another: many at once would ask for more threads than the memory limit allows.
set_option Elab.async false

section
variable {s : State} {p : Perf} {events : List Sched} {x y : Nat × Nat × NoteOrder} {rest post : List (Nat × Nat × NoteOrder)}

/-! ### The note events from a cursor on (R133) -/

theorem notesFrom_of_ge {c : Nat} (h : events.length ≤ c) : notesFrom events c = [] := by
  rw [notesFrom, List.drop_eq_nil_of_le (by rw [List.length_zipIdx]; exact h)]
  rfl

theorem notesFrom_of_lt {c : Nat} (h : c < events.length) : notesFrom events c =
    (match events[c].note with
      | none => notesFrom events (c + 1)
      | some n => (c, events[c].offset, n) :: notesFrom events (c + 1)) := by
  have hlt : c < events.zipIdx.length := by rwa [List.length_zipIdx]
  rw [notesFrom, List.drop_eq_getElem_cons hlt, List.getElem_zipIdx, Nat.zero_add]
  cases hnote : events[c].note with
  | none => rw [List.filterMap_cons_none (by rw [hnote]; rfl)] <;> rfl
  | some n => rw [List.filterMap_cons_some (b := (c, events[c].offset, n)) (by rw [hnote]; rfl)] <;> rfl

theorem mem_notesFrom (events : List Sched) (c : Nat) (x : Nat × Nat × NoteOrder) : x ∈ notesFrom events c ↔ c ≤ x.1 ∧
    ∃ e, events[x.1]? = some e ∧ e.offset = x.2.1 ∧ e.note = some x.2.2 := by
  simp only [notesFrom, List.mem_filterMap, Option.map_eq_some_iff]
  constructor
  · rintro ⟨⟨e, i⟩, hmem, n, hnote, rfl⟩
    obtain ⟨j, hj, heq⟩ := List.mem_iff_getElem.mp hmem
    rw [List.getElem_drop, List.getElem_zipIdx, Nat.zero_add, Prod.mk.injEq] at heq
    obtain ⟨he, rfl⟩ := heq
    exact ⟨Nat.le_add_right c j, e, List.getElem?_eq_some_iff.mpr ⟨_, he⟩, rfl, hnote⟩
  · rintro ⟨hle, e, he, hoffset, hnote⟩
    obtain ⟨hlt, he⟩ := List.getElem?_eq_some_iff.mp he
    refine ⟨(e, x.1), ?_, x.2.2, hnote, by rw [hoffset]⟩
    refine List.mem_iff_getElem.mpr ⟨x.1 - c, by rw [List.length_drop, List.length_zipIdx]; omega, ?_⟩
    rw [List.getElem_drop, List.getElem_zipIdx]
    simp only [Nat.add_sub_cancel' hle, he, Nat.zero_add]

/-- The list goes on from the event after its first. -/
theorem notesFrom_tail {c : Nat} (h : notesFrom events c = x :: rest) :
    c ≤ x.1 ∧ x.1 < events.length ∧ notesFrom events (x.1 + 1) = rest := by
  generalize hn : events.length - c = n
  induction n generalizing c with
  | zero =>
    rw [notesFrom_of_ge (by omega)] at h
    cases h
  | succ n ih =>
    have hlt : c < events.length := by omega
    rw [notesFrom_of_lt hlt] at h
    split at h
    · obtain ⟨hle, hlast, hrest⟩ := ih h (by omega)
      exact ⟨by omega, hlast, hrest⟩
    · obtain ⟨rfl, rfl⟩ := List.cons.inj h
      exact ⟨le_rfl, hlt, rfl⟩

theorem notesFrom_after {c : Nat} {pre : List (Nat × Nat × NoteOrder)} (h : notesFrom events c = pre ++ y :: post) :
    c ≤ y.1 ∧ y.1 < events.length ∧ notesFrom events (y.1 + 1) = post := by
  induction pre generalizing c with
  | nil => exact notesFrom_tail h
  | cons x pre ih =>
    obtain ⟨hle, -, hrest⟩ := notesFrom_tail h
    obtain ⟨hle2, hlast, hpost⟩ := ih hrest
    exact ⟨by omega, hlast, hpost⟩

/-- A first event's own index is a cursor from which the list is the same. -/
theorem notesFrom_first {c : Nat} (h : notesFrom events c = x :: rest) : notesFrom events x.1 = x :: rest := by
  generalize hn : events.length - c = n
  induction n generalizing c with
  | zero =>
    rw [notesFrom_of_ge (by omega)] at h
    cases h
  | succ n ih =>
    have hlt : c < events.length := by omega
    have hkept := h
    rw [notesFrom_of_lt hlt] at h
    split at h
    · exact ih h (by omega)
    · obtain ⟨rfl, rfl⟩ := List.cons.inj h
      exact hkept

/-! ### The orders of a frame (R133) -/

theorem packNotes_cases (x : Nat × Nat × NoteOrder) (rest : List (Nat × Nat × NoteOrder)) :
    ∃ l post, packNotes x rest = x :: l ∧ rest = l ++ post ∧ l.length ≤ 2 ∧ (∀ y ∈ l, y.2.1 ≤ x.2.1 + 255) ∧
      ∀ y, post.head? = some y → l.length = 2 ∨ x.2.1 + 255 < y.2.1 := by
  generalize hin : (fun y : Nat × Nat × NoteOrder => decide (y.2.1 ≤ x.2.1 + 255)) = near
  have hnear (y : Nat × Nat × NoteOrder) : near y = true ↔ y.2.1 ≤ x.2.1 + 255 := by
    rw [← hin]
    exact decide_eq_true_iff
  have hpack : packNotes x rest = x :: (rest.takeWhile near).take 2 := by
    rw [← hin]
    rfl
  refine ⟨(rest.takeWhile near).take 2, (rest.takeWhile near).drop 2 ++ rest.dropWhile near, hpack, ?_, ?_,
    fun y hy => (hnear y).mp (List.mem_takeWhile_imp (List.mem_of_mem_take hy)), fun y hy => ?_⟩
  · rw [← List.append_assoc, List.take_append_drop, List.takeWhile_append_dropWhile]
  · rw [List.length_take]
    exact min_le_left _ _
  · by_cases hlong : 2 ≤ (rest.takeWhile near).length
    · exact .inl (by rw [List.length_take, min_eq_left hlong])
    · rw [List.drop_eq_nil_of_le (by omega), List.nil_append] at hy
      have hfar := List.head?_dropWhile_not near rest
      rw [hy] at hfar
      have hfar : near y = false := by simpa using hfar
      exact .inr (not_le.mp fun hle => Bool.eq_false_iff.mp hfar ((hnear y).mpr hle))

theorem packNotes_bounds (x : Nat × Nat × NoteOrder) (rest : List (Nat × Nat × NoteOrder)) :
    1 ≤ (packNotes x rest).length ∧ (packNotes x rest).length ≤ 3 ∧
    packNotes x rest <+: x :: rest ∧ (∀ y ∈ packNotes x rest, y = x ∨ y.2.1 ≤ x.2.1 + 255) ∧
    ∀ y post, x :: rest = packNotes x rest ++ y :: post →
      (packNotes x rest).length = 3 ∨ x.2.1 + 255 < y.2.1 := by
  obtain ⟨l, post, hpack, hrest, hlen, hnear, hfar⟩ := packNotes_cases x rest
  rw [hpack]
  refine ⟨Nat.succ_pos _, Nat.succ_le_succ hlen, ⟨post, by rw [hrest, List.cons_append]⟩, fun y hy => ?_, fun y post' h => ?_⟩
  · exact (List.mem_cons.mp hy).imp_right (hnear y)
  · rw [hrest, ← List.cons_append] at h
    have hpost := List.append_cancel_left h
    obtain hfull | hfar := hfar y (by rw [hpost]; rfl)
    · exact .inl (by rw [List.length_cons, hfull])
    · exact .inr hfar

/-! ### The events of a tune (R130 to R132) -/

theorem loadedEvents_length (tempo c : Nat) (l : List TuneEvent) : (loadedEvents tempo c l).length = l.length := by
  induction l generalizing c with
  | nil => rfl
  | cons e l ih => rw [loadedEvents, List.length_cons, ih, List.length_cons]

theorem loadedEvents_getElem? (tempo c : Nat) (l : List TuneEvent) {i : Nat} {e : TuneEvent} (h : l[i]? = some e) :
    (loadedEvents tempo c l)[i]? = some {
      offset := (c + ((l.take (i + 1)).map TuneEvent.delta).sum) * tempo
      note := if e.bell = 0 then none else some {
        bell := e.bell
        velocity := e.velocity
        duration := min 1023 ((e.duration * tempo + 15) / 16) } } := by
  induction l generalizing c i with
  | nil => cases h
  | cons d l ih =>
    cases i with
    | zero =>
      obtain rfl := Option.some.inj h
      simp only [loadedEvents, List.getElem?_cons_zero, Nat.zero_add, List.take_succ_cons, List.take_zero, List.map_cons,
        List.map_nil, List.sum_cons, List.sum_nil, Nat.add_zero, durationField]
    | succ i =>
      rw [loadedEvents, List.getElem?_cons_succ, ih (c + d.delta) h, List.take_succ_cons, List.map_cons, List.sum_cons,
        Nat.add_assoc]

theorem durationField_zero (tempo : Nat) : min 1023 ((0 * tempo + 15) / 16) = 0 := by omega

theorem perfEvents_valid {hd : TuneHeader} {mask : BellMask} {l : List TuneEvent} (hp : p.source = .loaded)
    (h : s.library.parts[p.slot] = .valid hd mask l) : perfEvents s p = loadedEvents hd.tempo 0 l := by
  simp only [perfEvents, hp, h]

theorem perfEvents_not_valid (hp : p.source = .loaded) (h : ∀ hd mask l, s.library.parts[p.slot] ≠ .valid hd mask l) :
    perfEvents s p = [] := by
  cases hpart : s.library.parts[p.slot] with
  | empty => simp only [perfEvents, hp, hpart]
  | loading _ _ _ => simp only [perfEvents, hp, hpart]
  | valid hd mask l => exact absurd hpart (h hd mask l)

/-- The events depend on the performance's source and slot, and on the library. -/
theorem perfEvents_congr {t : State} {q : Perf} (hlibrary : t.library = s.library) (hsource : q.source = p.source)
    (hslot : q.slot = p.slot) : perfEvents t q = perfEvents s p := by
  have hpart : t.library.parts[q.slot] = s.library.parts[p.slot] := by
    rw [hlibrary]
    exact congrArg (fun n : Fin 32 => s.library.parts[n]) hslot
  unfold perfEvents
  rw [hsource, hpart]

/-! ### The resident tunes (R131, R132, R146) -/

theorem hourStrikes_eq (cue : Nat) : hourStrikes cue = (cue % 345600000 / 14400000 + 11) % 12 + 1 := by
  have hday : hourOf cue = cue % 345600000 / 14400000 := by
    simp only [hourOf, minuteOfDay, Config.day, Config.minute]
    omega
  rw [hourStrikes, hday]
  split <;> omega

theorem hourNotes_getElem? (x : Settings) (cue : Nat) {i : Nat} (h : i < (hourNotes x cue).length) :
    (hourNotes x cue)[i]? = some { offset := i * x.hourInterval, bell := x.hourBell, velocity := 12 } := by
  rw [hourNotes, List.length_map, List.length_range] at h
  rw [hourNotes, List.getElem?_map, List.getElem?_range h]
  rfl

theorem scaleNotes_getElem? {i : Nat} (h : i < scaleNotes.length) :
    scaleNotes[i]? = some { offset := 1200 * i, bell := i + 1, velocity := 8 } := by
  rw [scaleNotes, List.length_map, List.length_range] at h
  rw [scaleNotes, List.getElem?_map, List.getElem?_range h]
  rfl

theorem quarterNotes_length (x : Settings) {n : Nat} (h : n ≤ 4) : (quarterNotes x n).length = 4 * n := by
  rw [quarterNotes, List.length_map, List.length_zipIdx, List.length_take]
  exact min_eq_left (show 4 * n ≤ 16 by omega)

theorem quarterNotes_getElem? (x : Settings) {n i : Nat} (h : i < (quarterNotes x n).length) {b : Nat}
    (hb : quarterSequence[i]? = some b) : (quarterNotes x n)[i]? =
      some { offset := 2400 * i + 2400 * (i / 4), velocity := 10, bell := quarterBell x b } := by
  rw [quarterNotes, List.length_map, List.length_zipIdx, List.length_take] at h
  rw [quarterNotes, List.getElem?_map, List.getElem?_zipIdx, List.getElem?_take_of_lt (by omega), hb]
  simp

/-- A bell of the settings or of the quarters, out of the numbers of the quarter sequence. -/
theorem quarterBell_eq (x : Settings) (b : Nat) : quarterBell x b =
    (match some b with
      | some 1 => x.quarter1
      | some 2 => x.quarter2
      | some 3 => x.quarter3
      | _ => x.quarter4) := by
  obtain _ | _ | _ | _ | b := b <;> rfl

/-! ### Masks of bells (R122) -/

theorem maskHas_foldl (l : List Nat) (m : BellMask) {bell : Nat} (hpos : 1 ≤ bell) (hle : bell ≤ 64)
    (hl : ∀ b ∈ l, 1 ≤ b ∧ b ≤ 64) : maskHas (l.foldl (fun m b => m ||| BitVec.twoPow 64 (b - 1)) m) bell = true ↔
      maskHas m bell = true ∨ bell ∈ l := by
  induction l generalizing m with
  | nil => simp
  | cons b l ih =>
    obtain ⟨hbpos, hble⟩ := hl b List.mem_cons_self
    rw [List.foldl_cons, ih _ fun c hc => hl c (List.mem_cons_of_mem b hc), List.mem_cons, ← or_assoc]
    refine or_congr_left ?_
    rw [maskHas, BitVec.getLsbD_or, Bool.or_eq_true, BitVec.getLsbD_twoPow, Bool.and_eq_true, decide_eq_true_iff,
      decide_eq_true_iff]
    refine or_congr_right ⟨fun ⟨_, h⟩ => by omega, fun h => ⟨by omega, by omega⟩⟩

theorem maskHas_maskOf {l : List Nat} {bell : Nat} (hpos : 1 ≤ bell) (hle : bell ≤ 64) (hl : ∀ b ∈ l, 1 ≤ b ∧ b ≤ 64) :
    maskHas (maskOf l) bell = true ↔ bell ∈ l := by
  rw [maskOf, maskHas_foldl l 0 hpos hle hl]
  simp [maskHas]

theorem maskHas_allOnes {bell : Nat} (hpos : 1 ≤ bell) (hle : bell ≤ 64) : maskHas (BitVec.allOnes 64) bell = true := by
  rw [maskHas, BitVec.getLsbD_allOnes]
  exact decide_eq_true (by omega)

theorem residentTune_hour (x : Settings) (cue : Nat) : residentTune x cue 0 =
    { tag := 0xFFFF00#24, mask := maskOf [x.hourBell], rule := .any, retry := false, priority := .hour
      source := .resident (hourNotes x cue) } := rfl

theorem residentTune_scale (x : Settings) (cue : Nat) : residentTune x cue 5 =
    { tag := 0xFFFF05#24, mask := BitVec.allOnes 64, rule := .any, retry := false, priority := .low
      source := .resident scaleNotes } := rfl

theorem residentTune_quarter (x : Settings) (cue : Nat) {n : Fin 6} (hpos : 1 ≤ n.val) (hle : n.val ≤ 4) :
    residentTune x cue n =
    { tag := 0xFFFF00#24 + BitVec.ofNat 24 n.val, mask := maskOf [x.quarter1, x.quarter2, x.quarter3, x.quarter4]
      rule := .any, retry := false, priority := .melody, source := .resident (quarterNotes x n.val) } := by
  have h0 : n ≠ 0 := fun h => by rw [h] at hpos; exact absurd hpos (by decide)
  have h5 : n ≠ 5 := fun h => by rw [h] at hle; exact absurd hle (by decide)
  exact (if_neg h0).trans (if_neg h5)

end

end Sys2Proof.Machine
end

