-- ==== Sys2Proof/Proofs/OrdersBuilt.lean ====
section
/-! The building of ORDER frames: a round of the build for each fate of the next event, the rounds that the events left
bound, and the occasions to build (R130 to R134). -/

namespace Sys2Proof.Machine

-- One proof after another: many at once would ask for more threads than the memory limit allows.
set_option Elab.async false

section
variable {s t v : State} {k : Fin 4} {p q : Perf} {n m : Nat} {x y : Nat × Nat × NoteOrder} {rest : List (Nat × Nat × NoteOrder)}

theorem setSlot_setSlot (k : Fin 4) (a b : Slot) (s : State) : setSlot k b (setSlot k a s) = setSlot k b s := by
  simp [setSlot]

theorem setSlot_self (h : s.conductor.slots[k] = .active p) : setSlot k (.active p) s = s := by
  rw [setSlot, ← h]
  exact congrArg (fun v => { s with conductor := { s.conductor with slots := v } }) (Vector.set_getElem_self k.isLt)

theorem raise_setSlot (c : Counter) (k : Fin 4) (a : Slot) (s : State) : raise c (setSlot k a s) = setSlot k a (raise c s) := rfl

/-! ### One round of the build (R133, R134) -/

/-- The impact lead of a note event of a performance. -/
def leadOf (s : State) (p : Perf) (x : Nat × Nat × NoteOrder) : Int := dist (plus p.start x.2.1) s.time.tower

theorem stream_done (h : s.conductor.slots[k] = .active p) (hn : notesFrom (perfEvents s p) p.cursor = []) :
    stream (n + 1) k s = setSlot k (.active { p with cursor := (perfEvents s p).length, phase := .ending }) s := by
  rw [stream, perf?_of_active h]
  dsimp only
  rw [hn]
  exact updPerf_of_active _ h

theorem stream_note (h : s.conductor.slots[k] = .active p) (hn : notesFrom (perfEvents s p) p.cursor = x :: rest) :
    stream (n + 1) k s =
      if s.settings.lookahead < leadOf s p x then setSlot k (.active { p with cursor := x.1 }) s
      else if leadOf s p x ≤ 1000 then
        stream n k (raise .lateSend (setSlot k (.active { p with cursor := x.1 + 1, lost := min 65535 (p.lost + 1) }) s))
      else if (handFrame (orderFrame k p (packNotes x rest) x.2.1) (setSlot k (.active { p with cursor := x.1 }) s)).2 then
        stream n k (orderTaken k (cursorAfter (packNotes x rest) x.1) (packNotes x rest).length
          (handFrame (orderFrame k p (packNotes x rest) x.2.1) (setSlot k (.active { p with cursor := x.1 }) s)).1)
      else updPerf k (fun q => { q with refused := true, chance := false })
        (handFrame (orderFrame k p (packNotes x rest) x.2.1) (setSlot k (.active { p with cursor := x.1 }) s)).1 := by
  have hcursor : updPerf k (fun q => { q with cursor := x.1 }) s = setSlot k (.active { p with cursor := x.1 }) s :=
    updPerf_of_active _ h
  have hskip : skipLate k x.1 (setSlot k (.active { p with cursor := x.1 }) s) =
      raise .lateSend (setSlot k (.active { p with cursor := x.1 + 1, lost := min 65535 (p.lost + 1) }) s) := by
    rw [skipLate, updPerf_of_active _ (setSlot_active k _ s), setSlot_setSlot]
    rfl
  rw [stream, perf?_of_active h]
  dsimp only
  rw [hn]
  dsimp only
  rw [hcursor, hskip]
  rfl

/-! ### The rounds that the events left bound -/

theorem cursorAfter_of_last (hlast : (packNotes x rest).getLast? = some y) : cursorAfter (packNotes x rest) x.1 = y.1 + 1 := by
  rw [cursorAfter, hlast]

theorem packNotes_last (x : Nat × Nat × NoteOrder) (rest : List (Nat × Nat × NoteOrder)) :
    ∃ y, (packNotes x rest).getLast? = some y := by
  obtain ⟨l, -, hpack, -⟩ := packNotes_cases x rest
  rw [hpack]
  exact ⟨_, List.getLast?_cons⟩

theorem packNotes_split (hlast : (packNotes x rest).getLast? = some y) : ∃ pre post, x :: rest = pre ++ y :: post := by
  obtain ⟨post, hpost⟩ := (packNotes_bounds x rest).2.2.1
  obtain ⟨pre, hpre⟩ := List.getLast?_eq_some_iff.mp hlast
  exact ⟨pre, post, by rw [← hpost, hpre, List.append_assoc, List.singleton_append]⟩

/-- A frame's last order is an event at or after its first. -/
theorem packNotes_last_bounds {c : Nat} {events : List Sched} (hn : notesFrom events c = x :: rest)
    (hlast : (packNotes x rest).getLast? = some y) : x.1 ≤ y.1 ∧ y.1 < events.length := by
  obtain ⟨pre, post, hsplit⟩ := packNotes_split hlast
  obtain ⟨hle, hlt, -⟩ := notesFrom_after ((notesFrom_first hn).trans hsplit)
  exact ⟨hle, hlt⟩

/-- What the hand-off of a frame leaves of a PLAYING performance: another frame's fate may be counted or be a chance. -/
theorem handFrame_performance (x : TxFrame) (h : s.conductor.slots[k] = .active p)
    (hq : (handFrame x s).1.conductor.slots[k] = .active q) (hphase : p.phase = .playing) :
    q = { p with lost := q.lost, chance := q.chance } := by
  obtain ⟨r, hr, hkept, hph⟩ := (handFrame_kept x s).active h
  obtain rfl : q = r := Slot.active.inj (hq.symm.trans hr)
  have hplaying : q.phase = p.phase := hph.resolve_right fun ⟨hclaiming, _⟩ => by
    rw [hphase] at hclaiming
    cases hclaiming
  rw [hplaying] at hkept
  exact hkept

theorem perfEvents_setSlot (k : Fin 4) (a : Slot) (s : State) (p : Perf) : perfEvents (setSlot k a s) p = perfEvents s p :=
  perfEvents_congr rfl rfl rfl

theorem perfEvents_handFrame (x : TxFrame) (s : State) (p : Perf) : perfEvents (handFrame x s).1 p = perfEvents s p :=
  perfEvents_congr (handFrame_unchanged x s .library (by decide)) rfl rfl

/-- More rounds than events left make no difference. -/
theorem stream_fuel (h : s.conductor.slots[k] = .active p) (hphase : p.phase = .playing)
    (hn : (perfEvents s p).length - p.cursor < n) (hm : (perfEvents s p).length - p.cursor < m) :
    stream n k s = stream m k s := by
  induction n generalizing s p m with
  | zero => omega
  | succ n ih =>
    obtain _ | m := m
    · omega
    cases hnotes : notesFrom (perfEvents s p) p.cursor with
    | nil => rw [stream_done h hnotes, stream_done h hnotes]
    | cons x rest =>
      obtain ⟨hle, hlt, -⟩ := notesFrom_tail hnotes
      rw [stream_note h hnotes, stream_note h hnotes]
      refine if_congr Iff.rfl rfl (if_congr Iff.rfl ?_ (if_congr Iff.rfl ?_ rfl))
      · have hevents : perfEvents (raise .lateSend (setSlot k (.active { p with
            cursor := x.1 + 1, lost := min 65535 (p.lost + 1) }) s)) { p with
            cursor := x.1 + 1, lost := min 65535 (p.lost + 1) } = perfEvents s p := perfEvents_congr rfl rfl rfl
        refine ih (setSlot_active k _ s) hphase ?_ ?_ <;> (rw [hevents]; dsimp only; omega)
      · obtain ⟨y, hy⟩ := packNotes_last x rest
        obtain ⟨hxy, hyl⟩ := packNotes_last_bounds hnotes hy
        generalize hf : orderFrame k p (packNotes x rest) x.2.1 = f
        obtain ⟨q, hq, -⟩ := (handFrame_kept f (setSlot k (.active { p with cursor := x.1 }) s)).active (setSlot_active k _ s)
        have hperf := handFrame_performance f (setSlot_active k _ s) hq hphase
        rw [cursorAfter_of_last hy, orderTaken, updPerf_of_active _ hq]
        refine ih (setSlot_active k _ _) ?_ ?_ ?_
        · rw [hperf]
          exact hphase
        all_goals
          rw [perfEvents_setSlot, perfEvents_congr (p := p) (handFrame_unchanged f _ .library (by decide)) (by rw [hperf])
            (by rw [hperf]), perfEvents_setSlot]
          dsimp only
          omega

theorem build_eq (h : s.conductor.slots[k] = .active p) (hphase : p.phase = .playing)
    (hn : (perfEvents s p).length - p.cursor < n) :
    build k s = stream n k (setSlot k (.active { p with refused := false, chance := false }) s) := by
  have hevents : perfEvents (setSlot k (.active { p with refused := false, chance := false }) s)
      { p with refused := false, chance := false } = perfEvents s p := perfEvents_congr rfl rfl rfl
  rw [build, perf?_of_active h]
  dsimp only
  rw [if_pos hphase, updPerf_of_active _ h]
  refine stream_fuel (setSlot_active k _ s) hphase ?_ ?_
  · rw [hevents]
    dsimp only
    omega
  · rw [hevents]
    exact hn

/-! ### The build by the fate of the next event (R133, R134) -/

/-- A performance whose slot builds is held no longer. -/
def unheld (p : Perf) : Perf := { p with refused := false, chance := false }

theorem perfEvents_unheld (s : State) (p : Perf) : perfEvents (setSlot k (.active (unheld p)) s) (unheld p) = perfEvents s p :=
  perfEvents_congr rfl rfl rfl

theorem build_round (h : s.conductor.slots[k] = .active p) (hphase : p.phase = .playing) :
    build k s = stream ((perfEvents s p).length + 1) k (setSlot k (.active (unheld p)) s) :=
  build_eq h hphase (by omega)

theorem build_done (h : s.conductor.slots[k] = .active p) (hphase : p.phase = .playing)
    (hn : notesFrom (perfEvents s p) p.cursor = []) : build k s = setSlot k (.active { p with
      cursor := (perfEvents s p).length, phase := .ending, refused := false, chance := false }) s := by
  rw [build_round h hphase, stream_done (setSlot_active k _ s), setSlot_setSlot, perfEvents_unheld]
  · rfl
  · rw [perfEvents_unheld]
    exact hn

theorem build_note (h : s.conductor.slots[k] = .active p) (hphase : p.phase = .playing)
    (hn : notesFrom (perfEvents s p) p.cursor = x :: rest) : build k s =
      if s.settings.lookahead < leadOf s p x then
        setSlot k (.active { p with cursor := x.1, refused := false, chance := false }) s
      else if leadOf s p x ≤ 1000 then
        stream (perfEvents s p).length k (raise .lateSend (setSlot k (.active { p with
          cursor := x.1 + 1, lost := min 65535 (p.lost + 1), refused := false, chance := false }) s))
      else if (handFrame (orderFrame k p (packNotes x rest) x.2.1)
          (setSlot k (.active { p with cursor := x.1, refused := false, chance := false }) s)).2 then
        stream (perfEvents s p).length k (orderTaken k (cursorAfter (packNotes x rest) x.1) (packNotes x rest).length
          (handFrame (orderFrame k p (packNotes x rest) x.2.1)
            (setSlot k (.active { p with cursor := x.1, refused := false, chance := false }) s)).1)
      else updPerf k (fun q => { q with refused := true, chance := false })
        (handFrame (orderFrame k p (packNotes x rest) x.2.1)
          (setSlot k (.active { p with cursor := x.1, refused := false, chance := false }) s)).1 := by
  have hnotes : notesFrom (perfEvents (setSlot k (.active (unheld p)) s) (unheld p)) (unheld p).cursor = x :: rest := by
    rw [perfEvents_unheld]
    exact hn
  rw [build_round h hphase, stream_note (setSlot_active k _ s) hnotes]
  simp only [setSlot_setSlot]
  rfl

theorem build_waits (h : s.conductor.slots[k] = .active p) (hphase : p.phase = .playing)
    (hn : notesFrom (perfEvents s p) p.cursor = x :: rest) (hfar : s.settings.lookahead < leadOf s p x) :
    build k s = setSlot k (.active { p with cursor := x.1, refused := false, chance := false }) s := by
  rw [build_note h hphase hn, if_pos hfar]

theorem build_skips (h : s.conductor.slots[k] = .active p) (hphase : p.phase = .playing)
    (hn : notesFrom (perfEvents s p) p.cursor = x :: rest) (hnear : leadOf s p x ≤ s.settings.lookahead)
    (hlate : leadOf s p x ≤ 1000) : build k s = build k (raise .lateSend (setSlot k (.active { p with
      cursor := x.1 + 1, lost := min 65535 (p.lost + 1), refused := false, chance := false }) s)) := by
  obtain ⟨hle, hlt, -⟩ := notesFrom_tail hn
  rw [build_note h hphase hn, if_neg (not_lt.mpr hnear), if_pos hlate]
  generalize hr : ({ p with cursor := x.1 + 1, lost := min 65535 (p.lost + 1), refused := false, chance := false } : Perf) = r
  have hactive : (raise .lateSend (setSlot k (.active r) s)).conductor.slots[k] = .active r := setSlot_active k _ s
  have hevents : perfEvents (raise .lateSend (setSlot k (.active r) s)) r = perfEvents s p := by
    rw [← hr]
    exact perfEvents_congr rfl rfl rfl
  rw [build_eq (n := (perfEvents s p).length) hactive (by rw [← hr]; exact hphase) (by rw [hevents, ← hr]; dsimp only; omega)]
  have hsame : ({ r with refused := false, chance := false } : Perf) = r := by rw [← hr]
  rw [hsame, setSlot_self hactive]

theorem build_sends {f : TxFrame} {u : State} (h : s.conductor.slots[k] = .active p) (hphase : p.phase = .playing)
    (hn : notesFrom (perfEvents s p) p.cursor = x :: rest) (hnear : leadOf s p x ≤ s.settings.lookahead)
    (hearly : 1000 < leadOf s p x) (hf : f = orderFrame k p (packNotes x rest) x.2.1)
    (hlast : (packNotes x rest).getLast? = some y)
    (hu : u = setSlot k (.active { p with cursor := x.1, refused := false, chance := false }) s)
    (hv : v = (handFrame f u).1) (htaken : (handFrame f u).2 = true) (hq : v.conductor.slots[k] = .active q) :
    build k s = build k (setSlot k (.active { q with
      cursor := y.1 + 1, sent := min 65535 (q.sent + (packNotes x rest).length), chance := false }) v) := by
  obtain ⟨hxy, hyl⟩ := packNotes_last_bounds hn hlast
  rw [build_note h hphase hn, if_neg (not_lt.mpr hnear), if_neg (not_le.mpr hearly), ← hf, ← hu, if_pos htaken, ← hv,
    cursorAfter_of_last hlast, orderTaken, updPerf_of_active _ hq]
  have hplayed : u.conductor.slots[k] = .active { p with cursor := x.1, refused := false, chance := false } := by
    rw [hu]
    exact setSlot_active k _ s
  have hperf := handFrame_performance f hplayed (hv ▸ hq) hphase
  generalize hr : ({ q with
    cursor := y.1 + 1, sent := min 65535 (q.sent + (packNotes x rest).length), chance := false } : Perf) = r
  have hgoal : ({ q with cursor := y.1 + 1, sent := countUp q.sent (packNotes x rest).length, chance := false } : Perf) = r := hr
  rw [hgoal]
  have hevents : perfEvents (setSlot k (.active r) v) r = perfEvents s p := by
    refine perfEvents_congr ?_ (by rw [← hr, hperf]) (by rw [← hr, hperf])
    have hlibrary : v.library = u.library := hv ▸ handFrame_unchanged f u .library (by decide)
    exact hlibrary.trans (by rw [hu]; rfl)
  rw [build_eq (n := (perfEvents s p).length) (setSlot_active k _ v) (by rw [← hr, hperf]; exact hphase)
    (by rw [hevents, ← hr]; dsimp only; omega), setSlot_setSlot]
  have hsame : ({ r with refused := false, chance := false } : Perf) = r := by rw [← hr, hperf]
  rw [hsame]

theorem build_held {f : TxFrame} {u : State} (h : s.conductor.slots[k] = .active p) (hphase : p.phase = .playing)
    (hn : notesFrom (perfEvents s p) p.cursor = x :: rest) (hnear : leadOf s p x ≤ s.settings.lookahead)
    (hearly : 1000 < leadOf s p x) (hf : f = orderFrame k p (packNotes x rest) x.2.1)
    (hu : u = setSlot k (.active { p with cursor := x.1, refused := false, chance := false }) s)
    (hv : v = (handFrame f u).1) (hrefused : (handFrame f u).2 = false) (hq : v.conductor.slots[k] = .active q) :
    build k s = setSlot k (.active { q with refused := true, chance := false }) v ∧ q.cursor = x.1 := by
  have hplayed : u.conductor.slots[k] = .active { p with cursor := x.1, refused := false, chance := false } := by
    rw [hu]
    exact setSlot_active k _ s
  have hperf := handFrame_performance f hplayed (hv ▸ hq) hphase
  refine ⟨?_, by rw [hperf]⟩
  rw [build_note h hphase hn, if_neg (not_lt.mpr hnear), if_neg (not_le.mpr hearly), ← hf, ← hu,
    if_neg (by rw [hrefused]; nofun), ← hv, updPerf_of_active _ hq]

/-- A frame that takes every order left, with room in the queue: the slot is ENDING. -/
theorem build_last (h : s.conductor.slots[k] = .active p) (hphase : p.phase = .playing)
    (hn : notesFrom (perfEvents s p) p.cursor = x :: rest) (hnear : leadOf s p x ≤ s.settings.lookahead)
    (hearly : 1000 < leadOf s p x) (hroom : txCount s < 8) (hwhole : packNotes x rest = x :: rest) :
    build k s = setSlot k (.active { p with
      cursor := (perfEvents s p).length, sent := min 65535 (p.sent + (rest.length + 1)), phase := .ending
      refused := false, chance := false })
      (joinTx (orderFrame k p (packNotes x rest) x.2.1)
        (setSlot k (.active { p with cursor := x.1, refused := false, chance := false }) s)) := by
  obtain ⟨y, hlast⟩ := packNotes_last x rest
  generalize hu : setSlot k (.active { p with cursor := x.1, refused := false, chance := false }) s = u
  have hroom : txCount u < 8 := by
    rw [← hu]
    exact hroom
  have hjoin := handFrame_room (orderFrame k p (packNotes x rest) x.2.1) hroom
  have hactive : (joinTx (orderFrame k p (packNotes x rest) x.2.1) u).conductor.slots[k] =
      .active { p with cursor := x.1, refused := false, chance := false } := by
    rw [← hu]
    exact setSlot_active k _ s
  rw [build_sends h hphase hn hnear hearly rfl hlast hu.symm (by rw [hjoin]) (by rw [hjoin]) hactive]
  have hover : notesFrom (perfEvents s p) (y.1 + 1) = [] := by
    obtain ⟨pre, hpre⟩ := List.getLast?_eq_some_iff.mp hlast
    rw [hwhole] at hpre
    exact (notesFrom_after ((notesFrom_first hn).trans hpre)).2.2
  have hevents (r : Perf) (hsource : r.source = p.source) (hslot : r.slot = p.slot) (a : Slot) :
      perfEvents (setSlot k a (joinTx (orderFrame k p (packNotes x rest) x.2.1) u)) r = perfEvents s p := by
    rw [← hu]
    exact perfEvents_congr rfl hsource hslot
  refine (build_done (setSlot_active k _ _) ?_ ?_).trans ?_
  · exact hphase
  · rw [hevents]
    · exact hover
    · rfl
    · rfl
  · rw [setSlot_setSlot, hevents]
    · simp only [hwhole, List.length_cons]
    · rfl
    · rfl

/-! ### The occasions to build (R133) -/

theorem buildDue_playing (hphase : p.phase = .playing) : buildDue s p =
    (if p.refused then p.chance || decide (txCount s < 8)
      else match (perfEvents s p)[p.cursor]? with
        | some e => decide (dist (plus p.start e.offset) s.time.tower ≤ (s.settings.lookahead : Int))
        | none => true) := by
  rw [buildDue, decide_eq_true hphase, Bool.true_and]
  rfl

theorem buildDue_not_playing (hphase : p.phase ≠ .playing) : buildDue s p = false := by
  rw [buildDue, decide_eq_false hphase, Bool.false_and]

theorem exec_orderBuild (hp : s.powered = true) (h : s.conductor.slots[k] = .active p) :
    exec (.orderBuild k) s = .next (if buildDue s p then build k s else s) := by
  refine (act_of_powered (buildIfDue k) hp).trans (congrArg _ ?_)
  rw [buildIfDue, perf?_of_active h]

end

/-- Settles O37. -/
theorem ordersBuilt : Obligations.OrdersBuilt := by
  refine ⟨fun k p s hp h hphase hdue => ?_, fun k p s h hphase => ⟨build_done h hphase, fun x rest hn hfar =>
      build_waits h hphase hn hfar, fun x rest hn hnear => ⟨fun hlate => ⟨build_skips h hphase hn hnear hlate, fun hrest => ?_⟩,
        fun hearly f y u v hf hlast hu hv => ⟨fun q htaken hq => ?_, fun q hrefused hq => ?_, fun hroom hwhole => ?_⟩⟩⟩,
    packNotes_bounds, fun s p => ⟨buildDue_not_playing, fun hphase hrefused => ?_, fun hphase hrefused e he => ?_⟩,
    fun k p s hp h hdue => ?_, fun o k p s h => ?_, fun s p notes hsource => ?_, fun s p hsource =>
      ⟨fun hd mask events hpart => ?_, perfEvents_not_valid hsource⟩, fun s p e he => ?_, mem_notesFrom,
    fun x cue n => ?_, fun x cue bell hpos hle hbells => ?_⟩
  · rw [exec_orderBuild hp h, hdue]
    rfl
  · subst hrest
    obtain ⟨-, -, hover⟩ := notesFrom_tail hn
    have hbuilt := (build_skips h hphase hn hnear hlate).trans (build_done (setSlot_active k _ s) ?_ ?_)
    · rw [raise_setSlot, setSlot_setSlot] at hbuilt
      exact ⟨_, hbuilt, setSlot_active k _ _, raise_raised _ s, (raise_unchanged _ s).widen.andThen (setSlot_unchanged k _ _)⟩
    · exact hphase
    · exact hover
  · exact build_sends h hphase hn hnear hearly hf hlast hu hv htaken hq
  · exact build_held h hphase hn hnear hearly hf hu hv hrefused hq
  · refine ⟨_, rfl, ?_⟩
    rw [build_last h hphase hn hnear hearly hroom hwhole]
    have hjoined := (handFrame_joined (s := u) f (by rw [hu]; exact hroom))
    rw [handFrame_room f (by rw [hu]; exact hroom)] at hjoined
    obtain ⟨-, hjoined, -⟩ := hjoined
    obtain rfl : f = orderFrame k p (packNotes x rest) x.2.1 := hf
    subst hu
    exact ⟨setSlot_active k _ _, hjoined,
      ((setSlot_unchanged k _ s).widen.andThen (joinTx_unchanged _ _)).andThen (setSlot_unchanged k _ _)⟩
  · rw [buildDue_playing hphase, hrefused]
    rfl
  · rw [buildDue_playing hphase, hrefused, he]
    rfl
  · rw [exec_orderBuild hp h, hdue]
    rfl
  · rw [frameGone_slot, h]
    rfl
  · simp only [perfEvents, hsource]
    rfl
  · rw [perfEvents_valid hsource hpart]
    refine ⟨loadedEvents_length _ _ _, fun i e he => ?_⟩
    rw [loadedEvents_getElem? _ _ _ he, Nat.zero_add]
    by_cases hd : e.duration = 0
    · rw [if_pos hd, hd, durationField_zero]
    · rw [if_neg hd]
  · rw [lastImpact, he]
  · by_cases h0 : n.val = 0
    · obtain rfl : n = 0 := Fin.ext h0
      refine ⟨rfl, rfl, rfl, rfl, hourNotes x cue, rfl, ?_, fun i hi => hourNotes_getElem? x cue hi⟩
      rw [hourNotes, List.length_map, List.length_range, hourStrikes_eq]
      rfl
    by_cases h5 : n.val = 5
    · obtain rfl : n = 5 := Fin.ext h5
      exact ⟨rfl, rfl, rfl, rfl, scaleNotes, rfl, rfl, fun i hi => scaleNotes_getElem? hi⟩
    have hn : 1 ≤ n.val ∧ n.val ≤ 4 := by omega
    rw [residentTune_quarter x cue hn.1 hn.2]
    have hlen := quarterNotes_length x hn.2
    refine ⟨rfl, rfl, rfl, ?_, quarterNotes x n.val, rfl, ?_, fun i hi => ?_⟩
    · rw [if_neg h0, if_neg h5]
    · rw [if_neg h0, if_neg h5, hlen]
    · obtain ⟨b, hb⟩ : ∃ b, quarterSequence[i]? = some b :=
        ⟨_, List.getElem?_eq_getElem (show i < 16 by omega)⟩
      rw [if_neg h0, if_neg h5, quarterNotes_getElem? x hi hb, quarterBell_eq]
      exact congrArg (fun b => some (Note.mk (2400 * i + 2400 * (i / 4)) b 10))
        (congrArg (fun o : Option Nat => match o with
          | some 1 => x.quarter1
          | some 2 => x.quarter2
          | some 3 => x.quarter3
          | _ => x.quarter4) hb.symm)
  · refine ⟨?_, ?_, fun n h1 h4 => ?_⟩
    · rw [residentTune_hour, maskHas_maskOf hpos hle fun b hb => hbells b (by rw [List.mem_singleton.mp hb]; simp)]
      exact List.mem_singleton
    · rw [residentTune_scale]
      exact maskHas_allOnes hpos hle
    · rw [residentTune_quarter x cue h1 h4]
      exact maskHas_maskOf hpos hle fun b hb => hbells b (List.mem_cons_of_mem _ hb)

end Sys2Proof.Machine
end

