-- ==== Sys2Proof/Proofs/CueResults.lean ====
section
/-! Cues from a console and from the play contacts: the slot taken, the tune a slot resolves to, and the refusals
(R123, R124, R145, R165, R166). -/

namespace Sys2Proof.Machine

-- One proof after another: many at once would ask for more threads than the memory limit allows.
set_option Elab.async false

section
variable {s t : State} {k : Fin 4} {n : Fin 32} {c d : Fin 2} {pr : Option Priority} {cue : Nat} {i : TuneInfo}

/-! ### The Conductor's answer to a cue (R124) -/

theorem takeCue_full (h : freeSlot s = none) : takeCue n pr cue s = (s, .noSlot) := by
  simp only [takeCue, h]

theorem takeCue_missing (h : freeSlot s = some k) (hi : tuneInfo s n cue = none) : takeCue n pr cue s =
    (closeSlot k (newSequence s) .missingTune (bumpSequence (newSequence s) s), .missing k (newSequence s)) := by
  simp only [takeCue, h, hi]

theorem takeCue_taken (h : freeSlot s = some k) (hi : tuneInfo s n cue = some i) : takeCue n pr cue s =
    (lockTune n (setSlot k (.active (newPerf (newSequence s) n i (pr.getD i.priority) cue s.time.tower))
      (bumpSequence (newSequence s) s)), .taken k (newSequence s)) := by
  simp only [takeCue, h, hi]

theorem freeSlot_congr (h : t.conductor = s.conductor) : freeSlot t = freeSlot s := by rw [freeSlot, freeSlot, h]

theorem newSequence_congr (h : t.conductor = s.conductor) : newSequence t = newSequence s := by
  have huse (x : BitVec 8) : seqInUse t x = seqInUse s x := by
    rw [seqInUse, seqInUse, slotOfSeq, slotOfSeq, h]
  have hnext (m : Nat) (x : BitVec 8) : nextFreeSeq t m x = nextFreeSeq s m x := by
    induction m generalizing x with
    | zero => rfl
    | succ m ih => rw [nextFreeSeq, nextFreeSeq, huse, ih]
  rw [newSequence, newSequence, h, hnext]

theorem tuneInfo_congr (hlibrary : t.library = s.library) (hsettings : t.settings = s.settings) :
    tuneInfo t n cue = tuneInfo s n cue := by
  unfold tuneInfo resolveSlot
  rw [hlibrary, hsettings]

/-! ### The tune a slot resolves to (R145) -/

theorem tuneInfo_resident (h : s.library.overlay = false) {m : Fin 6} (hm : n.val = m.val) :
    tuneInfo s n cue = some (residentTune s.settings cue m) := by
  have hsmall : ¬(s.library.overlay || decide (8 ≤ n.val)) = true := by
    rw [h, Bool.false_or, decide_eq_true_iff]
    omega
  have hslot : (Fin.ofNat 6 n.val : Fin 6) = m := by
    rw [hm]
    exact Fin.ofNat_val_eq_self m
  rw [tuneInfo, resolveSlot, if_neg hsmall, if_pos (show n.val < 6 by omega), hslot]

theorem tuneInfo_nothing (h : s.library.overlay = false) (hn : n.val = 6 ∨ n.val = 7) : tuneInfo s n cue = none := by
  have hsmall : ¬(s.library.overlay || decide (8 ≤ n.val)) = true := by
    rw [h, Bool.false_or, decide_eq_true_iff]
    omega
  rw [tuneInfo, resolveSlot, if_neg hsmall, if_neg (show ¬n.val < 6 by omega)]

theorem tuneInfo_part (h : s.library.overlay = true ∨ 8 ≤ n.val) : tuneInfo s n cue =
    match s.library.parts[n] with
    | .valid hd mask _ => some { tag := hd.tuneId.setWidth 24, mask := mask, rule := hd.rule, retry := hd.retry
                                 priority := hd.priority, source := .loaded }
    | _ => none := by
  have hlarge : (s.library.overlay || decide (8 ≤ n.val)) = true := by
    rw [Bool.or_eq_true, decide_eq_true_iff]
    exact h
  rw [tuneInfo, resolveSlot, if_pos hlarge]
  cases s.library.parts[n] <;> rfl

/-! ### The play contacts (R165) -/

theorem contactLevel_setContact (c : Fin 2) (b : Bool) (s : State) : contactLevel (setContact c b s) c = b := by
  unfold contactLevel setContact
  split <;> rfl

theorem contactLevel_congr (h : t.pins = s.pins) : contactLevel t c = contactLevel s c := by
  rw [contactLevel, contactLevel, h]

theorem contactMap_congr (h : t.settings = s.settings) : contactMap t c = contactMap s c := by
  rw [contactMap, contactMap, h]

theorem setContactState_contact (c : Fin 2) (x : ContactState) (s : State) (d : Fin 2) :
    (setContactState c x s).calendar.contacts[d] = if c = d then x else s.calendar.contacts[d] := by
  by_cases h : c = d
  · subst h
    simp
  · simp [h, Fin.val_ne_of_ne h]

theorem exec_contactPress (hp : s.powered = true) (hlevel : contactLevel s c = false) :
    exec (.contactPress c) s = .next (takePress c (setContact c true s)) :=
  (act_of_powered (pressContact c) hp).trans (congrArg _ (if_neg (by rw [hlevel]; nofun)))

theorem takePress_disabled (h : (contactMap s c).enabled = false) : takePress c s = s := by
  rw [takePress, h]
  rfl

theorem takePress_busy (h : (contactMap s c).enabled = true) (hbusy : s.calendar.contacts[c].busy = true) :
    takePress c s = raise .contactIgnored s := by
  simp only [takePress, h, Bool.not_true, Bool.false_eq_true, if_false, hbusy, if_true]

theorem takePress_cues (h : (contactMap s c).enabled = true) (hbusy : s.calendar.contacts[c].busy = false) :
    takePress c s =
      (match (takeCue (contactMap s c).slot (some .low) (plus s.time.tower 8000) s).2 with
        | .noSlot => raise .slotsFull (takeCue (contactMap s c).slot (some .low) (plus s.time.tower 8000) s).1
        | .taken k _ => setContactState c { busy := true, slot := some k }
          (takeCue (contactMap s c).slot (some .low) (plus s.time.tower 8000) s).1
        | .missing k _ => setContactState c { busy := false, slot := some k }
          (takeCue (contactMap s c).slot (some .low) (plus s.time.tower 8000) s).1) := by
  simp only [takePress, h, Bool.not_true, Bool.false_eq_true, if_false, hbusy]
  rfl

/-! ### The console's CUE (R166) -/

theorem cueRefused_iff (s : State) (slot priority start : Nat) : cueRefused s slot priority start = true ↔
    31 < slot ∨ 3 < priority ∨ 2419200000 ≤ start ∨ 120000 < dist start s.time.tower := by
  simp only [cueRefused, Bool.or_eq_true, decide_eq_true_eq, or_assoc]
  rfl

/-- What the console is answered to a CUE that is not refused. -/
def cueReply (h : Service) (r : Result) (x : State × CueAnswer) : State :=
  match x.2 with
  | .noSlot => reply h 1 .busy .none x.1
  | .missing k seq => reply h 1 .notHere (.cue seq k) x.1
  | .taken k seq => reply h 1 r (.cue seq k) x.1

theorem exec_cue_accepted {h : Service} {slot priority : BitVec 8} {start : BitVec 32} (hp : s.powered = true)
    (ht : targeted s h = true) (hgood : cueRefused s slot.toNat priority.toNat start.toNat = false) (hn : n.val = slot.toNat) :
    exec (.cue h slot priority start) s = .next (cueReply h (cueResult s start.toNat)
      (takeCue n (cuePriority priority.toNat) (cueStart s start.toNat) (acknowledge s))) := by
  have hslot : (Fin.ofNat 32 slot.toNat : Fin 32) = n := by
    rw [← hn]
    exact Fin.ofNat_val_eq_self n
  refine (act_onTarget (serveCue h slot priority start) hp ht).trans (congrArg _ ?_)
  refine (if_neg (Bool.eq_false_iff.mp hgood)).trans ?_
  rw [hslot]
  exact rfl

/-- What a newly cued performance holds. -/
theorem newPerf_values (seq : BitVec 8) (n : Fin 32) (i : TuneInfo) (pr : Priority) (cue now : Nat) :
    (newPerf seq n i pr cue now).phase = .preroll ∧ (newPerf seq n i pr cue now).seq = seq ∧
    (newPerf seq n i pr cue now).slot = n ∧ (newPerf seq n i pr cue now).tag = i.tag ∧
    (newPerf seq n i pr cue now).mask = i.mask ∧ (newPerf seq n i pr cue now).priority = pr ∧
    (newPerf seq n i pr cue now).start = cue ∧ (newPerf seq n i pr cue now).cueTime = (newPerf seq n i pr cue now).start ∧
    (newPerf seq n i pr cue now).claimTime = now ∧ (newPerf seq n i pr cue now).cursor = 0 ∧
    (newPerf seq n i pr cue now).lost = 0 ∧ (newPerf seq n i pr cue now).postponed = 0 :=
  ⟨rfl, rfl, rfl, rfl, rfl, rfl, rfl, rfl, rfl, rfl, rfl, rfl⟩

/-- The state in which a cue has been taken. -/
def cued (k : Fin 4) (n : Fin 32) (q : Perf) (s : State) : State :=
  lockTune n (setSlot k (.active q) (bumpSequence (newSequence s) s))

theorem cued_conductor (k : Fin 4) (n : Fin 32) (q : Perf) (s : State) : (cued k n q s).conductor =
    { slots := s.conductor.slots.set k (.active q), sequence := newSequence s + 1 } := rfl

theorem cued_library (k : Fin 4) (n : Fin 32) (q : Perf) (s : State) : (cued k n q s).library =
    { s.library with locks := s.library.locks.set n (s.library.locks[n] + 1) } := rfl

theorem cued_unchanged (k : Fin 4) (n : Fin 32) (q : Perf) (s : State) :
    Unchanged [.conductor, .library] s (cued k n q s) :=
  ((bumpSequence_unchanged _ s).widen.andThen (setSlot_unchanged _ _ _)).andThen (lockTune_unchanged _ _)

/-- The state in which a cue has ended MISSING_TUNE. -/
def missed (k : Fin 4) (s : State) : State := closeSlot k (newSequence s) .missingTune (bumpSequence (newSequence s) s)

theorem missed_conductor (k : Fin 4) (s : State) : (missed k s).conductor =
    { slots := s.conductor.slots.set k (.ended (newSequence s) .missingTune), sequence := newSequence s + 1 } := rfl

theorem missed_unchanged (k : Fin 4) (s : State) : Unchanged [.conductor, .counters, .calendar] s (missed k s) :=
  (bumpSequence_unchanged _ s).widen.andThen (closeSlot_unchanged k _ _ _)

theorem missed_contact (k : Fin 4) (s : State) (c : Fin 2) : (missed k s).calendar.contacts[c] = { s.calendar.contacts[c] with
    busy := s.calendar.contacts[c].busy && !decide (s.calendar.contacts[c].slot = some k) } := closeSlot_contact k _ _ _ c

theorem missed_raised (k : Fin 4) (s : State) : Raised .perfMissingTune s (missed k s) :=
  closeSlot_raised k (newSequence s) .missingTune (bumpSequence (newSequence s) s)

/-! ### A press as a cue -/

/-- A press of a contact that cues, on the state that it is read in. -/
theorem press_cues (hp : s.powered = true) (hlevel : contactLevel s c = false) (hon : (contactMap s c).enabled = true)
    (hbusy : s.calendar.contacts[c].busy = false) {u : State} (hu : u = setContact c true s) :
    exec (.contactPress c) s = .next
      (match (takeCue (contactMap s c).slot (some .low) (plus s.time.tower 8000) u).2 with
        | .noSlot => raise .slotsFull (takeCue (contactMap s c).slot (some .low) (plus s.time.tower 8000) u).1
        | .taken k _ => setContactState c { busy := true, slot := some k }
          (takeCue (contactMap s c).slot (some .low) (plus s.time.tower 8000) u).1
        | .missing k _ => setContactState c { busy := false, slot := some k }
          (takeCue (contactMap s c).slot (some .low) (plus s.time.tower 8000) u).1) := by
  have hsame : Unchanged [.pins] s u := hu ▸ setContact_unchanged c true s
  have hmap : contactMap u c = contactMap s c := contactMap_congr (hsame .settings (by decide))
  have hcalendar : u.calendar = s.calendar := hsame .calendar (by decide)
  have htime : u.time = s.time := hsame .time (by decide)
  have hpress := takePress_cues (s := u) (c := c) (by rw [hmap, hon]) (by rw [hcalendar, hbusy])
  rw [hmap, htime] at hpress
  rw [exec_contactPress hp hlevel, ← hu, hpress]

end

/-- Settles O38: the three answers of `takeCue`, from a console and from a play contact. -/
theorem cueResult_holds : Obligations.CueResult := by
  refine ⟨fun h slot priority start n s hp ht => ⟨fun hbad => ?_, fun hgood hn => ⟨fun hfull => ?_, fun k hk hi => ?_,
      fun k i hk hi => ?_⟩⟩,
    fun c s hp hlevel => ⟨fun hoff => ?_, fun hon hbusy => ?_, fun hon hbusy hfull => ?_, fun k i hon hbusy hk hi => ?_⟩,
    fun c k s hp hlevel hon hbusy hk hi => ?_,
    fun s slot priority start => ⟨cueRefused_iff s slot priority start, rfl⟩,
    fun s n cue => ⟨fun hoff m hm => tuneInfo_resident hoff hm, tuneInfo_nothing, tuneInfo_part⟩, ⟨rfl, rfl, rfl, rfl⟩,
    fun s hp => ⟨act_of_powered (setContact 0 false) hp, act_of_powered (setContact 1 false) hp⟩⟩
  · exact (act_onTarget (serveCue h slot priority start) hp ht).trans (congrArg _ (if_pos hbad))
  · rw [exec_cue_accepted hp ht hgood hn, takeCue_full (s := acknowledge s) hfull]
    rfl
  · rw [exec_cue_accepted hp ht hgood hn, takeCue_missing (s := acknowledge s) hk hi]
    exact ⟨missed k (acknowledge s), rfl, closeSlot_slot k _ _ _, missed_raised k (acknowledge s),
      missed_unchanged k (acknowledge s) .library (by decide)⟩
  · rw [exec_cue_accepted hp ht hgood hn, takeCue_taken (s := acknowledge s) hk hi]
    generalize cueStart s start.toNat = cue
    obtain ⟨hphase, hseq, hslot, htag, hmask, hpr, hstart, hcue, hclaim, hcursor, hlost, hpostponed⟩ :=
      newPerf_values (newSequence s) n i ((cuePriority priority.toNat).getD i.priority) cue s.time.tower
    exact ⟨cued k n _ (acknowledge s), _, rfl, cued_conductor k n _ (acknowledge s), hphase, hseq, hslot, htag, hmask, hpr,
      hstart, hcue, hclaim, hcursor, hlost, hpostponed, cued_library k n _ (acknowledge s), cued_unchanged k n _ (acknowledge s)⟩
  · have hu : Unchanged [.pins] s (setContact c true s) := setContact_unchanged c true s
    rw [exec_contactPress hp hlevel, takePress_disabled (by rw [contactMap_congr (hu .settings (by decide)), hoff])]
  · have hu : Unchanged [.pins] s (setContact c true s) := setContact_unchanged c true s
    rw [exec_contactPress hp hlevel, takePress_busy (by rw [contactMap_congr (hu .settings (by decide)), hon])]
    rw [show (setContact c true s).calendar = s.calendar from hu .calendar (by decide)]
    exact hbusy
  all_goals
    generalize hset : setContact c true s = u
    have hu : Unchanged [.pins] s u := hset ▸ setContact_unchanged c true s
    have hlevel' : contactLevel u c = true := hset ▸ contactLevel_setContact c true s
    have hcalendar : u.calendar = s.calendar := hu .calendar (by decide)
    have hconductor : u.conductor = s.conductor := hu .conductor (by decide)
    have hlibrary : u.library = s.library := hu .library (by decide)
    have hsettings : u.settings = s.settings := hu .settings (by decide)
    have htime : u.time = s.time := hu .time (by decide)
    have hpress := press_cues hp hlevel hon hbusy hset.symm
  · rw [hpress, takeCue_full (by rw [freeSlot_congr hconductor, hfull])]
  · generalize plus s.time.tower 8000 = cue at hi hpress ⊢
    rw [takeCue_taken (by rw [freeSlot_congr hconductor, hk]) (by rw [tuneInfo_congr hlibrary hsettings, hi]), htime,
      newSequence_congr hconductor] at hpress
    obtain ⟨hphase, hseq, hslot, -, -, hpr, hstart, -, hclaim, -⟩ :=
      newPerf_values (newSequence s) (contactMap s c).slot i .low cue s.time.tower
    generalize hq : newPerf (newSequence s) (contactMap s c).slot i .low cue s.time.tower = q at hphase hseq hslot hpr hstart hclaim
    have hcued : setContactState c { busy := true, slot := some k } (cued k (contactMap s c).slot q u) =
        setContactState c { busy := true, slot := some k } (lockTune (contactMap s c).slot
          (setSlot k (.active q) (bumpSequence (newSequence s) u))) := by rw [cued, newSequence_congr hconductor]
    have hcu := cued_unchanged k (contactMap s c).slot q u
    refine ⟨setContactState c { busy := true, slot := some k } (cued k (contactMap s c).slot q u), q, ?_, ?_, ?_, hphase, hpr,
      hstart, hslot, hseq, hclaim, ?_, ?_, ?_⟩
    · rw [hpress, hcued, ← hq]
      rfl
    · rw [contactLevel_congr ((hcu.widen.andThen (setContactState_unchanged _ _ _) :
        Unchanged [.conductor, .library, .calendar] u _) .pins (by decide)), hlevel']
    · have h := cued_conductor k (contactMap s c).slot q u
      rw [hconductor, newSequence_congr hconductor] at h
      exact h
    · have h := congrArg Library.locks (cued_library k (contactMap s c).slot q u)
      rw [hlibrary] at h
      exact h
    · exact congrArg (fun x : Calendar => { x with contacts := x.contacts.set c { busy := true, slot := some k } }) hcalendar
    · exact (hu.widen.andThen hcu).andThen (setContactState_unchanged _ _ _)
  · rw [takeCue_missing (by rw [freeSlot_congr hconductor, hk]) (by rw [tuneInfo_congr hlibrary hsettings, hi])] at hpress
    refine ⟨setContactState c { busy := false, slot := some k } (missed k u), hpress, ?_, ?_, ?_, ?_, fun d hd => ?_, ?_⟩
    · rw [contactLevel_congr (((missed_unchanged k u).andThen (setContactState_unchanged _ _ _)) .pins (by decide)), hlevel']
    · have h := missed_conductor k u
      rw [hconductor, newSequence_congr hconductor] at h
      exact h
    · have h := missed_raised k u
      rw [Raised, readCounter_of_same (hu .counters (by decide))] at h
      exact h
    · rw [setContactState_contact, if_pos rfl]
    · have h := missed_contact k u d
      rw [hcalendar] at h
      rw [setContactState_contact, if_neg (Ne.symm hd), h]
    · exact (hu.widen.andThen (missed_unchanged k u)).andThen (setContactState_unchanged _ _ _)

end Sys2Proof.Machine
end

