-- ==== Sys2Proof/Proofs/PrerollPoints.lean ====
section
/-! The sequence and the slot of a new cue, the decision of a minute at its pre-roll point, the calendar's matches and
windows, and a pre-roll that changes (R123, R159 to R162). -/

namespace Sys2Proof.Machine

-- One proof after another: many at once would ask for more threads than the memory limit allows.
set_option Elab.async false

section
variable {s t u : State} {k : Fin 4} {i j : Fin 24} {m n : Nat}

/-! ### The sequence and the slot (R123) -/

theorem freeSlot_iff (s : State) (k : Fin 4) : freeSlot s = some k ↔
    s.conductor.slots[k].isFree = true ∧ ∀ j : Fin 4, j < k → s.conductor.slots[j].isFree = false := by
  rw [freeSlot, List.find?_eq_some_iff_append]
  refine and_congr_right fun _ => ⟨fun ⟨pre, post, hall, hpre⟩ j hj => ?_, fun hfirst => ?_⟩
  · have hordered : (pre ++ k :: post).Pairwise (· < ·) := by
      rw [← hall]
      decide
    have hmem : j ∈ pre ++ k :: post := hall ▸ allSlots_complete j
    obtain hj' | hj' := List.mem_append.mp hmem
    · have h := hpre j hj'
      exact Bool.eq_false_iff.mpr fun hfree => by
        rw [hfree] at h
        cases h
    · obtain rfl | hj' := List.mem_cons.mp hj'
      · exact absurd hj (lt_irrefl _)
      · exact absurd ((List.pairwise_cons.mp (List.pairwise_append.mp hordered).2.1).1 j hj') (lt_asymm hj)
  · obtain ⟨pre, post, hall⟩ := List.append_of_mem (allSlots_complete k)
    refine ⟨pre, post, hall, fun j hj => ?_⟩
    have hordered : (pre ++ k :: post).Pairwise (· < ·) := by
      rw [← hall]
      decide
    rw [hfirst j ((List.pairwise_append.mp hordered).2.2 j hj k List.mem_cons_self)]
    rfl

/-- A sequence in use is that of some slot's performance. -/
theorem seqInUse_iff (s : State) (x : BitVec 8) : seqInUse s x = true ↔
    ∃ (k : Fin 4) (p : Perf), s.conductor.slots[k] = .active p ∧ p.seq = x := by
  rw [seqInUse, slotOfSeq, List.find?_isSome]
  constructor
  · rintro ⟨k, -, hk⟩
    split at hk
    next p hp => exact ⟨k, p, perf?_eq_some.mp hp, of_decide_eq_true hk⟩
    · cases hk
  · rintro ⟨k, p, hp, hseq⟩
    refine ⟨k, allSlots_complete k, ?_⟩
    rw [perf?_of_active hp]
    exact decide_eq_true hseq

/-- The counter rises past sequences in use only, and stops at the first that is none. -/
theorem nextFreeSeq_cases (s : State) (n : Nat) (x : BitVec 8) : seqInUse s (nextFreeSeq s n x) = false ∨
    (nextFreeSeq s n x = x + BitVec.ofNat 8 n ∧ ∀ j < n, seqInUse s (x + BitVec.ofNat 8 j) = true) := by
  induction n generalizing x with
  | zero => exact .inr ⟨by simp [nextFreeSeq], fun j hj => absurd hj (Nat.not_lt_zero j)⟩
  | succ n ih =>
    rw [nextFreeSeq]
    by_cases hx : seqInUse s x = true
    · rw [if_pos hx]
      have hshift (j : Nat) : x + 1 + BitVec.ofNat 8 j = x + BitVec.ofNat 8 (j + 1) := by
        rw [BitVec.ofNat_add, BitVec.add_assoc, BitVec.add_comm 1 (BitVec.ofNat 8 j)]
        rfl
      refine (ih (x + 1)).imp_right fun ⟨heq, hall⟩ => ⟨by rw [heq, hshift], fun j hj => ?_⟩
      obtain _ | j := j
      · simpa using hx
      · rw [← hshift]
        exact hall j (by omega)
    · rw [if_neg hx]
      exact .inl (Bool.eq_false_iff.mpr hx)

/-- Four slots hold four sequences at most, so one of five in a row is not in use. -/
theorem newSequence_free (s : State) : seqInUse s (newSequence s) = false := by
  obtain h | ⟨heq, hall⟩ := nextFreeSeq_cases s 4 s.conductor.sequence
  · exact h
  refine Bool.eq_false_iff.mpr fun hlast => ?_
  have hused (n : Fin 5) : ∃ (k : Fin 4) (p : Perf), s.conductor.slots[k] = .active p ∧
      p.seq = s.conductor.sequence + BitVec.ofNat 8 n.val := by
    refine (seqInUse_iff s _).mp ?_
    obtain hn | hn : n.val < 4 ∨ n.val = 4 := by omega
    · exact hall n.val hn
    · rw [hn, ← heq]
      exact hlast
  choose slot perf hperf hseq using hused
  have hinjective : Function.Injective slot := fun a b hab => by
    have hsame : perf a = perf b := by
      have ha := hperf a
      rw [show s.conductor.slots[slot a] = s.conductor.slots[slot b] from
        congrArg (fun k : Fin 4 => s.conductor.slots[k]) hab, hperf b] at ha
      exact (Slot.active.inj ha).symm
    have heq : s.conductor.sequence + BitVec.ofNat 8 a.val = s.conductor.sequence + BitVec.ofNat 8 b.val := by
      rw [← hseq a, ← hseq b, hsame]
    have hnat : BitVec.ofNat 8 a.val = BitVec.ofNat 8 b.val := by
      have hcancel := congrArg (fun x => x - s.conductor.sequence) heq
      simpa [BitVec.add_comm] using hcancel
    have hval := congrArg BitVec.toNat hnat
    rw [BitVec.toNat_ofNat, BitVec.toNat_ofNat] at hval
    exact Fin.ext (by omega)
  have hcard := Fintype.card_le_of_injective slot hinjective
  simp at hcard

theorem newSequence_unused (h : ∀ (k : Fin 4) (p : Perf), s.conductor.slots[k] = .active p → p.seq ≠ s.conductor.sequence) :
    newSequence s = s.conductor.sequence := by
  have hfree : seqInUse s s.conductor.sequence = false := Bool.eq_false_iff.mpr fun huse => by
    obtain ⟨k, p, hp, hseq⟩ := (seqInUse_iff s _).mp huse
    exact h k p hp hseq
  rw [newSequence, nextFreeSeq, hfree]
  rfl

/-! ### Matches and windows (R159, R162) -/

theorem matchesMinute_iff (e : CalEntry) (m : Nat) : matchesMinute e m = true ↔ e.enabled = true ∧
    e.days.getLsbD (m / 345600000) = true ∧ e.hours.getLsbD (m % 345600000 / 14400000) = true ∧
    m % 14400000 / 240000 = e.minute := by
  have hhour : hourOf m = m % 345600000 / 14400000 := by
    simp only [hourOf, minuteOfDay, Config.day, Config.minute]
    omega
  have hminute : minuteOfDay m % 60 = m % 14400000 / 240000 := by
    simp only [minuteOfDay, Config.day, Config.minute]
    omega
  simp only [matchesMinute, Bool.and_eq_true, decide_eq_true_eq, and_assoc, hhour, hminute, dayOf]
  rfl

theorem windowLength_eq {w : QuietWindow} (h1 : w.start ≤ 1439) (h2 : w.stop ≤ 1439) : windowLength w =
    240000 * (if w.stop = w.start then 1440 else (w.stop + 1440 - w.start) % 1440) := by
  simp only [windowLength, Config.minute]
  split_ifs <;> omega

theorem heldBack_iff (s : State) (m : Nat) (pr : Priority) (h : ∀ i : Fin 4, s.calendar.windows[i].start ≤ 1439 ∧
      s.calendar.windows[i].stop ≤ 1439) :
    heldBack s m pr = true ↔ ∃ (i : Fin 4) (w : QuietWindow), s.calendar.windows[i] = w ∧ pr.level ≤ w.level ∧
      ∃ d, d < 7 ∧ w.days.getLsbD d = true ∧ minus m (345600000 * d + 240000 * w.start) <
        240000 * (if w.stop = w.start then 1440 else (w.stop + 1440 - w.start) % 1440) := by
  have hin (i : Fin 4) : inWindow s.calendar.windows[i] m = true ↔ ∃ d, d < 7 ∧ s.calendar.windows[i].days.getLsbD d = true ∧
      minus m (345600000 * d + 240000 * s.calendar.windows[i].start) <
        240000 * (if s.calendar.windows[i].stop = s.calendar.windows[i].start then 1440
          else (s.calendar.windows[i].stop + 1440 - s.calendar.windows[i].start) % 1440) := by
    simp only [inWindow, List.any_eq_true, List.mem_range, Bool.and_eq_true, inSpan, decide_eq_true_eq,
      windowLength_eq (h i).1 (h i).2, Config.day, Config.minute, Nat.mul_comm]
  rw [heldBack, List.any_eq_true]
  constructor
  · rintro ⟨w, hw, hboth⟩
    rw [Bool.and_eq_true, decide_eq_true_iff] at hboth
    obtain ⟨i, hi, rfl⟩ := List.mem_iff_getElem.mp hw
    rw [Vector.length_toList] at hi
    have heq : s.calendar.windows.toList[i] = s.calendar.windows[(⟨i, hi⟩ : Fin 4)] := Vector.getElem_toList _
    rw [heq] at hboth
    exact ⟨⟨i, hi⟩, _, rfl, hboth.2, (hin ⟨i, hi⟩).mp hboth.1⟩
  · rintro ⟨i, w, rfl, hlevel, hspan⟩
    refine ⟨s.calendar.windows[i], ?_, ?_⟩
    · exact Vector.mem_toList_iff.mpr (Vector.getElem_mem i.isLt)
    · rw [Bool.and_eq_true, decide_eq_true_iff]
      exact ⟨(hin i).mpr hspan, hlevel⟩

/-! ### The decision of an entry (R161) -/

theorem decideEntry_passed (h : matchesMinute s.calendar.entries[i] m = false ∨ s.calendar.entries[i].lastFired = some m) :
    decideEntry m i s = s := by
  unfold decideEntry
  obtain h | h := h
  · simp only [h, Bool.not_false, if_true]
  · simp only [h, if_true, ite_self]

section
variable (hmatch : matchesMinute s.calendar.entries[i] m = true) (hnot : s.calendar.entries[i].lastFired ≠ some m)
include hmatch hnot

theorem decideEntry_matched : decideEntry m i s = if s.listen.isSome then raise .missedTime s
    else if s.time.validity = .unset then raise .missedTime s
    else if heldBack s m s.calendar.entries[i].priority then raise .missedQuiet s else fireCue i m s := by
  simp only [decideEntry, hmatch, Bool.not_true, Bool.false_eq_true, if_false, if_neg hnot]

theorem decideEntry_missed (h : s.listen.isSome = true ∨ s.time.validity = .unset) :
    decideEntry m i s = raise .missedTime s := by
  rw [decideEntry_matched hmatch hnot]
  split
  · rfl
  next hlisten => rw [if_pos (h.resolve_left hlisten)]

theorem decideEntry_heldBack (hlisten : s.listen = none) (hset : s.time.validity = .set)
    (hheld : heldBack s m s.calendar.entries[i].priority = true) : decideEntry m i s = raise .missedQuiet s := by
  rw [decideEntry_matched hmatch hnot, hlisten, hset, hheld]
  rfl

theorem decideEntry_fires (hlisten : s.listen = none) (hset : s.time.validity = .set)
    (hheld : heldBack s m s.calendar.entries[i].priority = false) : decideEntry m i s = fireCue i m s := by
  rw [decideEntry_matched hmatch hnot, hlisten, hset, hheld]
  rfl

end

/-! ### The cue of an entry (R161) -/

/-- An entry fired for a minute, and counted, before its cue is handed. -/
def fired (i : Fin 24) (m : Nat) (s : State) : State :=
  raise .cuesFired (updEntry i (fun x => { x with lastFired := some m }) s)

theorem fired_unchanged (i : Fin 24) (m : Nat) (s : State) : Unchanged [.counters, .calendar] s (fired i m s) :=
  (fun p hp => by cases p <;> first | exact absurd (by decide) hp | rfl)

theorem fired_entry (i : Fin 24) (m : Nat) (s : State) (j : Fin 24) : (fired i m s).calendar.entries[j] =
    if i = j then { s.calendar.entries[i] with lastFired := some m } else s.calendar.entries[j] := by
  by_cases h : i = j
  · subst h
    simp [fired, updEntry, raise]
  · simp [fired, updEntry, raise, h, Fin.val_ne_of_ne h]

theorem fired_freeSlot (i : Fin 24) (m : Nat) (s : State) : freeSlot (fired i m s) = freeSlot s :=
  freeSlot_congr (fired_unchanged i m s .conductor (by decide))

theorem fired_tuneInfo (i : Fin 24) (m : Nat) (s : State) (n : Fin 32) (cue : Nat) :
    tuneInfo (fired i m s) n cue = tuneInfo s n cue :=
  tuneInfo_congr (fired_unchanged i m s .library (by decide)) (fired_unchanged i m s .settings (by decide))

theorem fireCue_full (h : freeSlot s = none) : fireCue i m s = raise .slotsFull (fired i m s) := by
  have hcue := takeCue_full (s := fired i m s) (n := s.calendar.entries[i].slot) (pr := some s.calendar.entries[i].priority)
    (cue := m) ((fired_freeSlot i m s).trans h)
  unfold fireCue
  dsimp only
  rw [show raise .cuesFired (updEntry i (fun x => { x with lastFired := some m }) s) = fired i m s from rfl, hcue]

theorem fireCue_missing (h : freeSlot s = some k) (hi : tuneInfo s s.calendar.entries[i].slot m = none) :
    fireCue i m s = missed k (fired i m s) := by
  have hcue := takeCue_missing (s := fired i m s) (pr := some s.calendar.entries[i].priority)
    ((fired_freeSlot i m s).trans h) ((fired_tuneInfo i m s _ m).trans hi)
  unfold fireCue
  dsimp only
  rw [show raise .cuesFired (updEntry i (fun x => { x with lastFired := some m }) s) = fired i m s from rfl, hcue, missed]

theorem fireCue_taken {x : TuneInfo} (h : freeSlot s = some k) (hi : tuneInfo s s.calendar.entries[i].slot m = some x) :
    fireCue i m s = cued k s.calendar.entries[i].slot (newPerf (newSequence s) s.calendar.entries[i].slot x
      s.calendar.entries[i].priority m s.time.tower) (fired i m s) := by
  have hcue := takeCue_taken (s := fired i m s) (pr := some s.calendar.entries[i].priority)
    ((fired_freeSlot i m s).trans h) ((fired_tuneInfo i m s _ m).trans hi)
  unfold fireCue
  dsimp only
  rw [show raise .cuesFired (updEntry i (fun x => { x with lastFired := some m }) s) = fired i m s from rfl, hcue, cued,
    newSequence_congr (fired_unchanged i m s .conductor (by decide))]
  rfl

theorem fireCue_cases (i : Fin 24) (m : Nat) (s : State) : fireCue i m s = raise .slotsFull (fired i m s) ∨
    (∃ k, fireCue i m s = missed k (fired i m s)) ∨ ∃ k n q, fireCue i m s = cued k n q (fired i m s) := by
  cases hk : freeSlot s with
  | none => exact .inl (fireCue_full hk)
  | some k =>
    cases hi : tuneInfo s s.calendar.entries[i].slot m with
    | none => exact .inr (.inl ⟨k, fireCue_missing hk hi⟩)
    | some x => exact .inr (.inr ⟨k, _, _, fireCue_taken hk hi⟩)

/-- A cue leaves the entries, and its own counter, as the firing left them. -/
theorem fireCue_kept (i : Fin 24) (m : Nat) (s : State) : (fireCue i m s).calendar.entries = (fired i m s).calendar.entries ∧
    readCounter (fireCue i m s) .cuesFired = readCounter (fired i m s) .cuesFired := by
  obtain h | ⟨k, h⟩ | ⟨k, n, q, h⟩ := fireCue_cases i m s
  · rw [h]
    exact ⟨rfl, readCounter_raise_other (by decide)⟩
  · rw [h]
    have hcounters : (missed k (fired i m s)).counters = (raise .perfMissingTune (fired i m s)).counters := rfl
    exact ⟨rfl, (readCounter_of_same hcounters _).trans (readCounter_raise_other (by decide))⟩
  · rw [h]
    exact ⟨rfl, rfl⟩

theorem fireCue_result (i : Fin 24) (m : Nat) (s : State) :
    (fireCue i m s).calendar.entries[i] = { s.calendar.entries[i] with lastFired := some m } ∧
    Raised .cuesFired s (fireCue i m s) ∧
    (∀ k x, freeSlot s = some k → tuneInfo s s.calendar.entries[i].slot m = some x →
      ∃ q, (fireCue i m s).conductor.slots[k] = .active q ∧ q.phase = .preroll ∧ q.start = m ∧ q.cueTime = m ∧
        q.claimTime = s.time.tower ∧ q.priority = s.calendar.entries[i].priority ∧
        q.slot = s.calendar.entries[i].slot) ∧
    (freeSlot s = none → Raised .slotsFull s (fireCue i m s) ∧ (fireCue i m s).conductor = s.conductor) ∧
    Unchanged [.conductor, .counters, .calendar, .library] s (fireCue i m s) := by
  obtain ⟨hentries, hcounter⟩ := fireCue_kept i m s
  refine ⟨?_, ?_, fun k x hk hx => ?_, fun hfull => ?_, fireCue_unchanged i m s⟩
  · have hfired := fired_entry i m s i
    rw [if_pos rfl] at hfired
    rw [hentries, hfired]
  · exact hcounter.trans (raise_raised .cuesFired (updEntry i (fun x => { x with lastFired := some m }) s))
  · rw [fireCue_taken hk hx]
    obtain ⟨hphase, -, hslot, -, -, hpr, hstart, hcue, hclaim, -⟩ := newPerf_values (newSequence s)
      s.calendar.entries[i].slot x s.calendar.entries[i].priority m s.time.tower
    exact ⟨_, setSlot_active k _ _, hphase, hstart, hcue.trans hstart, hclaim, hpr, hslot⟩
  · rw [fireCue_full hfull]
    have hother : readCounter (fired i m s) .slotsFull = readCounter s .slotsFull :=
      readCounter_raise_other (s := updEntry i (fun x => { x with lastFired := some m }) s) (c := .cuesFired) (by decide)
    have hraised : Raised .slotsFull (fired i m s) (raise .slotsFull (fired i m s)) := raise_raised _ _
    rw [Raised, hother] at hraised
    exact ⟨hraised, rfl⟩

/-! ### The decision of a minute (R160, R161) -/

theorem allEntries_eq : allEntries = List.finRange 24 := by decide

theorem foldl_decide_none {l : List (Fin 24)} (h : ∀ j ∈ l, matchesMinute s.calendar.entries[j] m = false) :
    l.foldl (fun t i => decideEntry m i t) s = s := by
  induction l with
  | nil => rfl
  | cons j l ih =>
    rw [List.foldl_cons, decideEntry_passed (.inl (h j List.mem_cons_self))]
    exact ih fun x hx => h x (List.mem_cons_of_mem j hx)

theorem decideEntry_cases (m : Nat) (i : Fin 24) (s : State) : decideEntry m i s = s ∨ decideEntry m i s = raise .missedTime s ∨
    decideEntry m i s = raise .missedQuiet s ∨ decideEntry m i s = fireCue i m s := by
  unfold decideEntry
  dsimp only
  split_ifs <;> simp only [true_or, or_true]

theorem decideEntry_others (m : Nat) (i : Fin 24) (s : State) {j : Fin 24} (hj : i ≠ j) :
    (decideEntry m i s).calendar.entries[j] = s.calendar.entries[j] := by
  obtain h | h | h | h := decideEntry_cases m i s <;> rw [h]
  · rfl
  · rfl
  · have hfired := fired_entry i m s j
    rw [if_neg hj] at hfired
    exact (congrArg (fun v : Vector CalEntry 24 => v[j]) (fireCue_kept i m s).1).trans hfired

theorem decideMinute_none (h : ∀ j : Fin 24, matchesMinute s.calendar.entries[j] m = false) : decideMinute m s = s :=
  foldl_decide_none fun j _ => h j

/-- A minute that matches one entry alone is decided by that entry. -/
theorem decideMinute_single (h : ∀ j : Fin 24, matchesMinute s.calendar.entries[j] m = decide (j = i)) :
    decideMinute m s = decideEntry m i s := by
  have hmem : i ∈ allEntries := by
    rw [allEntries_eq]
    exact List.mem_finRange i
  have hnodup : allEntries.Nodup := by decide
  obtain ⟨pre, post, hall⟩ := List.append_of_mem hmem
  rw [hall] at hnodup
  have hpre : ∀ j ∈ pre, j ≠ i := fun j hj =>
    (List.nodup_append.mp hnodup).2.2 j hj i List.mem_cons_self
  have hpost : ∀ j ∈ post, i ≠ j := fun j hj hij =>
    (List.nodup_cons.mp (List.nodup_append.mp hnodup).2.1).1 (hij ▸ hj)
  have hbefore : pre.foldl (fun t i => decideEntry m i t) s = s :=
    foldl_decide_none fun j hj => by rw [h j, decide_eq_false (hpre j hj)]
  rw [decideMinute, hall, List.foldl_append, hbefore, List.foldl_cons]
  refine foldl_decide_none fun j hj => ?_
  rw [decideEntry_others m i s (hpost j hj), h j, decide_eq_false (Ne.symm (hpost j hj))]

theorem mem_pointsReached (s : State) (t n m : Nat) : m ∈ pointsReached s t n ↔
    m % 240000 = 0 ∧ ∃ j, 1 ≤ j ∧ j ≤ n ∧ m = plus t (j + s.settings.preroll) := by
  simp only [pointsReached, List.mem_filter, List.mem_map, List.mem_range]
  constructor
  · rintro ⟨⟨j, hj, rfl⟩, hm⟩
    exact ⟨of_decide_eq_true hm, j + 1, by omega, by omega, rfl⟩
  · rintro ⟨hm, j, h1, hn, rfl⟩
    refine ⟨⟨j - 1, by omega, ?_⟩, decide_eq_true hm⟩
    rw [Nat.sub_add_cancel h1]

theorem exec_prerollPoint {rest : List Nat} (hp : s.powered = true) (hdue : s.calendar.due = m :: rest)
    (hu : u = { s with calendar := { s.calendar with due := rest } }) : exec .prerollPoint s = .next (decideMinute m u) := by
  refine (act_of_powered decideDue hp).trans (congrArg _ ?_)
  rw [decideDue, hdue, hu]
  rfl

end

/-! ### A pre-roll that changes (R160) -/

section
variable {s u : State} {now old new m : Nat}

/-- How far a minute lies ahead says on which side of now its pre-roll point is. -/
theorem pointAhead_iff (hold : old ≤ 120000) :
    isAfter (minus m old) now = true ↔ old < minus m now ∧ minus m now ≤ old + 1209600000 := by
  rw [isAfter, decide_eq_true_iff]
  simp only [dist, minus, Config.week, Config.halfWeek]
  split_ifs <;> omega

theorem pointBehind_iff (hnew : new ≤ 120000) :
    isBefore now (minus m new) = false ↔ minus m now ≤ new ∨ new + 1209600000 ≤ minus m now := by
  rw [isBefore, decide_eq_false_iff_not]
  simp only [dist, minus, Config.week, Config.halfWeek]
  split_ifs <;> omega

theorem minuteBroughtDue_some (hnow : now < 2419200000) (hm : m < 2419200000) (hwhole : m % 240000 = 0)
    (hnew : new ≤ 120000) (hold : old < minus m now) (hle : minus m now ≤ new) : minuteBroughtDue now old new = some m := by
  simp only [minus, Config.week] at hold hle
  have hlast : now + old + (240000 - (now + old) % 240000) ≤ now + new ∧
      (now + old + (240000 - (now + old) % 240000)) % 2419200000 = m := by omega
  exact (if_pos hlast.1).trans (congrArg some hlast.2)

theorem minuteBroughtDue_none (hnew : new ≤ 120000) (h : new ≤ old ∨
      ∀ m, m < 2419200000 → m % 240000 = 0 → isAfter (minus m old) now = true → isBefore now (minus m new) = true) :
    minuteBroughtDue now old new = none := by
  refine if_neg fun hle => ?_
  have hle : now + old + (240000 - (now + old) % 240000) ≤ now + new := hle
  have hlt : old < new := by omega
  have hall := h.resolve_left (by omega)
  generalize hM : now + old + (240000 - (now + old) % 240000) = M at hle
  have hm : M % 2419200000 < 2419200000 := Nat.mod_lt _ (by decide)
  have hd : minus (M % 2419200000) now = M - now := by
    simp only [minus, Config.week]
    omega
  have hbefore := hall (M % 2419200000) hm (by omega) ((pointAhead_iff (by omega)).mpr (by rw [hd]; omega))
  have hbehind := (pointBehind_iff hnew).mpr (.inl (by rw [hd]; omega))
  rw [hbefore] at hbehind
  cases hbehind

theorem setPreroll_brings {n : Nat} (h : minuteBroughtDue s.time.tower s.settings.preroll n = some m)
    (hu : u = { s with settings := { s.settings with preroll := n } }) : setPreroll n s = bringDue m u := by
  rw [setPreroll, h, hu]

theorem setPreroll_settles {n : Nat} (h : minuteBroughtDue s.time.tower s.settings.preroll n = none)
    (hu : u = { s with settings := { s.settings with preroll := n } }) :
    setPreroll n s = setCalendar (settle s.time.tower s.settings.preroll n s.calendar) u := by
  rw [setPreroll, h, hu]

end

/-- Settles O39. -/
theorem prerollPointDecides : Obligations.PrerollPointDecides := by
  refine ⟨fun s k p hp hseq => ?_, freeSlot_iff, mem_pointsReached, fun m s => ⟨?_, fun i h => decideEntry_passed h⟩,
    fun m rest u s hp hdue hu => ⟨exec_prerollPoint hp hdue hu, fun hnone => ?_, fun i hone => ⟨fun hfired => ?_,
      fun hnot => ?_⟩⟩,
    fun n u s htower hn hu => ⟨rfl, fun m hlt hm hwhole hafter hbefore => ?_, fun h => ?_, fun m hlt hold hm => ?_⟩,
    fun s h => newSequence_unused h, fun e m _ => matchesMinute_iff e m, heldBack_iff⟩
  · have huse : seqInUse s (newSequence s) = true := (seqInUse_iff s _).mpr ⟨k, p, hp, hseq⟩
    rw [newSequence_free] at huse
    cases huse
  · rw [decideMinute, allEntries_eq]
  · have hentries : u.calendar.entries = s.calendar.entries := by rw [hu]
    rw [exec_prerollPoint hp hdue hu, decideMinute_none (by rw [hentries]; exact hnone)]
  · have hentries : u.calendar.entries = s.calendar.entries := by rw [hu]
    rw [exec_prerollPoint hp hdue hu, decideMinute_single (by rw [hentries]; exact hone),
      decideEntry_passed (.inr (by rw [hentries]; exact hfired))]
  · have hstep : exec .prerollPoint s = .next (decideEntry m i u) := by
      rw [exec_prerollPoint hp hdue hu, decideMinute_single (by rw [hu]; exact hone)]
    have hentries : u.calendar.entries = s.calendar.entries := by rw [hu]
    have hmatch : matchesMinute u.calendar.entries[i] m = true := by rw [hentries, hone i, decide_eq_true rfl]
    have hlast : u.calendar.entries[i].lastFired ≠ some m := by rw [hentries]; exact hnot
    have hdequeued : Unchanged [.conductor, .counters, .calendar, .library] s u := fun p hp => by
      subst hu
      cases p <;> first | exact absurd (by decide) hp | rfl
    have hlistenKept : u.listen = s.listen := hdequeued .listen (by decide)
    have htime : u.time = s.time := hdequeued .time (by decide)
    have hwindows : heldBack u m u.calendar.entries[i].priority = heldBack s m s.calendar.entries[i].priority := by
      subst hu
      rfl
    refine ⟨fun h => ?_, fun hlisten hset hheld => ?_, fun hlisten hset hheld => ⟨_, hstep, ?_⟩⟩
    · rw [hstep, decideEntry_missed hmatch hlast (by rw [hlistenKept, htime]; exact h)]
    · rw [hstep, decideEntry_heldBack hmatch hlast (by rw [hlistenKept, hlisten]) (by rw [htime, hset]) (by rw [hwindows, hheld])]
    · rw [decideEntry_fires hmatch hlast (by rw [hlistenKept, hlisten]) (by rw [htime, hset]) (by rw [hwindows, hheld])]
      obtain ⟨hentry, hraised, htaken, hfull, hkept⟩ := fireCue_result i m u
      subst hu
      exact ⟨hentry, hraised, htaken, hfull, hdequeued.andThen hkept⟩
  · have hold : s.settings.preroll ≤ 120000 := by omega
    have hahead := (pointAhead_iff hold).mp hafter
    have hbehind := (pointBehind_iff hn).mp hbefore
    have hdue := minuteBroughtDue_some htower hm hwhole hn hahead.1 (hbehind.resolve_right (by omega))
    rw [setPreroll_brings hdue hu]
    subst hu
    refine ⟨fun hfresh => ?_, fun hsettled => if_pos hsettled⟩
    have hkeep : s.calendar.settled.filter (fun x => decide (x ≠ m)) = s.calendar.settled :=
      List.filter_eq_self.mpr fun x hx => decide_eq_true fun hxm => hfresh (hxm ▸ hx)
    refine (if_neg hfresh).trans (congrArg (decideMinute m) ?_)
    simp only [setCalendar, markDecided, hkeep]
  · rw [setPreroll_settles (minuteBroughtDue_none hn h) hu]
    subst hu
    rfl
  · have hahead := pointAhead_iff (now := s.time.tower) (m := m) (old := n) (by omega)
    have hbehind := pointBehind_iff (now := s.time.tower) (m := m) (new := s.settings.preroll) hold
    rw [putAhead, decide_eq_true_iff, hahead, hbehind]
    omega

end Sys2Proof.Machine
end

