-- ==== Sys2Proof/Proofs/LockMoves.lean ====
section
/-! The moves of the lock state and what silence and trace see of them (R69, R70, R80), and the clock after a step
(R67). -/

namespace Sys2Proof.Machine

-- One proof after another: many at once would ask for more threads than the memory limit allows.
set_option Elab.async false

section
variable {s t u : State} {l m : LockState}

/-! ### Silence and trace after a condition (R169 to R179) -/

theorem SameSilence.refl (s : State) : SameSilence s s := ⟨rfl, rfl⟩

theorem SameSilence.symm (h : SameSilence s t) : SameSilence t s := ⟨h.1.symm, h.2.symm⟩

theorem SameSilence.trans (h1 : SameSilence s t) (h2 : SameSilence t u) : SameSilence s u :=
  ⟨h2.1.trans h1.1, h2.2.trans h1.2⟩

/-- What the moves of a condition read. -/
structure SameMoves (s t : State) : Prop where
  silence : t.silence = s.silence
  trace : t.trace = s.trace
  settings : t.settings = s.settings
  queue : t.queue = s.queue

theorem SameMoves.of_unchanged {ps : List Part} (hu : Unchanged ps s t) (h1 : Part.silence ∉ ps := by decide)
    (h2 : Part.trace ∉ ps := by decide) (h3 : Part.settings ∉ ps := by decide) (h4 : Part.queue ∉ ps := by decide) :
    SameMoves s t := ⟨hu .silence h1, hu .trace h2, hu .settings h3, hu .queue h4⟩

theorem goSilent_silence_congr (mark : Bool) (h : SameMoves s t) : (goSilent mark t).silence = (goSilent mark s).silence := by
  rw [goSilent_silence, goSilent_silence, h.silence]

theorem goFading_silence_congr (h : SameMoves s t) : (goFading t).silence = (goFading s).silence := by
  rw [goFading, goFading, fadeOut_silence, fadeOut_silence, goSilent_silence, goSilent_silence]
  simp only [h.silence, h.queue]

theorem actOn_silence_congr (c : Condition) (h : SameMoves s t) : (actOn c t).silence = (actOn c s).silence := by
  unfold actOn
  rw [h.silence]
  split
  · exact goSilent_silence_congr false h
  split
  · exact goFading_silence_congr h
  · exact h.silence
  · rfl
  · exact goSilent_silence_congr false h

theorem goHolding_silence_congr (h : SameMoves s t) : (goHolding t).silence = (goHolding s).silence := by
  rw [goHolding_silence, goHolding_silence, h.settings, h.silence, goVoiced, goVoiced]
  simp only [h.silence]

theorem allCleared_silence_congr (h : SameMoves s t) : (allCleared t).silence = (allCleared s).silence := by
  unfold allCleared
  rw [h.silence, h.settings]
  split
  · exact h.silence
  · exact h.silence
  all_goals
    split
    · exact goHolding_silence_congr h
    · exact goSilent_silence_congr true h

theorem TraceFollows.sameSilence {a b : State} (ha : TraceFollows s a) (hb : TraceFollows t b) (h : SameMoves s t)
    (hsilence : b.silence = a.silence) : SameSilence a b := by
  refine ⟨hsilence, ?_⟩
  unfold TraceFollows at ha hb
  rw [ha, hb, hsilence, h.silence]
  split
  · exact silentTrigger_trace_congr h.trace h.settings
  · exact h.trace

theorem assertCond_congr (c : Condition) (h : SameMoves s t) : SameSilence (assertCond c s) (assertCond c t) := by
  refine (assertCond_follows c s).sameSilence (assertCond_follows c t) h ?_
  unfold assertCond
  rw [h.silence]
  split
  · exact h.silence
  dsimp only
  split
  · exact actOn_silence_congr c ⟨rfl, h.trace, h.settings, h.queue⟩
  · rfl

theorem clearCond_congr (c : Condition) (h : SameMoves s t) : SameSilence (clearCond c s) (clearCond c t) := by
  refine (clearCond_follows c s).sameSilence (clearCond_follows c t) h ?_
  unfold clearCond
  rw [h.silence]
  split
  · dsimp only
    split
    · exact allCleared_silence_congr ⟨rfl, h.trace, h.settings, h.queue⟩
    · rfl
  · exact h.silence

/-! ### The lock state (R80) -/

theorem setLock_congr (l : LockState) (h : SameMoves s t) : SameSilence (setLock l s) (setLock l t) := by
  have hlock : SameMoves { s with time := { s.time with lock := l } } { t with time := { t.time with lock := l } } :=
    ⟨h.silence, h.trace, h.settings, h.queue⟩
  unfold setLock
  dsimp only
  split
  · exact assertCond_congr _ hlock
  · exact clearCond_congr _ hlock

/-- The same lock state twice moves nothing the second time. -/
theorem setLock_again (h : SameSilence (setLock l s) t) : SameSilence t (setLock l t) := by
  have hcond : hasCondition t.silence.conds .timeUnlocked = decide (l = .acquiring) := by
    rw [h.1]
    exact setLock_unlocked l s
  unfold setLock
  dsimp only
  split
  next hl =>
    rw [assertCond_of_set (by rw [hcond]; exact decide_eq_true hl)]
    exact ⟨rfl, rfl⟩
  next hl =>
    rw [clearCond_of_clear (by rw [hcond]; exact decide_eq_false hl)]
    exact ⟨rfl, rfl⟩

theorem setLock_sameMoves (hu : Unchanged [.time] s t) : SameMoves s t := .of_unchanged hu

theorem SameSilence.moves {ps : List Part} (h : SameSilence s t) (hu : Unchanged ps s t) (h3 : Part.settings ∉ ps := by decide)
    (h4 : Part.queue ∉ ps := by decide) : SameMoves s t := ⟨h.1, h.2, hu .settings h3, hu .queue h4⟩

/-- A choice adopted moves silence and trace as its lock state does. -/
theorem adoptChoice_silence (c : Fin 16) (s : State) :
    SameSilence (setLock (lockForChoice s s.time.lock c) s) (adoptChoice c s) :=
  setLock_congr _ ⟨rfl, rfl, rfl, rfl⟩

theorem adoptChoice_lock (c : Fin 16) (s : State) : (adoptChoice c s).time.lock = lockForChoice s s.time.lock c := by
  rw [adoptChoice_time]

/-- Making the choice leaves silence and trace, or moves them as the lock state it brings. -/
theorem rechoose_silence (s : State) : rechoose s = s ∨
    SameSilence (setLock (rechoose s).time.lock s) (rechoose s) := by
  refine (rechoose_cases s).imp_right fun ⟨_, _, h⟩ => ?_
  rw [h, adoptChoice_lock]
  exact adoptChoice_silence _ s

theorem rechoose_sourced : (rechoose s).time.lock = .sourced ↔ s.time.lock = .sourced := by
  obtain h | ⟨-, -, h⟩ := rechoose_cases s <;> rw [h]
  rw [adoptChoice_lock]
  exact lockForChoice_sourced _ _ _

/-! ### The step as its stages (R67) -/

/-- The clock at the new time, before the step's effects. -/
def clockStepped (new : Nat) (s : State) : State := { s with time := { s.time with
  tower := new % Config.week, slew := 0, close := 0, beaconBase := none, markBase := none } }

/-- The queue has met the new time. -/
def queueStepped (new : Nat) (s : State) : State := stepQueue (startTimeStep (clockStepped new s))

/-- The calendar has met the new time. -/
def calendarStepped (new : Nat) (s : State) : State :=
  stepCalendar s.time.tower (decide (s.time.validity = .set)) (queueStepped new s)

/-- The dampers have met the new time. -/
def dampersStepped (new : Nat) (s : State) : State := allChannels.foldl (fun t k => stepDamper k t) (calendarStepped new s)

theorem stepTime_eq (new : Nat) (s : State) :
    stepTime new s = allSlots.foldl (fun t k => gateIfDue k t) (dampersStepped new s) := rfl

theorem gatesStep_unchanged (s : State) : Unchanged ending s (allSlots.foldl (fun t k => gateIfDue k t) s) :=
  .foldl _ (fun t k => gateIfDue_unchanged k t) allSlots s

theorem dampersStep_unchanged (s : State) : Unchanged [.channels, .drive] s (allChannels.foldl (fun t k => stepDamper k t) s) :=
  .foldl _ (fun t k => stepDamper_unchanged k t) allChannels s

theorem clockStepped_unchanged (new : Nat) (s : State) : Unchanged [.time] s (clockStepped new s) := fun p hp => by
  cases p <;> first | exact absurd (by decide) hp | rfl

theorem startTimeStep_time (s : State) : (startTimeStep s).time = { s.time with stepAt := some s.time.count } :=
  assertCond_unchanged _ _ .time (by decide)

theorem queueStepped_time (new : Nat) (s : State) : (queueStepped new s).time = { s.time with
    tower := new % Config.week, slew := 0, close := 0, beaconBase := none, markBase := none, stepAt := some s.time.count } :=
  (stepQueue_unchanged _ .time (by decide)).trans (startTimeStep_time _)

theorem calendarStepped_unchanged (new : Nat) (s : State) :
    Unchanged [.counters, .calendar] (queueStepped new s) (calendarStepped new s) :=
  stepCalendar_unchanged s.time.tower (decide (s.time.validity = .set)) (queueStepped new s)

theorem dampersStepped_unchanged (new : Nat) (s : State) :
    Unchanged [.channels, .drive] (calendarStepped new s) (dampersStepped new s) := dampersStep_unchanged _

theorem gatesStepped_unchanged (new : Nat) (s : State) : Unchanged ending (dampersStepped new s) (stepTime new s) :=
  gatesStep_unchanged _

theorem stepTime_time (new : Nat) (s : State) : (stepTime new s).time = { s.time with
    tower := new % Config.week, slew := 0, close := 0, beaconBase := none, markBase := none, stepAt := some s.time.count } := by
  have hcalendar : (calendarStepped new s).time = (queueStepped new s).time := calendarStepped_unchanged new s .time (by decide)
  have hdampers : (dampersStepped new s).time = (calendarStepped new s).time := dampersStepped_unchanged new s .time (by decide)
  have hgates : (stepTime new s).time = (dampersStepped new s).time := gatesStepped_unchanged new s .time (by decide)
  rw [hgates, hdampers, hcalendar, queueStepped_time]

end

end Sys2Proof.Machine
end

