-- ==== Sys2Proof/Proofs/MinuteMarks.lean ====
section
/-! A minute mark ignored, slewed or stepped, and the exit from SOURCED (R70, R75, R76, R77). -/

namespace Sys2Proof.Machine

-- One proof after another: many at once would ask for more threads than the memory limit allows.
set_option Elab.async false

section
variable {s t : State} {m : Stamp}

/-! ### The entry to SOURCED (R76) -/

/-- The mark accepted, before the node is SOURCED. -/
def withMark (m : Stamp) (s : State) : State := { s with time := { s.time with lastMark := some m } }

/-- What an accepted mark leaves before its correction. -/
structure Accepted (m : Stamp) (s r : State) : Prop where
  lock : r.time.lock = .sourced
  tower : r.time.tower = s.time.tower
  validity : r.time.validity = s.time.validity
  count : r.time.count = s.time.count
  trim : r.time.trim = s.time.trim
  lastMark : r.time.lastMark = some m
  markBase : r.time.markBase = s.time.markBase
  unchanged : Unchanged [.time, .silence, .trace] s r
  silence : if r.time.reference = s.time.reference ∧ r.time.lock = s.time.lock then SameSilence s r
    else SameSilence (setLock r.time.lock s) r

theorem withMark_unchanged (m : Stamp) (s : State) : Unchanged [.time] s (withMark m s) := writeTime_unchanged _ s

theorem enterSourced_silence (m : Stamp) (s : State) :
    SameSilence (setLock .sourced s) (rechoose (setLock .sourced (withMark m s))) := by
  have hfirst : SameSilence (setLock .sourced s) (setLock .sourced (withMark m s)) :=
    setLock_congr _ (.of_unchanged (withMark_unchanged m s))
  obtain h | h := rechoose_silence (setLock .sourced (withMark m s))
  · rw [h]
    exact hfirst
  · have hsourced : (rechoose (setLock .sourced (withMark m s))).time.lock = .sourced :=
      rechoose_sourced.mpr (by rw [setLock_time])
    rw [hsourced] at h
    exact (hfirst.trans (setLock_again hfirst)).trans h

theorem enterSourced_accepted (m : Stamp) (s : State) : Accepted m s (enterSourced (withMark m s)) := by
  by_cases hlock : s.time.lock = .sourced
  · have hsame : enterSourced (withMark m s) = withMark m s := if_pos hlock
    rw [hsame]
    exact ⟨hlock, rfl, rfl, rfl, rfl, rfl, rfl, (withMark_unchanged m s).widen, by rw [if_pos ⟨rfl, rfl⟩]; exact ⟨rfl, rfl⟩⟩
  · have henter : enterSourced (withMark m s) = rechoose (setLock .sourced (withMark m s)) := if_neg hlock
    obtain ⟨htower, hvalidity, hcount, -, htrim, -, hlast, hbase⟩ := rechoose_time (setLock .sourced (withMark m s))
    have hsourced : (rechoose (setLock .sourced (withMark m s))).time.lock = .sourced :=
      rechoose_sourced.mpr (by rw [setLock_time])
    rw [setLock_time] at htower hvalidity hcount htrim hlast hbase
    rw [henter]
    refine ⟨hsourced, htower, hvalidity, hcount, htrim, hlast, hbase, ?_, ?_⟩
    · exact ((withMark_unchanged m s).widen.andThen (setLock_unchanged _ _)).andThen (rechoose_unchanged _)
    · rw [if_neg fun h => hlock (h.2.symm.trans hsourced), hsourced]
      exact enterSourced_silence m s

/-! ### The step -/

theorem stepTime_mod (new : Nat) (s : State) : stepTime (new % Config.week) s = stepTime new s := by
  have hclock : clockStepped (new % Config.week) s = clockStepped new s := by
    unfold clockStepped
    rw [Nat.mod_mod]
  rw [stepTime_eq, stepTime_eq, dampersStepped, dampersStepped, calendarStepped, calendarStepped, queueStepped, queueStepped,
    hclock]

/-! ### The correction (R77) -/

theorem markRejected_iff (s : State) (m : Stamp) : markRejected s m = true ↔
    ∃ l, s.time.lastMark = some l ∧ ticksSince m.count l.count < 200000 := by
  unfold markRejected
  split
  next h => exact iff_of_false nofun fun ⟨l, hl, _⟩ => by rw [h] at hl; cases hl
  next l h => exact ⟨fun hd => ⟨l, h, of_decide_eq_true hd⟩, fun ⟨k, hk, hd⟩ => by
    rw [h] at hk
    cases hk
    exact decide_eq_true hd⟩

theorem markError_down {n : Nat} (h : n % 240000 < 120000) : markError n = -((n % 240000 : Nat) : Int) := if_pos h

theorem markError_up {n : Nat} (h : 120000 ≤ n % 240000) : markError n = 240000 - ((n % 240000 : Nat) : Int) :=
  if_neg (not_lt.mpr h)

theorem markError_whole (n : Nat) : ((n : Int) + markError n) % 240000 = 0 := by
  obtain h | h := Nat.lt_or_ge (n % 240000) 120000
  · rw [markError_down h]
    omega
  · rw [markError_up h]
    omega

/-- A mark's time is whole ticks within the week, as the step takes it. -/
theorem correctMark_slews {r : State} (h : (markError m.tower.toNat).natAbs ≤ 400) : correctMark m r =
    setMarkBase m.count (trimFromMark m.count (setSlew (markError m.tower.toNat) r)) := if_pos h

theorem correctMark_steps {r : State} (h : 400 < (markError m.tower.toNat).natAbs) : correctMark m r =
    setMarkBase m.count (stepTime (markTime m.tower.toNat (ticksSince r.time.count m.count)) r) := if_neg (not_le.mpr h)

theorem measureTrim_time (x : Int) (n : Nat) (s : State) : (measureTrim x n s).time = { s.time with
    trim := if 1000 ≤ n ∧ n ≤ 300000 then trimTarget x n else s.time.trim } := by
  unfold measureTrim
  split <;> rfl

/-- The trim that a mark measures against a baseline (R77). -/
def markTrim (c : LocalCount) (x : Timebase) : Int :=
  match x.markBase with
  | some b => if 1000 ≤ ticksSince c b ∧ ticksSince c b ≤ 300000 then trimTarget 240000 (ticksSince c b) else x.trim
  | none => x.trim

theorem trimFromMark_time (c : LocalCount) (s : State) :
    (trimFromMark c s).time = { s.time with trim := markTrim c s.time } := by
  unfold trimFromMark
  cases hb : s.time.markBase with
  | some b =>
    rw [markTrim, hb]
    exact measureTrim_time _ _ s
  | none => rw [markTrim, hb]

theorem trimFromMark_unchanged (c : LocalCount) (s : State) : Unchanged [.time] s (trimFromMark c s) := by
  unfold trimFromMark
  split
  · exact measureTrim_unchanged _ _ s
  · exact .refl _ s

theorem exec_minuteMark_ignored (hp : s.powered = true) (h : s.straps.timeSource = false ∨ markRejected s m = true) :
    exec (.minuteMark m) s = .next s := by
  refine (act_of_powered (takeMark m) hp).trans (congrArg _ ?_)
  unfold takeMark
  obtain h | h := h
  · rw [h]
    rfl
  · rw [h]
    split <;> rfl

theorem exec_minuteMark_accepted (hp : s.powered = true) (hsource : s.straps.timeSource = true)
    (hgood : markRejected s m = false) :
    exec (.minuteMark m) s = .next (correctMark m (enterSourced (withMark m s))) := by
  refine (act_of_powered (takeMark m) hp).trans (congrArg _ ?_)
  unfold takeMark
  rw [hsource, hgood]
  rfl

/-! ### The exit from SOURCED (R76) -/

/-- The lock state at the exit, by the present choice. -/
def exitLock (s : State) : LockState :=
  match s.time.reference with
  | some st => lockForChoice s .reference st
  | none => .reference

theorem leaveSourced_eq (s : State) : leaveSourced s = rechoose (setLock (exitLock s) s) := by
  unfold leaveSourced exitLock
  rfl

theorem lockForChoice_reference (s : State) (c : Fin 16) : lockForChoice s .reference c =
    if c = s.straps.station then .reference else if s.time.validity = .set then .locked else .acquiring := rfl

theorem exitLock_cases (s : State) : exitLock s = .reference ∨ (exitLock s = .locked ∧ s.time.validity = .set) ∨
    (exitLock s = .acquiring ∧ s.time.validity ≠ .set) := by
  unfold exitLock
  split
  next st _ =>
    rw [lockForChoice_reference]
    split
    · exact .inl rfl
    split
    next hset => exact .inr (.inl ⟨rfl, hset⟩)
    next hunset => exact .inr (.inr ⟨rfl, hunset⟩)
  · exact .inl rfl

/-- From any lock state of an exit the choice brings the one that R70 gives from REFERENCE. -/
theorem lockForChoice_exit (hvalidity : t.time.validity = s.time.validity) (hstation : t.straps.station = s.straps.station)
    (c : Fin 16) : lockForChoice t (exitLock s) c = lockForChoice s .reference c := by
  obtain h | ⟨h, hset⟩ | ⟨h, hunset⟩ := exitLock_cases s <;> rw [h, lockForChoice_reference]
  · rw [lockForChoice_reference, hvalidity, hstation]
  · rw [lockForChoice, hstation, if_pos hset]
  · rw [lockForChoice, hstation, if_neg hunset]

theorem exec_sourcedExit (hp : s.powered = true) (hlock : s.time.lock = .sourced)
    (hover : ∀ m, s.time.lastMark = some m → 280000 ≤ ticksSince s.time.count m.count) :
    exec .sourcedExit s = .next (rechoose (setLock (exitLock s) s)) := by
  have hdue : sourcedOver s = true := by
    unfold sourcedOver
    rw [decide_eq_true hlock, Bool.true_and]
    split
    · rfl
    next m hm => exact decide_eq_true (hover m hm)
  rw [← leaveSourced_eq]
  exact act_due (f := leaveSourced) (b := sourcedOver) hp hdue

end

section
variable {s : State} {m : Stamp}

/-- What an accepted mark brings, whatever its error. -/
def MarkTaken (m : Stamp) (s t : State) : Prop :=
  t.time.lock = .sourced ∧ t.time.lastMark = some m ∧ t.time.markBase = some m.count ∧
  t.time.validity = s.time.validity ∧ t.time.count = s.time.count

theorem correctMark_slewed_time {r : State} (h : (markError m.tower.toNat).natAbs ≤ 400) : (correctMark m r).time =
    { r.time with slew := markError m.tower.toNat, trim := markTrim m.count r.time, markBase := some m.count } := by
  rw [correctMark_slews h]
  exact congrArg (fun x : Timebase => { x with markBase := some m.count })
    (trimFromMark_time m.count (setSlew (markError m.tower.toNat) r))

theorem correctMark_stepped_time {r : State} (h : 400 < (markError m.tower.toNat).natAbs) : (correctMark m r).time =
    { r.time with
      tower := markTime m.tower.toNat (ticksSince r.time.count m.count) % Config.week
      slew := 0
      close := 0
      beaconBase := none
      markBase := some m.count
      stepAt := some r.time.count } := by
  rw [correctMark_steps h]
  generalize markTime m.tower.toNat (ticksSince r.time.count m.count) = x
  exact congrArg (fun x : Timebase => { x with markBase := some m.count }) (stepTime_time x r)

theorem correctMark_taken (r : State) (h : Accepted m s r) : MarkTaken m s (correctMark m r) := by
  obtain hsmall | hlarge := le_or_gt (markError m.tower.toNat).natAbs 400
  · rw [MarkTaken, correctMark_slewed_time hsmall]
    exact ⟨h.lock, h.lastMark, rfl, h.validity, h.count⟩
  · rw [MarkTaken, correctMark_stepped_time hlarge]
    exact ⟨h.lock, h.lastMark, rfl, h.validity, h.count⟩

theorem correctMark_slewed (r : State) (h : Accepted m s r) (hsmall : (markError m.tower.toNat).natAbs ≤ 400) :
    (correctMark m r).time.slew = markError m.tower.toNat ∧ (correctMark m r).time.tower = s.time.tower ∧
    (correctMark m r).time.trim = markTrim m.count s.time ∧ Unchanged [.time, .silence, .trace] s (correctMark m r) := by
  rw [correctMark_slewed_time hsmall]
  refine ⟨rfl, h.tower, ?_, ?_⟩
  · rw [markTrim, markTrim, ← h.markBase, ← h.trim]
  · rw [correctMark_slews hsmall]
    exact ((h.unchanged.andThen (setSlew_unchanged _ r)).andThen (trimFromMark_unchanged _ _)).andThen
      (setMarkBase_unchanged _ _)

theorem correctMark_stepped (r : State) (h : Accepted m s r) (hlarge : 400 < (markError m.tower.toNat).natAbs) :
    (correctMark m r).time.slew = 0 ∧ (correctMark m r).time.trim = s.time.trim ∧
    (correctMark m r).time.stepAt = some s.time.count ∧
    (correctMark m r).time.tower = markTime m.tower.toNat (ticksSince s.time.count m.count) % Config.week ∧
    SteppedBy (correctMark m r).time.tower s.peers s (correctMark m r) ∧ Unchanged timeStepped s (correctMark m r) := by
  have htime := correctMark_stepped_time (r := r) hlarge
  rw [h.count] at htime
  rw [htime]
  refine ⟨rfl, h.trim, rfl, rfl, ?_⟩
  rw [correctMark_steps hlarge, h.count]
  generalize markTime m.tower.toNat (ticksSince s.time.count m.count) = x
  have hafter : Unchanged [.time] (stepTime x r) (setMarkBase m.count (stepTime x r)) := setMarkBase_unchanged _ _
  refine ⟨?_, (h.unchanged.widen.andThen (stepTime_unchanged x r)).andThen hafter⟩
  refine ⟨r, h.unchanged.widen, h.unchanged .peers (by decide), h.tower, h.validity, ?_, fun k => ?_, h.silence, ?_, .inl ?_⟩
  · rw [h.unchanged .line (by decide)]
  · rw [h.unchanged .channels (by decide)]
  · rw [stepTime_mod]
    exact hafter.widen
  · rw [stepTime_mod]
    exact ⟨hafter .silence (by decide), hafter .trace (by decide)⟩

end

section
variable {s : State}

/-- The state at the exit from SOURCED, before the choice. -/
def sourceLeft (s : State) : State := setLock (exitLock s) s

theorem sourceLeft_time (s : State) : (sourceLeft s).time = { s.time with lock := exitLock s } := setLock_time _ _

theorem sourceLeft_unchanged (s : State) : Unchanged [.time, .silence, .trace] s (sourceLeft s) := setLock_unchanged _ _

theorem exitLock_not_sourced (s : State) : exitLock s ≠ .sourced := by
  obtain h | ⟨h, -⟩ | ⟨h, -⟩ := exitLock_cases s <;> rw [h] <;> exact nofun

/-- After the exit the lock state is the one that R70 gives for the choice. -/
theorem rechoose_sourceLeft_lock (hlisten : s.listen = none) : (rechoose (sourceLeft s)).time.lock =
    lockForChoice s .reference (chooseReference (rechoose (sourceLeft s))) := by
  have hleft : (sourceLeft s).listen = none := (sourceLeft_unchanged s .listen (by decide)).trans hlisten
  rw [chooseReference_rechoose]
  by_cases h : (sourceLeft s).time.reference = some (chooseReference (sourceLeft s))
  · have href : s.time.reference = some (chooseReference (sourceLeft s)) := by
      rw [← h, sourceLeft_time]
    rw [rechoose_of_same (.inr h), sourceLeft_time]
    exact (congrArg (fun o : Option (Fin 16) => (match o with
      | some st => lockForChoice s .reference st
      | none => .reference)) href)
  · rw [rechoose_of_changed hleft h, adoptChoice_lock, sourceLeft_time]
    exact lockForChoice_exit (by rw [sourceLeft_time]) (by rw [sourceLeft_unchanged s .straps (by decide)]) _

theorem rechoose_sourceLeft_listening (hlisten : s.listen.isSome = true) (href : s.time.reference = none) :
    (rechoose (sourceLeft s)).time.reference = none ∧ (rechoose (sourceLeft s)).time.lock = .reference := by
  have hleft : (sourceLeft s).listen.isSome := by
    rw [sourceLeft_unchanged s .listen (by decide)]
    exact hlisten
  rw [rechoose_of_same (.inl hleft), sourceLeft_time]
  refine ⟨href, ?_⟩
  unfold exitLock
  rw [href]

end

/-- Settles O9. -/
theorem minuteMarkAndSourcedExit : Obligations.MinuteMarkAndSourcedExit := by
  refine ⟨fun m s hp => ⟨exec_minuteMark_ignored hp, fun hsource hgood => ⟨_, exec_minuteMark_accepted hp hsource hgood, ?_⟩⟩,
    fun m s => markRejected_iff s m, fun n => ⟨markError_down, markError_up, markError_whole n⟩, fun s hp hlock hover => ?_⟩
  · have haccepted := enterSourced_accepted m s
    obtain ⟨h1, h2, h3, h4, h5⟩ := correctMark_taken _ haccepted
    exact ⟨h1, h2, h3, h4, h5, correctMark_slewed _ haccepted, correctMark_stepped _ haccepted⟩
  · obtain ⟨htower, -⟩ := rechoose_time (sourceLeft s)
    refine ⟨_, exec_sourcedExit hp hlock hover, ?_, htower.trans (by rw [sourceLeft_time]), fun hlisten => ⟨?_, ?_⟩,
      rechoose_sourceLeft_listening, (sourceLeft_unchanged s).andThen (rechoose_unchanged _)⟩
    · rw [Ne, rechoose_sourced, setLock_time]
      exact exitLock_not_sourced s
    · exact rechoose_reference ((sourceLeft_unchanged s .listen (by decide)).trans hlisten)
    · exact (rechoose_sourceLeft_lock hlisten).trans (lockForChoice_reference s _)

end Sys2Proof.Machine
end

