-- ==== Sys2Proof/Proofs/BeaconsMeasured.lean ====
section
/-! A beacon of the reference measured, and the week position taken from the donor (R71 to R74, R78). -/

namespace Sys2Proof.Machine

-- One proof after another: many at once would ask for more threads than the memory limit allows.
set_option Elab.async false

/-! ### Arithmetic -/

theorem samePhase_ahead {own x : Nat} (h : minus own x % 240000 < 120000) :
    samePhase own x = plus x (minus own x % 240000) := if_pos h

theorem samePhase_behind {own x : Nat} (h : 120000 ≤ minus own x % 240000) :
    samePhase own x = minus x (240000 - minus own x % 240000) := if_neg (not_lt.mpr h)

theorem dist_plus (x : Nat) {r : Nat} (h : r < 120000) : dist (plus x r) x = r := by
  have hr : (plus x r + (Config.week - x % Config.week)) % Config.week = r := by
    simp only [plus, Config.week]
    omega
  unfold dist
  simp only [hr]
  exact if_pos (by simp only [Config.halfWeek]; omega)

theorem dist_minus (x : Nat) {r : Nat} (hpos : 0 < r) (h : r ≤ 120000) : dist (minus x r) x = -(r : Int) := by
  have hr : (minus x r + (Config.week - x % Config.week)) % Config.week = Config.week - r := by
    simp only [minus, Config.week]
    omega
  unfold dist
  simp only [hr]
  refine (if_neg ?_).trans ?_ <;> simp only [Config.week, Config.halfWeek] <;> omega

theorem samePhase_spec (own x : Nat) : samePhase own x % 240000 = own % 240000 ∧
    -120000 ≤ dist (samePhase own x) x ∧ dist (samePhase own x) x < 120000 := by
  obtain h | h := Nat.lt_or_ge (minus own x % 240000) 120000
  · rw [samePhase_ahead h, dist_plus x h]
    refine ⟨?_, by omega, by omega⟩
    simp only [plus, minus, Config.week]
    omega
  · rw [samePhase_behind h, dist_minus x (by omega) (by omega)]
    refine ⟨?_, by omega, by omega⟩
    simp only [minus, Config.week]
    omega

theorem samePhase_lt (own x : Nat) : samePhase own x < Config.week := by
  obtain h | h := Nat.lt_or_ge (minus own x % 240000) 120000
  · rw [samePhase_ahead h]
    exact plus_lt _ _
  · rw [samePhase_behind h]
    exact Nat.mod_lt _ (by decide)

/-- The quotient rounded to nearest, halves up. -/
theorem rounded_spec (a t : Nat) (ht : 0 < t) : 2 * a ≤ 2 * ((2 * a + t) / (2 * t) * t) + t ∧
    2 * ((2 * a + t) / (2 * t) * t) ≤ 2 * a + t ∧ 2 * a ≠ 2 * ((2 * a + t) / (2 * t) * t) + t := by
  have hdiv := Nat.div_add_mod (2 * a + t) (2 * t)
  have hmod := Nat.mod_lt (2 * a + t) (show 0 < 2 * t by omega)
  have hcomm : 2 * t * ((2 * a + t) / (2 * t)) = 2 * ((2 * a + t) / (2 * t) * t) := by ring
  omega

theorem trimTarget_spec (ref : Int) {ticks : Nat} (ht : 0 < ticks) : ∃ q : Int, trimTarget ref ticks = max (-8) (min 8 q) ∧
    2 * (4096 * (ref - ticks) - q * ticks).natAbs ≤ ticks ∧
    (2 * (4096 * (ref - ticks) - q * ticks).natAbs = ticks → (4096 * (ref - ticks)).natAbs ≤ (q * ticks).natAbs) := by
  simp only [trimTarget]
  generalize 4096 * (ref - (ticks : Int)) = num
  obtain ⟨h1, h2, h3⟩ := rounded_spec num.natAbs ticks ht
  refine ⟨_, rfl, ?_⟩
  generalize (2 * num.natAbs + ticks) / (2 * ticks) = q at *
  split
  · rw [neg_mul, ← Nat.cast_mul]
    omega
  · rw [← Nat.cast_mul]
    omega

/-! ### The peer recorded and the choice made -/

section
variable {s t : State} {rx : Heard} {b : NodeBeacon}

/-- A PRESENCE recorded and the choice made, before the beacon is measured. -/
def chosenPeer (rx : Heard) (body : Beacon) (s : State) : State := rechoose (recordedPeer rx body (acknowledge s))

/-- The Peer Table with this beacon. -/
def heardPeers (rx : Heard) (b : NodeBeacon) (s : State) : Vector PeerRecord 16 :=
  s.peers.set rx.sender (.live { lastHeard := rx.stamp.count, body := .node b })

theorem recorded_unchanged (rx : Heard) (body : Beacon) (s : State) :
    Unchanged [.peers, .channels, .line] s (recordedPeer rx body (acknowledge s)) :=
  (acknowledge_unchanged s).widen.andThen (recordedPeer_unchanged rx body (acknowledge s))

theorem recorded_time (rx : Heard) (body : Beacon) (s : State) :
    (recordedPeer rx body (acknowledge s)).time = s.time := recorded_unchanged rx body s .time (by decide)

theorem chosenPeer_unchanged (rx : Heard) (body : Beacon) (s : State) :
    Unchanged [.peers, .channels, .time, .silence, .trace, .line] s (chosenPeer rx body s) :=
  (recorded_unchanged rx body s).widen.andThen (rechoose_unchanged _)

theorem chosenPeer_time (rx : Heard) (body : Beacon) (s : State) :
    (chosenPeer rx body s).time.tower = s.time.tower ∧ (chosenPeer rx body s).time.validity = s.time.validity ∧
    (chosenPeer rx body s).time.count = s.time.count := by
  obtain ⟨htower, hvalidity, hcount, -⟩ := rechoose_time (recordedPeer rx body (acknowledge s))
  rw [recorded_time] at htower hvalidity hcount
  exact ⟨htower, hvalidity, hcount⟩

theorem chosenPeer_peers (rx : Heard) (b : NodeBeacon) (s : State) : (chosenPeer rx (.node b) s).peers = heardPeers rx b s :=
  (rechoose_unchanged (recordedPeer rx (.node b) (acknowledge s)) .peers (by decide)).trans
    (recordedPeer_peers rx (.node b) (acknowledge s))

theorem chosenPeer_line (rx : Heard) (body : Beacon) (s : State) :
    (chosenPeer rx body s).line = (acknowledge s).line := by
  have hchosen : (chosenPeer rx body s).line = (recordedPeer rx body (acknowledge s)).line :=
    rechoose_unchanged _ .line (by decide)
  exact hchosen.trans (recordedPeer_unchanged rx body (acknowledge s) .line (by decide))

theorem chosenPeer_channel (rx : Heard) (body : Beacon) (s : State) (k : Fin 8) : (chosenPeer rx body s).channels[k] =
    { s.channels[k] with conflict := (chosenPeer rx body s).channels[k].conflict } := by
  have hkept : (chosenPeer rx body s).channels[k] = (recordedPeer rx body (acknowledge s)).channels[k] :=
    congrArg (fun v : Vector Channel 8 => v[k]) (rechoose_unchanged (recordedPeer rx body (acknowledge s)) .channels (by decide))
  rw [hkept, recordedPeer_channel]
  rfl

theorem chosenPeer_silence (rx : Heard) (body : Beacon) (s : State) :
    if (chosenPeer rx body s).time.reference = s.time.reference ∧ (chosenPeer rx body s).time.lock = s.time.lock
    then SameSilence s (chosenPeer rx body s)
    else SameSilence (setLock (chosenPeer rx body s).time.lock s) (chosenPeer rx body s) := by
  have hu := recorded_unchanged rx body s
  have hrecorded : SameSilence s (recordedPeer rx body (acknowledge s)) := ⟨hu .silence (by decide), hu .trace (by decide)⟩
  obtain h | ⟨-, hchanged, h⟩ := rechoose_cases (recordedPeer rx body (acknowledge s))
  · have hsame : chosenPeer rx body s = recordedPeer rx body (acknowledge s) := h
    rw [hsame, recorded_time, if_pos ⟨rfl, rfl⟩]
    exact hrecorded
  · have hadopted : chosenPeer rx body s = adoptChoice _ (recordedPeer rx body (acknowledge s)) := h
    rw [hadopted, if_neg fun hboth => ?_, adoptChoice_lock]
    · exact (setLock_congr _ (.of_unchanged hu)).trans (adoptChoice_silence _ _)
    · rw [adoptChoice_time, recorded_time] at *
      exact hchanged hboth.1.symm

/-- What was heard brought a step: the clauses before the step, from those after it. -/
theorem steppedBy_chosen {new : Nat} (hafter : Unchanged [.time, .silence, .trace] (stepTime new (chosenPeer rx (.node b) s)) t)
    (hsilence : SameSilence (stepTime new (chosenPeer rx (.node b) s)) t ∨
      SameSilence (setLock t.time.lock (stepTime new (chosenPeer rx (.node b) s))) t ∨
      SameSilence (setLock t.time.lock (setLock .acquiring (stepTime new (chosenPeer rx (.node b) s)))) t) :
    SteppedBy new (heardPeers rx b s) s t := by
  obtain ⟨htower, hvalidity, -⟩ := chosenPeer_time rx (.node b) s
  refine ⟨_, chosenPeer_unchanged rx (.node b) s, chosenPeer_peers rx b s, htower, hvalidity, ?_,
    chosenPeer_channel rx (.node b) s, chosenPeer_silence rx (.node b) s, hafter, hsilence⟩
  rw [chosenPeer_line]
  rfl

theorem exec_presence_peer (hp : s.powered = true) (hother : rx.sender ≠ s.straps.station) (body : Beacon) :
    exec (.presence rx body) s = .next (measurePeer rx.sender rx.stamp body (chosenPeer rx body s)) := by
  refine (act_of_powered (hearPresence rx body) hp).trans (congrArg _ ?_)
  rw [hearPresence, if_neg hother, takePresence_eq]
  rfl

/-! ### The corrections of R72 -/

theorem trimFromBeacon_time (x : Nat) (c : LocalCount) (s : State) : (trimFromBeacon x c s).time = { s.time with
    trim := match s.time.beaconBase with
      | some y => if 1000 ≤ ticksSince c y.count ∧ ticksSince c y.count ≤ 300000
          then trimTarget (dist x y.time) (ticksSince c y.count) else s.time.trim
      | none => s.time.trim
    beaconBase := some { time := x, count := c } } := by
  unfold trimFromBeacon
  cases hb : s.time.beaconBase with
  | some y => exact congrArg (fun z : Timebase => { z with beaconBase := some { time := x, count := c } }) (measureTrim_time _ _ s)
  | none => rfl

theorem countTowardLock_time (e : Int) (s : State) : (countTowardLock e s).time = { s.time with
    close := if 8 < e.natAbs then 0 else min 3 (s.time.close + 1)
    lock := if 24 < e.natAbs then .acquiring
      else if 8 < e.natAbs then s.time.lock
      else if 2 ≤ s.time.close then .locked else s.time.lock } := by
  unfold countTowardLock
  by_cases h1 : 24 < e.natAbs
  · rw [if_pos h1, setLock_time, if_pos h1, if_pos (by omega)]
    rfl
  by_cases h2 : 8 < e.natAbs
  · rw [if_neg h1, if_pos h2, if_neg h1, if_pos h2, if_pos h2]
    rfl
  · rw [if_neg h1, if_neg h2, if_neg h1, if_neg h2, if_neg h2]
    by_cases h3 : 2 ≤ s.time.close
    · rw [if_pos h3, if_pos (by omega), setLock_time]
      rfl
    · rw [if_neg h3, if_neg (by omega)]
      rfl

theorem stepToBeacon_time (x : Nat) (c : LocalCount) (s : State) : (stepToBeacon x c s).time = { s.time with
    tower := plus x (ticksSince s.time.count c)
    slew := 0
    close := 0
    lock := .acquiring
    beaconBase := some { time := x, count := c }
    markBase := none
    stepAt := some s.time.count } := by
  have hlock := setLock_time .acquiring (stepTime (plus x (ticksSince s.time.count c)) s)
  rw [stepTime_time, Nat.mod_eq_of_lt (plus_lt _ _)] at hlock
  exact congrArg (fun z : Timebase => { z with beaconBase := some { time := x, count := c } }) hlock

/-- After the step only the clock changes, but for the moves of the lock state. -/
theorem stepToBeacon_after (x : Nat) (c : LocalCount) (s : State) :
    Unchanged [.time] (setLock .acquiring (stepTime (plus x (ticksSince s.time.count c)) s)) (stepToBeacon x c s) :=
  writeTime_unchanged _ _

/-! ### The cases of R72 -/

theorem correctionFor_small {own beacon : Validity} {e : Int} (h : own = .set ∨ beacon = .unset) (he : e.natAbs ≤ 400) :
    correctionFor own beacon e = .slew := by
  have hle : ¬400 < e.natAbs := not_lt.mpr he
  cases own <;> cases beacon <;> simp_all [correctionFor]

theorem correctionFor_large {own : Validity} {e : Int} (he : 400 < e.natAbs) : correctionFor own own e = .step := by
  cases own <;> exact if_pos he

theorem correctionFor_unset {e : Int} (he : 400 < e.natAbs) : correctionFor .set .unset e = .none := if_pos he

theorem measureBeacon_slew {x : Stamp} {r : State} (h : r.time.validity = .set ∨ b.validity = .unset)
    (he : (dist b.tower.toNat x.tower.toNat).natAbs ≤ 400) : measureBeacon b x r = trimFromBeacon b.tower.toNat x.count
      (countTowardLock (dist b.tower.toNat x.tower.toNat) (setSlew (dist b.tower.toNat x.tower.toNat) r)) := by
  simp only [measureBeacon, correctionFor_small h he]

theorem measureBeacon_step {x : Stamp} {r : State} (h : r.time.validity = b.validity)
    (he : 400 < (dist b.tower.toNat x.tower.toNat).natAbs) :
    measureBeacon b x r = stepToBeacon b.tower.toNat x.count r := by
  simp only [measureBeacon, h, correctionFor_large he]

theorem measureBeacon_none {x : Stamp} {r : State} (h : r.time.validity = .set) (hb : b.validity = .unset)
    (he : 400 < (dist b.tower.toNat x.tower.toNat).natAbs) :
    measureBeacon b x r = trimFromBeacon b.tower.toNat x.count (setLock .acquiring (setClose 0 r)) := by
  simp only [measureBeacon, h, hb, correctionFor_unset he]

theorem measureBeacon_set {x : Stamp} {r : State} (h : r.time.validity = .unset) (hb : b.validity = .set) :
    measureBeacon b x r = rechoose (setValid (stepToBeacon b.tower.toNat x.count r)) := by
  simp only [measureBeacon, h, hb, correctionFor]

/-- The clock after a beacon that was slewed. -/
theorem slewed_time (x : Nat) (c : LocalCount) (e : Int) (r : State) :
    (trimFromBeacon x c (countTowardLock e (setSlew e r))).time = { r.time with
      slew := e
      close := if 8 < e.natAbs then 0 else min 3 (r.time.close + 1)
      lock := if 24 < e.natAbs then .acquiring
        else if 8 < e.natAbs then r.time.lock
        else if 2 ≤ r.time.close then .locked else r.time.lock
      trim := match r.time.beaconBase with
        | some y => if 1000 ≤ ticksSince c y.count ∧ ticksSince c y.count ≤ 300000
            then trimTarget (dist x y.time) (ticksSince c y.count) else r.time.trim
        | none => r.time.trim
      beaconBase := some { time := x, count := c } } := by
  rw [trimFromBeacon_time, countTowardLock_time]
  rfl

/-- The clock after a beacon left alone. -/
theorem leftAlone_time (x : Nat) (c : LocalCount) (r : State) :
    (trimFromBeacon x c (setLock .acquiring (setClose 0 r))).time = { r.time with
      close := 0
      lock := .acquiring
      trim := match r.time.beaconBase with
        | some y => if 1000 ≤ ticksSince c y.count ∧ ticksSince c y.count ≤ 300000
            then trimTarget (dist x y.time) (ticksSince c y.count) else r.time.trim
        | none => r.time.trim
      beaconBase := some { time := x, count := c } } := by
  rw [trimFromBeacon_time, setLock_time]
  rfl

theorem slewedBy_of_time {e : Int} {x : Nat} {c : LocalCount} {r : State} (hr : r.time = s.time) :
    SlewedBy e s (trimFromBeacon x c (countTowardLock e (setSlew e r))) := by
  rw [SlewedBy, slewed_time, hr]
  refine ⟨rfl, rfl, fun h => ⟨if_pos h, if_pos (by omega)⟩, fun h1 h2 => ⟨?_, if_pos h2⟩, fun h => ⟨if_neg (by omega), ?_⟩⟩
  · exact (if_neg (by omega)).trans (if_pos h2)
  · exact (if_neg (by omega)).trans (if_neg (by omega))

/-! ### The step to a beacon -/

/-- The beacon of the reference, after which the choice stands. -/
structure Follows (rx : Heard) (b : NodeBeacon) (s : State) : Prop where
  other : rx.sender ≠ s.straps.station
  listen : s.listen = none
  lock : s.time.lock = .locked ∨ s.time.lock = .acquiring
  reference : s.time.reference = some rx.sender
  choice : chooseReference (setPeer rx.sender (.live { lastHeard := rx.stamp.count, body := .node b }) s) = rx.sender

theorem Follows.recorded (h : Follows rx b s) : chosenPeer rx (.node b) s = recordedPeer rx (.node b) (acknowledge s) := by
  refine rechoose_of_same (.inr ?_)
  rw [recorded_time, h.reference]
  refine congrArg some (h.choice.symm.trans (chooseReference_congr ?_ (recordedPeer_peers rx (.node b) (acknowledge s)).symm ?_ ?_))
  · rw [recorded_unchanged rx (.node b) s .straps (by decide)]
    rfl
  · rw [recorded_time]
    rfl
  · rw [recorded_time]
    rfl

theorem Follows.time (h : Follows rx b s) : (chosenPeer rx (.node b) s).time = s.time := by
  rw [h.recorded, recorded_time]

theorem Follows.exec_eq (h : Follows rx b s) (hp : s.powered = true) :
    exec (.presence rx (.node b)) s = .next (measureBeacon b rx.stamp (chosenPeer rx (.node b) s)) := by
  rw [exec_presence_peer hp h.other]
  refine congrArg _ (if_pos ⟨?_, h.time ▸ h.reference⟩)
  have hlisten : (chosenPeer rx (.node b) s).listen = none :=
    (chosenPeer_unchanged rx (.node b) s .listen (by decide)).trans h.listen
  rw [following, hlisten, h.time]
  obtain hlock | hlock := h.lock <;> rw [hlock] <;> rfl

theorem steppedTo_beacon (h : Follows rx b s) : SteppedTo b.tower.toNat rx.stamp.count (heardPeers rx b s) s
    (stepToBeacon b.tower.toNat rx.stamp.count (chosenPeer rx (.node b) s)) := by
  have htime := stepToBeacon_time b.tower.toNat rx.stamp.count (chosenPeer rx (.node b) s)
  have hafter := stepToBeacon_after b.tower.toNat rx.stamp.count (chosenPeer rx (.node b) s)
  rw [h.time] at htime hafter
  rw [SteppedTo, htime]
  refine ⟨rfl, rfl, rfl, rfl, steppedBy_chosen ((setLock_unchanged _ _).andThen hafter) (.inr (.inl ?_))⟩
  rw [htime]
  exact ⟨hafter .silence (by decide), hafter .trace (by decide)⟩

/-- What a slewed beacon of the reference brings. -/
theorem slewed_result (h : Follows rx b s) (e : Int) (t : State) (ht : t = trimFromBeacon b.tower.toNat rx.stamp.count
      (countTowardLock e (setSlew e (chosenPeer rx (.node b) s)))) :
    t.time.validity = s.time.validity ∧ t.time.reference = some rx.sender ∧
    t.time.beaconBase = some { time := b.tower.toNat, count := rx.stamp.count } ∧ SlewedBy e s t ∧
    TrimMeasured b.tower.toNat rx.stamp.count s t := by
  have htime := slewed_time b.tower.toNat rx.stamp.count e (chosenPeer rx (.node b) s)
  rw [h.time, ← ht] at htime
  have hslewed : SlewedBy e s t := ht ▸ slewedBy_of_time h.time
  rw [TrimMeasured, htime]
  exact ⟨rfl, h.reference, rfl, hslewed, rfl⟩

theorem validities_differ {own beacon : Validity} (h : own = .set ∨ beacon = .unset) (hne : own ≠ beacon) :
    own = .set ∧ beacon = .unset := by
  cases own <;> cases beacon <;> simp_all

/-- The step to a SET beacon of a node that is UNSET, before it makes its choice again. -/
def madeValid (rx : Heard) (b : NodeBeacon) (s : State) : State :=
  setValid (stepToBeacon b.tower.toNat rx.stamp.count (chosenPeer rx (.node b) s))

theorem madeValid_time (h : Follows rx b s) : (madeValid rx b s).time = { s.time with
    tower := plus b.tower.toNat (ticksSince s.time.count rx.stamp.count)
    validity := .set
    slew := 0
    close := 0
    lock := .acquiring
    beaconBase := some { time := b.tower.toNat, count := rx.stamp.count }
    markBase := none
    stepAt := some s.time.count } := by
  have htime := stepToBeacon_time b.tower.toNat rx.stamp.count (chosenPeer rx (.node b) s)
  rw [h.time] at htime
  exact congrArg (fun z : Timebase => { z with validity := .set }) htime

theorem madeValid_after (rx : Heard) (b : NodeBeacon) (s : State) : Unchanged [.time] (setLock .acquiring
    (stepTime (plus b.tower.toNat (ticksSince (chosenPeer rx (.node b) s).time.count rx.stamp.count)) (chosenPeer rx (.node b) s)))
    (madeValid rx b s) := (stepToBeacon_after _ _ _).andThen (setValid_unchanged _)

theorem madeValid_kept (rx : Heard) (b : NodeBeacon) (s : State) : (madeValid rx b s).listen = s.listen ∧
    (madeValid rx b s).straps = s.straps := by
  have hstep := stepTime_unchanged (plus b.tower.toNat (ticksSince (chosenPeer rx (.node b) s).time.count rx.stamp.count))
    (chosenPeer rx (.node b) s)
  have hu := ((chosenPeer_unchanged rx (.node b) s).widen.andThen (ps := .peers :: timeStepped) hstep).andThen
    ((setLock_unchanged .acquiring _).andThen (madeValid_after rx b s))
  exact ⟨hu .listen (by decide), hu .straps (by decide)⟩

theorem steppedTo_valid (h : Follows rx b s) :
    SteppedTo b.tower.toNat rx.stamp.count (heardPeers rx b s) s (rechoose (madeValid rx b s)) := by
  have htime := madeValid_time h
  have hafter := madeValid_after rx b s
  rw [h.time] at hafter
  obtain ⟨htower, -, -, hslew, htrim, hstep, -⟩ := rechoose_time (madeValid rx b s)
  rw [htime] at htower hslew htrim hstep
  rw [SteppedTo, htower]
  refine ⟨hslew, hstep, rfl, htrim, steppedBy_chosen (((setLock_unchanged _ _).andThen hafter).andThen (rechoose_unchanged _)) ?_⟩
  have hvalid : SameSilence (setLock .acquiring (stepTime (plus b.tower.toNat (ticksSince s.time.count rx.stamp.count))
      (chosenPeer rx (.node b) s))) (madeValid rx b s) := ⟨hafter .silence (by decide), hafter .trace (by decide)⟩
  obtain hsame | hmoved := rechoose_silence (madeValid rx b s)
  · rw [hsame, htime]
    exact .inr (.inl hvalid)
  · exact .inr (.inr ((setLock_congr _ (.of_unchanged hafter)).trans hmoved))

/-- The choice of a node that a beacon made valid. -/
theorem madeValid_choice (h : Follows rx b s) (t : State) (ht : t = rechoose (madeValid rx b s)) :
    t.time.close = 0 ∧ t.time.reference = some (chooseReference t) ∧
    t.time.lock = (if chooseReference t = s.straps.station then .reference else .acquiring) ∧
    t.time.beaconBase = (if chooseReference t = rx.sender
      then some { time := b.tower.toNat, count := rx.stamp.count } else none) := by
  obtain ⟨hlisten, hstraps⟩ := madeValid_kept rx b s
  have htime := madeValid_time h
  have hchoice : chooseReference t = chooseReference (madeValid rx b s) := ht ▸ chooseReference_rechoose _
  have hreference : t.time.reference = some (chooseReference t) := ht ▸ rechoose_reference (hlisten.trans h.listen)
  rw [hchoice] at hreference ⊢
  have hbefore : (madeValid rx b s).time.reference = some rx.sender := by rw [htime]; exact h.reference
  obtain hsame | ⟨-, hchanged, hadopt⟩ := rechoose_cases (madeValid rx b s)
  · rw [hsame] at ht
    subst ht
    have hsender : chooseReference (madeValid rx b s) = rx.sender := Option.some.inj (hreference.symm.trans hbefore)
    rw [hsender, htime, if_neg h.other, if_pos rfl]
    exact ⟨rfl, h.reference, rfl, rfl⟩
  · rw [hadopt] at ht
    have hsender : chooseReference (madeValid rx b s) ≠ rx.sender := fun heq => hchanged (heq ▸ hbefore)
    have hafter := adoptChoice_time (chooseReference (madeValid rx b s)) (madeValid rx b s)
    rw [← ht] at hafter
    rw [hafter, if_neg hsender, htime, lockForChoice, hstraps]
    exact ⟨rfl, rfl, rfl, rfl⟩

/-! ### The week position (R78) -/

/-- A station from which a node may take the week position. -/
def isDonor (s : State) (st : Fin 16) : Bool :=
  decide (st ≠ s.straps.station) &&
  match liveNode s.peers[st] with
  | some b => decide (b.validity = .set)
  | none => false

theorem isDonor_iff {st : Fin 16} : isDonor s st = true ↔ st ≠ s.straps.station ∧
    ∃ (i : PeerInfo) (x : NodeBeacon), s.peers[st] = .live i ∧ i.body = .node x ∧ x.validity = .set := by
  rw [isDonor, Bool.and_eq_true, decide_eq_true_iff]
  refine and_congr_right fun _ => ?_
  cases h : liveNode s.peers[st] with
  | none =>
    refine iff_of_false nofun fun ⟨i, x, hi, hx, _⟩ => ?_
    rw [liveNode_eq_some_iff.mpr ⟨i, hi, hx⟩] at h
    cases h
  | some b =>
    refine decide_eq_true_iff.trans ⟨fun hset => ?_, fun ⟨i, x, hi, hx, hset⟩ => ?_⟩
    · obtain ⟨i, hi, hb⟩ := liveNode_eq_some_iff.mp h
      exact ⟨i, b, hi, hb, hset⟩
    · rw [liveNode_eq_some_iff.mpr ⟨i, hi, hx⟩] at h
      exact Option.some.inj h ▸ hset

theorem donor_of (hlive : s.peers[rx.sender] = .live { lastHeard := rx.stamp.count, body := .node b })
    (hother : rx.sender ≠ s.straps.station) (hset : b.validity = .set)
    (hlower : ∀ (st : Fin 16) (i : PeerInfo) (x : NodeBeacon), st < rx.sender → st ≠ s.straps.station →
      s.peers[st] = .live i → i.body = .node x → x.validity = .unset) : donor s = some rx.sender := by
  have hdonor : isDonor s rx.sender = true := isDonor_iff.mpr ⟨hother, _, b, hlive, rfl, hset⟩
  cases hfound : allStations.find? (isDonor s) with
  | none => exact absurd hdonor (List.find?_eq_none.mp hfound _ (allStations_complete _))
  | some p =>
    have hle : p ≤ rx.sender := find?_first allStations_ordered hfound (allStations_complete _) hdonor
    obtain ⟨hp, i, x, hi, hx, hxset⟩ := isDonor_iff.mp (List.find?_some hfound)
    obtain hlt | heq := lt_or_eq_of_le hle
    · exact absurd ((hlower p i x hlt hp hi hx).symm.trans hxset) nofun
    · exact hfound.trans (congrArg some heq)

/-- The week position a beacon gives, before the choice. -/
def weekTaken (rx : Heard) (b : NodeBeacon) (s : State) : State :=
  setValid (stepTime (samePhase s.time.tower (plus b.tower.toNat (ticksSince s.time.count rx.stamp.count)))
    (chosenPeer rx (.node b) s))

theorem takesWeek_of {r : State} (hlisten : r.listen = none) (hlock : r.time.lock = .sourced)
    (hunset : r.time.validity = .unset) {p : Fin 16} (hdonor : donor r = some p) : takesWeek r p = true := by
  rw [takesWeek, hlisten, hlock, hunset, hdonor]
  simp

theorem exec_takesWeek (hp : s.powered = true) (hother : rx.sender ≠ s.straps.station) (hlisten : s.listen = none)
    (hlock : s.time.lock = .sourced) (hunset : s.time.validity = .unset) (hset : b.validity = .set)
    (hlower : ∀ (st : Fin 16) (i : PeerInfo) (x : NodeBeacon), st < rx.sender → st ≠ s.straps.station →
      s.peers[st] = .live i → i.body = .node x → x.validity = .unset) :
    exec (.presence rx (.node b)) s = .next (rechoose (weekTaken rx b s)) := by
  have hu := chosenPeer_unchanged rx (.node b) s
  have hpeers := chosenPeer_peers rx b s
  have hstraps : (chosenPeer rx (.node b) s).straps = s.straps := hu .straps (by decide)
  obtain ⟨htower, hvalidity, hcount⟩ := chosenPeer_time rx (.node b) s
  have hsourced : (chosenPeer rx (.node b) s).time.lock = .sourced := rechoose_sourced.mpr (by rw [recorded_time]; exact hlock)
  have hdonor : donor (chosenPeer rx (.node b) s) = some rx.sender := by
    refine donor_of (b := b) ?_ (hstraps ▸ hother) hset fun st i x hlt hst hi hx => ?_
    · rw [hpeers]
      exact Vector.getElem_set_self _
    · refine hlower st i x hlt (hstraps ▸ hst) ?_ hx
      rw [hpeers] at hi
      exact (Vector.getElem_set_ne _ _ (Fin.val_ne_of_ne hlt.ne')).symm.trans hi
  rw [exec_presence_peer hp hother]
  have hnot : following (chosenPeer rx (.node b) s) ≠ true := by
    rw [following, hsourced]
    simp
  refine congrArg _ ((if_neg fun hboth => hnot hboth.1).trans ((if_pos ?_).trans ?_))
  · exact takesWeek_of ((hu .listen (by decide)).trans hlisten) hsourced (hvalidity.trans hunset) hdonor
  · rw [takeWeek, htower, hcount]
    rfl

theorem weekTaken_result (hlisten : s.listen = none) (hlock : s.time.lock = .sourced) (t : State)
    (ht : t = rechoose (weekTaken rx b s)) : t.time.validity = .set ∧ t.time.lock = .sourced ∧
    t.time.reference = some (chooseReference t) ∧ t.time.slew = 0 ∧ t.time.stepAt = some s.time.count ∧
    t.time.tower = samePhase s.time.tower (plus b.tower.toNat (ticksSince s.time.count rx.stamp.count)) ∧
    SteppedBy t.time.tower (heardPeers rx b s) s t := by
  rw [ht]
  clear ht
  have hx := Nat.mod_eq_of_lt (samePhase_lt s.time.tower (plus b.tower.toNat (ticksSince s.time.count rx.stamp.count)))
  have hsilence := rechoose_silence (weekTaken rx b s)
  have hafter : Unchanged [.time] (stepTime (samePhase s.time.tower (plus b.tower.toNat (ticksSince s.time.count rx.stamp.count)))
    (chosenPeer rx (.node b) s)) (weekTaken rx b s) := setValid_unchanged _
  have htime : (weekTaken rx b s).time = _ := congrArg (fun z : Timebase => { z with validity := .set })
    (stepTime_time (samePhase s.time.tower (plus b.tower.toNat (ticksSince s.time.count rx.stamp.count)))
      (chosenPeer rx (.node b) s))
  obtain ⟨-, -, hcount⟩ := chosenPeer_time rx (.node b) s
  have hsourced : (chosenPeer rx (.node b) s).time.lock = .sourced := rechoose_sourced.mpr (by rw [recorded_time]; exact hlock)
  generalize samePhase s.time.tower (plus b.tower.toNat (ticksSince s.time.count rx.stamp.count)) = x at *
  have hkept : (weekTaken rx b s).listen = none := by
    have hu := ((chosenPeer_unchanged rx (.node b) s).widen.andThen (ps := .peers :: timeStepped)
      (stepTime_unchanged x (chosenPeer rx (.node b) s))).andThen hafter
    exact (hu .listen (by decide)).trans hlisten
  obtain ⟨htower, hvalidity, -, hslew, -, hstep, -⟩ := rechoose_time (weekTaken rx b s)
  rw [htime] at htower hvalidity hslew hstep
  rw [hx] at htower
  refine ⟨hvalidity, rechoose_sourced.mpr ?_, rechoose_reference hkept, hslew, ?_, htower, ?_⟩
  · rw [htime]
    exact hsourced
  · exact hstep.trans (congrArg some hcount)
  rw [htower]
  refine steppedBy_chosen (hafter.widen.andThen (rechoose_unchanged _)) ?_
  obtain hsame | hmoved := hsilence
  · rw [hsame]
    exact .inl ⟨hafter .silence (by decide), hafter .trace (by decide)⟩
  · exact .inr (.inl ((setLock_congr _ (.of_unchanged hafter)).trans hmoved))

end

/-- Settles O13. -/
theorem beaconMeasured : Obligations.BeaconMeasured := by
  refine ⟨fun rx b e s hp hother hlisten hlock href hchoice he => ?_, fun rx b s hp hother hlisten hlock hunset hset hlower => ?_,
    samePhase_spec, fun ref _ => trimTarget_spec ref⟩
  · subst he
    have h : Follows rx b s := ⟨hother, hlisten, hlock, href, hchoice⟩
    refine ⟨fun hrow => ⟨_, h.exec_eq hp, ?_⟩, fun hunset hset => ⟨_, h.exec_eq hp, ?_⟩⟩
    · obtain hsmall | hlarge := le_or_gt (dist b.tower.toNat rx.stamp.tower.toNat).natAbs 400
      · rw [measureBeacon_slew (by rw [h.time]; exact hrow) hsmall]
        obtain ⟨hvalidity, href, hbase, hslewed, htrim⟩ := slewed_result h (dist b.tower.toNat rx.stamp.tower.toNat) _ rfl
        exact ⟨hvalidity, href, hbase, fun _ => ⟨hslewed, htrim⟩, fun hover => absurd hsmall (not_le.mpr hover)⟩
      by_cases hsame : s.time.validity = b.validity
      · rw [measureBeacon_step (by rw [h.time]; exact hsame) hlarge]
        have htime := stepToBeacon_time b.tower.toNat rx.stamp.count (chosenPeer rx (.node b) s)
        rw [h.time] at htime
        rw [htime]
        exact ⟨rfl, href, rfl, fun hsmall => absurd hlarge (not_lt.mpr hsmall),
          fun _ => ⟨rfl, rfl, fun _ => steppedTo_beacon h, fun hdiffer => absurd hsame hdiffer⟩⟩
      · obtain ⟨hset, hunset⟩ := validities_differ hrow hsame
        rw [measureBeacon_none (by rw [h.time]; exact hset) hunset hlarge]
        have htime := leftAlone_time b.tower.toNat rx.stamp.count (chosenPeer rx (.node b) s)
        rw [h.time] at htime
        rw [TrimMeasured, htime]
        exact ⟨rfl, href, rfl, fun hsmall => absurd hlarge (not_lt.mpr hsmall),
          fun _ => ⟨rfl, rfl, fun hequal => absurd hequal hsame, fun _ => ⟨rfl, rfl, rfl⟩⟩⟩
    · rw [measureBeacon_set (by rw [h.time]; exact hunset) hset]
      obtain ⟨hclose, hreference, hlock, hbase⟩ := madeValid_choice h _ rfl
      refine ⟨?_, steppedTo_valid h, hclose, hreference, hlock, hbase⟩
      obtain ⟨-, hvalidity, -⟩ := rechoose_time (madeValid rx b s)
      exact hvalidity
  · refine ⟨_, exec_takesWeek hp hother hlisten hlock hunset hset hlower, ?_⟩
    exact weekTaken_result hlisten hlock _ rfl

end Sys2Proof.Machine
end

