-- ==== Sys2Proof/Proofs/Fields.lean ====
section
/-! What a field reads after it was put, bit by bit, and the identifiers of frames (R85, R86). -/

namespace Sys2Proof

-- One proof after another: many at once would ask for more threads than the memory limit allows.
set_option Elab.async false

section
variable {w v n lo : Nat} {a rest : List Bool}

/-! ### Numbers and bits -/

theorem natOfBits_concat (l : List Bool) (b : Bool) : natOfBits (l ++ [b]) = Nat.bit b (natOfBits l) := by
  rw [natOfBits, List.foldl_append]
  cases b <;> simp [natOfBits, Nat.bit]

/-- Bit i of the number is the i-th from the end of the list. -/
theorem testBit_natOfBits_reverse (l : List Bool) (i : Nat) : (natOfBits l.reverse).testBit i = l.getD i false := by
  induction l generalizing i with
  | nil => simp [natOfBits]
  | cons b l ih =>
    rw [List.reverse_cons, natOfBits_concat]
    cases i with
    | zero => simp
    | succ i => simp [Nat.testBit_bit_succ, ih]

@[simp] theorem putFlags_length (x : BitVec w) : (putFlags x).length = w := by simp [putFlags]
@[simp] theorem putField_length (x : BitVec w) : (putField x).length = w := by simp [putField]
@[simp] theorem fill_length (n : Nat) : (fill n).length = n := List.length_replicate

theorem putField_eq (x : BitVec w) : putField x = (putFlags x).reverse := by
  refine List.ext_getElem (by simp) fun i h1 h2 => ?_
  simp [putField, putFlags]

theorem ofNat_flags (x : BitVec w) : BitVec.ofNat w (natOfBits (putFlags x).reverse) = x := by
  refine BitVec.eq_of_getLsbD_eq fun i hi => ?_
  rw [BitVec.getLsbD_ofNat, testBit_natOfBits_reverse]
  simp [putFlags, hi]

/-! ### A field read where it was put -/

@[simp] theorem readField_put (x : BitVec w) (rest : List Bool) : readField w (putField x ++ rest) 0 = x := by
  rw [readField, List.drop_zero, List.take_left' (putField_length x), putField_eq, ofNat_flags]

@[simp] theorem readField_put_last (x : BitVec w) : readField w (putField x) 0 = x := by
  simpa using readField_put x []

@[simp] theorem readFlags_put (x : BitVec w) (rest : List Bool) : readFlags w (putFlags x ++ rest) 0 = x := by
  rw [readFlags, List.drop_zero, List.take_left' (putFlags_length x), ofNat_flags]

@[simp] theorem readFlags_put_last (x : BitVec w) : readFlags w (putFlags x) 0 = x := by
  simpa using readFlags_put x []

@[simp] theorem readBit_cons (b : Bool) (rest : List Bool) : readBit (b :: rest) 0 = b := rfl

/-! ### A field read behind what stands before it -/

theorem drop_behind (h : a.length ≤ lo) : (a ++ rest).drop lo = rest.drop (lo - a.length) := by
  rw [List.drop_append, List.drop_of_length_le h, List.nil_append]

theorem readField_behind (h : a.length ≤ lo) : readField w (a ++ rest) lo = readField w rest (lo - a.length) := by
  rw [readField, readField, drop_behind h]

theorem readFlags_behind (h : a.length ≤ lo) : readFlags w (a ++ rest) lo = readFlags w rest (lo - a.length) := by
  rw [readFlags, readFlags, drop_behind h]

theorem readBit_behind (h : a.length ≤ lo) : readBit (a ++ rest) lo = readBit rest (lo - a.length) :=
  List.getD_append_right _ _ _ _ h

@[simp] theorem readField_skipField (x : BitVec v) (h : v ≤ lo) :
    readField w (putField x ++ rest) lo = readField w rest (lo - v) := by
  simpa using readField_behind (w := w) (rest := rest) ((putField_length x).le.trans h)

@[simp] theorem readField_skipFlags (x : BitVec v) (h : v ≤ lo) :
    readField w (putFlags x ++ rest) lo = readField w rest (lo - v) := by
  simpa using readField_behind (w := w) (rest := rest) ((putFlags_length x).le.trans h)

@[simp] theorem readField_skipFill (h : n ≤ lo) : readField w (fill n ++ rest) lo = readField w rest (lo - n) := by
  simpa using readField_behind (w := w) (rest := rest) ((fill_length n).le.trans h)

@[simp] theorem readField_skipBit (b : Bool) (h : 1 ≤ lo) : readField w (b :: rest) lo = readField w rest (lo - 1) :=
  readField_behind (a := [b]) h

@[simp] theorem readFlags_skipField (x : BitVec v) (h : v ≤ lo) :
    readFlags w (putField x ++ rest) lo = readFlags w rest (lo - v) := by
  simpa using readFlags_behind (w := w) (rest := rest) ((putField_length x).le.trans h)

@[simp] theorem readFlags_skipFlags (x : BitVec v) (h : v ≤ lo) :
    readFlags w (putFlags x ++ rest) lo = readFlags w rest (lo - v) := by
  simpa using readFlags_behind (w := w) (rest := rest) ((putFlags_length x).le.trans h)

@[simp] theorem readFlags_skipBit (b : Bool) (h : 1 ≤ lo) : readFlags w (b :: rest) lo = readFlags w rest (lo - 1) :=
  readFlags_behind (a := [b]) h

@[simp] theorem readBit_skipField (x : BitVec v) (h : v ≤ lo) : readBit (putField x ++ rest) lo = readBit rest (lo - v) := by
  simpa using readBit_behind (rest := rest) ((putField_length x).le.trans h)

@[simp] theorem readBit_skipFlags (x : BitVec v) (h : v ≤ lo) : readBit (putFlags x ++ rest) lo = readBit rest (lo - v) := by
  simpa using readBit_behind (rest := rest) ((putFlags_length x).le.trans h)

@[simp] theorem readBit_skipFill (h : n ≤ lo) : readBit (fill n ++ rest) lo = readBit rest (lo - n) := by
  simpa using readBit_behind (rest := rest) ((fill_length n).le.trans h)

@[simp] theorem readBit_skipBit (b : Bool) (h : 1 ≤ lo) : readBit (b :: rest) lo = readBit rest (lo - 1) :=
  readBit_behind (a := [b]) h

/-- The length of some groups of bits of one length. -/
theorem groups_length {α : Type} {g : Nat} {f : α → List Bool} (hf : ∀ x, (f x).length = g) (l : List α) :
    (l.flatMap f).length = g * l.length := by
  induction l with
  | nil => rfl
  | cons x l ih => rw [List.flatMap_cons, List.length_append, hf, ih, List.length_cons, Nat.mul_succ, Nat.add_comm]

/-- Group j of some groups of bits of one length stands behind j groups. -/
theorem groups_split {α : Type} {g : Nat} {f : α → List Bool} (hf : ∀ x, (f x).length = g) (l : List α) {j : Nat}
    (hj : j < l.length) : ∃ pre post, pre.length = g * j ∧ l.flatMap f = pre ++ (f l[j] ++ post) := by
  refine ⟨(l.take j).flatMap f, (l.drop (j + 1)).flatMap f, ?_, ?_⟩
  · rw [groups_length hf, List.length_take_of_le hj.le]
  · rw [← List.flatMap_cons, ← List.drop_eq_getElem_cons hj, ← List.flatMap_append, List.take_append_drop]

@[simp] theorem fields_length (l : List (BitVec w)) : (l.flatMap putField).length = w * l.length :=
  groups_length putField_length l

/-- The i-th of some fields of one width. -/
theorem readField_fields (a : List Bool) (l : List (BitVec w)) {i : Nat} (h : i < l.length) :
    readField w (a ++ l.flatMap putField) (a.length + w * i) = l[i] := by
  obtain ⟨pre, post, hpre, hl⟩ := groups_split putField_length l h
  rw [hl, readField_behind (Nat.le_add_right _ _), Nat.add_sub_cancel_left, readField_behind hpre.le, hpre, Nat.sub_self,
    readField_put]

/-! ### Small codes -/

@[simp] theorem station_ofNat (st : Fin 16) : Fin.ofNat 16 (BitVec.ofNat 4 st.val).toNat = st := by
  ext
  simp [Fin.ofNat, Nat.mod_eq_of_lt st.isLt]

@[simp] theorem channel_ofNat (k : Fin 8) : Fin.ofNat 8 (BitVec.ofNat 3 k.val).toNat = k := by
  ext
  simp [Fin.ofNat, Nat.mod_eq_of_lt k.isLt]

@[simp] theorem validityOf_bit (v : Validity) : validityOf (validityBit v) = v := by cases v <;> rfl
@[simp] theorem lockOf_code (l : LockState) : lockOf (lockCode l) = l := by cases l <;> rfl
@[simp] theorem driveOf_code (d : DriveState) : driveOf (driveCode d) = d := by cases d <;> rfl
@[simp] theorem silenceOf_code (x : SilenceState) : silenceOf (silenceCode x) = x := by cases x <;> rfl
@[simp] theorem reasonOf_code (r : ReleaseReason) : reasonOf (reasonCode r) = r := by cases r <;> rfl
@[simp] theorem ruleOf_bit (r : Ensemble) : ruleOf (ruleBit r) = r := by cases r <;> rfl

/-! ### Identifiers (R86) -/

theorem identOf_toNat {cls kind : Nat} (st : Fin 16) (hc : cls < 8) (hk : kind < 16) :
    (identOf cls st kind).toNat = 256 * cls + 16 * st.val + kind := by
  rw [identOf, BitVec.toNat_ofNat]
  omega

theorem FrameKind.codes_lt (k : FrameKind) : k.codes.1 < 8 ∧ k.codes.2 < 16 := by
  cases k with
  | claim pr => cases pr <;> decide
  | floor pr => cases pr <;> decide
  | release => decide
  | presence => decide
  | order => decide
  | service => decide
  | reply => decide

theorem identClass_ident (k : FrameKind) (st : Fin 16) : identClass (k.ident st) = k.codes.1 := by
  rw [identClass, FrameKind.ident, identOf_toNat st k.codes_lt.1 k.codes_lt.2]
  have hk := k.codes_lt.2
  omega

theorem identKind_ident (k : FrameKind) (st : Fin 16) : identKind (k.ident st) = k.codes.2 := by
  rw [identKind, FrameKind.ident, identOf_toNat st k.codes_lt.1 k.codes_lt.2]
  have hk := k.codes_lt.2
  omega

theorem identStation_ident (k : FrameKind) (st : Fin 16) : identStation (k.ident st) = st := by
  ext
  rw [identStation, FrameKind.ident, identOf_toNat st k.codes_lt.1 k.codes_lt.2]
  have hk := k.codes_lt.2
  simp only [Fin.ofNat]
  omega

theorem frameKind_ident (k : FrameKind) (st : Fin 16) : frameKind (k.ident st) = some k := by
  rw [frameKind, identClass_ident, identKind_ident]
  cases k with
  | claim pr => cases pr <;> rfl
  | floor pr => cases pr <;> rfl
  | release => rfl
  | presence => rfl
  | order => rfl
  | service => rfl
  | reply => rfl

end

end Sys2Proof
end

