-- ==== Sys2Proof/Proofs/Codec.lean ====
section
/-! Decode of encode, frame by frame and service body by service body (05 Frame layouts, SERVICE bodies). -/

namespace Sys2Proof

-- One proof after another: many at once would ask for more threads than the memory limit allows.
set_option Elab.async false

/-! ### The contents of frames -/

theorem encodeFloorBody_length (b : FloorBody) : (encodeFloorBody b).length = 128 := by simp [encodeFloorBody]

theorem decodeFloorBody_encode (b : FloorBody) : decodeFloorBody (encodeFloorBody b) = b := by
  simp [decodeFloorBody, encodeFloorBody]

theorem encodeRelease_length (seq : BitVec 8) (r : ReleaseReason) : (encodeRelease seq r).length = 16 := by simp [encodeRelease]

theorem decodeRelease_encode (seq : BitVec 8) (r : ReleaseReason) : readField 8 (encodeRelease seq r) 0 = seq ∧
    reasonOf (readField 2 (encodeRelease seq r) 8) = r := by
  simp [encodeRelease]

theorem encodeBeacon_node_length (b : NodeBeacon) : (encodeBeacon (.node b)).length = 72 := by
  cases h : b.holder <;> simp [encodeBeacon, h]

theorem decodeBeacon_encode (b : Beacon) : decodeBeacon (encodeBeacon b) = b := by
  cases b with
  | console => rfl
  | node b =>
    obtain ⟨_, _, _, _, _, _, _, _, holder⟩ := b
    cases holder <;> simp [decodeBeacon, encodeBeacon]

/-! ### ORDER -/

@[simp] theorem encodeItem_length (o : OrderItem) : (encodeItem o).length = 28 := by simp [encodeItem]

theorem encodeItems_length (items : List OrderItem) : (items.flatMap encodeItem).length = 28 * items.length :=
  groups_length encodeItem_length items

theorem encodeOrder_eq (seq : BitVec 8) (base : BitVec 32) (items : List OrderItem) : encodeOrder seq base items =
    putField seq ++ (putField (BitVec.ofNat 2 items.length) ++ (putField base ++ (items.flatMap encodeItem ++
      fill ((8 - (42 + 28 * items.length) % 8) % 8)))) := by
  have hlength : (putField seq ++ (putField (BitVec.ofNat 2 items.length) ++
      (putField base ++ items.flatMap encodeItem))).length = 42 + 28 * items.length := by
    simp only [List.length_append, putField_length, encodeItems_length]
    omega
  simp only [encodeOrder, hlength, List.append_assoc]

theorem encodeOrder_length (seq : BitVec 8) (base : BitVec 32) (items : List OrderItem) :
    (encodeOrder seq base items).length = 42 + 28 * items.length + (8 - (42 + 28 * items.length) % 8) % 8 := by
  rw [encodeOrder_eq]
  simp only [List.length_append, putField_length, encodeItems_length, fill_length]
  omega

theorem readItem (o : OrderItem) (rest : List Bool) : readField 6 (encodeItem o ++ rest) 0 = o.bell ∧
    readField 4 (encodeItem o ++ rest) 6 = o.velocity ∧ readField 8 (encodeItem o ++ rest) 10 = o.offset ∧
    readField 10 (encodeItem o ++ rest) 18 = o.duration := by
  simp [encodeItem]

theorem decodeItem_behind {a : List Bool} {j : Nat} (ha : a.length = 42 + 28 * j) (o : OrderItem) (rest : List Bool) :
    decodeItem (a ++ (encodeItem o ++ rest)) j = o := by
  obtain ⟨hbell, hvelocity, hoffset, hduration⟩ := readItem o rest
  have hread {w : Nat} (r : Nat) : readField w (a ++ (encodeItem o ++ rest)) (42 + 28 * j + r) =
      readField w (encodeItem o ++ rest) r := by
    rw [readField_behind (by omega), ha, Nat.add_sub_cancel_left]
  have h0 := hread (w := 6) 0
  have h6 := hread (w := 4) 6
  have h10 := hread (w := 8) 10
  have h18 := hread (w := 10) 18
  rw [decodeItem, show 48 + 28 * j = 42 + 28 * j + 6 by omega, show 52 + 28 * j = 42 + 28 * j + 10 by omega,
    show 60 + 28 * j = 42 + 28 * j + 18 by omega, h6, h10, h18]
  rw [Nat.add_zero] at h0
  rw [h0, hbell, hvelocity, hoffset, hduration]

theorem decodeItem_encode (seq : BitVec 8) (base : BitVec 32) (items : List OrderItem) {j : Nat} (hj : j < items.length) :
    decodeItem (encodeOrder seq base items) j = items[j] := by
  obtain ⟨pre, post, hpre, hitems⟩ := groups_split encodeItem_length items hj
  have hsplit : encodeOrder seq base items =
      (putField seq ++ (putField (BitVec.ofNat 2 items.length) ++ (putField base ++ pre))) ++
      (encodeItem items[j] ++ (post ++ fill ((8 - (42 + 28 * items.length) % 8) % 8))) := by
    rw [encodeOrder_eq, hitems]
    simp only [List.append_assoc]
  rw [hsplit]
  refine decodeItem_behind ?_ _ _
  simp only [List.length_append, putField_length, hpre]
  omega

/-- The head of an ORDER and its orders. -/
theorem decodeOrder_encode (seq : BitVec 8) (base : BitVec 32) (items : List OrderItem) (h : items.length ≤ 3) :
    readField 8 (encodeOrder seq base items) 0 = seq ∧ readField 32 (encodeOrder seq base items) 10 = base ∧
    (readField 2 (encodeOrder seq base items) 8).toNat = items.length ∧
    (List.range items.length).map (decodeItem (encodeOrder seq base items)) = items := by
  refine ⟨?_, ?_, ?_, ?_⟩
  · rw [encodeOrder_eq, readField_put]
  · simp [encodeOrder_eq]
  · have hcount : readField 2 (encodeOrder seq base items) 8 = BitVec.ofNat 2 items.length := by simp [encodeOrder_eq]
    rw [hcount, BitVec.toNat_ofNat]
    omega
  · refine List.ext_getElem (by simp) fun j h1 h2 => ?_
    rw [List.getElem_map, List.getElem_range, decodeItem_encode seq base items h2]

theorem orderAccepted (seq : BitVec 8) (base : BitVec 32) (items : List OrderItem) (h1 : 1 ≤ items.length)
    (h3 : items.length ≤ 3) : lengthAccepted .order (encodeOrder seq base items) = true := by
  obtain ⟨-, -, hcount, -⟩ := decodeOrder_encode seq base items h3
  simp only [lengthAccepted, encodeOrder_length, hcount]
  generalize items.length = n at *
  interval_cases n <;> rfl

/-! ### Frames that decode (R86, R90) -/

section
variable {stamp : Stamp} {st : Fin 16} {p : Payload}

theorem decodeFrame_claim {pr : Priority} (h : lengthAccepted (.claim pr) p = true) :
    decodeFrame stamp (FrameKind.ident (.claim pr) st) p =
      .command (.claim { sender := st, stamp := stamp } pr (decodeFloorBody p)) := by
  simp only [decodeFrame, frameKind_ident, identStation_ident, h, if_true]

theorem decodeFrame_floor {pr : Priority} (h : lengthAccepted (.floor pr) p = true) :
    decodeFrame stamp (FrameKind.ident (.floor pr) st) p =
      .command (.floor { sender := st, stamp := stamp } pr (decodeFloorBody p)) := by
  simp only [decodeFrame, frameKind_ident, identStation_ident, h, if_true]

theorem decodeFrame_release (h : lengthAccepted .release p = true) : decodeFrame stamp (FrameKind.ident .release st) p =
    .command (.release { sender := st, stamp := stamp } (readField 8 p 0) (reasonOf (readField 2 p 8))) := by
  simp only [decodeFrame, frameKind_ident, identStation_ident, h, if_true]

theorem decodeFrame_presence (h : lengthAccepted .presence p = true) : decodeFrame stamp (FrameKind.ident .presence st) p =
    .command (.presence { sender := st, stamp := stamp } (decodeBeacon p)) := by
  simp only [decodeFrame, frameKind_ident, identStation_ident, h, if_true]

theorem decodeFrame_order (h : lengthAccepted .order p = true) : decodeFrame stamp (FrameKind.ident .order st) p =
    .command (.order { sender := st, stamp := stamp } (readField 8 p 0) (readField 32 p 10)
      ((List.range (readField 2 p 8).toNat).map (decodeItem p))) := by
  simp only [decodeFrame, frameKind_ident, identStation_ident, h, if_true]

theorem decodeFrame_service (h : lengthAccepted .service p = true) : decodeFrame stamp (FrameKind.ident .service st) p =
    .command (decodeService { sender := st, stamp := stamp } p) := by
  simp only [decodeFrame, frameKind_ident, identStation_ident, h, if_true]

theorem decodeFrame_reply (h : lengthAccepted .reply p = true) :
    decodeFrame stamp (FrameKind.ident .reply st) p = .notForNodes := by
  simp only [decodeFrame, frameKind_ident, h, if_true]

theorem claim_decodes (pr : Priority) (b : FloorBody) :
    decodeFrame stamp (FrameKind.ident (.claim pr) st) (encodeFloorBody b) = .command (.claim { sender := st, stamp := stamp } pr b) := by
  rw [decodeFrame_claim (by simp only [lengthAccepted, encodeFloorBody_length]; rfl), decodeFloorBody_encode]

theorem floor_decodes (pr : Priority) (b : FloorBody) :
    decodeFrame stamp (FrameKind.ident (.floor pr) st) (encodeFloorBody b) = .command (.floor { sender := st, stamp := stamp } pr b) := by
  rw [decodeFrame_floor (by simp only [lengthAccepted, encodeFloorBody_length]; rfl), decodeFloorBody_encode]

theorem release_decodes (seq : BitVec 8) (r : ReleaseReason) :
    decodeFrame stamp (FrameKind.ident .release st) (encodeRelease seq r) =
      .command (.release { sender := st, stamp := stamp } seq r) := by
  obtain ⟨hseq, hreason⟩ := decodeRelease_encode seq r
  rw [decodeFrame_release (by simp only [lengthAccepted, encodeRelease_length]; rfl), hseq, hreason]

theorem presenceAccepted (b : Beacon) : lengthAccepted .presence (encodeBeacon b) = true := by
  cases b with
  | console => rfl
  | node b =>
    have hkind : readBit (encodeBeacon (.node b)) 0 = false := rfl
    simp only [lengthAccepted, encodeBeacon_node_length, hkind]
    rfl

theorem presence_decodes (b : Beacon) : decodeFrame stamp (FrameKind.ident .presence st) (encodeBeacon b) =
    .command (.presence { sender := st, stamp := stamp } b) := by
  rw [decodeFrame_presence (presenceAccepted b), decodeBeacon_encode]

theorem order_decodes (seq : BitVec 8) (base : BitVec 32) (items : List OrderItem) (h1 : 1 ≤ items.length)
    (h3 : items.length ≤ 3) : decodeFrame stamp (FrameKind.ident .order st) (encodeOrder seq base items) =
      .command (.order { sender := st, stamp := stamp } seq base items) := by
  obtain ⟨hseq, hbase, hcount, hitems⟩ := decodeOrder_encode seq base items h3
  rw [decodeFrame_order (orderAccepted seq base items h1 h3), hseq, hbase, hcount, hitems]

end

end Sys2Proof
end

