-- ==== Sys2Proof/Proofs/Services.lean ====
section
/-! Every SERVICE frame is read as the command it was written for, and what every frame decodes to (O50). -/

namespace Sys2Proof

-- One proof after another: many at once would ask for more threads than the memory limit allows.
set_option Elab.async false

/-! ### Bodies of groups -/

/-- The header of a SERVICE frame: target, command number and tag. -/
def serviceHead (h : Service) (c : Nat) : List Bool := putField h.target ++ (putField (BitVec.ofNat 5 c) ++ putField h.tag)

@[simp] theorem serviceHead_length (h : Service) (c : Nat) : (serviceHead h c).length = 16 := by simp [serviceHead]

theorem encodeService_eq (h : Service) (c : Nat) (body : List Bool) : encodeService h c body = serviceHead h c ++ body := by
  simp only [encodeService, serviceHead, List.append_assoc]

@[simp] theorem putByte_length (n : Nat) : (putByte n).length = 8 := putField_length _

/-- A pair of a NODE_SET. -/
def encodePair (x : BitVec 8 × BitVec 24) : List Bool := putField x.1 ++ putField x.2

theorem encodePair_length (x : BitVec 8 × BitVec 24) : (encodePair x).length = 32 := by simp [encodePair]

theorem encodeEvent_length (e : LoadEvent) : (encodeEvent e).length = 32 := by simp [encodeEvent]

theorem readPairs_encode (a : List Bool) (ha : a.length = 16) (pairs : List (BitVec 8 × BitVec 24)) (h : pairs.length ≤ 3) :
    readPairs (a ++ pairs.flatMap encodePair) = pairs := by
  have hcount : min 3 (((a ++ pairs.flatMap encodePair).length / 8 - 2) / 4) = pairs.length := by
    rw [List.length_append, ha, groups_length encodePair_length]
    omega
  rw [readPairs, hcount]
  refine List.ext_getElem (by simp) fun j h1 h2 => ?_
  obtain ⟨pre, post, hpre, hpairs⟩ := groups_split encodePair_length pairs h2
  have hread {w : Nat} {lo : Nat} (hlo : 16 + 32 * j ≤ lo) : readField w (a ++ pairs.flatMap encodePair) lo =
      readField w (encodePair pairs[j] ++ post) (lo - (16 + 32 * j)) := by
    rw [hpairs, readField_behind (by omega), readField_behind (by omega), ha, hpre, Nat.sub_sub]
  rw [List.getElem_map, List.getElem_range, hread le_rfl, hread (by omega), Nat.sub_self,
    show 24 + 32 * j - (16 + 32 * j) = 8 by omega]
  simp [encodePair]

theorem readEvents_encode (a : List Bool) (ha : a.length = 40) (events : List LoadEvent) (h : events.length ≤ 2) :
    readEvents (a ++ events.flatMap encodeEvent) = events := by
  have hcount : min 2 (((a ++ events.flatMap encodeEvent).length / 8 - 5) / 4) = events.length := by
    rw [List.length_append, ha, groups_length encodeEvent_length]
    omega
  rw [readEvents, hcount]
  refine List.ext_getElem (by simp) fun j h1 h2 => ?_
  obtain ⟨pre, post, hpre, hevents⟩ := groups_split encodeEvent_length events h2
  have hread {w : Nat} {lo : Nat} (hlo : 40 + 32 * j ≤ lo) : readField w (a ++ events.flatMap encodeEvent) lo =
      readField w (encodeEvent events[j] ++ post) (lo - (40 + 32 * j)) := by
    rw [hevents, readField_behind (by omega), readField_behind (by omega), ha, hpre, Nat.sub_sub]
  rw [List.getElem_map, List.getElem_range, hread le_rfl, hread (by omega), hread (by omega), hread (by omega), Nat.sub_self,
    show 48 + 32 * j - (40 + 32 * j) = 8 by omega, show 56 + 32 * j - (40 + 32 * j) = 16 by omega,
    show 64 + 32 * j - (40 + 32 * j) = 24 by omega]
  simp [encodeEvent]

theorem readWidths_encode {n : Nat} (a : List Bool) (ha : a.length = 24) (ws : Vector (BitVec 8) n) :
    (Vector.ofFn fun i : Fin n => readField 8 (a ++ ws.toList.flatMap putField) (24 + 8 * i.val)) = ws := by
  refine Vector.ext fun i hi => ?_
  rw [Vector.getElem_ofFn]
  have hread := readField_fields a ws.toList (i := i) (by simpa using hi)
  rw [ha] at hread
  simpa using hread

/-! ### The bodies of all commands -/

/-- A service body is whole bytes that fit, and its frame is read as the command. -/
structure ReadsBack (i : Instr) (h : Service) (c : Nat) (body : List Bool) : Prop where
  number : c < 32
  bytes : body.length % 8 = 0
  fits : body.length ≤ 112
  known : commandKnown (BitVec.ofNat 5 c) (encodeService h c body) = true
  decoded : decodeKnown h (BitVec.ofNat 5 c) (encodeService h c body) = i

section
variable {h : Service}

theorem nodeSet_readsBack (pairs : List (BitVec 8 × BitVec 24)) (h1 : 1 ≤ pairs.length) (h3 : pairs.length ≤ 3) :
    ReadsBack (.nodeSet h pairs) h 10 (pairs.flatMap encodePair) := by
  have hlength := groups_length encodePair_length pairs
  refine ⟨by decide, by omega, by omega, ?_, ?_⟩ <;> rw [encodeService_eq]
  · refine decide_eq_true ?_
    rw [List.length_append, serviceHead_length, hlength]
    omega
  · exact congrArg _ (readPairs_encode _ (serviceHead_length h 10) pairs h3)

theorem loadData_readsBack (n : BitVec 8) (i : BitVec 16) (events : List LoadEvent) (h1 : 1 ≤ events.length)
    (h2 : events.length ≤ 2) :
    ReadsBack (.loadData h n i events) h 13 (putField n ++ (putField i ++ events.flatMap encodeEvent)) := by
  have hlength : (putField n ++ (putField i ++ events.flatMap encodeEvent)).length = 24 + 32 * events.length := by
    simp only [List.length_append, putField_length, groups_length encodeEvent_length]
    omega
  refine ⟨by decide, by omega, by omega, ?_, ?_⟩
  · refine decide_eq_true ?_
    rw [encodeService_eq, List.length_append, serviceHead_length, hlength]
    omega
  · have hevents : readEvents (encodeService h 13 (putField n ++ (putField i ++ events.flatMap encodeEvent))) = events := by
      have hsplit : encodeService h 13 (putField n ++ (putField i ++ events.flatMap encodeEvent)) =
          (serviceHead h 13 ++ (putField n ++ putField i)) ++ events.flatMap encodeEvent := by
        simp only [encodeService_eq, List.append_assoc]
      rw [hsplit]
      exact readEvents_encode _ (by simp) events h2
    have hknown (p : Payload) : decodeKnown h 13#5 p = .loadData h (readField 8 p 16) (readField 16 p 24) (readEvents p) := rfl
    rw [hknown, hevents]
    simp [encodeService]

/-- The head of a VOICE_SET frame: its channel and its part. -/
def voiceHead (h : Service) (k : Fin 8) (part : BitVec 2) : List Bool :=
  serviceHead h 6 ++ (putField (BitVec.ofNat 3 k.val) ++ (putField part ++ fill 3))

theorem voiceHead_length (h : Service) (k : Fin 8) (part : BitVec 2) : (voiceHead h k part).length = 24 := by simp [voiceHead]

theorem voiceBody_eq (h : Service) (k : Fin 8) (part : BitVec 2) (rest : List Bool) : encodeService h 6
    (putField (BitVec.ofNat 3 k.val) ++ (putField part ++ (fill 3 ++ rest))) = voiceHead h k part ++ rest := by
  simp only [voiceHead, encodeService_eq, List.append_assoc]

theorem voiceHead_read (h : Service) (k : Fin 8) (part : BitVec 2) (rest : List Bool) :
    Fin.ofNat 8 (readField 3 (voiceHead h k part ++ rest) 16).toNat = k ∧ readField 2 (voiceHead h k part ++ rest) 19 = part := by
  simp [voiceHead, serviceHead]

theorem voiceLow_readsBack (k : Fin 8) (ws : Vector (BitVec 8) 8) : ReadsBack (.voiceSetPulseLow h k ws) h 6
    (putField (BitVec.ofNat 3 k.val) ++ (putField 0#2 ++ (fill 3 ++ ws.toList.flatMap putField))) := by
  obtain ⟨hchannel, hpart⟩ := voiceHead_read h k 0#2 (ws.toList.flatMap putField)
  refine ⟨by decide, by simp, by simp, ?_, ?_⟩ <;> rw [voiceBody_eq]
  · simp [commandKnown, bodyNeeded, hpart, voiceHead_length]
  · have hdecode (p : Payload) : decodeKnown h 6#5 p = decodeVoice h p := rfl
    rw [hdecode, decodeVoice, hpart, hchannel]
    exact congrArg _ (readWidths_encode _ (voiceHead_length h k 0#2) ws)

theorem voiceHigh_readsBack (k : Fin 8) (ws : Vector (BitVec 8) 7) : ReadsBack (.voiceSetPulseHigh h k ws) h 6
    (putField (BitVec.ofNat 3 k.val) ++ (putField 1#2 ++ (fill 3 ++ ws.toList.flatMap putField))) := by
  obtain ⟨hchannel, hpart⟩ := voiceHead_read h k 1#2 (ws.toList.flatMap putField)
  refine ⟨by decide, by simp, by simp, ?_, ?_⟩ <;> rw [voiceBody_eq]
  · simp [commandKnown, bodyNeeded, hpart, voiceHead_length]
  · have hdecode (p : Payload) : decodeKnown h 6#5 p = decodeVoice h p := rfl
    rw [hdecode, decodeVoice, hpart, hchannel]
    exact congrArg _ (readWidths_encode _ (voiceHead_length h k 1#2) ws)

/-- Every service body is read back: the bodies of groups by their lemmas, the others field by field. -/
theorem serviceBody_readsBack {i : Instr} {c : Nat} {body : List Bool} (hw : i.contentWellFormed = true)
    (hi : serviceBody i = some (h, c, body)) : ReadsBack i h c body := by
  cases i
  case nodeSet =>
    cases hi
    obtain ⟨h1, h3⟩ := of_decide_eq_true hw
    exact nodeSet_readsBack _ h1 h3
  case loadData =>
    cases hi
    obtain ⟨h1, h2⟩ := of_decide_eq_true hw
    exact loadData_readsBack _ _ _ h1 h2
  case voiceSetPulseLow =>
    cases hi
    exact voiceLow_readsBack _ _
  case voiceSetPulseHigh =>
    cases hi
    exact voiceHigh_readsBack _ _
  all_goals cases hi
  all_goals exact ⟨by decide, by simp, by simp, by simp [commandKnown, bodyNeeded, encodeService, putByte],
    by simp [decodeKnown, decodeChannel, decodeVoice, decodeStop, encodeService, putByte]⟩

theorem ReadsBack.decodes {i : Instr} {c : Nat} {body : List Bool} (hb : ReadsBack i h c body) :
    decodeFrame h.heard.stamp (FrameKind.ident .service h.heard.sender) (encodeService h c body) = .command i := by
  have hlength : (encodeService h c body).length = 16 + body.length := by
    rw [encodeService_eq, List.length_append, serviceHead_length]
  have hbytes := hb.bytes
  have hfits := hb.fits
  have haccepted : lengthAccepted .service (encodeService h c body) = true := by
    rw [lengthAccepted, hlength, Bool.and_eq_true, beq_iff_eq, decide_eq_true_iff]
    omega
  have hheader : readField 5 (encodeService h c body) 0 = h.target ∧
      readField 5 (encodeService h c body) 5 = BitVec.ofNat 5 c ∧ readField 6 (encodeService h c body) 10 = h.tag := by
    simp [encodeService]
  obtain ⟨htarget, hcommand, htag⟩ := hheader
  rw [decodeFrame_service haccepted]
  simp only [decodeService, htarget, hcommand, htag, hb.known, if_true]
  exact congrArg _ hb.decoded

end

/-- What the frame of a command decodes to. -/
theorem decodeFrame_encodeFrame {i : Instr} {stamp : Stamp} {ident : BitVec 11} {p : Payload} (hw : i.contentWellFormed = true)
    (he : encodeFrame i = some (ident, p)) (hs : stampOf i = some stamp) : decodeFrame stamp ident p = .command i := by
  cases i
  case claim =>
    cases he
    cases hs
    exact claim_decodes _ _
  case floor =>
    cases he
    cases hs
    exact floor_decodes _ _
  case release =>
    cases he
    cases hs
    exact release_decodes _ _
  case presence =>
    cases he
    cases hs
    exact presence_decodes _
  case order =>
    cases he
    cases hs
    obtain ⟨h1, h3⟩ := of_decide_eq_true hw
    exact order_decodes _ _ _ h1 h3
  all_goals cases he
  all_goals cases hs
  all_goals exact (serviceBody_readsBack hw rfl).decodes

end Sys2Proof

namespace Sys2Proof.Machine

set_option Elab.async false

/-! ### Replies -/

@[simp] theorem putNat_length (w n : Nat) : (putNat w n).length = w := putField_length _

@[simp] theorem putOwner_length (o : Owner) : (putOwner o).length = 13 := by
  cases o <;> simp [putOwner]

theorem putRecord_length (r : StrikeRecord) : (putRecord r).length = 104 := by simp [putRecord]

theorem putStraps_length (x : Straps) : (putStraps x).length = 16 := by simp [putStraps]

/-- The body of a reply is whole bytes, 13 at most, when it carries three settings at most. -/
theorem putBody_fits (b : ReplyBody) (h : ∀ ps, b = .settings ps → ps.length ≤ 3) :
    (putBody b).length % 8 = 0 ∧ (putBody b).length ≤ 104 := by
  cases b with
  | none => exact ⟨rfl, Nat.zero_le _⟩
  | cue seq slot => simp [putBody]
  | stop held => simp [putBody]
  | channels m => simp [putBody]
  | settings pairs =>
    have hlength : (putBody (.settings pairs)).length = 32 * pairs.length := groups_length encodePair_length pairs
    have hle := h pairs rfl
    omega
  | mask m => simp [putBody]
  | free n => simp [putBody]
  | next n => simp [putBody]
  | checksum c => simp [putBody]
  | statusHead x k n => simp [putBody, putStraps_length]
  | statusPart fresh place image =>
    have hlength : (putBody (.statusPart fresh place image)).length = 8 * ((Config.statusBytes fresh place).take 13).length :=
      fields_length _
    have hle : ((Config.statusBytes fresh place).take 13).length ≤ 13 := List.length_take_le _ _
    omega
  | traceHead st tr post remaining held => simp [putBody]
  | traceRecord r => simp [putBody, putRecord_length]

theorem encodeReply_length (r : Reply) : (encodeReply r).length = 24 + (putBody r.body).length := by
  simp only [encodeReply, List.length_append, List.length_cons, putNat_length, putField_length, fill_length]
  omega

theorem replyAccepted (r : Reply) (h : ∀ ps, r.body = .settings ps → ps.length ≤ 3) :
    lengthAccepted .reply (encodeReply r) = true := by
  obtain ⟨hbytes, hfits⟩ := putBody_fits r.body h
  rw [lengthAccepted, encodeReply_length, Bool.and_eq_true, beq_iff_eq, decide_eq_true_iff]
  omega

/-- Settles O50. -/
theorem decodeEncodeAgree : Obligations.DecodeEncodeAgree := by
  refine ⟨fun i stamp ident p hw he hs => ?_, fun s stamp rx hrx => ?_⟩
  · exact decodeFrame_encodeFrame (Bool.and_eq_true_iff.mp hw).2 he hs
  · subst hrx
    exact ⟨claim_decodes, floor_decodes, release_decodes, fun b => presence_decodes (.node b), order_decodes,
      fun r h => decodeFrame_reply (replyAccepted r h)⟩

end Sys2Proof.Machine
end

