-- ==== Sys2Proof/Proofs/Cells.lean ====
section
/-! The cells of a frame: what a sender puts on the line is what a receiver reads (R85, R88). -/

namespace Sys2Proof.Machine

-- One proof after another: many at once would ask for more threads than the memory limit allows.
set_option Elab.async false

section
variable {ident : BitVec 11} {p : Payload} {body : List Bool} {n : Nat}

/-- The good frames: the length is one of R85, the cells are all there, and the CRC agrees. -/
def GoodCells (body : List Bool) : Prop :=
  (readField 5 body 11).toNat ≤ 16 ∧ 16 + 8 * (readField 5 body 11).toNat + 16 ≤ body.length ∧
  readField 16 body (16 + 8 * (readField 5 body 11).toNat) = crc (body.take (16 + 8 * (readField 5 body 11).toNat))

theorem receiveCells_good (h : GoodCells body) : receiveCells (false :: body) =
    some (readField 11 body 0, (body.drop 16).take (8 * (readField 5 body 11).toNat)) := if_pos h

theorem receiveCells_bad (h : ¬GoodCells body) : receiveCells (false :: body) = none := if_neg h

theorem payloadWellFormed_iff (p : Payload) : payloadWellFormed p = true ↔ p.length % 8 = 0 ∧ p.length ≤ 128 := by
  rw [payloadWellFormed, Bool.and_eq_true, beq_iff_eq, decide_eq_true_iff]

/-- Identifier and length, which stand in front of the payload. -/
def cellHead (ident : BitVec 11) (p : Payload) : List Bool := putField ident ++ putField (BitVec.ofNat 5 (p.length / 8))

theorem cellHead_length (ident : BitVec 11) (p : Payload) : (cellHead ident p).length = 16 := by simp [cellHead]

theorem checkedCells_eq (ident : BitVec 11) (p : Payload) : checkedCells ident p = cellHead ident p ++ p := by
  simp only [checkedCells, cellHead, List.append_assoc]

theorem checkedCells_length (ident : BitVec 11) (p : Payload) : (checkedCells ident p).length = 16 + p.length := by
  rw [checkedCells_eq, List.length_append, cellHead_length]

/-- The length read behind the identifier is that of the payload. -/
theorem cellHead_read (h : payloadWellFormed p = true) (rest : List Bool) :
    readField 11 (cellHead ident p ++ rest) 0 = ident ∧ 8 * (readField 5 (cellHead ident p ++ rest) 11).toNat = p.length := by
  obtain ⟨hbytes, hlength⟩ := (payloadWellFormed_iff p).mp h
  have hread : readField 11 (cellHead ident p ++ rest) 0 = ident ∧
      readField 5 (cellHead ident p ++ rest) 11 = BitVec.ofNat 5 (p.length / 8) := by
    simp [cellHead]
  rw [hread.2, BitVec.toNat_ofNat]
  exact ⟨hread.1, by omega⟩

/-- The cells behind the start cell, with any CRC. -/
def sentBody (ident : BitVec 11) (p : Payload) (c : BitVec 16) : List Bool := checkedCells ident p ++ (putField c ++ [true])

theorem sentBody_eq (ident : BitVec 11) (p : Payload) (c : BitVec 16) :
    sentBody ident p c = cellHead ident p ++ (p ++ (putField c ++ [true])) := by
  rw [sentBody, checkedCells_eq, List.append_assoc]

theorem sentBody_length (ident : BitVec 11) (p : Payload) (c : BitVec 16) : (sentBody ident p c).length = p.length + 33 := by
  simp only [sentBody, List.length_append, checkedCells_length, putField_length, List.length_singleton]
  omega

/-- What a receiver reads of a frame sent with some CRC. -/
theorem sentBody_read (h : payloadWellFormed p = true) (c : BitVec 16) : readField 11 (sentBody ident p c) 0 = ident ∧
    8 * (readField 5 (sentBody ident p c) 11).toNat = p.length ∧ ((sentBody ident p c).drop 16).take p.length = p ∧
    (sentBody ident p c).take (16 + p.length) = checkedCells ident p ∧ readField 16 (sentBody ident p c) (16 + p.length) = c := by
  obtain ⟨hident, hlength⟩ := cellHead_read (ident := ident) h (p ++ (putField c ++ [true]))
  refine ⟨sentBody_eq ident p c ▸ hident, sentBody_eq ident p c ▸ hlength, ?_, ?_, ?_⟩
  · rw [sentBody_eq, List.drop_left' (cellHead_length ident p), List.take_left]
  · exact List.take_left' (checkedCells_length ident p)
  · rw [sentBody, readField_behind (checkedCells_length ident p).le, checkedCells_length, Nat.sub_self, readField_put]

theorem sentBody_good (h : payloadWellFormed p = true) (c : BitVec 16) :
    GoodCells (sentBody ident p c) ↔ c = crc (checkedCells ident p) := by
  obtain ⟨-, hlength, -, htaken, hcrc⟩ := sentBody_read (ident := ident) h c
  obtain ⟨-, hle⟩ := (payloadWellFormed_iff p).mp h
  rw [GoodCells, hlength, htaken, hcrc, sentBody_length]
  exact ⟨fun hgood => hgood.2.2, fun hc => ⟨by omega, by omega, hc⟩⟩

theorem frameCells_eq (ident : BitVec 11) (p : Payload) :
    frameCells ident p = false :: sentBody ident p (crc (checkedCells ident p)) := rfl

/-- The cells of a frame read back as the frame. -/
theorem receiveCells_frameCells (h : payloadWellFormed p = true) : receiveCells (frameCells ident p) = some (ident, p) := by
  obtain ⟨hident, hlength, hpayload, -, -⟩ := sentBody_read (ident := ident) h (crc (checkedCells ident p))
  rw [frameCells_eq, receiveCells_good ((sentBody_good h _).mpr rfl), hident, hlength, hpayload]

/-- Cells that break off before the end of the CRC are no frame. -/
theorem receiveCells_take (h : payloadWellFormed p = true) (hn : n ≤ p.length + 32) :
    receiveCells ((frameCells ident p).take n) = none := by
  cases n with
  | zero => rfl
  | succ n =>
    rw [frameCells_eq, List.take_succ_cons]
    refine receiveCells_bad fun ⟨_, hcells, _⟩ => ?_
    rw [List.length_take, sentBody_length] at hcells
    obtain hshort | hlong := Nat.lt_or_ge n 16
    · omega
    rw [sentBody_eq, List.take_append, List.take_of_length_le (by rw [cellHead_length]; exact hlong)] at hcells
    have hlength := (cellHead_read (ident := ident) h ((p ++ (putField (crc (checkedCells ident p)) ++ [true])).take
      (n - (cellHead ident p).length))).2
    omega

theorem receiveCells_long (ident : BitVec 11) (k : BitVec 5) (rest : List Bool) (h : 17 ≤ k.toNat) :
    receiveCells (false :: (putField ident ++ (putField k ++ rest))) = none := by
  refine receiveCells_bad fun ⟨hle, _⟩ => ?_
  have hread : readField 5 (putField ident ++ (putField k ++ rest)) 11 = k := by simp
  rw [hread] at hle
  omega

/-- The frames the node sends are of whole bytes, 16 at most. -/
theorem payload_wellFormed (f : Frame) (hpacked : FramePacked f)
    (h : ∀ (r : Reply) (ps : List (BitVec 8 × BitVec 24)), f = .reply r → r.body = .settings ps → ps.length ≤ 3) :
    payloadWellFormed f.payload = true := by
  rw [payloadWellFormed_iff]
  cases f with
  | claim pr b => simp [Frame.payload, encodeFloorBody_length]
  | floor pr b => simp [Frame.payload, encodeFloorBody_length]
  | release seq r => simp [Frame.payload, encodeRelease_length]
  | presence b => simp [Frame.payload, encodeBeacon_node_length]
  | order seq base items =>
    obtain ⟨h1, h3⟩ := hpacked
    have hlength : (Frame.payload (.order seq base items)).length = _ := encodeOrder_length seq base items
    omega
  | reply r =>
    obtain ⟨hbytes, hfits⟩ := putBody_fits r.body fun ps hps => h r ps rfl hps
    have hlength : (Frame.payload (.reply r)).length = _ := encodeReply_length r
    omega

end

/-- Settles O51. -/
theorem frameCellsReadBack : Obligations.FrameCellsReadBack := by
  refine ⟨fun ident p => receiveCells_frameCells, fun ident p c h hc => receiveCells_bad ?_,
    fun ident p n => receiveCells_take, receiveCells_long, fun s f hpacked h => ?_⟩
  · exact fun hgood => hc ((sentBody_good h c).mp hgood)
  · have hwell := payload_wellFormed f hpacked h
    exact ⟨hwell, receiveCells_frameCells hwell⟩

end Sys2Proof.Machine
end

