-- ==== Sys2Proof/Proofs/QueueStep.lean ====
section
/-! The strike queue meets a step of tower time: which entries leave it, which are held, and which wait (R61). -/

namespace Sys2Proof.Machine

-- One proof after another: many at once would ask for more threads than the memory limit allows.
set_option Elab.async false

section
variable {s t u : State} {e x y : Entry} {j k : Fin 8} {o : StrikeOutcome} {rest : List Entry}

/-! ### The strokes and dampers after a removal and after a launch event -/

theorem idleDrop_other (hj : j ≠ k) (s : State) : (idleDrop k s).channels[j] = s.channels[j] := by
  rw [idleDrop_eq]
  split
  · have h : (drainCheck (idleDown k s)).channels[j] = (idleDown k s).channels[j] :=
      congrArg (fun v : Vector Channel 8 => v[j]) (drainCheck_channels _)
    rw [h, idleDown_channel, decide_eq_false hj]
    simp
  · rfl

/-- The state in which a removal tests the idle drop. -/
theorem afterRemoval_channels (e : Entry) (s : State) : ∃ r, r.channels = s.channels ∧
    (afterRemoval e s).channels = (idleDrop e.channel r).channels := by
  refine ⟨if (fadingOf s e).isSome then checkFading s else s, ?_, fadeOut_unchanged _ .channels (by decide)⟩
  split
  · exact checkFading_unchanged s .channels (by decide)
  · rfl

theorem afterRemoval_other (hj : j ≠ e.channel) (s : State) : (afterRemoval e s).channels[j] = s.channels[j] := by
  obtain ⟨r, hr, h⟩ := afterRemoval_channels e s
  rw [h, idleDrop_other hj, hr]

theorem afterRemoval_channel (e : Entry) (s : State) (j : Fin 8) : (afterRemoval e s).channels[j] =
    { s.channels[j] with damperUp := (afterRemoval e s).channels[j].damperUp } := by
  obtain ⟨r, hr, h⟩ := afterRemoval_channels e s
  rw [h, ← hr]
  exact idleDrop_channel e.channel r j

/-- The state that a removal without a launch event closes. -/
theorem removeEntry_before (o : StrikeOutcome) (e : Entry) (s : State) : ∃ r, r.channels = s.channels ∧
    removeEntry o e s = afterRemoval e r := by
  refine ⟨_, ?_, rfl⟩
  have hu : Unchanged [.queue, .trace, .counters] s
      (raise (outcomeCounter o) (writeRecord (unfiredRecord s e o) (dequeue e s))) :=
    ((dequeue_unchanged e s).widen.andThen (writeRecord_unchanged _ _)).andThen (raise_unchanged _ _)
  exact hu .channels (by decide)

theorem removeEntry_other (o : StrikeOutcome) (hj : j ≠ e.channel) (s : State) :
    (removeEntry o e s).channels[j] = s.channels[j] := by
  obtain ⟨r, hr, h⟩ := removeEntry_before o e s
  rw [h, afterRemoval_other hj, hr]

theorem removeEntry_channel (o : StrikeOutcome) (e : Entry) (s : State) (j : Fin 8) : (removeEntry o e s).channels[j] =
    { s.channels[j] with damperUp := (removeEntry o e s).channels[j].damperUp } := by
  obtain ⟨r, hr, h⟩ := removeEntry_before o e s
  rw [h, ← hr]
  exact afterRemoval_channel e r j

theorem closeLaunch_other (x : Entry) (o : StrikeOutcome) (hj : j ≠ x.channel) (w : State) :
    (closeLaunch x o w).channels[j] = w.channels[j] := by
  have hchannels : (counted x o w).channels = w.channels := counted_unchanged x o w .channels (by decide)
  have h : (closeLaunch x o w).channels[j] = (counted x o w).channels[j] := afterRemoval_other hj (counted x o w)
  rw [h, hchannels]

/-- A launch event touches no other channel; on its own the stroke is as it was, or the hammer flies. -/
theorem launchEntry_stroke (e : Entry) (s : State) (j : Fin 8) :
    (j ≠ e.channel → (launchEntry e s).channels[j] = s.channels[j]) ∧
    (((launchEntry e s).channels[j].hammer = s.channels[j].hammer ∧
      (launchEntry e s).channels[j].lastFired = s.channels[j].lastFired) ∨
      (launchEntry e s).channels[j].hammer ≠ .rest) := by
  have hkept := (servedEntry_kept s e).1
  cases hserve : serve s (servedEntry s e) with
  | unfired o =>
    rw [launchEntry_unfired hserve]
    have hw : (writeRecord (unfiredRecord s (servedEntry s e) o) (dequeue e s)).channels = s.channels :=
      (writeRecord_unchanged _ _ .channels (by decide)).trans (dequeue_unchanged e s .channels (by decide))
    generalize writeRecord (unfiredRecord s (servedEntry s e) o) (dequeue e s) = w at hw
    refine ⟨fun hj => ?_, .inl ?_⟩
    · rw [closeLaunch_other _ _ (hkept ▸ hj), hw]
    · rw [closeLaunch_channel, hw]
      exact ⟨rfl, rfl⟩
  | fired v o =>
    rw [launchEntry_fired hserve]
    have hw : (writeRecord (firedRecord s (servedEntry s e) v o) (fireEntry (servedEntry s e) v (dequeue e s))).channels =
        (fireEntry (servedEntry s e) v (dequeue e s)).channels := writeRecord_unchanged _ _ .channels (by decide)
    generalize writeRecord (firedRecord s (servedEntry s e) v o) (fireEntry (servedEntry s e) v (dequeue e s)) = w at hw
    refine ⟨fun hj => ?_, ?_⟩
    · rw [closeLaunch_other _ _ (hkept ▸ hj), hw, fireEntry_channel, if_neg (hkept ▸ hj)]
      rfl
    · rw [closeLaunch_channel, hw, fireEntry_channel]
      split
      · exact .inr nofun
      · exact .inl ⟨rfl, rfl⟩

/-! ### What keeps a channel clear -/

theorem isClear_of_stroke (htower : t.time.tower = s.time.tower) (hhammer : t.channels[k].hammer = s.channels[k].hammer)
    (hfired : t.channels[k].lastFired = s.channels[k].lastFired) : isClear t k = isClear s k := by
  rw [isClear, isClear, Channel.atRest, Channel.atRest, htower, hhammer, hfired]

theorem channelState_of_flags (hstraps : t.straps = s.straps) (hhalted : t.halted = s.halted)
    (hconflict : t.channels[k].conflict = s.channels[k].conflict) : channelState t k = channelState s k := by
  rw [channelState, channelState, isPresent_congr hstraps, hhalted, hconflict]

theorem passedBy_congr (htower : t.time.tower = s.time.tower) (hsettings : t.settings = s.settings) (e : Entry) :
    passedBy t e = passedBy s e := by
  rw [passedBy, passedBy, pastLimit, pastLimit, htower, hsettings]

end

/-! ### Distances on the circle of the week (R64) -/

theorem minus_lt (a b : Nat) : minus a b < 2419200000 := Nat.mod_lt _ (by decide)

theorem dist_cases (a b : Nat) : (minus a b ≤ 1209600000 ∧ dist a b = minus a b) ∨
    (1209600000 < minus a b ∧ dist a b = (minus a b : Int) - 2419200000) := by
  obtain h | h := le_or_gt (minus a b) 1209600000
  · exact .inl ⟨h, if_pos h⟩
  · exact .inr ⟨h, if_neg (not_le.mpr h)⟩

theorem minus_swap (a b : Nat) : (minus a b = 0 ∧ minus b a = 0) ∨ (0 < minus a b ∧ minus b a = 2419200000 - minus a b) := by
  simp only [minus, Config.week]
  omega

/-- The way from b to a by way of c is the same, or once round the week longer. -/
theorem minus_by_way (a b c : Nat) : minus a c + minus c b = minus a b ∨ minus a c + minus c b = minus a b + 2419200000 := by
  simp only [minus, Config.week]
  omega

theorem dist_of_atOrBefore {a b : Nat} (h : atOrBefore a b = true) : dist b a = -dist a b := by
  have hle : dist a b ≤ 0 := of_decide_eq_true h
  have hlt := minus_lt a b
  obtain hs | hs := minus_swap a b <;> obtain h1 | h1 := dist_cases a b <;> obtain h2 | h2 := dist_cases b a <;> omega

section
variable {s t u : State} {e x y : Entry} {j k : Fin 8} {o : StrikeOutcome} {rest : List Entry}

/-! ### What a step makes of one entry -/

theorem launchReached_of_atOrBefore (h : atOrBefore e.launch s.time.tower = true) : reached s.time.tower e.launch = true := by
  have hle : dist e.launch s.time.tower ≤ 0 := of_decide_eq_true h
  exact decide_eq_true (by rw [dist_of_atOrBefore h]; omega)

theorem pastLimit_of_middle (h : atOrBefore e.launch s.time.tower = true) (hnot : passedBy s e = false) :
    ¬(s.settings.lateLimit : Int) < dist s.time.tower e.launch := by
  intro hpast
  rw [dist_of_atOrBefore h] at hpast
  have hbefore : isBefore e.launch s.time.tower = true := decide_eq_true (by omega)
  have hpassed : passedBy s e = true :=
    Bool.and_eq_true_iff.mpr ⟨hbefore, decide_eq_true (by rw [dist_of_atOrBefore h]; exact hpast)⟩
  rw [hnot] at hpassed
  cases hpassed

theorem atOrBefore_of_passed (h : passedBy s e = true) : atOrBefore e.launch s.time.tower = true := by
  have hbefore : dist e.launch s.time.tower < 0 := of_decide_eq_true (Bool.and_eq_true_iff.mp h).1
  exact decide_eq_true hbefore.le

theorem passedBy_iff (s : State) (e : Entry) : passedBy s e = true ↔
    isBefore e.launch s.time.tower = true ∧ s.settings.lateLimit < dist s.time.tower e.launch := by
  rw [passedBy, Bool.and_eq_true, pastLimit, decide_eq_true_iff]

/-- What a step makes of an entry (R61). -/
inductive StepFate (e : Entry) (s : State) : State → Prop
  | gone (h : e ∉ s.queue) : StepFate e s s
  | passed (h : e ∈ s.queue) (hpassed : passedBy s e = true) : StepFate e s (removeEntry .silenced e s)
  | launched (h : e ∈ s.queue) (hnot : passedBy s e = false) (hat : atOrBefore e.launch s.time.tower = true)
      (hfree : channelState s e.channel = .run → isClear s e.channel = true) : StepFate e s (launchEntry e s)
  | held (h : e ∈ s.queue) (hnot : passedBy s e = false) (hat : atOrBefore e.launch s.time.tower = true)
      (hrun : channelState s e.channel = .run) (hbusy : isClear s e.channel = false) : StepFate e s (holdEntry e s)
  | released (h : e ∈ s.queue) (hafter : atOrBefore e.launch s.time.tower = false) : StepFate e s (releaseEntry e s)

theorem stepEntry_fate (e : Entry) (s : State) : StepFate e s (stepEntry e s) := by
  unfold stepEntry
  split
  case isFalse h => exact .gone h
  case isTrue h =>
    cases hpassed : passedBy s e with
    | true => exact .passed h hpassed
    | false =>
      rw [if_neg Bool.false_ne_true]
      cases hat : atOrBefore e.launch s.time.tower with
      | false => exact .released h hat
      | true =>
        rw [if_pos rfl]
        have hdue := launchDue_iff s e
        split
        next hl =>
          obtain ⟨-, hclear | hstate | hpast⟩ := hdue.mp hl
          · exact .launched h hpassed hat fun _ => hclear
          · exact .launched h hpassed hat fun hrun => absurd hrun hstate
          · exact absurd hpast (pastLimit_of_middle hat hpassed)
        next hl =>
          have hno := fun hor => hl (hdue.mpr ⟨launchReached_of_atOrBefore hat, hor⟩)
          refine .held h hpassed hat ?_ (Bool.eq_false_iff.mpr fun hclear => hno (.inl hclear))
          by_contra hstate
          exact hno (.inr (.inl hstate))

/-! ### What it leaves as it was -/

theorem StepFate.unchanged (h : StepFate e s t) : Unchanged removal s t := by
  cases h with
  | gone => exact .refl _ _
  | passed => exact removeEntry_unchanged _ _ _
  | launched => exact launchEntry_unchanged _ _
  | held => exact (holdEntry_unchanged _ _).widen
  | released => exact (releaseEntry_unchanged _ _).widen

theorem StepFate.time (h : StepFate e s t) : t.time = s.time := h.unchanged .time (by decide)

theorem StepFate.tower (h : StepFate e s t) : t.time.tower = s.time.tower := by rw [h.time]

theorem StepFate.passedBy_eq (h : StepFate e s t) (x : Entry) : passedBy t x = passedBy s x :=
  passedBy_congr h.tower (h.unchanged .settings (by decide)) x

theorem StepFate.conflict (h : StepFate e s t) (k : Fin 8) : t.channels[k].conflict = s.channels[k].conflict := by
  cases h with
  | gone => rfl
  | passed => rw [removeEntry_channel]
  | launched => exact (Moves.one (.launch e s)).detail .conflict rfl k
  | held => rfl
  | released => rfl

theorem StepFate.channelState_eq (h : StepFate e s t) (k : Fin 8) : channelState t k = channelState s k :=
  channelState_of_flags (h.unchanged .straps (by decide)) (h.unchanged .halted (by decide)) (h.conflict k)

/-- A channel touched by no launch keeps its stroke, and one touched by no removal its whole record. -/
theorem StepFate.stroke (h : StepFate e s t) (k : Fin 8) : (t.channels[k].hammer = s.channels[k].hammer ∧
    t.channels[k].lastFired = s.channels[k].lastFired) ∨ (t.channels[k].hammer ≠ .rest ∧ e.channel = k ∧
      passedBy s e = false ∧ atOrBefore e.launch s.time.tower = true) := by
  cases h with
  | gone => exact .inl ⟨rfl, rfl⟩
  | passed => rw [removeEntry_channel]; exact .inl ⟨rfl, rfl⟩
  | launched _ hnot hat =>
    by_cases hk : k = e.channel
    · exact (launchEntry_stroke e s k).2.imp_right fun hmoves => ⟨hmoves, hk.symm, hnot, hat⟩
    · rw [(launchEntry_stroke e s k).1 hk]
      exact .inl ⟨rfl, rfl⟩
  | held => exact .inl ⟨rfl, rfl⟩
  | released => exact .inl ⟨rfl, rfl⟩

theorem StepFate.channel (h : StepFate e s t) (hk : e.channel = k → atOrBefore e.launch s.time.tower = false) :
    t.channels[k] = s.channels[k] := by
  cases h with
  | gone => rfl
  | passed _ hpassed =>
    refine removeEntry_other _ (fun heq => ?_) s
    exact absurd ((atOrBefore_of_passed hpassed).symm.trans (hk heq.symm)) (by decide)
  | launched _ _ hat =>
    refine (launchEntry_stroke e s k).1 fun heq => ?_
    exact absurd (hat.symm.trans (hk heq.symm)) (by decide)
  | held => rfl
  | released => rfl

/-- A channel that is not clear does not become clear. -/
theorem StepFate.busy (h : StepFate e s t) (hbusy : isClear s k = false) : isClear t k = false := by
  obtain ⟨hhammer, hfired⟩ | ⟨hmoves, -⟩ := h.stroke k
  · rw [isClear_of_stroke h.tower hhammer hfired, hbusy]
  · exact Bool.eq_false_iff.mpr fun hclear => hmoves ((isClear_iff t k).mp hclear).1

/-- A channel of which the entry is passed, or waits, stays as clear as it was. -/
theorem StepFate.clear (h : StepFate e s t) (hk : e.channel = k → passedBy s e = true ∨
    atOrBefore e.launch s.time.tower = false) : isClear t k = isClear s k := by
  obtain ⟨hhammer, hfired⟩ | ⟨-, heq, hnot, hat⟩ := h.stroke k
  · exact isClear_of_stroke h.tower hhammer hfired
  · obtain hpassed | hafter := hk heq
    · exact absurd (hpassed.symm.trans hnot) (by decide)
    · exact absurd (hat.symm.trans hafter) (by decide)

/-! ### The queue after one entry met the step -/

/-- An entry with its held mark as it is given. -/
def markedAs (b : Bool) (e : Entry) : Entry := { e with held := b }

/-- A mark put on, or taken from, the copies of one entry. -/
def markCopies (b : Bool) (e : Entry) (l : List Entry) : List Entry := l.map fun x => if x = e then markedAs b x else x

theorem holdEntry_marks (e : Entry) (s : State) : (holdEntry e s).queue = markCopies true e s.queue := rfl

theorem releaseEntry_marks (e : Entry) (s : State) : (releaseEntry e s).queue = markCopies false e s.queue := rfl

theorem mem_markCopies_self {b : Bool} {l : List Entry} (h : e ∈ l) : markedAs b e ∈ markCopies b e l :=
  List.mem_map.mpr ⟨e, h, if_pos rfl⟩

theorem mem_markCopies_of_ne {b : Bool} {l : List Entry} (h : y ∈ l) (hy : y ≠ e) : y ∈ markCopies b e l :=
  List.mem_map.mpr ⟨y, h, if_neg hy⟩

theorem mem_of_markCopies {b : Bool} {l : List Entry} (h : y ∈ markCopies b e l) : y ∈ l ∨ (e ∈ l ∧ y = markedAs b e) := by
  obtain ⟨x, hx, rfl⟩ := List.mem_map.mp h
  split
  next heq => exact .inr ⟨heq ▸ hx, by rw [heq]⟩
  · exact .inl hx

theorem count_markCopies {b : Bool} (hy : y ≠ markedAs b e) (l : List Entry) : (markCopies b e l).count y ≤ l.count y := by
  induction l with
  | nil => exact le_rfl
  | cons x l ih =>
    rw [markCopies, List.map_cons, List.count_cons, List.count_cons]
    refine Nat.add_le_add ih ?_
    split
    next heq =>
      rw [heq, if_neg (by simpa using fun h : markedAs b e = y => hy h.symm)]
      exact Nat.zero_le _
    · exact le_rfl

theorem count_markCopies_self {b : Bool} (he : e ≠ markedAs b e) (l : List Entry) : (markCopies b e l).count e = 0 := by
  refine List.count_eq_zero.mpr fun h => ?_
  obtain ⟨x, -, hx⟩ := List.mem_map.mp h
  split at hx
  next heq => exact he (heq ▸ hx.symm)
  next hne => exact hne hx

/-- The queue after an entry met the step. -/
theorem StepFate.queue (h : StepFate e s t) : (e ∉ s.queue ∧ t = s) ∨
    (t.queue = s.queue.erase e ∧ atOrBefore e.launch s.time.tower = true ∧ (passedBy s e = true ∨
      (channelState s e.channel = .run → isClear s e.channel = true))) ∨
    (t.queue = markCopies (atOrBefore e.launch s.time.tower) e s.queue ∧ passedBy s e = false ∧
      (atOrBefore e.launch s.time.tower = true →
        channelState s e.channel = .run ∧ isClear s e.channel = false)) := by
  cases h with
  | gone h => exact .inl ⟨h, rfl⟩
  | passed _ hpassed => exact .inr (.inl ⟨removeEntry_queue _ _ _, atOrBefore_of_passed hpassed, .inl hpassed⟩)
  | launched _ _ hat hfree => exact .inr (.inl ⟨launchEntry_queue _ _, hat, .inr hfree⟩)
  | held _ hnot hat hrun hbusy => exact .inr (.inr ⟨by rw [hat]; rfl, hnot, fun _ => ⟨hrun, hbusy⟩⟩)
  | released _ hafter =>
    refine .inr (.inr ⟨by rw [hafter]; rfl, Bool.eq_false_iff.mpr fun hpassed => ?_, fun hat => ?_⟩)
    · exact absurd ((atOrBefore_of_passed hpassed).symm.trans hafter) (by decide)
    · exact absurd (hat.symm.trans hafter) (by decide)

/-! ### An entry that stays (R50, R61) -/

/-- An entry stays: it waits, or it is at its time and its channel is RUN and not clear. -/
def Stays (s : State) (e : Entry) : Prop :=
  passedBy s e = false ∧ (atOrBefore e.launch s.time.tower = true → channelState s e.channel = .run ∧ isClear s e.channel = false)

/-- An entry as a step leaves it in the queue. -/
def stepMark (s : State) (e : Entry) : Entry := markedAs (atOrBefore e.launch s.time.tower) e

theorem StepFate.stays (h : StepFate e s t) (hx : Stays s x) : Stays t x := by
  obtain ⟨hnot, hheld⟩ := hx
  refine ⟨(h.passedBy_eq x).trans hnot, fun hat => ?_⟩
  rw [h.tower] at hat
  exact ⟨(h.channelState_eq _).trans (hheld hat).1, h.busy (hheld hat).2⟩

theorem StepFate.mark (h : StepFate e s t) (x : Entry) : stepMark t x = stepMark s x := by
  rw [stepMark, stepMark, h.tower]

/-- The queue that is left agrees with what the step has met: an entry with more copies than are still to come has met the
step and stays, marked. -/
def Bounded (s : State) (rest : List Entry) : Prop :=
  ∀ y, s.queue.count y ≤ rest.count y ∨ (Stays s y ∧ y.held = atOrBefore y.launch s.time.tower)

theorem StepFate.bounded (h : StepFate e s t) (hs : Bounded s (e :: rest)) : Bounded t rest := by
  intro y
  obtain hle | ⟨hy, hmark⟩ := hs y
  swap
  · exact .inr ⟨h.stays hy, by rw [h.tower]; exact hmark⟩
  rw [List.count_cons] at hle
  obtain ⟨hgone, rfl⟩ | ⟨hqueue, -⟩ | ⟨hqueue, hnot, hheld⟩ := h.queue
  · by_cases hye : e = y
    · subst hye
      exact .inl (by rw [List.count_eq_zero.mpr hgone]; exact Nat.zero_le _)
    · exact .inl (by simpa [hye] using hle)
  · left
    rw [hqueue, List.count_erase]
    by_cases hye : e = y <;> simp [hye] at hle ⊢ <;> omega
  · by_cases hyt : y = stepMark s e
    · right
      rw [hyt]
      exact ⟨h.stays ⟨hnot, hheld⟩, by rw [h.tower]; rfl⟩
    left
    rw [hqueue]
    by_cases hye : e = y
    · subst hye
      rw [count_markCopies_self hyt]
      exact Nat.zero_le _
    · exact (count_markCopies hyt _).trans (by simpa [hye] using hle)

/-- An entry of the queue, but for its mark. -/
def CopyOf (l : List Entry) (y : Entry) : Prop := ∃ e ∈ l, y = markedAs y.held e

theorem StepFate.copies {l : List Entry} (h : StepFate e s t) (hs : ∀ y ∈ s.queue, CopyOf l y) : ∀ y ∈ t.queue, CopyOf l y := by
  intro y hy
  obtain ⟨-, rfl⟩ | ⟨hqueue, -⟩ | ⟨hqueue, -⟩ := h.queue
  · exact hs y hy
  · exact hs y (List.mem_of_mem_erase (hqueue ▸ hy))
  · obtain hy | ⟨he, rfl⟩ := mem_of_markCopies (hqueue ▸ hy)
    · exact hs y hy
    · obtain ⟨x, hx, hex⟩ := hs e he
      exact ⟨x, hx, by rw [hex]; rfl⟩

/-- An entry that stays is still to come, or stands in the queue with its mark. -/
def Present (s : State) (rest : List Entry) (x : Entry) : Prop :=
  Stays s x ∧ ((x ∈ rest ∧ x ∈ s.queue) ∨ stepMark s x ∈ s.queue)

theorem StepFate.present (h : StepFate e s t) (hs : Present s (e :: rest) x) : Present t rest x := by
  obtain ⟨hx, hqueued⟩ := hs
  refine ⟨h.stays hx, ?_⟩
  rw [h.mark]
  obtain ⟨hgone, rfl⟩ | ⟨hqueue, hat, hout⟩ | ⟨hqueue, -, -⟩ := h.queue
  · obtain ⟨hrest, hmem⟩ | hmem := hqueued
    · exact .inl ⟨(List.mem_cons.mp hrest).resolve_left fun heq => hgone (heq ▸ hmem), hmem⟩
    · exact .inr hmem
  · have hother (b : Bool) : markedAs b x ≠ e := by
      intro heq
      have hpassed : passedBy s e = false := heq ▸ hx.1
      have hbusy : channelState s e.channel = .run ∧ isClear s e.channel = false := by
        subst heq
        exact hx.2 hat
      obtain hout | hfree := hout
      · exact absurd (hout.symm.trans hpassed) (by decide)
      · exact absurd ((hfree hbusy.1).symm.trans hbusy.2) (by decide)
    rw [hqueue]
    obtain ⟨hrest, hmem⟩ | hmem := hqueued
    · have hne : x ≠ e := hother x.held
      exact .inl ⟨(List.mem_cons.mp hrest).resolve_left hne, (List.mem_erase_of_ne hne).mpr hmem⟩
    · exact .inr ((List.mem_erase_of_ne (hother _)).mpr hmem)
  · rw [hqueue]
    obtain ⟨hrest, hmem⟩ | hmem := hqueued
    · by_cases hxe : x = e
      · subst hxe
        exact .inr (mem_markCopies_self hmem)
      · exact .inl ⟨(List.mem_cons.mp hrest).resolve_left hxe, mem_markCopies_of_ne hmem hxe⟩
    · right
      by_cases hxe : stepMark s x = e
      · have hsame : stepMark s x = markedAs (atOrBefore e.launch s.time.tower) e := by
          rw [← hxe]
          rfl
        rw [hsame]
        exact mem_markCopies_self (hxe ▸ hmem)
      · exact mem_markCopies_of_ne hmem hxe

/-- What the steps of some entries keep, one after another. -/
theorem foldl_fate {P : State → List Entry → Prop} (hstep : ∀ e rest s t, StepFate e s t → P s (e :: rest) → P t rest)
    (l : List Entry) (s : State) (hs : P s l) : P (l.foldl (fun t e => stepEntry e t) s) [] := by
  induction l generalizing s with
  | nil => exact hs
  | cons e l ih => exact ih _ (hstep e l s _ (stepEntry_fate e s) hs)

theorem stepQueue_bounded (s : State) : Bounded (stepQueue s) [] :=
  foldl_fate (P := Bounded) (fun _ _ _ _ h hs => h.bounded hs) s.queue s fun _ => .inl le_rfl

/-- What is left of the queue stays, with its mark. -/
theorem stays_of_mem_stepQueue (h : y ∈ (stepQueue s).queue) :
    Stays (stepQueue s) y ∧ y.held = atOrBefore y.launch (stepQueue s).time.tower := by
  refine (stepQueue_bounded s y).resolve_left fun hle => ?_
  exact absurd (List.count_pos_iff.mpr h) (not_lt.mpr hle)

theorem stepQueue_copies (s : State) : ∀ y ∈ (stepQueue s).queue, CopyOf s.queue y :=
  foldl_fate (P := fun t _ => ∀ y ∈ t.queue, CopyOf s.queue y) (fun _ _ _ _ h hs => h.copies hs) s.queue s
    fun y hy => ⟨y, hy, rfl⟩

theorem stepQueue_present (h : x ∈ s.queue) (hx : Stays s x) : stepMark (stepQueue s) x ∈ (stepQueue s).queue := by
  have hp := foldl_fate (P := fun t l => Present t l x) (fun _ _ _ _ hf hs => hf.present hs) s.queue s ⟨hx, .inl ⟨h, h⟩⟩
  exact hp.2.resolve_left fun hrest => absurd hrest.1 List.not_mem_nil

/-! ### One entry among the others -/

/-- The entries of a list met a step, one after another. -/
def stepped (l : List Entry) (s : State) : State := l.foldl (fun t e => stepEntry e t) s

theorem stepQueue_eq (s : State) : stepQueue s = stepped s.queue s := rfl

theorem stepped_append (l r : List Entry) (s : State) : stepped (l ++ r) s = stepped r (stepped l s) := List.foldl_append

theorem stepped_unchanged (l : List Entry) (s : State) : Unchanged removal s (stepped l s) :=
  .foldl _ (fun t e => stepEntry_unchanged e t) l s

theorem stepped_time (l : List Entry) (s : State) : (stepped l s).time = s.time := stepped_unchanged l s .time (by decide)

theorem stepped_passedBy (l : List Entry) (s : State) (e : Entry) : passedBy (stepped l s) e = passedBy s e :=
  passedBy_congr (by rw [stepped_time]) (stepped_unchanged l s .settings (by decide)) e

theorem stepped_clear (l : List Entry) (s : State) (h : ∀ y ∈ l, y.channel = k → passedBy s y = true ∨
    atOrBefore y.launch s.time.tower = false) : isClear (stepped l s) k = isClear s k := by
  induction l generalizing s with
  | nil => rfl
  | cons e l ih =>
    have hf := stepEntry_fate e s
    refine (ih (stepEntry e s) fun y hy hk => ?_).trans (hf.clear (h e List.mem_cons_self))
    rw [hf.passedBy_eq, hf.tower]
    exact h y (List.mem_cons_of_mem e hy) hk

theorem stepped_channel (l : List Entry) (s : State)
    (h : ∀ y ∈ l, y.channel = k → atOrBefore y.launch s.time.tower = false) : (stepped l s).channels[k] = s.channels[k] := by
  induction l generalizing s with
  | nil => rfl
  | cons e l ih =>
    have hf := stepEntry_fate e s
    refine (ih (stepEntry e s) fun y hy hk => ?_).trans (hf.channel (h e List.mem_cons_self))
    rw [hf.tower]
    exact h y (List.mem_cons_of_mem e hy) hk

theorem count_markCopies_other {b : Bool} (hy : y ≠ markedAs b e) (hye : y ≠ e) (l : List Entry) :
    (markCopies b e l).count y = l.count y := by
  induction l with
  | nil => rfl
  | cons x l ih =>
    rw [markCopies, List.map_cons, List.count_cons, List.count_cons]
    refine congrArg₂ _ ih ?_
    split
    next heq =>
      rw [heq, if_neg (by simpa using fun h : markedAs b e = y => hy h.symm),
        if_neg (by simpa using fun h : e = y => hye h.symm)]
    · rfl

/-- The step of an entry does not touch one with another admission number. -/
theorem StepFate.count (h : StepFate e s t) (hy : y.admission ≠ e.admission) : t.queue.count y = s.queue.count y := by
  have hne : y ≠ e := fun heq => hy (heq ▸ rfl)
  obtain ⟨-, rfl⟩ | ⟨hqueue, -⟩ | ⟨hqueue, -⟩ := h.queue
  · rfl
  · rw [hqueue, List.count_erase_of_ne hne]
  · rw [hqueue]
    exact count_markCopies_other (fun heq => hy (by rw [heq]; rfl)) hne _

theorem stepped_count (l : List Entry) (s : State) (h : ∀ x ∈ l, x.admission ≠ y.admission) :
    (stepped l s).queue.count y = s.queue.count y := by
  induction l generalizing s with
  | nil => rfl
  | cons e l ih =>
    exact (ih (stepEntry e s) fun x hx => h x (List.mem_cons_of_mem e hx)).trans
      ((stepEntry_fate e s).count (h e List.mem_cons_self).symm)

/-- An entry at its time on a clear channel has its launch event, whatever waits or leaves in front of it. -/
theorem stepQueue_launches {pre post : List Entry} (hqueue : s.queue = pre ++ e :: post)
    (hother : ∀ x ∈ pre ++ post, x.admission ≠ e.admission)
    (hpre : ∀ x ∈ pre, x.channel = e.channel → passedBy s x = true ∨ atOrBefore x.launch s.time.tower = false)
    (hat : atOrBefore e.launch s.time.tower = true) (hclear : channelState s e.channel = .run → isClear s e.channel = true) :
    ∀ x ∈ (stepQueue s).queue, x.admission ≠ e.admission := by
  intro x hx hadm
  have hcount (y : Entry) (hy : y.admission = e.admission) : s.queue.count y = if y = e then 1 else 0 := by
    have hnone {l : List Entry} (hl : ∀ x ∈ l, x.admission ≠ e.admission) : l.count y = 0 :=
      List.count_eq_zero.mpr fun hmem => hl y hmem hy
    rw [hqueue, List.count_append, List.count_cons, hnone fun z hz => hother z (List.mem_append_left _ hz),
      hnone fun z hz => hother z (List.mem_append_right _ hz)]
    by_cases hye : y = e
    · simp [hye]
    · simp [hye, Ne.symm hye]
  have hfate := stepEntry_fate e (stepped pre s)
  have hreached (y : Entry) (hy : y.admission = e.admission) :
      (stepped pre s).queue.count y = if y = e then 1 else 0 :=
    (stepped_count pre s fun z hz => hy ▸ hother z (List.mem_append_left _ hz)).trans (hcount y hy)
  have hgone : (stepEntry e (stepped pre s)).queue = (stepped pre s).queue.erase e := by
    obtain ⟨hmem, -⟩ | ⟨herase, -⟩ | ⟨-, -, hheld⟩ := hfate.queue
    · exact absurd (List.count_pos_iff.mp (by rw [hreached e rfl, if_pos rfl]; exact Nat.zero_lt_one)) hmem
    · exact herase
    · rw [stepped_time] at hheld
      obtain ⟨hrun, hbusy⟩ := hheld hat
      have hstate : channelState (stepped pre s) e.channel = channelState s e.channel := by
        have hmoves : Moves [.plain] s (stepped pre s) := .foldl pre s fun t z _ => stepEntry_moves z t
        exact channelState_of_flags (stepped_unchanged pre s .straps (by decide)) (stepped_unchanged pre s .halted (by decide))
          (hmoves.detail .conflict rfl e.channel)
      rw [stepped_clear pre s hpre, hclear (hstate ▸ hrun)] at hbusy
      cases hbusy
  have hzero : (stepQueue s).queue.count x = 0 := by
    have hsplit : stepQueue s = stepped post (stepEntry e (stepped pre s)) := by
      rw [stepQueue_eq, hqueue, stepped_append]
      rfl
    rw [hsplit, stepped_count post _ fun z hz => hadm ▸ hother z (List.mem_append_right _ hz), hgone, List.count_erase,
      hreached x hadm]
    by_cases hxe : x = e
    · simp [hxe]
    · simp [hxe, Ne.symm hxe]
  exact absurd (List.count_pos_iff.mpr hx) (by rw [hzero]; exact Nat.lt_irrefl 0)

end

end Sys2Proof.Machine
end

