-- ==== Sys2Proof/Proofs/GateStep.lean ====
section
/-! The gates meet a step of tower time, and what the evaluation of one slot's gate leaves of the other slots, of the
calendar and of the counters (R67, R129). -/

namespace Sys2Proof.Machine

-- One proof after another: many at once would ask for more threads than the memory limit allows.
set_option Elab.async false

section
variable {s t u : State} {k j : Fin 4} {p q : Perf}

/-! ### What a slot's own business leaves alone -/

/-- The counters of the calendar (R164). -/
def calendarCounters : List Counter := [.missedTime, .cuesFired, .missedQuiet]

/-- What slot k's own business leaves as it was: the other slots but for the fate of their frames, the calendar but for
the play contacts, the counters of the calendar. -/
structure OthersKept (k : Fin 4) (s t : State) : Prop where
  slots : ∀ j, j ≠ k → SlotKept s.conductor.slots[j] t.conductor.slots[j]
  calendar : t.calendar = { s.calendar with contacts := t.calendar.contacts }
  counters : ∀ c ∈ calendarCounters, readCounter t c = readCounter s c

theorem OthersKept.refl (k : Fin 4) (s : State) : OthersKept k s s := ⟨fun _ _ => .refl _, rfl, fun _ _ => rfl⟩

theorem OthersKept.trans (h1 : OthersKept k s t) (h2 : OthersKept k t u) : OthersKept k s u := by
  refine ⟨fun j hj => (h1.slots j hj).trans (h2.slots j hj), ?_, fun c hc => (h2.counters c hc).trans (h1.counters c hc)⟩
  rw [h2.calendar, h1.calendar]

theorem updPerf_othersKept (k : Fin 4) (f : Perf → Perf) (s : State) : OthersKept k s (updPerf k f s) := by
  refine ⟨fun j hj => ?_, rfl, fun _ _ => rfl⟩
  rw [updPerf_slots, if_neg (Ne.symm hj)]
  exact .refl _

theorem setSlot_othersKept (k : Fin 4) (x : Slot) (s : State) : OthersKept k s (setSlot k x s) := by
  refine ⟨fun j hj => ?_, rfl, fun _ _ => rfl⟩
  rw [setSlot_slots, if_neg (Ne.symm hj)]
  exact .refl _

theorem handFrame_othersKept (k : Fin 4) (x : TxFrame) (s : State) : OthersKept k s (handFrame x s).1 := by
  refine ⟨fun j _ => handFrame_kept x s j, ?_, fun c hc => handFrame_readCounter x s ?_ ?_⟩
  · rw [handFrame_unchanged x s .calendar (by decide)]
  · rintro rfl
    exact absurd hc (by decide)
  · rintro rfl
    exact absurd hc (by decide)

theorem raise_othersKept (k : Fin 4) {d : Counter} (hd : d ∉ calendarCounters) (s : State) : OthersKept k s (raise d s) :=
  ⟨fun _ _ => .refl _, rfl, fun _ hc => readCounter_raise_other fun heq => hd (heq ▸ hc)⟩

theorem freeContactsOf_othersKept (k : Fin 4) (s : State) : OthersKept k s (freeContactsOf k s) :=
  ⟨fun _ _ => .refl _, rfl, fun _ _ => rfl⟩

theorem unlockTune_othersKept (k : Fin 4) (n : Fin 32) (s : State) : OthersKept k s (unlockTune n s) :=
  ⟨fun _ _ => .refl _, rfl, fun _ _ => rfl⟩

theorem stream_othersKept (fuel : Nat) (k : Fin 4) (s : State) : OthersKept k s (stream fuel k s) := by
  induction fuel generalizing s with
  | zero => exact .refl k s
  | succ fuel ih =>
    rw [stream]
    split
    · exact .refl k s
    dsimp only
    split
    · exact updPerf_othersKept k _ s
    next first rest _ =>
      have hcursor := updPerf_othersKept k (fun q => { q with cursor := first.1 }) s
      split
      · exact hcursor
      split
      · exact ((hcursor.trans (updPerf_othersKept k _ _)).trans (raise_othersKept k (by decide) _)).trans (ih _)
      split
      · exact ((hcursor.trans (handFrame_othersKept k _ _)).trans (updPerf_othersKept k _ _)).trans (ih _)
      · exact (hcursor.trans (handFrame_othersKept k _ _)).trans (updPerf_othersKept k _ _)

theorem build_othersKept (k : Fin 4) (s : State) : OthersKept k s (build k s) := by
  unfold build
  split
  · exact .refl k s
  split
  · exact (updPerf_othersKept k _ s).trans (stream_othersKept _ k _)
  · exact .refl k s

theorem perfCounter_not_calendar (o : PerfOutcome) : perfCounter o ∉ calendarCounters := by cases o <;> decide

theorem endPerf_othersKept (k : Fin 4) (p : Perf) (o : PerfOutcome) (s : State) : OthersKept k s (endPerf k p o s) := by
  have hrelease : OthersKept k s (handRelease k p o s) := by
    unfold handRelease
    split
    · exact handFrame_othersKept k _ s
    · exact .refl k s
  exact (((hrelease.trans (unlockTune_othersKept k p.slot _)).trans (setSlot_othersKept k _ _)).trans
    (raise_othersKept k (perfCounter_not_calendar o) _)).trans (freeContactsOf_othersKept k _)

theorem evalGate_othersKept (k : Fin 4) (p : Perf) (s : State) : OthersKept k s (evalGate k p s) := by
  unfold evalGate
  split
  · exact (updPerf_othersKept k _ s).trans (build_othersKept k _)
  split
  · exact (updPerf_othersKept k _ s).trans (handFrame_othersKept k _ _)
  · exact endPerf_othersKept k p .abandoned s

theorem gateIfDue_othersKept (k : Fin 4) (s : State) : OthersKept k s (gateIfDue k s) := by
  unfold gateIfDue
  split
  · exact .refl k s
  split
  · exact evalGate_othersKept k _ s
  · exact .refl k s

/-! ### The gates of some slots -/

/-- The gates of some slots, in turn. -/
def gated (l : List (Fin 4)) (s : State) : State := l.foldl (fun t k => gateIfDue k t) s

theorem gated_unchanged (l : List (Fin 4)) (s : State) : Unchanged ending s (gated l s) :=
  .foldl _ (fun t k => gateIfDue_unchanged k t) l s

theorem gated_slot (l : List (Fin 4)) (hk : k ∉ l) (s : State) : SlotKept s.conductor.slots[k] (gated l s).conductor.slots[k] := by
  induction l generalizing s with
  | nil => exact .refl _
  | cons j l ih =>
    obtain ⟨hj, hl⟩ := not_or.mp (List.mem_cons.not.mp hk)
    exact ((gateIfDue_othersKept j s).slots k hj).trans (ih hl _)

theorem gated_calendar (l : List (Fin 4)) (s : State) : (gated l s).calendar = { s.calendar with contacts := (gated l s).calendar.contacts } ∧
    ∀ c ∈ calendarCounters, readCounter (gated l s) c = readCounter s c := by
  induction l generalizing s with
  | nil => exact ⟨rfl, fun _ _ => rfl⟩
  | cons j l ih =>
    obtain ⟨hcalendar, hcounters⟩ := ih (gateIfDue j s)
    have hkept := gateIfDue_othersKept j s
    refine ⟨?_, fun c hc => (hcounters c hc).trans (hkept.counters c hc)⟩
    exact hcalendar.trans (by rw [hkept.calendar]; rfl)

theorem stepTime_gated (new : Nat) (s : State) : stepTime new s = gated allSlots (dampersStepped new s) := rfl

/-- A slot's own turn among all of them. -/
theorem allSlots_split (k : Fin 4) : ∃ pre post, allSlots = pre ++ k :: post ∧ k ∉ pre ∧ k ∉ post := by
  obtain ⟨pre, post, hsplit⟩ := List.append_of_mem (allSlots_complete k)
  have hnodup : (pre ++ k :: post).Nodup := hsplit ▸ (by decide : allSlots.Nodup)
  obtain ⟨-, hpost, hdisjoint⟩ := List.nodup_append.mp hnodup
  exact ⟨pre, post, hsplit, fun hmem => hdisjoint k hmem k List.mem_cons_self rfl, (List.nodup_cons.mp hpost).1⟩

/-! ### The gate that all slots' turns leave as it is -/

theorem ownBeacon_congr (htime : t.time = s.time) (hdrive : t.drive = s.drive) (hsilence : t.silence = s.silence)
    (hstraps : t.straps = s.straps) (hfloor : t.floor = s.floor) (hmask : playableMask t = playableMask s) :
    ownBeacon t = ownBeacon s := by
  simp only [ownBeacon, htime, hdrive, hsilence, hstraps, hmask, holderSeen, hfloor, presentCount, bellBase]

theorem playableMask_congr (h : ∀ k, channelState t k = channelState s k) : playableMask t = playableMask s := by
  simp only [playableMask, h]

theorem gatePasses_congr (hu : Unchanged ending s t) (rule : Ensemble) (mask : BellMask) :
    gatePasses t rule mask = gatePasses s rule mask := by
  have hstraps : t.straps = s.straps := hu .straps (by decide)
  have htime : t.time = s.time := hu .time (by decide)
  have hlisten : t.listen = s.listen := hu .listen (by decide)
  have hpeers : t.peers = s.peers := hu .peers (by decide)
  have hown : ownBeacon t = ownBeacon s := by
    refine ownBeacon_congr htime (hu .drive (by decide)) (hu .silence (by decide)) hstraps (hu .floor (by decide)) ?_
    exact playableMask_congr (channelState_congr hstraps (hu .channels (by decide)) (hu .halted (by decide)))
  have hrecord (st : Fin 16) : peerRecord t st = peerRecord s st := by
    rw [peerRecord, peerRecord, hstraps, hlisten, htime, hown, hpeers]
  have howner (bell : Nat) : hasReadyOwner t bell = hasReadyOwner s bell := by
    simp only [hasReadyOwner, hrecord]
  cases rule <;> simp only [gatePasses, funext howner]

/-! ### A slot in GATHERING at a step (R129) -/

/-- A slot waits on in GATHERING, with its sequence, its start and what its start was moved by. -/
def WaitsOn (k : Fin 4) (p : Perf) (s : State) : Prop :=
  ∃ q, s.conductor.slots[k] = .active q ∧ q.phase = .gathering ∧ q.seq = p.seq ∧ q.start = p.start ∧ q.postponed = p.postponed

theorem SlotKept.active_of {x y : Slot} (h : SlotKept x y) (hx : x = .active p) : ∃ q, y = .active q ∧ PerfKept p q := by
  subst hx
  exact h

theorem PerfKept.phase_eq (h : PerfKept p q) (hp : p.phase ≠ .claiming) : q.phase = p.phase :=
  h.2.resolve_right fun hc => hp hc.1

theorem PerfKept.fields (h : PerfKept p q) : q.seq = p.seq ∧ q.start = p.start ∧ q.postponed = p.postponed ∧
    q.beaconTimer = p.beaconTimer := by
  rw [h.1]
  exact ⟨rfl, rfl, rfl, rfl⟩

theorem PlaysOn.kept (h : PlaysOn k p s) (hkept : SlotKept s.conductor.slots[k] t.conductor.slots[k]) : PlaysOn k p t := by
  obtain ⟨q, hq, hplays, hseq, hstart, hpostponed⟩ := h
  obtain ⟨r, hr, hqr⟩ := hkept.active_of hq
  have hphase : r.phase = q.phase := hqr.phase_eq fun hc => by rw [hc] at hplays; simp at hplays
  obtain ⟨hrseq, hrstart, hrpostponed, -⟩ := hqr.fields
  exact ⟨r, hr, by rw [hphase]; exact hplays, hrseq.trans hseq, hrstart.trans hstart, hrpostponed.trans hpostponed⟩

/-- A start moved by the gate stays so, whatever becomes of the slot's frames. -/
theorem PerfKept.of_postpone (h : PerfKept (postpone p) q) (hp : p.phase = .gathering) : q.phase = .gathering ∧ q.seq = p.seq ∧
    q.start = plus p.start 8000 ∧ q.postponed = p.postponed + 8000 ∧ q.beaconTimer = 0 := by
  obtain ⟨hseq, hstart, hpostponed, hbeacon⟩ := h.fields
  have hphase : (postpone p).phase = .gathering := by
    rw [postpone_eq, hp]
  have hkept := (h.phase_eq (by rw [hphase]; nofun)).trans hphase
  rw [postpone_eq] at hseq hstart hpostponed hbeacon
  exact ⟨hkept, hseq, hstart, hpostponed, hbeacon⟩

/-- All gates but slot k's come before or after it, and leave it as it is but for the fate of its frames. -/
theorem gates_around (s : State) (hp : s.conductor.slots[k] = .active p) :
    ∃ a q, a.conductor.slots[k] = .active q ∧ PerfKept p q ∧ Unchanged ending s a ∧
      SlotKept (gateIfDue k a).conductor.slots[k] (gated allSlots s).conductor.slots[k] := by
  obtain ⟨pre, post, hsplit, hpre, hpost⟩ := allSlots_split k
  obtain ⟨q, hq, hpq⟩ := (gated_slot pre hpre s).active_of hp
  refine ⟨gated pre s, q, hq, hpq, gated_unchanged pre s, ?_⟩
  have hall : gated allSlots s = gated post (gateIfDue k (gated pre s)) := by
    rw [hsplit, gated, List.foldl_append]
    rfl
  rw [hall]
  exact gated_slot post hpost _

/-- What the gates bring to a slot in GATHERING. -/
theorem gated_met (s : State) (hp : s.conductor.slots[k] = .active p) (hphase : p.phase = .gathering) :
    (reached s.time.tower (minus p.start 4000) = false → WaitsOn k p (gated allSlots s)) ∧
    (reached s.time.tower (minus p.start 4000) = true →
      (gatePasses s p.rule p.mask = true → PlaysOn k p (gated allSlots s)) ∧
      (gatePasses s p.rule p.mask = false → p.postponed + 8000 ≤ s.settings.claimWait → ∃ q,
        (gated allSlots s).conductor.slots[k] = .active q ∧ q.phase = .gathering ∧ q.seq = p.seq ∧
        q.start = plus p.start 8000 ∧ q.postponed = p.postponed + 8000 ∧ q.beaconTimer = 0) ∧
      (gatePasses s p.rule p.mask = false → s.settings.claimWait < p.postponed + 8000 →
        (gated allSlots s).conductor.slots[k] = .ended p.seq .abandoned)) := by
  obtain ⟨a, q, hq, hpq, ha, hafter⟩ := gates_around s hp
  have hqphase : q.phase = .gathering := (hpq.phase_eq (by rw [hphase]; nofun)).trans hphase
  obtain ⟨hseq, hstart, hpostponed, -⟩ := hpq.fields
  have hgate : gatePasses a q.rule q.mask = gatePasses s p.rule p.mask := by
    rw [gatePasses_congr ha, hpq.1]
  have hdue : gateDue a q = true ↔ reached s.time.tower (minus p.start 4000) = true := by
    rw [gateDue_iff, ha .time (by decide), hstart]
    exact and_iff_right hqphase
  have hsettings : a.settings = s.settings := ha .settings (by decide)
  refine ⟨fun hwait => ?_, fun hreached => ?_⟩
  · rw [gateIfDue_of_not_due hq (Bool.eq_false_iff.mpr fun h => ?_)] at hafter
    · obtain ⟨r, hr, hqr⟩ := hafter.active_of hq
      obtain ⟨hrseq, hrstart, hrpostponed, -⟩ := hqr.fields
      exact ⟨r, hr, (hqr.phase_eq (by rw [hqphase]; nofun)).trans hqphase, hrseq.trans hseq, hrstart.trans hstart,
        hrpostponed.trans hpostponed⟩
    · exact absurd (hwait.symm.trans (hdue.mp h)) (by decide)
  rw [gateIfDue_of_due hq (hdue.mpr hreached)] at hafter
  rw [← hgate, ← hsettings, ← hseq, ← hstart, ← hpostponed]
  refine ⟨fun hpasses => ?_, fun hfails hroom => ?_, fun hfails hroom => ?_⟩
  · obtain ⟨heval, hplays⟩ := evalGate_passes hq hpasses
    rw [← heval] at hplays
    obtain ⟨r, hr, hplaying, hrseq, hrstart, hrpostponed⟩ := hplays.kept hafter
    exact ⟨r, hr, hplaying, hrseq.trans hseq, hrstart.trans hstart, hrpostponed.trans hpostponed⟩
  · rw [evalGate_postpones hq hfails hroom] at hafter
    have hmoved : (setSlot k (.active (postpone q)) a).conductor.slots[k] = .active (postpone q) := setSlot_active k _ a
    obtain ⟨r, hr, hqr⟩ := (handFrame_kept (floorFrame k (postpone q)) (setSlot k (.active (postpone q)) a)).active hmoved
    obtain ⟨w, hw, hrw⟩ := hafter.active_of hr
    have hkept := hqr.trans hrw
    obtain ⟨hwphase, hwseq, hwstart, hwpostponed, hwbeacon⟩ := hkept.of_postpone hqphase
    exact ⟨w, hw, hwphase, hwseq, hwstart, hwpostponed, hwbeacon⟩
  · rw [evalGate_abandons hfails hroom, (endPerf_result k q .abandoned a).1] at hafter
    exact hafter

/-- The parts that a step may have changed before the gates. -/
def beforeGates : List Part := [.time, .silence, .trace, .queue, .counters, .floor, .channels, .drive, .calendar]

theorem queueStepped_unchanged (new : Nat) (s : State) :
    Unchanged [.time, .silence, .trace, .queue, .counters, .floor, .channels, .drive] s (queueStepped new s) :=
  ((clockStepped_unchanged new s).widen.andThen (startTimeStep_unchanged _)).andThen (stepQueue_unchanged _)

theorem dampersStepped_before (new : Nat) (s : State) : Unchanged beforeGates s (dampersStepped new s) :=
  ((queueStepped_unchanged new s).widen.andThen (calendarStepped_unchanged new s)).andThen (dampersStepped_unchanged new s)

theorem gatesMetStep (new : Nat) (s : State) : GatesMetStep s (stepTime new s) := by
  intro k p hp hphase
  have hu := dampersStepped_before new s
  have hgates := gatesStepped_unchanged new s
  have hconductor : (dampersStepped new s).conductor = s.conductor := hu .conductor (by decide)
  have hsettings : (dampersStepped new s).settings = s.settings := hu .settings (by decide)
  rw [← hconductor] at hp
  rw [hgates .time (by decide), gatePasses_congr hgates, ← hsettings, stepTime_gated]
  exact gated_met (dampersStepped new s) hp hphase

end

end Sys2Proof.Machine
end

