-- ==== Sys2Proof/Proofs/CalendarStep.lean ====
section
/-! The calendar meets a step of tower time: the points passed, and the entries counted missed (R163). -/

namespace Sys2Proof.Machine

-- One proof after another: many at once would ask for more threads than the memory limit allows.
set_option Elab.async false

section
variable {s t : State} {old m n : Nat} {c d : Counter}

/-! ### Counters -/

/-- A counter raised once for each element that meets a test. -/
theorem foldl_raise_readCounter {α : Type} (p : α → Bool) (l : List α) (s : State) :
    readCounter (l.foldl (fun t a => if p a then raise c t else t) s) c =
      if l.filter p = [] then readCounter s c else min 65535 (readCounter s c + (l.filter p).length) := by
  induction l generalizing s with
  | nil => rfl
  | cons a l ih =>
    rw [List.foldl_cons, ih, List.filter_cons]
    cases hp : p a with
    | false => rfl
    | true =>
      rw [if_pos rfl, if_pos rfl, if_neg (List.cons_ne_nil a _), raise_raised c s, List.length_cons]
      split
      next hnil => rw [hnil]; rfl
      · omega

theorem foldl_raise_other {α : Type} (p : α → Bool) (l : List α) (hd : d ≠ c) (s : State) :
    readCounter (l.foldl (fun t a => if p a then raise c t else t) s) d = readCounter s d := by
  induction l generalizing s with
  | nil => rfl
  | cons a l ih =>
    rw [List.foldl_cons, ih]
    split
    · exact readCounter_raise_other hd
    · rfl

theorem closeLaunch_readCounter (x : Entry) (o : StrikeOutcome) (w : State) (hc : c ≠ outcomeCounter o) :
    readCounter (closeLaunch x o w) c = readCounter w c := by
  have hafter : Unchanged [.floor, .channels, .drive, .silence, .trace] (raise (outcomeCounter o) w) (closeLaunch x o w) :=
    ((preemptStep_unchanged x _).widen.andThen (fadeStepSilence_unchanged _)).andThen (afterRemoval_unchanged x _)
  exact (readCounter_of_same (hafter .counters (by decide)) c).trans (readCounter_raise_other hc)

theorem outcomeCounter_not_calendar (hc : c ∈ calendarCounters) (o : StrikeOutcome) : c ≠ outcomeCounter o := by
  rintro rfl
  cases o <;> exact absurd hc (by decide)

theorem launchEntry_readCounter (e : Entry) (s : State) (hc : c ∈ calendarCounters) :
    readCounter (launchEntry e s) c = readCounter s c := by
  obtain ⟨o, w, hclose, -, hw⟩ := launchEntry_closes e s
  rw [hclose, closeLaunch_readCounter _ _ _ (outcomeCounter_not_calendar hc o)]
  exact readCounter_of_same (hw .counters (by decide)) c

theorem stepEntry_readCounter (e : Entry) (s : State) (hc : c ∈ calendarCounters) :
    readCounter (stepEntry e s) c = readCounter s c := by
  have hfate := stepEntry_fate e s
  generalize stepEntry e s = t at hfate
  cases hfate with
  | gone => rfl
  | passed => exact removeEntry_readCounter e s (outcomeCounter_not_calendar hc _)
  | launched => exact launchEntry_readCounter e s hc
  | held => rfl
  | released => rfl

theorem queueStepped_readCounter (new : Nat) (s : State) (hc : c ∈ calendarCounters) :
    readCounter (queueStepped new s) c = readCounter s c := by
  have hstart : readCounter (startTimeStep (clockStepped new s)) c = readCounter s c :=
    readCounter_of_same ((startTimeStep_unchanged (clockStepped new s)) .counters (by decide)) c
  rw [queueStepped, ← hstart, stepQueue]
  generalize startTimeStep (clockStepped new s) = u
  generalize u.queue = l
  induction l generalizing u with
  | nil => rfl
  | cons e l ih => exact (ih _).trans (stepEntry_readCounter e u hc)

/-! ### The points passed -/

/-- The pre-roll point of a minute, passed by a step from one time to another, in the step's direction. -/
theorem pointWithin_iff (u : State) (hpreroll : u.settings.preroll = s.settings.preroll) (from_ n m : Nat) :
    pointWithin u from_ n m = true ↔
      1 ≤ minus (minus m s.settings.preroll) from_ ∧ minus (minus m s.settings.preroll) from_ ≤ n := by
  rw [pointWithin, decide_eq_true_iff, hpreroll]

theorem passed_forward {p old new : Nat} (h : 0 < dist new old) :
    (1 ≤ minus p old ∧ minus p old ≤ (dist new old).natAbs) ↔ (isAfter p old = true ∧ atOrBefore p new = true) := by
  rw [isAfter, atOrBefore, decide_eq_true_iff, decide_eq_true_iff]
  have h1 := minus_lt p old
  have h2 := minus_lt p new
  have h3 := minus_lt new old
  obtain hway | hway := minus_by_way p old new <;> obtain hn | hn := dist_cases new old <;>
    obtain ho | ho := dist_cases p old <;> obtain hp | hp := dist_cases p new <;> omega

theorem passed_backward {p old new : Nat} (h : ¬0 < dist new old) :
    (1 ≤ minus p new ∧ minus p new ≤ (dist new old).natAbs) ↔ (isAfter p new = true ∧ atOrBefore p old = true) := by
  rw [isAfter, atOrBefore, decide_eq_true_iff, decide_eq_true_iff]
  have h1 := minus_lt p old
  have h2 := minus_lt p new
  have h3 := minus_lt new old
  obtain hway | hway := minus_by_way p old new <;> obtain hn | hn := dist_cases new old <;>
    obtain ho | ho := dist_cases p old <;> obtain hp | hp := dist_cases p new <;> omega

/-- A point that a step from `old` to the tower time that stands passes over. -/
def stepPasses (old : Nat) (s : State) (m : Nat) : Bool :=
  if 0 < dist s.time.tower old then pointWithin s old (dist s.time.tower old).natAbs m
  else pointWithin s s.time.tower (dist s.time.tower old).natAbs m

theorem stepPasses_iff {u : State} (hpreroll : u.settings.preroll = s.settings.preroll) (htower : u.time.tower = t.time.tower)
    (m : Nat) : stepPasses s.time.tower u m = true ↔ StepPassed s t m := by
  unfold stepPasses StepPassed
  rw [htower]
  split
  next h => exact (pointWithin_iff u hpreroll _ _ m).trans (passed_forward h)
  next h => exact (pointWithin_iff u hpreroll _ _ m).trans (passed_backward h)

/-! ### The calendar's account of a step -/

/-- The calendar without the points passed. -/
def pointsPassed (old : Nat) (s : State) (c : Calendar) : Calendar := { c with
  decided := c.decided.filter fun m => !stepPasses old s m
  settled := c.settled.filter fun m => !stepPasses old s m }

/-- The entries that a forward step of a SET node counts missed. -/
def missedEntries (old : Nat) (wasSet : Bool) (s : State) (i : Fin 24) : Bool :=
  wasSet && decide (0 < dist s.time.tower old) &&
    missedByStep s old (dist s.time.tower old).natAbs s.calendar.entries[i]

/-- The missed entries counted. -/
def missedCounted (old : Nat) (wasSet : Bool) (s : State) : State :=
  allEntries.foldl (fun t i => if missedEntries old wasSet s i then raise .missedTime t else t) s

theorem foldl_none {α : Type} {p : α → Bool} (l : List α) (hp : ∀ a, p a = false) (s : State) :
    l.foldl (fun t a => if p a then raise c t else t) s = s := by
  induction l generalizing s with
  | nil => rfl
  | cons a l ih => rw [List.foldl_cons, hp a, if_neg Bool.false_ne_true, ih]

theorem missedCounted_calendar (old : Nat) (wasSet : Bool) (s : State) : Unchanged [.counters] s (missedCounted old wasSet s) :=
  .foldl _ (fun t _ => .ite (raise_unchanged _ t) (.refl _ t)) allEntries s

theorem stepCalendar_eq (old : Nat) (wasSet : Bool) (s : State) :
    (stepCalendar old wasSet s).calendar = pointsPassed old s s.calendar ∧
    ∀ c, readCounter (stepCalendar old wasSet s) c = readCounter (missedCounted old wasSet s) c := by
  by_cases h : 0 < dist s.time.tower old
  · have hpasses : stepPasses old s = pointWithin s old (dist s.time.tower old).natAbs := funext fun m => if_pos h
    have hcounted : (if wasSet then countMissed old (dist s.time.tower old).natAbs s else s) = missedCounted old wasSet s := by
      unfold missedCounted missedEntries
      rw [decide_eq_true h]
      cases wasSet with
      | true => simp only [if_true, countMissed, Bool.true_and]
      | false => exact (foldl_none _ (fun _ => rfl) s).symm
    have hstep : stepCalendar old wasSet s =
        passPoints old (dist s.time.tower old).natAbs (missedCounted old wasSet s) := hcounted ▸ if_pos h
    have hcalendar : (missedCounted old wasSet s).calendar = s.calendar := missedCounted_calendar old wasSet s .calendar (by decide)
    have hsettings : (missedCounted old wasSet s).settings = s.settings := missedCounted_calendar old wasSet s .settings (by decide)
    rw [hstep]
    refine ⟨?_, fun c => rfl⟩
    unfold pointsPassed
    rw [hpasses]
    simp only [passPoints, setCalendar, pointWithin, hcalendar, hsettings]
  · have hpasses : stepPasses old s = pointWithin s s.time.tower (dist s.time.tower old).natAbs := funext fun m => if_neg h
    have hcounted : missedCounted old wasSet s = s := by
      refine foldl_none _ (fun i => ?_) s
      rw [missedEntries, decide_eq_false h, Bool.and_false, Bool.false_and]
    have hstep : stepCalendar old wasSet s = passPoints s.time.tower (dist s.time.tower old).natAbs s := if_neg h
    rw [hstep, hcounted]
    refine ⟨?_, fun c => rfl⟩
    unfold pointsPassed
    rw [hpasses]
    rfl

theorem queueStepped_tower (new : Nat) (s : State) : (queueStepped new s).time.tower = (stepTime new s).time.tower := by
  rw [queueStepped_time, stepTime_time]

theorem stepTime_calendar (new : Nat) (s : State) :
    (stepTime new s).calendar =
      { pointsPassed s.time.tower (queueStepped new s) s.calendar with contacts := (stepTime new s).calendar.contacts } ∧
    ∀ c ∈ calendarCounters, readCounter (stepTime new s) c =
      readCounter (missedCounted s.time.tower (decide (s.time.validity = .set)) (queueStepped new s)) c := by
  obtain ⟨hgated, hcounters⟩ := gated_calendar allSlots (dampersStepped new s)
  rw [← stepTime_gated] at hgated hcounters
  obtain ⟨hcalendar, hcounted⟩ := stepCalendar_eq s.time.tower (decide (s.time.validity = .set)) (queueStepped new s)
  have hdampers := dampersStepped_unchanged new s
  have hqueue : (queueStepped new s).calendar = s.calendar := queueStepped_unchanged new s .calendar (by decide)
  refine ⟨?_, fun c hc => ?_⟩
  · rw [← hqueue, ← hcalendar]
    refine hgated.trans ?_
    rw [hdampers .calendar (by decide)]
    rfl
  · exact ((hcounters c hc).trans (readCounter_of_same (hdampers .counters (by decide)) c)).trans (hcounted c)

theorem mem_wholeMinutes : m ∈ wholeMinutes ↔ m < 2419200000 ∧ m % 240000 = 0 := by
  rw [wholeMinutes, List.mem_map]
  simp only [List.mem_range, Config.minute]
  constructor
  · rintro ⟨j, hj, rfl⟩
    omega
  · rintro ⟨hlt, hm⟩
    exact ⟨m / 240000, by omega, by omega⟩

/-- An entry that a forward step counts missed (R163). -/
theorem missedEntries_iff (new : Nat) (s : State) (i : Fin 24) :
    missedEntries s.time.tower (decide (s.time.validity = .set)) (queueStepped new s) i = true ↔ s.time.validity = .set ∧
      0 < dist (stepTime new s).time.tower s.time.tower ∧ ∃ m, m < 2419200000 ∧ m % 240000 = 0 ∧
        StepPassed s (stepTime new s) m ∧ matchesMinute s.calendar.entries[i] m = true ∧
        s.calendar.entries[i].lastFired ≠ some m := by
  have hcalendar : (queueStepped new s).calendar = s.calendar := queueStepped_unchanged new s .calendar (by decide)
  have hsettings : (queueStepped new s).settings = s.settings := queueStepped_unchanged new s .settings (by decide)
  have htower := queueStepped_tower new s
  rw [missedEntries, hcalendar, Bool.and_eq_true, Bool.and_eq_true, decide_eq_true_iff, decide_eq_true_iff, and_assoc, htower]
  refine and_congr_right fun _ => and_congr_right fun hforward => ?_
  rw [missedByStep, List.any_eq_true]
  refine exists_congr fun m => ?_
  have hpassed := stepPasses_iff (s := s) (t := stepTime new s) (by rw [hsettings]) htower m
  rw [stepPasses, htower, if_pos hforward] at hpassed
  rw [mem_wholeMinutes, Bool.and_eq_true, Bool.and_eq_true, decide_eq_true_iff, hpassed]
  simp only [and_assoc]

theorem calendarMetStep (new : Nat) (s : State) : CalendarMetStep s (stepTime new s) := by
  obtain ⟨hcalendar, hcounters⟩ := stepTime_calendar new s
  have hsettings : (queueStepped new s).settings = s.settings := queueStepped_unchanged new s .settings (by decide)
  have hpasses (m : Nat) : stepPasses s.time.tower (queueStepped new s) m = true ↔ StepPassed s (stepTime new s) m :=
    stepPasses_iff (by rw [hsettings]) (queueStepped_tower new s) m
  have hfilter (l : List Nat) (m : Nat) :
      m ∈ l.filter (fun m => !stepPasses s.time.tower (queueStepped new s) m) ↔ m ∈ l ∧ ¬StepPassed s (stepTime new s) m := by
    rw [List.mem_filter, ← hpasses m, Bool.not_eq_true', Bool.not_eq_true]
  refine ⟨fun missed hnodup hmissed => ?_, ?_, ?_, ?_, ?_, ?_, fun m => ?_, fun m => ?_⟩
  · have hperm : missed.Perm (allEntries.filter
        (missedEntries s.time.tower (decide (s.time.validity = .set)) (queueStepped new s))) := by
      refine (List.perm_ext_iff_of_nodup hnodup (List.Nodup.filter _ ?_)).mpr fun i => ?_
      · rw [allEntries_eq]
        exact List.nodup_finRange 24
      · rw [List.mem_filter, missedEntries_iff, hmissed i, allEntries_eq]
        exact (and_iff_right (List.mem_finRange i)).symm
    rw [hcounters .missedTime (by decide), missedCounted, foldl_raise_readCounter,
      queueStepped_readCounter new s (by decide), ← hperm.length_eq]
    refine ⟨fun hnil => if_pos ?_, fun hne => if_neg fun hnil => hne ?_⟩
    · exact (hnil ▸ hperm).nil_eq.symm
    · exact (hnil ▸ hperm).eq_nil
  · rw [hcounters .cuesFired (by decide), missedCounted, foldl_raise_other _ _ (by decide)]
    exact queueStepped_readCounter new s (by decide)
  · rw [hcounters .missedQuiet (by decide), missedCounted, foldl_raise_other _ _ (by decide)]
    exact queueStepped_readCounter new s (by decide)
  · rw [hcalendar]; rfl
  · rw [hcalendar]; rfl
  · rw [hcalendar]; rfl
  · rw [hcalendar]; exact hfilter _ m
  · rw [hcalendar]; exact hfilter _ m

end

end Sys2Proof.Machine
end

