-- ==== Sys2Proof/Proofs/DamperStep.lean ====
section
/-! The dampers meet a step of tower time (R14, R15, R17, R67). -/

namespace Sys2Proof.Machine

-- One proof after another: many at once would ask for more threads than the memory limit allows.
set_option Elab.async false

section
variable {s t : State} {j k : Fin 8} {at_ : Nat}

/-! ### One damper -/

/-- A channel as its damper meets the step: the drop that is due, then the lift. -/
def damperMet (s : State) (k : Fin 8) : Channel :=
  match dropDue s k with
  | some d => { s.channels[k] with drop := none, damperUp := (dropSkipped s k d && s.channels[k].damperUp) || lifts s k }
  | none => { s.channels[k] with damperUp := s.channels[k].damperUp || lifts s k }

theorem dropDamper_channels (hdue : dropDue s k = some at_) : (dropDamper k s).channels = (dropped k at_ s).channels := by
  have h := congrArg State.channels (drainCheck_dropDamper hdue)
  rwa [drainCheck_channels, drainCheck_channels] at h

theorem dropDamper_of_none (h : dropDue s k = none) : dropDamper k s = s := by
  rw [dropDamper, h]

theorem dropDamper_own (k : Fin 8) (s : State) : (dropDamper k s).channels[k].voicing.damped = s.channels[k].voicing.damped := by
  cases hdue : dropDue s k with
  | none => rw [dropDamper_of_none hdue]
  | some d => rw [dropDamper_channels hdue, dropped, updChannel_channel, if_pos rfl]

theorem dropDamper_lifts (k : Fin 8) (s : State) : lifts (dropDamper k s) k = lifts s k := by
  have hu := dropDamper_unchanged k s
  refine lifts_congr (hu .straps (by decide)) (hu .pins (by decide)) (hu .queue (by decide)) ?_ (dropDamper_own k s)
  rw [hu .time (by decide)]

theorem stepDamper_own (k : Fin 8) (s : State) : (stepDamper k s).channels[k] = damperMet s k := by
  rw [stepDamper, tryLift_channel, dropDamper_lifts, decide_eq_true rfl, Bool.true_and]
  unfold damperMet
  cases hdue : dropDue s k with
  | none => rw [dropDamper_of_none hdue]
  | some d =>
    rw [dropDamper_channels hdue, dropped, updChannel_channel, if_pos rfl]
    cases hskip : dropSkipped s k d with
    | true => simp only [hskip, if_true, Bool.true_and]
    | false => simp only [hskip, Bool.false_eq_true, if_false, Bool.false_and, Bool.false_or, Bool.or_self]

theorem stepDamper_other (hj : j ≠ k) (s : State) : (stepDamper k s).channels[j] = s.channels[j] := by
  have hdrop : (dropDamper k s).channels[j] = s.channels[j] := by
    cases hdue : dropDue s k with
    | none => rw [dropDamper_of_none hdue]
    | some d => rw [dropDamper_channels hdue, dropped, updChannel_channel, if_neg hj]
  rw [stepDamper, tryLift_channel, decide_eq_false hj, Bool.false_and, Bool.or_false, hdrop]

/-! ### All dampers -/

theorem damperMet_congr (hu : Unchanged [.channels, .drive] s t) (hchannel : t.channels[k] = s.channels[k]) :
    damperMet t k = damperMet s k := by
  have hqueue : t.queue = s.queue := hu .queue (by decide)
  have htower : t.time.tower = s.time.tower := by rw [hu .time (by decide)]
  have hlifts : lifts t k = lifts s k :=
    lifts_congr (hu .straps (by decide)) (hu .pins (by decide)) hqueue htower (by rw [hchannel])
  have hskipped (d : Nat) : dropSkipped t k d = dropSkipped s k d := by
    rw [dropSkipped, dropSkipped, entriesOn, entriesOn, hqueue, hchannel]
  have hdue : dropDue t k = dropDue s k := by
    rw [dropDue, dropDue, hchannel, htower]
  simp only [damperMet, hdue, hchannel, hlifts, hskipped]

theorem stepDampers_channel (l : List (Fin 8)) (hl : l.Nodup) (s : State) (j : Fin 8) :
    (l.foldl (fun t k => stepDamper k t) s).channels[j] = if j ∈ l then damperMet s j else s.channels[j] := by
  induction l generalizing s with
  | nil => rfl
  | cons k l ih =>
    obtain ⟨hk, hnodup⟩ := List.nodup_cons.mp hl
    rw [List.foldl_cons, ih hnodup]
    by_cases hj : j = k
    · subst hj
      rw [if_neg hk, if_pos List.mem_cons_self]
      exact stepDamper_own j s
    · rw [damperMet_congr (stepDamper_unchanged k s) (stepDamper_other hj s), stepDamper_other hj]
      simp [hj]

theorem dampersStepped_channel (new : Nat) (s : State) (k : Fin 8) :
    (stepTime new s).channels[k] = damperMet (calendarStepped new s) k := by
  have hgates : (stepTime new s).channels = (dampersStepped new s).channels := gatesStepped_unchanged new s .channels (by decide)
  rw [hgates]
  exact (stepDampers_channel allChannels (by decide) (calendarStepped new s) k).trans (if_pos (allChannels_complete k))

/-! ### What the queue leaves of a channel of which every entry waits -/

/-- The state in which the queue meets the step. -/
def stepStarted (new : Nat) (s : State) : State := startTimeStep (clockStepped new s)

theorem stepStarted_unchanged (new : Nat) (s : State) : Unchanged [.time, .silence, .trace] s (stepStarted new s) :=
  (clockStepped_unchanged new s).widen.andThen (startTimeStep_unchanged _)

theorem queueStepped_eq (new : Nat) (s : State) : queueStepped new s = stepQueue (stepStarted new s) := rfl

theorem stepStarted_tower (new : Nat) (s : State) : (stepStarted new s).time.tower = (stepTime new s).time.tower := by
  rw [stepStarted, startTimeStep_time, stepTime_time]
  rfl

theorem waiting_stays {e : Entry} (h : atOrBefore e.launch s.time.tower = false) : Stays s e := by
  refine ⟨Bool.eq_false_iff.mpr fun hpassed => ?_, fun hat => ?_⟩
  · exact absurd ((atOrBefore_of_passed hpassed).symm.trans h) (by decide)
  · exact absurd (hat.symm.trans h) (by decide)

theorem stepQueue_dropSkipped (h : ∀ e ∈ s.queue, e.channel = k → atOrBefore e.launch s.time.tower = false)
    (hchannel : (stepQueue s).channels[k] = s.channels[k]) (d : Nat) : dropSkipped (stepQueue s) k d = dropSkipped s k d := by
  rw [Bool.eq_iff_iff, dropSkipped_iff, dropSkipped_iff, hchannel]
  constructor
  · rintro ⟨x, hx, hxk, hlift⟩
    obtain ⟨e, he, hex⟩ := stepQueue_copies s x hx
    rw [hex] at hxk hlift
    exact ⟨e, he, hxk, hlift⟩
  · rintro ⟨e, he, hek, hlift⟩
    exact ⟨_, stepQueue_present he (waiting_stays (h e he hek)), hek, hlift⟩

/-! ### The dampers at a step -/

theorem damperMet_due (hdue : dropDue s k = some at_) : damperMet s k = { s.channels[k] with
    drop := none, damperUp := (dropSkipped s k at_ && s.channels[k].damperUp) || lifts s k } := by
  rw [damperMet, hdue]

theorem damperMet_none (hdue : dropDue s k = none) :
    damperMet s k = { s.channels[k] with damperUp := s.channels[k].damperUp || lifts s k } := by
  rw [damperMet, hdue]

theorem dropDue_none (h : ∀ d, s.channels[k].voicing.damped = true → s.channels[k].drop = some d →
    reached s.time.tower d = false) : dropDue s k = none := by
  unfold dropDue
  split
  next d hd =>
    refine if_neg fun ⟨hdamped, hreached⟩ => ?_
    exact absurd (hreached.symm.trans (h d hdamped hd)) (by decide)
  · rfl

theorem damperMet_drop (hdamped : (damperMet s k).voicing.damped = true) (hdrop : (damperMet s k).drop = some at_) :
    reached s.time.tower at_ = false := by
  cases hdue : dropDue s k with
  | some d =>
    rw [damperMet_due hdue] at hdrop
    cases hdrop
  | none =>
    rw [damperMet_none hdue] at hdamped hdrop
    refine Bool.eq_false_iff.mpr fun hreached => ?_
    rw [dropDue_of hdamped hdrop hreached] at hdue
    cases hdue

theorem damperMet_lifts (h : lifts s k = true) : (damperMet s k).damperUp = true := by
  cases hdue : dropDue s k with
  | some d => rw [damperMet_due hdue, h]; exact Bool.or_true _
  | none => rw [damperMet_none hdue, h]; exact Bool.or_true _

theorem damperMet_damped (s : State) (k : Fin 8) : (damperMet s k).voicing.damped = s.channels[k].voicing.damped := by
  cases hdue : dropDue s k with
  | some d => rw [damperMet_due hdue]
  | none => rw [damperMet_none hdue]

theorem dampersMetStep (new : Nat) (s : State) : DampersMetStep s (stepTime new s) := by
  have hfinal := dampersStepped_channel new s
  have hbefore : Unchanged [.time, .silence, .trace, .queue, .counters, .floor, .channels, .drive, .calendar] s
      (calendarStepped new s) := (queueStepped_unchanged new s).widen.andThen (calendarStepped_unchanged new s)
  have hcalendar := calendarStepped_unchanged new s
  have htower : (calendarStepped new s).time.tower = (stepTime new s).time.tower := by
    rw [hcalendar .time (by decide), queueStepped_tower]
  have hqueue : (calendarStepped new s).queue = (stepTime new s).queue := by
    rw [gatesStepped_unchanged new s .queue (by decide), dampersStepped_unchanged new s .queue (by decide)]
  have hlift (k : Fin 8) : lifts (calendarStepped new s) k = (isPresent s k && (calendarStepped new s).channels[k].voicing.damped &&
      !s.pins.access && liftReached (stepTime new s) k) := by
    rw [lifts, isPresent_congr (hbefore .straps (by decide)), hbefore .pins (by decide),
      liftReached_congr (s := stepTime new s) hqueue htower]
  have hstartedTower := stepStarted_tower new s
  generalize stepTime new s = t at *
  refine ⟨fun k d hdamped hdrop => ?_, fun k hpresent hdamped haccess hreached => ?_, fun k hwait => ?_⟩
  · rw [hfinal k] at hdamped hdrop
    exact htower ▸ damperMet_drop hdamped hdrop
  · rw [hfinal k] at hdamped ⊢
    rw [damperMet_damped] at hdamped
    refine damperMet_lifts ?_
    rw [hlift k, hpresent, hdamped, haccess, hreached]
    rfl
  · have hstarted := stepStarted_unchanged new s
    have hstartedQueue : (stepStarted new s).queue = s.queue := hstarted .queue (by decide)
    have hstartedChannels : (stepStarted new s).channels = s.channels := hstarted .channels (by decide)
    have hwait' : ∀ e ∈ (stepStarted new s).queue, e.channel = k →
        atOrBefore e.launch (stepStarted new s).time.tower = false := by
      rw [hstartedQueue, hstartedTower]
      exact hwait
    have hkept : (stepQueue (stepStarted new s)).channels[k] = (stepStarted new s).channels[k] := stepped_channel _ _ hwait'
    have hchannel : (calendarStepped new s).channels[k] = s.channels[k] := by
      rw [hcalendar .channels (by decide), queueStepped_eq, hkept, hstartedChannels]
    have hskipped (d : Nat) : dropSkipped (calendarStepped new s) k d = dropSkipped s k d := by
      have hqueueStep : dropSkipped (calendarStepped new s) k d = dropSkipped (queueStepped new s) k d := by
        rw [dropSkipped, dropSkipped, entriesOn, entriesOn, hcalendar .queue (by decide), hcalendar .channels (by decide)]
      rw [hqueueStep, queueStepped_eq, stepQueue_dropSkipped hwait' hkept, dropSkipped, dropSkipped, entriesOn, entriesOn,
        hstartedQueue, hstartedChannels]
    refine ⟨fun d hdamped hdrop hreached => ?_, fun hnone => ?_⟩
    · rw [hfinal k, damperMet_due (dropDue_of (by rw [hchannel]; exact hdamped) (by rw [hchannel]; exact hdrop)
        (by rw [htower]; exact hreached)), hlift k, hchannel, hskipped d, hdamped, Bool.and_true]
    · rw [hfinal k, damperMet_none (dropDue_none (by rw [hchannel, htower]; exact hnone)), hlift k, hchannel]

end

end Sys2Proof.Machine
end

