-- ==== Sys2Proof/Proofs/SettingTheTime.lean ====
section
/-! A step of tower time in full, and SET_TIME (R61, R67, R69, R70, R79). -/

namespace Sys2Proof.Machine

-- One proof after another: many at once would ask for more threads than the memory limit allows.
set_option Elab.async false

section
variable {s t v : State} {k : Fin 8} {e x : Entry} {was : Validity}

/-! ### What every step does (R67) -/

theorem stepEntry_condsKept (e : Entry) (s : State) : CondsKept s (stepEntry e s) := by
  have hfate := stepEntry_fate e s
  generalize stepEntry e s = t at hfate
  cases hfate with
  | gone => exact .refl s
  | passed => exact removeEntry_condsKept _ e s
  | launched => exact launchEntry_condsKept e s
  | held => exact .of_unchanged (holdEntry_unchanged e s)
  | released => exact .of_unchanged (releaseEntry_unchanged e s)

theorem stepped_condsKept (l : List Entry) (s : State) : CondsKept s (stepped l s) := by
  induction l generalizing s with
  | nil => exact .refl s
  | cons e l ih => exact (stepEntry_condsKept e s).trans (ih _)

/-- What a step changes after the queue has met it. -/
theorem queueStepped_after (new : Nat) (s : State) :
    Unchanged [.counters, .calendar, .channels, .drive, .line, .conductor, .service, .library] (queueStepped new s)
      (stepTime new s) :=
  ((calendarStepped_unchanged new s).widen.andThen (dampersStepped_unchanged new s)).andThen (gatesStepped_unchanged new s)

theorem stepTime_condition (new : Nat) (s : State) : hasCondition (stepTime new s).silence.conds .timeStep = true := by
  rw [queueStepped_after new s .silence (by decide), queueStepped_eq, stepQueue_eq, (stepped_condsKept _ _).1, stepStarted,
    startTimeStep, assertCond_has]
  rfl

theorem stepMet (new : Nat) (s : State) : StepMet s (stepTime new s) := by
  have htime := stepTime_time new s
  refine ⟨?_, ?_, ?_, ?_, ?_, ?_, ?_, stepTime_condition new s, calendarMetStep new s, dampersMetStep new s,
    gatesMetStep new s, stepTime_unchanged new s⟩ <;> rw [htime]

/-! ### The queue after a step, in the terms of the state before it (R61) -/

theorem stepTime_queue (new : Nat) (s : State) : (stepTime new s).queue = (stepQueue (stepStarted new s)).queue :=
  queueStepped_after new s .queue (by decide)

theorem stepTime_passedBy (new : Nat) (s : State) (e : Entry) :
    passedBy (stepTime new s) e = passedBy (stepStarted new s) e := by
  refine passedBy_congr (stepStarted_tower new s).symm ?_ e
  rw [stepTime_unchanged new s .settings (by decide), stepStarted_unchanged new s .settings (by decide)]

theorem stepStarted_channelState (new : Nat) (s : State) (k : Fin 8) : channelState (stepStarted new s) k = channelState s k :=
  have hu := stepStarted_unchanged new s
  channelState_congr (hu .straps (by decide)) (hu .channels (by decide)) (hu .halted (by decide)) k

theorem stepQueue_channelState (s : State) (k : Fin 8) : channelState (stepQueue s) k = channelState s k :=
  channelState_of_flags (stepQueue_unchanged s .straps (by decide)) (stepQueue_unchanged s .halted (by decide))
    ((stepQueue_moves s).detail .conflict rfl k)

theorem damperMet_stroke (s : State) (k : Fin 8) : (damperMet s k).hammer = s.channels[k].hammer ∧
    (damperMet s k).lastFired = s.channels[k].lastFired := by
  cases hdue : dropDue s k with
  | some d => rw [damperMet_due hdue]; exact ⟨rfl, rfl⟩
  | none => rw [damperMet_none hdue]; exact ⟨rfl, rfl⟩

theorem stepTime_isClear (new : Nat) (s : State) (k : Fin 8) :
    isClear (stepTime new s) k = isClear (stepQueue (stepStarted new s)) k := by
  obtain ⟨hhammer, hfired⟩ := damperMet_stroke (calendarStepped new s) k
  have hchannels : (calendarStepped new s).channels = (queueStepped new s).channels :=
    calendarStepped_unchanged new s .channels (by decide)
  rw [← dampersStepped_channel new s k, hchannels] at hhammer hfired
  exact isClear_of_stroke (queueStepped_tower new s).symm hhammer hfired

/-- The tower time of a step, before its effects. -/
theorem stepStarted_isClear {new : Nat} {r : State} (htower : t.time.tower = (stepTime new r).time.tower)
    (hchannels : t.channels = r.channels) (k : Fin 8) : isClear (stepStarted new r) k = isClear t k := by
  have hstarted : (stepStarted new r).channels = t.channels :=
    (stepStarted_unchanged new r .channels (by decide)).trans hchannels.symm
  refine isClear_of_stroke ((stepStarted_tower new r).trans htower.symm) ?_ ?_ <;> rw [hstarted]

/-! ### What follows a step to the time of SET_TIME (R79) -/

/-- The time is SET, and LOCKED is ACQUIRING. -/
def timeSet (v : State) : State := if (setValid v).time.lock = .locked then setLock .acquiring (setValid v) else setValid v

/-- SET_TIME after its step. -/
def afterSet (was : Validity) (v : State) : State := rechooseIfSet was (timeSet v)

theorem timeSet_time (v : State) : (timeSet v).time = { v.time with
    validity := .set, lock := if v.time.lock = .locked then .acquiring else v.time.lock } := by
  have hlock : (setValid v).time.lock = v.time.lock := rfl
  unfold timeSet
  rw [hlock]
  by_cases h : v.time.lock = .locked
  · rw [if_pos h, if_pos h, setLock_time]
    rfl
  · rw [if_neg h, if_neg h]
    rfl

theorem timeSet_unchanged (v : State) : Unchanged [.time, .silence, .trace] v (timeSet v) :=
  .ite ((setValid_unchanged v).widen.andThen (setLock_unchanged _ _)) (setValid_unchanged v).widen

theorem afterSet_unchanged (was : Validity) (v : State) : Unchanged [.time, .silence, .trace] v (afterSet was v) :=
  (timeSet_unchanged v).andThen (.ite (rechoose_unchanged _) (.refl _ _))

theorem afterSet_cases (was : Validity) (v : State) : afterSet was v = timeSet v ∨ afterSet was v = rechoose (timeSet v) := by
  unfold afterSet rechooseIfSet
  split
  · exact .inr rfl
  · exact .inl rfl

theorem afterSet_choice (was : Validity) (v : State) : chooseReference (afterSet was v) = chooseReference (timeSet v) := by
  obtain h | h := afterSet_cases was v <;> rw [h]
  exact chooseReference_rechoose _

/-- SET_TIME keeps the node's reference, or adopts another. -/
theorem afterSet_adopts (was : Validity) (v : State) : afterSet was v = timeSet v ∨
    (was = .unset ∧ v.listen = none ∧ v.time.reference ≠ some (chooseReference (afterSet was v)) ∧
      afterSet was v = adoptChoice (chooseReference (afterSet was v)) (timeSet v)) := by
  have hlisten : (timeSet v).listen = v.listen := timeSet_unchanged v .listen (by decide)
  have href : (timeSet v).time.reference = v.time.reference := by rw [timeSet_time]
  rw [afterSet_choice]
  by_cases hwas : was = .unset
  · have hre : afterSet was v = rechoose (timeSet v) := if_pos hwas
    rw [hre]
    exact (rechoose_cases (timeSet v)).imp_right fun ⟨h1, h2, h3⟩ => ⟨hwas, hlisten ▸ h1, href ▸ h2, h3⟩
  · exact .inl (if_neg hwas)

theorem afterSet_kept (h : was = .set ∨ v.listen.isSome = true ∨ v.time.reference = some (chooseReference (afterSet was v))) :
    afterSet was v = timeSet v := by
  refine (afterSet_adopts was v).resolve_right fun ⟨hwas, hlisten, href, _⟩ => ?_
  obtain h | h | h := h
  · rw [hwas] at h
    cases h
  · rw [hlisten] at h
    cases h
  · exact href h

theorem afterSet_changed (hwas : was = .unset) (hlisten : v.listen = none)
    (href : v.time.reference ≠ some (chooseReference (afterSet was v))) :
    afterSet was v = adoptChoice (chooseReference (afterSet was v)) (timeSet v) := by
  have hchoice := afterSet_choice was v
  have hre : afterSet was v = rechoose (timeSet v) := if_pos hwas
  rw [hchoice] at href ⊢
  rw [hre]
  refine rechoose_of_changed ((timeSet_unchanged v .listen (by decide)).trans hlisten) ?_
  rw [timeSet_time]
  exact href

/-- What SET_TIME leaves of the clock that its step brought. -/
theorem afterSet_time (was : Validity) (hclose : v.time.close = 0) (hbase : v.time.beaconBase = none) :
    (afterSet was v).time = { v.time with
      validity := .set, lock := (afterSet was v).time.lock, reference := (afterSet was v).time.reference } := by
  obtain h | ⟨-, -, -, h⟩ := afterSet_adopts was v
  · rw [h, timeSet_time]
  · rw [h, adoptChoice_time, timeSet_time]
    simp [hclose, hbase]

theorem setLock_has (l : LockState) (s : State) {c : Condition} (hc : c ≠ .timeUnlocked) :
    hasCondition (setLock l s).silence.conds c = hasCondition s.silence.conds c := by
  simp only [setLock]
  split
  · rw [assertCond_has, decide_eq_false hc, Bool.false_or]
  · rw [clearCond_has, decide_eq_true hc, Bool.true_and]

theorem afterSet_has (was : Validity) (v : State) {c : Condition} (hc : c ≠ .timeUnlocked) :
    hasCondition (afterSet was v).silence.conds c = hasCondition v.silence.conds c := by
  have hset : hasCondition (timeSet v).silence.conds c = hasCondition v.silence.conds c := by
    unfold timeSet
    split
    · exact setLock_has _ _ hc
    · rfl
  obtain h | ⟨-, -, -, h⟩ := afterSet_adopts was v <;> rw [h]
  · exact hset
  · exact (setLock_has _ _ hc).trans hset

theorem timeSet_silence (v : State) : (v.time.lock ≠ .locked ∧ SameSilence v (timeSet v)) ∨
    ((timeSet v).time.lock = .acquiring ∧ SameSilence (setLock .acquiring v) (timeSet v)) := by
  by_cases h : v.time.lock = .locked
  · right
    refine ⟨by rw [timeSet_time, if_pos h], ?_⟩
    have hset : timeSet v = setLock .acquiring (setValid v) := if_pos h
    rw [hset]
    exact setLock_congr _ (.of_unchanged (setValid_unchanged v))
  · have hset : timeSet v = setValid v := if_neg h
    rw [hset]
    exact .inl ⟨h, rfl, rfl⟩

theorem afterSet_silence (was : Validity) (v : State) : SameSilence v (afterSet was v) ∨
    SameSilence (setLock (afterSet was v).time.lock v) (afterSet was v) ∨
    SameSilence (setLock (afterSet was v).time.lock (setLock .acquiring v)) (afterSet was v) := by
  obtain h | ⟨-, -, -, h⟩ := afterSet_adopts was v
  · rw [h]
    obtain ⟨-, hsame⟩ | ⟨hlock, hset⟩ := timeSet_silence v
    · exact .inl hsame
    · exact .inr (.inl (hlock ▸ hset))
  · have hadopted : SameSilence (setLock (afterSet was v).time.lock (timeSet v)) (afterSet was v) := by
      rw [h, adoptChoice_lock]
      exact adoptChoice_silence _ _
    obtain ⟨-, hsame⟩ | ⟨-, hset⟩ := timeSet_silence v
    · exact .inr (.inl ((setLock_congr _ (hsame.moves (timeSet_unchanged v))).trans hadopted))
    · have hlock := setLock_unchanged .acquiring v
      have hu := timeSet_unchanged v
      refine .inr (.inr ((setLock_congr _ ⟨hset.1, hset.2, ?_, ?_⟩).trans hadopted))
      · exact (hu .settings (by decide)).trans (hlock .settings (by decide)).symm
      · exact (hu .queue (by decide)).trans (hlock .queue (by decide)).symm

/-! ### SET_TIME (R79) -/

/-- The tower time that SET_TIME steps to, before its reduction into the week. -/
def timeTarget (x : Nat) (c : LocalCount) (s : State) : Nat :=
  if s.time.lock = .sourced then samePhase s.time.tower (plus x (ticksSince s.time.count c)) else plus x (ticksSince s.time.count c)

theorem takeSetTime_eq (x : Nat) (c : LocalCount) (s : State) :
    takeSetTime x c s = afterSet s.time.validity (stepTime (timeTarget x c s) s) := by
  unfold takeSetTime
  dsimp only
  rw [← timeTarget]
  generalize stepTime (timeTarget x c s) s = v
  rfl

/-- The state after SET_TIME to a tower time y, from the state that has acknowledged it. -/
def setTo (y : Nat) (r : State) : State := afterSet r.time.validity (stepTime y r)

theorem setTo_unchanged (y : Nat) (r : State) : Unchanged timeStepped r (setTo y r) :=
  (stepTime_unchanged y r).andThen (afterSet_unchanged _ _)

theorem setTo_after (y : Nat) (r : State) : Unchanged [.time, .silence, .trace] (stepTime y r) (setTo y r) := afterSet_unchanged _ _

theorem setTo_time (y : Nat) (r : State) : (setTo y r).time = { r.time with
    tower := y % Config.week
    slew := 0
    close := 0
    beaconBase := none
    markBase := none
    stepAt := some r.time.count
    validity := .set
    lock := (setTo y r).time.lock
    reference := (setTo y r).time.reference } := by
  have hstep := stepTime_time y r
  refine (afterSet_time r.time.validity (v := stepTime y r) ?_ ?_).trans ?_
  · rw [hstep]
  · rw [hstep]
  · rw [hstep]
    rfl

theorem setTo_tower (y : Nat) (r : State) : (setTo y r).time.tower = (stepTime y r).time.tower := by
  rw [setTo_time, stepTime_time]

theorem setTo_kept {y : Nat} {r : State} (h : r.time.validity = .set ∨ r.listen.isSome = true ∨
      r.time.reference = some (chooseReference (setTo y r))) : (setTo y r).time.reference = r.time.reference ∧
    (setTo y r).time.lock = if r.time.lock = .locked then .acquiring else r.time.lock := by
  have hstep := stepTime_time y r
  have hlisten : (stepTime y r).listen = r.listen := stepTime_unchanged y r .listen (by decide)
  have hreference : (stepTime y r).time.reference = r.time.reference := by rw [hstep]
  have hkept : setTo y r = timeSet (stepTime y r) := afterSet_kept (by rw [hlisten, hreference]; exact h)
  rw [hkept, timeSet_time, hstep]
  exact ⟨rfl, rfl⟩

theorem lockForChoice_eq (s : State) (l : LockState) (c : Fin 16) : lockForChoice s l c = if l = .sourced then .sourced
    else if c = s.straps.station then .reference
    else if l = .reference then (if s.time.validity = .set then .locked else .acquiring) else l := by
  cases l <;> simp [lockForChoice]

theorem setTo_changed {y : Nat} {r : State} (hunset : r.time.validity = .unset) (hlisten : r.listen = none)
    (href : r.time.reference ≠ some (chooseReference (setTo y r))) :
    (setTo y r).time.reference = some (chooseReference (setTo y r)) ∧
    (setTo y r).time.lock = if r.time.lock = .sourced then .sourced
      else if chooseReference (setTo y r) = r.straps.station then .reference
      else if r.time.lock = .reference then .locked else .acquiring := by
  have hstep := stepTime_time y r
  have hreference : (stepTime y r).time.reference = r.time.reference := by rw [hstep]
  have hstraps : (timeSet (stepTime y r)).straps = r.straps :=
    (timeSet_unchanged _ .straps (by decide)).trans (stepTime_unchanged y r .straps (by decide))
  have hadopted := afterSet_changed hunset ((stepTime_unchanged y r .listen (by decide)).trans hlisten)
    fun h => href (hreference.symm.trans h)
  rw [← setTo] at hadopted
  generalize chooseReference (setTo y r) = c at *
  rw [hadopted, adoptChoice_time]
  refine ⟨rfl, ?_⟩
  rw [timeSet_time, hstep]
  refine (lockForChoice_eq _ _ c).trans ?_
  rw [hstraps, timeSet_time]
  cases r.time.lock <;> rfl

theorem setTo_passedBy (y : Nat) (r : State) (e : Entry) : passedBy (setTo y r) e = passedBy (stepStarted y r) e := by
  rw [← stepTime_passedBy]
  exact passedBy_congr (setTo_tower y r) (setTo_after y r .settings (by decide)) e

theorem setTo_queue (y : Nat) (r : State) : (setTo y r).queue = (stepQueue (stepStarted y r)).queue :=
  (setTo_after y r .queue (by decide)).trans (stepTime_queue y r)

theorem setTo_isClear (y : Nat) (r : State) (k : Fin 8) :
    isClear (setTo y r) k = isClear (stepQueue (stepStarted y r)) k := by
  rw [← stepTime_isClear]
  refine isClear_of_stroke (setTo_tower y r) ?_ ?_ <;> rw [setTo_after y r .channels (by decide)]

theorem setTo_started (y : Nat) (r : State) (k : Fin 8) :
    isClear (stepStarted y r) k = isClear { r with time := (setTo y r).time } k :=
  stepStarted_isClear (t := { r with time := (setTo y r).time }) (setTo_tower y r) rfl k

theorem stepStarted_queue (y : Nat) (r : State) : (stepStarted y r).queue = r.queue :=
  stepStarted_unchanged y r .queue (by decide)

theorem setTo_startedTower (y : Nat) (r : State) : (stepStarted y r).time.tower = (setTo y r).time.tower := by
  rw [stepStarted_tower, setTo_tower]

/-- Whether an entry stays, in the terms of SET_TIME's result. -/
theorem stays_started_iff (y : Nat) (r : State) (e : Entry) : Stays (stepStarted y r) e ↔ passedBy (setTo y r) e = false ∧
    (atOrBefore e.launch (setTo y r).time.tower = true → channelState r e.channel = .run ∧
      isClear { r with time := (setTo y r).time } e.channel = false) := by
  rw [Stays, ← setTo_passedBy, setTo_startedTower, stepStarted_channelState, setTo_started]

theorem setTo_left {y : Nat} {r : State} (hx : x ∈ (setTo y r).queue) : ∃ e ∈ r.queue, passedBy (setTo y r) e = false ∧
    x = markedAs (atOrBefore e.launch (setTo y r).time.tower) e ∧
    (atOrBefore e.launch (setTo y r).time.tower = true →
      channelState r e.channel = .run ∧ isClear (setTo y r) e.channel = false) := by
  rw [setTo_queue] at hx
  obtain ⟨⟨hnot, hheld⟩, hmark⟩ := stays_of_mem_stepQueue hx
  obtain ⟨e, he, hxe⟩ := stepQueue_copies _ x hx
  have htower : (stepQueue (stepStarted y r)).time.tower = (setTo y r).time.tower := by
    rw [stepQueue_unchanged _ .time (by decide), setTo_startedTower]
  have hpassed : passedBy (stepQueue (stepStarted y r)) e = passedBy (stepStarted y r) e := stepped_passedBy _ _ e
  rw [htower] at hheld hmark
  rw [hxe] at hnot hheld
  change passedBy (stepQueue (stepStarted y r)) e = false at hnot
  rw [hpassed, ← setTo_passedBy] at hnot
  have hlaunch : x.launch = e.launch := by rw [hxe]; rfl
  rw [hlaunch] at hmark
  rw [stepStarted_queue] at he
  refine ⟨e, he, hnot, by rw [← hmark]; exact hxe, fun hat => ?_⟩
  obtain ⟨hrun, hbusy⟩ := hheld hat
  rw [setTo_isClear]
  exact ⟨((stepQueue_channelState _ _).trans (stepStarted_channelState y r _)).symm.trans hrun, hbusy⟩

theorem setTo_stays {y : Nat} {r : State} (he : e ∈ r.queue) (h : Stays (stepStarted y r) e) :
    markedAs (atOrBefore e.launch (setTo y r).time.tower) e ∈ (setTo y r).queue := by
  have hmem := stepQueue_present (by rw [stepStarted_queue]; exact he) h
  have htower : (stepQueue (stepStarted y r)).time.tower = (setTo y r).time.tower := by
    rw [stepQueue_unchanged _ .time (by decide), setTo_startedTower]
  rw [stepMark, htower, ← setTo_queue] at hmem
  exact hmem

/-- Of one entry among others with other admission numbers. -/
theorem setTo_single {y : Nat} {r : State} {pre post : List Entry} (hqueue : r.queue = pre ++ e :: post)
    (hother : ∀ x ∈ pre ++ post, x.admission ≠ e.admission)
    (hpre : ∀ x ∈ pre, x.channel = e.channel → passedBy (setTo y r) x = true ∨
      atOrBefore x.launch (setTo y r).time.tower = false) :
    (∃ x ∈ (setTo y r).queue, x.admission = e.admission) ↔ passedBy (setTo y r) e = false ∧
      (atOrBefore e.launch (setTo y r).time.tower = true → channelState r e.channel = .run ∧
        isClear { r with time := (setTo y r).time } e.channel = false) := by
  have he : e ∈ r.queue := hqueue ▸ List.mem_append_right pre List.mem_cons_self
  constructor
  · rintro ⟨x, hx, hadm⟩
    obtain ⟨e0, he0, hnot, hxe, hheld⟩ := setTo_left hx
    have hsame : e0 = e := by
      have hadm0 : e0.admission = e.admission := by rw [← hadm, hxe]; rfl
      rw [hqueue, List.mem_append, List.mem_cons] at he0
      obtain hmem | rfl | hmem := he0
      · exact absurd hadm0 (hother e0 (List.mem_append_left _ hmem))
      · rfl
      · exact absurd hadm0 (hother e0 (List.mem_append_right _ hmem))
    subst hsame
    refine ⟨hnot, fun hat => ⟨(hheld hat).1, Bool.eq_false_iff.mpr fun hclear => ?_⟩⟩
    rw [← setTo_started] at hclear
    refine stepQueue_launches (s := stepStarted y r) ((stepStarted_queue y r).trans hqueue) hother (fun z hz hk => ?_) ?_
      (fun _ => hclear) x ?_ hadm
    · rw [← setTo_passedBy, setTo_startedTower]
      exact hpre z hz hk
    · rw [setTo_startedTower]
      exact hat
    · rw [← setTo_queue]
      exact hx
  · intro h
    exact ⟨_, setTo_stays he ((stays_started_iff y r e).mpr h), rfl⟩

end

theorem exec_setTime_refused {h : Service} {x : BitVec 32} {s : State} (hp : s.powered = true) (hx : 2419200000 ≤ x.toNat) :
    exec (.setTime h x) s = .next (reply h 0 .range .none (acknowledge s)) :=
  (act_of_powered (serveSetTime h x) hp).trans (congrArg _ (if_pos hx))

theorem exec_setTime_taken {h : Service} {x : BitVec 32} {s : State} (hp : s.powered = true) (hx : x.toNat < 2419200000) :
    exec (.setTime h x) s = .next (reply h 0 .done .none
      (setTo (timeTarget x.toNat h.heard.stamp.count s) (acknowledge s))) := by
  refine (act_of_powered (serveSetTime h x) hp).trans (congrArg _ ((if_neg (not_le.mpr hx)).trans ?_))
  rw [takeSetTime_eq]
  rfl

theorem setTo_steppedBy (y : Nat) (s : State) :
    SteppedBy (setTo y (acknowledge s)).time.tower s.peers (acknowledge s) (setTo y (acknowledge s)) := by
  have htower : (setTo y (acknowledge s)).time.tower = y % Config.week := by rw [setTo_time]
  rw [htower]
  refine ⟨acknowledge s, .refl _ _, rfl, rfl, rfl, rfl, fun _ => rfl, ?_, ?_, ?_⟩
  · rw [if_pos ⟨rfl, rfl⟩]
    exact .refl _
  · rw [stepTime_mod]
    exact setTo_after y (acknowledge s)
  · rw [stepTime_mod]
    exact afterSet_silence _ _

/-! The clauses of the result, in the terms of the state before the acknowledge. -/

theorem setTo_waits {y : Nat} {s : State} {e : Entry} (he : e ∈ s.queue)
    (h : atOrBefore e.launch (setTo y (acknowledge s)).time.tower = false) :
    { e with held := false } ∈ (setTo y (acknowledge s)).queue := by
  have hmem := setTo_stays (y := y) (r := acknowledge s) he (waiting_stays (by rw [setTo_startedTower]; exact h))
  rw [h] at hmem
  exact hmem

theorem setTo_holds {y : Nat} {s : State} {e : Entry} (he : e ∈ s.queue)
    (hat : atOrBefore e.launch (setTo y (acknowledge s)).time.tower = true)
    (hnot : passedBy (setTo y (acknowledge s)) e = false) (hrun : channelState s e.channel = .run)
    (hbusy : isClear { s with time := (setTo y (acknowledge s)).time } e.channel = false) :
    { e with held := true } ∈ (setTo y (acknowledge s)).queue := by
  have hmem := setTo_stays (y := y) (r := acknowledge s) he
    ((stays_started_iff y (acknowledge s) e).mpr ⟨hnot, fun _ => ⟨hrun, hbusy⟩⟩)
  rw [hat] at hmem
  exact hmem

theorem stepTime_tower (new : Nat) (s : State) : (stepTime new s).time.tower = new % 2419200000 := by
  have hweek : Config.week = 2419200000 := rfl
  rw [← hweek, stepTime_time]

theorem setTo_condition (y : Nat) (r : State) : hasCondition (setTo y r).silence.conds .timeStep = true :=
  (afterSet_has _ _ (by decide)).trans (stepTime_condition y r)

/-- The fields of the clock that a SET_TIME fixes. -/
theorem setTo_clock (y : Nat) (r : State) : (setTo y r).time.tower = y % 2419200000 ∧ (setTo y r).time.validity = .set ∧
    (setTo y r).time.slew = 0 ∧ (setTo y r).time.close = 0 ∧ (setTo y r).time.beaconBase = none ∧
    (setTo y r).time.markBase = none ∧ (setTo y r).time.stepAt = some r.time.count ∧
    (setTo y r).time.count = r.time.count ∧ (setTo y r).time.trim = r.time.trim ∧
    (setTo y r).time.lastMark = r.time.lastMark := by
  have h := setTo_time y r
  refine ⟨(setTo_tower y r).trans (stepTime_tower y r), ?_, ?_, ?_, ?_, ?_, ?_, ?_, ?_, ?_⟩ <;> rw [h]

/-- Settles O10: the refusal, then the clock, the choice of reference and the queue after the step; what every step
does stands in `stepMet`. -/
theorem setTimeResult : Obligations.SetTimeResult := by
  refine ⟨fun h x s hp => ⟨exec_setTime_refused hp, fun hx => ⟨_, exec_setTime_taken hp hx, ?_⟩⟩,
    fun new s => ⟨stepTime_tower new s, stepMet new s⟩⟩
  rw [← timeTarget]
  generalize timeTarget x.toNat h.heard.stamp.count s = y
  obtain ⟨htower, hvalidity, hslew, hclose, hbeacon, hmark, hstep, hcount, htrim, hlast⟩ := setTo_clock y (acknowledge s)
  exact ⟨htower, hvalidity, hslew, hclose, hbeacon, hmark, hstep, hcount, htrim, hlast,
    setTo_kept (y := y) (r := acknowledge s), setTo_changed (y := y) (r := acknowledge s),
    setTo_condition y _, fun _ => setTo_left (y := y) (r := acknowledge s),
    fun _ he => ⟨setTo_waits he, setTo_holds he⟩,
    fun _ _ _ hqueue hother hpre => setTo_single (r := acknowledge s) hqueue hother hpre,
    fun e => passedBy_iff _ e, setTo_steppedBy y s, setTo_unchanged y (acknowledge s)⟩

end Sys2Proof.Machine
end
